-- ==== Sys2Proof/Word.lean ====
section
/-!
DEFINITION. The word types of the block and their plainest arithmetic (spec/00_scope.md R13): every value is an
unsigned bit vector of its stated width; there is no signed value anywhere.
-/
namespace Sys2Proof

/-- One byte on the Bus Transport port or in the data buffer (R13). -/
abbrev Byte := BitVec 8

/-- A 32-bit operand: a command argument, a sector index, a block count (R62, R73). -/
abbrev Word := BitVec 32

/-- A 48-bit Command Frame or returned value (R60, R36). -/
abbrev FrameWord := BitVec 48

/-- A 72-bit host request (R73). -/
abbrev ReqWord := BitVec 72

/-- One bit read from a truth value. -/
def bit (b : Bool) : BitVec 1 := BitVec.ofBool b

end Sys2Proof
end

