-- ==== Sys2Proof/Config.lean ====
section
/-!
DEFINITION. What is fixed before reset and never written (spec/00_scope.md R7, R9 to R12), and the free values.

`Config` is the parameter record; a state carries one (`State.cfg`), so that a claim over every state is a claim over
every configuration. The constants of R9 are definitions. The OPAQUE constants have no value in Lean: they stand for
what the spec leaves open (received bytes, tick answers, reads while busy, the OPEN parameters).
-/
namespace Sys2Proof

/-- The implementation parameters (R10, R11, R12), each under the spec's name. -/
structure Config where
  /-- `CRC7_POLY`, `CRC7_INIT` -/
  crc7Poly : BitVec 7
  crc7Init : BitVec 7
  /-- `CRC16_POLY`, `CRC16_INIT` -/
  crc16Poly : BitVec 16
  crc16Init : BitVec 16
  /-- `IDX_*`: the twelve command indices -/
  idxReset : BitVec 6
  idxOpcondMmc : BitVec 6
  idxIfcond : BitVec 6
  idxStop : BitVec 6
  idxBlklen : BitVec 6
  idxRd1 : BitVec 6
  idxRdm : BitVec 6
  idxWr1 : BitVec 6
  idxWrm : BitVec 6
  idxOpcondApp : BitVec 6
  idxApp : BitVec 6
  idxOcr : BitVec 6
  /-- `TOK_START`, `TOK_START_MW`, `TOK_START_MR`, `TOK_STOP` -/
  tokStart : Byte
  tokStartMw : Byte
  tokStartMr : Byte
  tokStop : Byte
  /-- `DR_ACCEPTED`, `DR_CRC`, `DR_WRITE` -/
  drAccepted : BitVec 4
  drCrc : BitVec 4
  drWrite : BitVec 4
  /-- `IFCOND_VHS`, `IFCOND_PATTERN` -/
  ifcondVhs : BitVec 4
  ifcondPattern : Byte
  /-- `OPCOND_ARG_V2`, `OPCOND_ARG_LEGACY` -/
  opcondArgV2 : Word
  opcondArgLegacy : Word
  /-- `OCR_MODE_BIT` -/
  ocrModeBit : Fin 32
  /-- `N_STUFF_STOPCMD`, `N_STUFF_STOPTOK` -/
  nStuffStopCmd : Nat
  nStuffStopTok : Nat
  /-- `N_RESP_POLL`, `N_POWERUP_BYTES` -/
  nRespPoll : Nat
  nPowerupBytes : Nat
  /-- `TICK_HZ`, `T_INIT`, `T_TOKEN`, `T_READY`, `T_PROGRAM`: ticks -/
  tickHz : Nat
  tInit : Nat
  tToken : Nat
  tReady : Nat
  tProgram : Nat
  /-- `BUF_BLOCKS`: capacity of the data buffer in 512-byte blocks -/
  bufBlocks : Nat
  deriving DecidableEq, Repr

namespace Config

/-- `IDLE_BYTE` (R9): sent whenever the block only wants to sample the line (R41). -/
def idleByte : Byte := 0xFF#8

/-- `N_SETTLE` (R9): idle bytes before the first command after selection. -/
def nSettle : Nat := 8

/-- `BLOCK_LEN` (R9): payload bytes of a Data Block. -/
def blockLen : Nat := 512

/-- FREE VALUE (log 4): the byte the card sends at exchange `i` once the state's script of answers has ended (R42). -/
opaque freeByte : Nat → Byte

/-- FREE VALUE (log 4): ticks that pass at exchange `i` beyond the one tick of log 6, once the script has ended (R44). -/
opaque freeTicks : Nat → Nat

/-- FREE VALUE (log 10): what the `i`-th move of the host reads when it reads while `busy = 1` (R250). -/
opaque freeHostRead : Nat → BitVec 48

/-- FREE VALUES (log 3): the OPEN parameters of R11, each one less than the parameter (they are positive). -/
opaque openTickHz : Nat
opaque openTToken : Nat
opaque openTReady : Nat
opaque openTProgram : Nat
opaque openBufBlocks : Nat

/-- The defaults of R10 and R12 (log 2: those of R12 are the spec's general knowledge, G1 to G9); the OPEN parameters
of R11 are free positive values (log 3). -/
def default : Config where
  crc7Poly := 0x09#7
  crc7Init := 0x00#7
  crc16Poly := 0x1021#16
  crc16Init := 0x0000#16
  idxReset := 0#6
  idxOpcondMmc := 1#6
  idxIfcond := 8#6
  idxStop := 12#6
  idxBlklen := 16#6
  idxRd1 := 17#6
  idxRdm := 18#6
  idxWr1 := 24#6
  idxWrm := 25#6
  idxOpcondApp := 41#6
  idxApp := 55#6
  idxOcr := 58#6
  tokStart := 0xFE#8
  tokStartMw := 0xFC#8
  tokStartMr := 0xFE#8
  tokStop := 0xFD#8
  drAccepted := 0x5#4
  drCrc := 0xB#4
  drWrite := 0xD#4
  ifcondVhs := 0x1#4
  ifcondPattern := 0xAA#8
  opcondArgV2 := 0x40000000#32
  opcondArgLegacy := 0x00000000#32
  ocrModeBit := 30
  nStuffStopCmd := 0
  nStuffStopTok := 0
  nRespPoll := 8
  nPowerupBytes := 10
  tickHz := openTickHz + 1
  tInit := openTickHz + 1
  tToken := openTToken + 1
  tReady := openTReady + 1
  tProgram := openTProgram + 1
  bufBlocks := openBufBlocks + 1

/-- The twelve command indices, in the order of R72. -/
def indices (c : Config) : List (BitVec 6) :=
  [c.idxReset, c.idxOpcondMmc, c.idxIfcond, c.idxStop, c.idxBlklen, c.idxRd1, c.idxRdm, c.idxWr1, c.idxWrm,
    c.idxOpcondApp, c.idxApp, c.idxOcr]

/-- No two commands of R72 share an index: then a frame names at most one of them. -/
def indicesDistinct (c : Config) : Bool := decide c.indices.Nodup

/-- The constraints of R10 and R11; U18 puts a configuration outside them outside the spec (log 19). -/
def valid (c : Config) : Bool :=
  decide (1 ≤ c.nRespPoll) && decide (74 ≤ 8 * c.nPowerupBytes) && decide (1 ≤ c.tickHz) && decide (1 ≤ c.tInit) &&
    decide (1 ≤ c.tToken) && decide (1 ≤ c.tReady) && decide (1 ≤ c.tProgram) && decide (1 ≤ c.bufBlocks)

/-- Bytes of the data buffer (R38). -/
def bufSize (c : Config) : Nat := 512 * c.bufBlocks

/-- The interface-condition argument (R67): voltage range in bits 11:8, check pattern in bits 7:0, the rest 0. -/
def ifcondArg (c : Config) : Word := (c.ifcondVhs ++ c.ifcondPattern).setWidth 32

end Config
end Sys2Proof
end

