-- ==== Sys2Proof/Machine/Crc.lean ====
section
/-!
DEFINITION. The CRC-7 and CRC-16 generators (spec/40_crc.md R90 to R93, R100 to R102) as functions of the register,
the data and the polynomial parameter, and the bytes of a Command Frame (spec/30_encoding.md R60 to R63).
-/
namespace Sys2Proof.Machine

/-- The bits of a byte in the order both generators consume them, bit 7 first (R49 (d), R92). -/
def bitsMsbFirst (b : Byte) : List Bool :=
  [b.getLsbD 7, b.getLsbD 6, b.getLsbD 5, b.getLsbD 4, b.getLsbD 3, b.getLsbD 2, b.getLsbD 1, b.getLsbD 0]

/-- `Crc7Bit(c, d)` (R91). -/
def crc7Bit (poly c : BitVec 7) (d : Bool) : BitVec 7 :=
  let fb := c.getLsbD 6 ^^ d
  let c' := c <<< 1
  if fb then c' ^^^ poly else c'

/-- `Crc7Byte(c, b)` (R92): eight bit steps, bit 7 first. -/
def crc7Byte (poly c : BitVec 7) (b : Byte) : BitVec 7 := (bitsMsbFirst b).foldl (crc7Bit poly) c

/-- `Crc7(m)` (R93), from the start value `init`. -/
def crc7Of (poly init : BitVec 7) (m : List Byte) : BitVec 7 := m.foldl (crc7Byte poly) init

/-- `Crc16Bit(c, d)` (R101). -/
def crc16Bit (poly c : BitVec 16) (d : Bool) : BitVec 16 :=
  let fb := c.getLsbD 15 ^^ d
  let c' := c <<< 1
  if fb then c' ^^^ poly else c'

/-- `Crc16Byte(c, b)` (R101). -/
def crc16Byte (poly c : BitVec 16) (b : Byte) : BitVec 16 := (bitsMsbFirst b).foldl (crc16Bit poly) c

/-- `Crc16(m)` (R102), from the start value `init`. -/
def crc16Of (poly init : BitVec 16) (m : List Byte) : BitVec 16 := m.foldl (crc16Byte poly) init

/-- The first five bytes of a Command Frame in wire order (R60, R61, R62, R99): `0b01 ++ index`, then the argument,
most significant byte first. -/
def frameHead (index : BitVec 6) (arg : Word) : List Byte :=
  [0b01#2 ++ index, arg.extractLsb' 24 8, arg.extractLsb' 16 8, arg.extractLsb' 8 8, arg.extractLsb' 0 8]

/-- The checksum byte (R63, R97, R99): the CRC-7 above the end bit 1. -/
def checksumByte (crc : BitVec 7) : Byte := crc ++ 1#1

/-- The 48-bit frame word (R60): the start+index byte, the argument, the checksum byte. -/
def frameWord (index : BitVec 6) (arg : Word) (crc : BitVec 7) : FrameWord :=
  (0b01#2 ++ index ++ arg ++ checksumByte crc : BitVec (2 + 6 + 32 + 8))

/-- The six wire bytes of a frame, first sent first (R60, R112 step 4). -/
def frameBytes (f : FrameWord) : List Byte :=
  [f.extractLsb' 40 8, f.extractLsb' 32 8, f.extractLsb' 24 8, f.extractLsb' 16 8, f.extractLsb' 8 8,
    f.extractLsb' 0 8]

end Sys2Proof.Machine
end

