-- ==== Sys2Proof/Syntax.lean ====
section
/-!
DEFINITION. The instructions: one constructor per row of spec/opcode_table.json, the 17 host operations of R75 and the
12 wire commands of R72. A host operation carries the operand bits R75 and R80 give it; the request bits R74 and R77
call ignored are no part of it. A wire command carries the argument and checksum fields of its frame (R60).
-/
namespace Sys2Proof

inductive Instr where
  -- host operations (spec/30_encoding.md R75)
  | crc7Clear
  | crc7Byte (b : Byte)
  | crc7Bit (d : Bool)
  | crc7Read
  | frameBuild (index : BitVec 6) (arg : Word)
  | crc16Clear
  | crc16Byte (b : Byte)
  | crc16Read
  | sendCommand (index : BitVec 6) (arg : Word) (ext keep : Bool)
  | init
  | readBlock (sector : Word)
  | writeBlock (sector : Word)
  | readMulti (sector count : Word)
  | writeMulti (sector count : Word)
  | ready
  | present
  | cardType
  -- wire commands (spec/30_encoding.md R72)
  | cReset (arg : Word) (crc : BitVec 7)
  | cOpcondMmc (arg : Word) (crc : BitVec 7)
  | cIfcond (arg : Word) (crc : BitVec 7)
  | cStop (arg : Word) (crc : BitVec 7)
  | cBlklen (arg : Word) (crc : BitVec 7)
  | cRd1 (arg : Word) (crc : BitVec 7)
  | cRdm (arg : Word) (crc : BitVec 7)
  | cWr1 (arg : Word) (crc : BitVec 7)
  | cWrm (arg : Word) (crc : BitVec 7)
  | cOpcondApp (arg : Word) (crc : BitVec 7)
  | cApp (arg : Word) (crc : BitVec 7)
  | cOcr (arg : Word) (crc : BitVec 7)
  deriving DecidableEq, Repr

end Sys2Proof
end

