-- ==== Sys2Proof/WellFormed.lean ====
section
/-!
DEFINITION. Which instructions are well formed under a configuration. Every host operation is: its operand bits are
exactly those R75 gives it, and what R77 calls an illegal operand value depends on the state (the gate, R221). A wire
command is well formed when its argument is the one R72 and R80 form for it and its checksum is the CRC-7 of the first
five bytes (R63: "The block always sends a correct checksum").
-/
namespace Sys2Proof.Instr

open Machine (crc7Of frameHead)

/-- The checksum field is the CRC-7 of the frame's first five bytes (R63, R93). -/
def checksumOk (c : Config) (index : BitVec 6) (arg : Word) (crc : BitVec 7) : Bool :=
  crc == crc7Of c.crc7Poly c.crc7Init (frameHead index arg)

/-- The argument is one R72 and R80 form for the command. -/
def argumentOk (c : Config) : Instr → Bool
  | .cReset arg _ | .cStop arg _ | .cApp arg _ | .cOcr arg _ => arg == 0#32
  | .cOpcondMmc arg _ => arg == c.opcondArgLegacy
  | .cIfcond arg _ => arg == c.ifcondArg
  | .cBlklen arg _ => arg == 512#32
  | .cOpcondApp arg _ => arg == c.opcondArgV2 || arg == c.opcondArgLegacy
  | .cRd1 .. | .cRdm .. | .cWr1 .. | .cWrm .. => true
  | .crc7Clear | .crc7Byte _ | .crc7Bit _ | .crc7Read | .frameBuild .. | .crc16Clear | .crc16Byte _ | .crc16Read
  | .sendCommand .. | .init | .readBlock _ | .writeBlock _ | .readMulti .. | .writeMulti .. | .ready | .present
  | .cardType => true

/-- The frame fields (index, argument, checksum) of a wire command; nothing for a host operation (R72). -/
def wireFields (c : Config) : Instr → Option (BitVec 6 × Word × BitVec 7)
  | .cReset arg crc => some (c.idxReset, arg, crc)
  | .cOpcondMmc arg crc => some (c.idxOpcondMmc, arg, crc)
  | .cIfcond arg crc => some (c.idxIfcond, arg, crc)
  | .cStop arg crc => some (c.idxStop, arg, crc)
  | .cBlklen arg crc => some (c.idxBlklen, arg, crc)
  | .cRd1 arg crc => some (c.idxRd1, arg, crc)
  | .cRdm arg crc => some (c.idxRdm, arg, crc)
  | .cWr1 arg crc => some (c.idxWr1, arg, crc)
  | .cWrm arg crc => some (c.idxWrm, arg, crc)
  | .cOpcondApp arg crc => some (c.idxOpcondApp, arg, crc)
  | .cApp arg crc => some (c.idxApp, arg, crc)
  | .cOcr arg crc => some (c.idxOcr, arg, crc)
  | .crc7Clear | .crc7Byte _ | .crc7Bit _ | .crc7Read | .frameBuild .. | .crc16Clear | .crc16Byte _ | .crc16Read
  | .sendCommand .. | .init | .readBlock _ | .writeBlock _ | .readMulti .. | .writeMulti .. | .ready | .present
  | .cardType => none

/-- Well formed: the argument and, for a wire command, the checksum. -/
def wellFormed (c : Config) (i : Instr) : Bool :=
  i.argumentOk c &&
    match i.wireFields c with
    | some (index, arg, crc) => checksumOk c index arg crc
    | none => true

end Sys2Proof.Instr
end

