-- ==== Sys2Proof/Decode.lean ====
section
/-!
DEFINITION. Decoding and encoding (spec/30_encoding.md). A host request is one 72-bit word, decoded by its op field
alone (R73, R74, R75); a wire command is one 48-bit frame (R60), told from the others by its index (R72). Both decoders
are total; `none` is a reserved op code (R76) or a frame that is none of the twelve commands. The encoder writes the
unused operand bits of a request as 0 (R74: they "may hold any value").
-/
namespace Sys2Proof

open Machine (frameWord)

/-- The operation code `req[71:64]` (R73). -/
def reqOp (w : ReqWord) : Byte := w.extractLsb' 64 8

/-- Operand `a`, `req[63:32]` (R73). -/
def reqA (w : ReqWord) : Word := w.extractLsb' 32 32

/-- Operand `b`, `req[31:0]` (R73). -/
def reqB (w : ReqWord) : Word := w.extractLsb' 0 32

/-- The host operation an op code selects, with its operands taken from `a` and `b` (R75, R80); `none` is a reserved
code (R76). -/
def decodeFields (op : Byte) (a b : Word) : Option Instr :=
  match op.toNat with
  | 0x01 => some .crc7Clear
  | 0x02 => some (.crc7Byte (b.extractLsb' 0 8))
  | 0x03 => some (.crc7Bit (b.getLsbD 0))
  | 0x04 => some .crc7Read
  | 0x05 => some (.frameBuild (b.extractLsb' 0 6) a)
  | 0x08 => some .crc16Clear
  | 0x09 => some (.crc16Byte (b.extractLsb' 0 8))
  | 0x0A => some .crc16Read
  | 0x10 => some (.sendCommand (b.extractLsb' 0 6) a (b.getLsbD 8) (b.getLsbD 9))
  | 0x20 => some .init
  | 0x30 => some (.readBlock a)
  | 0x31 => some (.writeBlock a)
  | 0x32 => some (.readMulti a b)
  | 0x33 => some (.writeMulti a b)
  | 0x40 => some .ready
  | 0x41 => some .present
  | 0x42 => some .cardType
  | _ => none

/-- The host operation of a request word (R74). -/
def decodeReq (w : ReqWord) : Option Instr := decodeFields (reqOp w) (reqA w) (reqB w)

/-- The wire command with a given index and fields (R72). -/
def commandOf (c : Config) (index : BitVec 6) (arg : Word) (crc : BitVec 7) : Option Instr :=
  if index = c.idxReset then some (.cReset arg crc)
  else if index = c.idxOpcondMmc then some (.cOpcondMmc arg crc)
  else if index = c.idxIfcond then some (.cIfcond arg crc)
  else if index = c.idxStop then some (.cStop arg crc)
  else if index = c.idxBlklen then some (.cBlklen arg crc)
  else if index = c.idxRd1 then some (.cRd1 arg crc)
  else if index = c.idxRdm then some (.cRdm arg crc)
  else if index = c.idxWr1 then some (.cWr1 arg crc)
  else if index = c.idxWrm then some (.cWrm arg crc)
  else if index = c.idxOpcondApp then some (.cOpcondApp arg crc)
  else if index = c.idxApp then some (.cApp arg crc)
  else if index = c.idxOcr then some (.cOcr arg crc)
  else none

/-- The wire command of a frame word (R60): start bit 0, transmission bit 1 and end bit 1 are required (R78 (e)). -/
def decodeFrame (c : Config) (f : FrameWord) : Option Instr :=
  if f.extractLsb' 46 2 = 0b01#2 ∧ f.getLsbD 0 = true then
    commandOf c (f.extractLsb' 40 6) (f.extractLsb' 8 32) (f.extractLsb' 1 7)
  else none

/-- An instruction as it reaches the block: a host request or a Command Frame. -/
inductive Encoded where
  | request (w : ReqWord)
  | frame (f : FrameWord)
  deriving DecidableEq, Repr

/-- Decoding, total: `none` is a word that is no instruction. -/
def decode (c : Config) : Encoded → Option Instr
  | .request w => decodeReq w
  | .frame f => decodeFrame c f

/-- The request word with the given op code and operands (R73). -/
def reqWord (op : Byte) (a b : Word) : ReqWord := op ++ a ++ b

/-- Operand `b` of `SEND_COMMAND` (R75): index in bits 5:0, ext in bit 8, keep in bit 9. -/
def sendCommandB (index : BitVec 6) (ext keep : Bool) : Word :=
  ((bit keep ++ bit ext ++ 0#2 ++ index : BitVec (1 + 1 + 2 + 6))).setWidth 32

/-- Encoding (R60, R73, R75, R81). -/
def encode (c : Config) : Instr → Encoded
  | .crc7Clear => .request (reqWord 0x01#8 0 0)
  | .crc7Byte b => .request (reqWord 0x02#8 0 (b.setWidth 32))
  | .crc7Bit d => .request (reqWord 0x03#8 0 ((bit d).setWidth 32))
  | .crc7Read => .request (reqWord 0x04#8 0 0)
  | .frameBuild index arg => .request (reqWord 0x05#8 arg (index.setWidth 32))
  | .crc16Clear => .request (reqWord 0x08#8 0 0)
  | .crc16Byte b => .request (reqWord 0x09#8 0 (b.setWidth 32))
  | .crc16Read => .request (reqWord 0x0A#8 0 0)
  | .sendCommand index arg ext keep => .request (reqWord 0x10#8 arg (sendCommandB index ext keep))
  | .init => .request (reqWord 0x20#8 0 0)
  | .readBlock sector => .request (reqWord 0x30#8 sector 0)
  | .writeBlock sector => .request (reqWord 0x31#8 sector 0)
  | .readMulti sector count => .request (reqWord 0x32#8 sector count)
  | .writeMulti sector count => .request (reqWord 0x33#8 sector count)
  | .ready => .request (reqWord 0x40#8 0 0)
  | .present => .request (reqWord 0x41#8 0 0)
  | .cardType => .request (reqWord 0x42#8 0 0)
  | .cReset arg crc => .frame (frameWord c.idxReset arg crc)
  | .cOpcondMmc arg crc => .frame (frameWord c.idxOpcondMmc arg crc)
  | .cIfcond arg crc => .frame (frameWord c.idxIfcond arg crc)
  | .cStop arg crc => .frame (frameWord c.idxStop arg crc)
  | .cBlklen arg crc => .frame (frameWord c.idxBlklen arg crc)
  | .cRd1 arg crc => .frame (frameWord c.idxRd1 arg crc)
  | .cRdm arg crc => .frame (frameWord c.idxRdm arg crc)
  | .cWr1 arg crc => .frame (frameWord c.idxWr1 arg crc)
  | .cWrm arg crc => .frame (frameWord c.idxWrm arg crc)
  | .cOpcondApp arg crc => .frame (frameWord c.idxOpcondApp arg crc)
  | .cApp arg crc => .frame (frameWord c.idxApp arg crc)
  | .cOcr arg crc => .frame (frameWord c.idxOcr arg crc)

/-- The instruction the decoder reads from a table word: a 48-bit row is a frame under the default indices (the
table's "match holds for the default index"), a 72-bit row a host request. -/
def decodeTableWord (nbits w : Nat) : Option Instr :=
  if nbits = 48 then decode Config.default (.frame (BitVec.ofNat 48 w))
  else if nbits = 72 then decode Config.default (.request (BitVec.ofNat 72 w))
  else none

end Sys2Proof
end

