-- ==== Sys2Proof/Machine/State.lean ====
section
/-!
DEFINITION. The state of the block (spec/10_state.md), as plain data, and the state after hardware reset
(spec/70_reset_and_hazards.md R240). Beside the elements of R20 it holds the configuration record (R7, log 2) and the
model's own fields: the card's and tick source's pending answers, the bus history, the host's pending moves, the latch
of a wire command run on its own, and the mark of an operation that never ends.
-/
namespace Sys2Proof.Machine

/-- The generation tag of the Card Identity (R21). -/
inductive Gen where
  | unknown
  | mmc
  | sd1
  | sd2
  deriving DecidableEq, Repr

/-- The addressing mode (R22). -/
inductive AddrMode where
  | byte
  | block
  deriving DecidableEq, Repr

/-- The clock-speed tier (R25). -/
inductive ClkTier where
  | slow
  | fast
  deriving DecidableEq, Repr

/-- The states of the Initialisation State Machine (R29). -/
inductive Fsm where
  | reset
  | idleProbe
  | voltageCheck
  | opCondPoll
  | ready
  | failed
  deriving DecidableEq, Repr

/-- The result codes (spec/60_exceptions.md R210). -/
inductive Code where
  | ok
  | noResponse
  | illegalCommand
  | crcError
  | addressError
  | dataCrcError
  | timeout
  | programTimeout
  | writeFault
  | notReady
  | badResponse
  | badRequest
  deriving DecidableEq, Repr

/-- One event of the bus history `H` (spec/20_memory.md R46). -/
inductive BusEvent where
  /-- `Sel(s)` -/
  | sel (selected : Bool)
  /-- `X(sel, clk, tx, rx)` -/
  | x (selected : Bool) (clk : ClkTier) (tx rx : Byte)
  deriving DecidableEq, Repr

/-- What the environment answers to one exchange (R6, R42, R44): the received byte, and the ticks that pass up to the
end of the exchange. -/
structure Answer where
  rx : Byte
  ticks : Nat
  deriving DecidableEq, Repr

/-- What the environment does once the script of answers has ended. -/
inductive Tail where
  /-- Free received bytes, and a tick source that goes on: the progress assumption of R44 (log 4, log 6). -/
  | free
  /-- The tick source stands still, and the byte a tick-bounded wait awaits never comes: the line may stand or keep
  changing, as it did in the script (R258, log 7). -/
  | stalled
  deriving DecidableEq, Repr

/-- The Bus Transport port as the model sees it: the environment's answers (R6), the current tick (R44) and the bus
history, newest event first (R46). Nothing here is state of the block. -/
structure Port where
  script : List Answer
  tail : Tail
  /-- exchanges made so far: the index of the free values -/
  seq : Nat
  tick : Nat
  hist : List BusEvent
  deriving DecidableEq, Repr

/-- The registers the host can read (R20, R231); they have names and no addresses (D18). -/
inductive HostReg where
  | idGen
  | idAmode
  | idCap
  | linkSel
  | linkClk
  | linkReady
  | lastTimeout
  | fsm
  | crc7
  | crc16
  | frame
  | busy
  | result
  | resp
  | val
  | done
  deriving DecidableEq, Repr

/-- What the host can do to the block (R33, R38, R240, R250). -/
inductive HostAction where
  | writeReq (w : ReqWord)
  | writeBuf (addr : Nat) (b : Byte)
  | readReg (r : HostReg)
  | readBuf (addr : Nat)
  | reset
  deriving DecidableEq, Repr

/-- A pending move of the host; `duringOp` says that it comes while an operation runs, if one does. -/
structure HostMove where
  act : HostAction
  duringOp : Bool
  deriving DecidableEq, Repr

/-- The host side: the moves it is going to make, the datum its last read returned, and how many moves it has made. -/
structure HostPort where
  moves : List HostMove
  rdata : BitVec 48
  seq : Nat
  deriving DecidableEq, Repr

/-- The data buffer's bytes (R38): (address, byte) pairs in one canonical form (`Memory.wf`): addresses strictly
rising, no byte 0, which is what an unlisted address reads as (R240: every byte 0). -/
abbrev Memory := List Host.Cell

/-- Why a step stops with a fault. -/
inductive Fault where
  /-- Raised by a host access to a buffer address at or above `512 x BUF_BLOCKS` (R47: the buffer's addresses end
  there). Safe: the model stops where the spec says nothing (log 11). -/
  | noSuchBufAddress
  deriving DecidableEq, Repr

/-- Why a step has no meaning. -/
inductive Refusal where
  /-- Raised by an arm of `exec` whose instruction has no meaning yet. Safe. -/
  | notModelled (mnemonic : String)
  /-- Raised by `step` when the wire-command latch, which is the model's own, holds a frame that is none of the twelve
  commands of R72. Safe: the block never issues one (R78 (e), log 15). -/
  | noSuchCommand
  deriving DecidableEq, Repr

/-- The state. The comment of each field names the element of R20. -/
structure State where
  /-- the configuration record (R7): nothing writes it -/
  cfg : Config
  /-- `id.gen` -/
  idGen : Gen
  /-- `id.amode` -/
  idAmode : AddrMode
  /-- `id.cap` -/
  idCap : Word
  /-- `link.sel` -/
  linkSel : Bool
  /-- `link.clk` -/
  linkClk : ClkTier
  /-- `link.ready` -/
  linkReady : Bool
  /-- `last_timeout` -/
  lastTimeout : Bool
  /-- `settle` -/
  settle : Bool
  /-- `fsm` -/
  fsm : Fsm
  /-- `crc7` -/
  crc7 : BitVec 7
  /-- `crc16` -/
  crc16 : BitVec 16
  /-- `frame` -/
  frame : FrameWord
  /-- `req` -/
  req : ReqWord
  /-- `busy` -/
  busy : Bool
  /-- `result` -/
  result : Code
  /-- `resp` -/
  resp : BitVec 40
  /-- `val` -/
  val : BitVec 48
  /-- `done` -/
  done : Word
  /-- `buf` -/
  buf : Memory
  /-- `pgen`, `pam`, `t0`, `n`, `k`, `code`: working registers (R39) -/
  pgen : Gen
  pam : AddrMode
  t0 : Nat
  n : Nat
  k : Nat
  code : Code
  /-- the environment at the Bus Transport port (the model's own) -/
  port : Port
  /-- the host's pending moves and last datum read (the model's own) -/
  host : HostPort
  /-- the frame of a wire command to be run on its own (the model's own, log 13) -/
  cmd : Option FrameWord
  /-- the running operation never ends (R258, the model's own, log 7) -/
  stalled : Bool
  deriving DecidableEq, Repr

/-- The block's elements at their reset values under configuration `c`, beside a given environment and host (R240). -/
def State.resetWith (c : Config) (port : Port) (host : HostPort) : State where
  cfg := c
  idGen := .unknown
  idAmode := .byte
  idCap := 0
  linkSel := false
  linkClk := .slow
  linkReady := false
  lastTimeout := false
  settle := false
  fsm := .reset
  crc7 := c.crc7Init
  crc16 := c.crc16Init
  frame := 0
  req := 0
  busy := false
  result := .ok
  resp := 0
  val := 0
  done := 0
  buf := []
  pgen := .unknown
  pam := .byte
  t0 := 0
  n := 0
  k := 0
  code := .ok
  port := port
  host := host
  cmd := none
  stalled := false

/-- The machine right after hardware reset: R240 for the block's elements, no scripted answer, no event in the history
and no pending move of the host (log 20). -/
def State.reset : State :=
  .resetWith Config.default { script := [], tail := .free, seq := 0, tick := 0, hist := [] }
    { moves := [], rdata := 0, seq := 0 }

end Sys2Proof.Machine
end

