-- ==== Sys2Proof/Machine/Buffer.lean ====
section
/-!
DEFINITION. The data buffer `buf` (spec/10_state.md R38): reading and writing one byte of the sparse canonical list.
Every access to the buffer goes through `Memory.read` and `Memory.write`.
-/
namespace Sys2Proof.Machine

/-- The byte at an address; an unlisted address reads 0 (R240). -/
def Memory.read : Memory → Nat → Byte
  | [], _ => 0
  | (x, y) :: m, a => if x = a then y else Memory.read m a

/-- Write one byte, keeping the list sorted and free of zero bytes. -/
def Memory.write : Memory → Nat → Byte → Memory
  | [], a, b => if b = 0 then [] else [(a, b)]
  | (x, y) :: m, a, b =>
    if a < x then (if b = 0 then (x, y) :: m else (a, b) :: (x, y) :: m)
    else if a = x then (if b = 0 then m else (a, b) :: m)
    else (x, y) :: Memory.write m a b

/-- Every address of the list is above `lo`, addresses rise strictly, no byte is 0. -/
def Memory.wfFrom : Nat → Memory → Bool
  | _, [] => true
  | lo, (x, y) :: m => decide (lo ≤ x) && decide (y ≠ 0) && Memory.wfFrom (x + 1) m

/-- The canonical form. -/
def Memory.wf (m : Memory) : Bool := Memory.wfFrom 0 m

/-- Every listed address is below `size`. -/
def Memory.inRange (size : Nat) (m : Memory) : Bool := m.all fun c => decide (c.1 < size)

/-- `count` bytes from address `a` upward. -/
def Memory.slice (m : Memory) (a : Nat) : Nat → List Byte
  | 0 => []
  | count + 1 => Memory.read m a :: Memory.slice m (a + 1) count

/-- `buf[a] <- b` (R14). -/
def storeBuf (a : Nat) (b : Byte) (s : State) : State := { s with buf := Memory.write s.buf a b }

/-- `buf[a]` (R14). -/
def loadBuf (a : Nat) (s : State) : Byte := Memory.read s.buf a

end Sys2Proof.Machine
end

