-- ==== Sys2Proof/Machine/Flags.lean ====
section
/-!
DEFINITION. The status byte's flags and their classification (spec/30_encoding.md R64, spec/41_command.md R115), the
data response (R69), and every write of the two link flags `link.ready` and `last_timeout` (spec/10_state.md R26, R27).
-/
namespace Sys2Proof.Machine

/-- R1 bit 0 (R64). -/
def r1Idle (r : Byte) : Bool := r.getLsbD 0
/-- R1 bit 1 (R64). -/
def r1EraseReset (r : Byte) : Bool := r.getLsbD 1
/-- R1 bit 2 (R64). -/
def r1IllegalCommand (r : Byte) : Bool := r.getLsbD 2
/-- R1 bit 3 (R64). -/
def r1CrcError (r : Byte) : Bool := r.getLsbD 3
/-- R1 bit 4 (R64). -/
def r1EraseSequenceError (r : Byte) : Bool := r.getLsbD 4
/-- R1 bit 5 (R64). -/
def r1AddressError (r : Byte) : Bool := r.getLsbD 5
/-- R1 bit 6 (R64). -/
def r1ParameterError (r : Byte) : Bool := r.getLsbD 6

/-- A received byte is a response exactly when its bit 7 is clear (R65). -/
def isResponse (r : Byte) : Bool := !r.getLsbD 7

/-- `Classify(r)` (R115): illegal-command, then crc-error, then address-error. -/
def classify (r : Byte) : Code :=
  if r1IllegalCommand r then .illegalCommand
  else if r1CrcError r then .crcError
  else if r1AddressError r then .addressError
  else .ok

/-- What the data response says of a sent Data Block (R69, R162): only the low nibble is read. -/
def dataResponse (c : Config) (d : Byte) : Code :=
  let nibble := d.extractLsb' 0 4
  if nibble = c.drCrc then .dataCrcError
  else if nibble = c.drWrite then .writeFault
  else if nibble ≠ c.drAccepted then .badResponse
  else .ok

/-- `link.ready <- 0`: a frame, a data phase or a token begins, or an operation ends with `BadResponse` (R26). -/
def lineBusy (s : State) : State := { s with linkReady := false }

/-- `link.ready <- 1`: a token was parsed, an idle byte ended a wait, or a block's CRC bytes were received (R26). -/
def lineIdle (s : State) : State := { s with linkReady := true }

/-- `last_timeout <- 1` (R27). -/
def markTimeout (s : State) : State := { s with lastTimeout := true }

/-- `last_timeout <- 0`: a response byte was received (R27). -/
def clearTimeout (s : State) : State := { s with lastTimeout := false }

end Sys2Proof.Machine
end

