-- ==== Sys2Proof/Machine/Operands.lean ====
section
/-!
DEFINITION. Operands and encodings of register values: address translation (spec/20_memory.md R50), the tests of the
gate (spec/60_exceptions.md R221), the interface-condition echo and the operating-condition register
(spec/30_encoding.md R67, R68), the numbers of the enumerations (R21, R22, R25, R29, R210) and the layout of
`CARD_TYPE` (spec/44_facade.md R202).
-/
namespace Sys2Proof.Machine

/-- `Addr(s)` (R50): the sector number itself if block-addressed, times 512 if byte-addressed. -/
def addrOf (mode : AddrMode) (sector : Word) : Word :=
  match mode with
  | .block => sector
  | .byte => sector * 512#32

/-- The sector's byte address fits 32 bits, or none is needed (R51). -/
def sectorInRange (mode : AddrMode) (sector : Word) : Bool :=
  match mode with
  | .block => true
  | .byte => decide (sector.toNat < 2 ^ 23)

/-- The tests of `Gate(a, n)` in their order (R221): the code of the first that fails. -/
def gateCode (s : State) (sector : Word) (count : Nat) : Option Code :=
  if s.idGen = .unknown then some .notReady
  else if s.cfg.bufBlocks < count then some .badRequest
  else if sectorInRange s.idAmode sector = false then some .badRequest
  else none

/-- The interface-condition response is echoed correctly (R67): voltage range in `e[2][3:0]`, pattern in `e[3]`. -/
def echoOk (c : Config) (ext : Word) : Bool :=
  ext.extractLsb' 8 4 == c.ifcondVhs && ext.extractLsb' 0 8 == c.ifcondPattern

/-- The addressing-mode bit of the operating-condition register (R68). -/
def ocrMode (c : Config) (ocr : Word) : AddrMode :=
  if ocr.getLsbD c.ocrModeBit then .block else .byte

/-- The number of a generation (R21). -/
def Gen.num : Gen → BitVec 2
  | .unknown => 0
  | .mmc => 1
  | .sd1 => 2
  | .sd2 => 3

/-- The number of an addressing mode (R22). -/
def AddrMode.num : AddrMode → BitVec 1
  | .byte => 0
  | .block => 1

/-- The number of a clock tier (R25). -/
def ClkTier.num : ClkTier → BitVec 1
  | .slow => 0
  | .fast => 1

/-- The number of a state of `fsm` (R29). -/
def Fsm.num : Fsm → BitVec 3
  | .reset => 0
  | .idleProbe => 1
  | .voltageCheck => 2
  | .opCondPoll => 3
  | .ready => 4
  | .failed => 5

/-- The number of a result code (R210). -/
def Code.num : Code → Byte
  | .ok => 0x00
  | .noResponse => 0x01
  | .illegalCommand => 0x02
  | .crcError => 0x03
  | .addressError => 0x04
  | .dataCrcError => 0x05
  | .timeout => 0x06
  | .programTimeout => 0x07
  | .writeFault => 0x08
  | .notReady => 0x09
  | .badResponse => 0x0A
  | .badRequest => 0x0B

/-- A truth value as a 48-bit value (R200, R201). -/
def boolVal (b : Bool) : BitVec 48 := (bit b).setWidth 48

/-- The value of `CARD_TYPE` (R202): generation in bits 1:0, addressing mode in bit 2, capacity hint in bits 39:8. -/
def cardTypeVal (gen : Gen) (mode : AddrMode) (cap : Word) : BitVec 48 :=
  (0#8 ++ cap ++ 0#5 ++ mode.num ++ gen.num : BitVec (8 + 32 + 5 + 1 + 2))

end Sys2Proof.Machine
end

