-- ==== Sys2Proof/Machine/Updates.lean ====
section
/-!
DEFINITION. One named update per register (spec/00_scope.md R14: `name <- v`), so that a meaning reads as the rules'
pseudocode and no proof unfolds a record.
-/
namespace Sys2Proof.Machine

/-- `settle <- 0` (R112 step 2). -/
def setSettled (s : State) : State := { s with settle := false }
/-- `n <- v` (R112 step 5). -/
def setN (v : Nat) (s : State) : State := { s with n := v }
/-- `resp <- v` (R112). -/
def setResp (v : BitVec 40) (s : State) : State := { s with resp := v }
/-- `fsm <- f` (R29). -/
def setFsm (f : Fsm) (s : State) : State := { s with fsm := f }
/-- `pgen <- g` (R39). -/
def setPgen (g : Gen) (s : State) : State := { s with pgen := g }
/-- `pam <- m` (R39). -/
def setPam (m : AddrMode) (s : State) : State := { s with pam := m }
/-- `t0 <- t` (R39). -/
def setT0 (t : Nat) (s : State) : State := { s with t0 := t }
/-- `k <- v` (R39). -/
def setK (v : Nat) (s : State) : State := { s with k := v }
/-- `code <- c` (R39). -/
def setCode (c : Code) (s : State) : State := { s with code := c }
/-- `crc7 <- v` (R30). -/
def setCrc7 (v : BitVec 7) (s : State) : State := { s with crc7 := v }
/-- `crc16 <- v` (R31). -/
def setCrc16 (v : BitVec 16) (s : State) : State := { s with crc16 := v }
/-- `frame <- v` (R32). -/
def setFrame (v : FrameWord) (s : State) : State := { s with frame := v }
/-- `val <- v` (R36). -/
def setVal (v : BitVec 48) (s : State) : State := { s with val := v }
/-- `done <- v` (R37). -/
def setDone (v : Word) (s : State) : State := { s with done := v }
/-- `id.gen <- 0; id.amode <- 0; id.cap <- 0; fsm <- Reset; link.clk <- 0; pgen <- 0; pam <- 0` (R131). -/
def initStart (s : State) : State :=
  { s with
    idGen := .unknown
    idAmode := .byte
    idCap := 0
    fsm := .reset
    linkClk := .slow
    pgen := .unknown
    pam := .byte }
/-- `link.clk <- 1; id.gen <- pgen; id.amode <- pam; id.cap <- 0; fsm <- Ready` (R147). -/
def commitIdentity (s : State) : State :=
  { s with
    linkClk := .fast
    idGen := s.pgen
    idAmode := s.pam
    idCap := 0
    fsm := .ready }

end Sys2Proof.Machine
end

