-- ==== Sys2Proof/Machine/Ops.lean ====
section
/-!
DEFINITION. The shared operations: the port primitives (spec/00_scope.md R15, spec/20_memory.md R40 to R46), the
completion primitives (R16, the block's exception entry), tick-bounded waits (spec/43_transfer.md R182), frame building
(spec/40_crc.md R99) and the command exchange `SendCommand` (spec/41_command.md R112).
-/
namespace Sys2Proof.Machine

/-! ## The port -/

/-- The environment's next answer: the head of the script; after its end a free byte and a free number of ticks, at
least one (log 4, log 6), or none with the tail stalled (log 7). -/
def Port.answer (p : Port) : Answer :=
  match p.script with
  | a :: _ => a
  | [] =>
    match p.tail with
    | .free => { rx := Config.freeByte p.seq, ticks := Config.freeTicks p.seq + 1 }
    | .stalled => { rx := Config.freeByte p.seq, ticks := 0 }

/-- The port after one exchange: the answer is used up, its ticks have passed, the event is in the history (R46). -/
def Port.afterXchg (p : Port) (sel : Bool) (clk : ClkTier) (tx : Byte) : Port :=
  { p with
    script := p.script.tail
    seq := p.seq + 1
    tick := p.tick + p.answer.ticks
    hist := .x sel clk tx p.answer.rx :: p.hist }

/-- `Xchg(tx) -> rx` (R15, R41). -/
def xchg (tx : Byte) (s : State) : Byte × State :=
  (s.port.answer.rx, { s with port := s.port.afterXchg s.linkSel s.linkClk tx })

/-- `Xchg(tx)` with the received byte discarded (R41). -/
def send (tx : Byte) (s : State) : State := (xchg tx s).2

/-- `Select(s)` (R15, R43): always a call and an event; selecting owes the settle bytes. -/
def select (on : Bool) (s : State) : State :=
  { s with
    linkSel := on
    settle := on || s.settle
    port := { s.port with hist := .sel on :: s.port.hist } }

/-- `Now()` (R15, R44). -/
def now (s : State) : Nat := s.port.tick

/-- `Elapsed(t0)` (R15, R44), in ticks. -/
def elapsed (t0 : Nat) (s : State) : Nat := s.port.tick - t0

/-- `repeat n: Xchg(0xFF)`, received bytes discarded. -/
def idleBytes : Nat → State → State
  | 0, s => s
  | n + 1, s => idleBytes n (send Config.idleByte s)

/-- Send bytes in order, received bytes discarded. -/
def sendBytes : List Byte → State → State
  | [], s => s
  | b :: bs, s => sendBytes bs (send b s)

/-! ## Ending an operation -/

/-- `Complete(code)` (R16, R211): the result is written and the operation is over. -/
def complete (code : Code) (s : State) : State := { s with result := code, busy := false }

/-- `Finish(code)` (R16): deselect, then complete. -/
def finish (code : Code) (s : State) : State := complete code (select false s)

/-- `Fail(code)` (R16, R148), inside `INIT` only. -/
def fail (code : Code) (s : State) : State := finish code (setFsm .failed s)

/-- `Fail(BadResponse)`: `link.ready` ends 0, the row of the code in R225's table (R252 (d), log 24). -/
def failBadResponse (s : State) : State := fail .badResponse (lineBusy s)

/-- The operation never ends (R258): `busy` stays 1 (log 7). -/
def hang (s : State) : State := { s with busy := true, stalled := true }

/-- The progress of an operation: it goes on with a value, or it stops (it has completed, or it never ends). -/
inductive Flow (α : Type) where
  | go (a : α) (s : State)
  | stop (s : State)

/-- The state a flow is in. -/
def Flow.state {α : Type} : Flow α → State
  | .go _ s => s
  | .stop s => s

/-- Go on with `k` unless the operation has stopped. -/
def Flow.andThen {α β : Type} (f : Flow α) (k : α → State → Flow β) : Flow β :=
  match f with
  | .go a s => k a s
  | .stop s => .stop s

/-! ## Waits -/

/-- How a run of polls ends. -/
inductive PollEnd where
  | hit
  | expired
  | stalled
  deriving DecidableEq, Repr

/-- A tick-bounded loop has come to the point from which it never ends (R258, log 7): the tick source stands still
below the budget, and nothing more comes that would end the loop. -/
def neverEnds (budget : Nat) (s : State) : Bool :=
  decide (s.port.script = []) && decide (s.port.tail = .stalled) && decide (elapsed s.t0 s < budget)

/-- Poll with `0xFF` until a received byte satisfies `hit`; after each unsuccessful poll test `Elapsed(t0) >= T`
(R182). The first argument bounds the recursion and no behaviour: `pollBound` is never used up. -/
def pollUntil (hit : Byte → Bool) (budget : Nat) : Nat → State → PollEnd × State
  | 0, s => (.stalled, s)
  | left + 1, s =>
    if neverEnds budget s then (.stalled, s)
    else
      let x := xchg Config.idleByte s
      if hit x.1 then (.hit, x.2)
      else if budget ≤ elapsed x.2.t0 x.2 then (.expired, x.2)
      else pollUntil hit budget left x.2

/-- Polls after which a wait of this budget has ended, or has come to `neverEnds`: every scripted answer, then one tick
at least an exchange (log 6). -/
def pollBound (budget : Nat) (s : State) : Nat := s.port.script.length + budget + 1

/-- A tick-bounded wait (R182): `t0 <- Now()` once, then polls. It goes on with whether the byte came in time. -/
def waitFor (hit : Byte → Bool) (budget : Nat) (s : State) : Flow Bool :=
  let s := setT0 (now s) s
  match pollUntil hit budget (pollBound budget s) s with
  | (.hit, s) => .go true s
  | (.expired, s) => .go false s
  | (.stalled, s) => .stop (hang s)

/-- `WaitReady(T)` (R181): one whole idle byte within the budget. -/
def waitReady (budget : Nat) (s : State) : Flow Bool :=
  (waitFor (fun r => r == Config.idleByte) budget s).andThen fun ok s =>
    .go ok (if ok then lineIdle s else lineBusy s)

/-! ## The command exchange -/

/-- `BuildFrame(index, arg)` (R99): the register restarts from `CRC7_INIT`. -/
def buildFrame (index : BitVec 6) (arg : Word) (s : State) : State :=
  let crc := crc7Of s.cfg.crc7Poly s.cfg.crc7Init (frameHead index arg)
  setFrame (frameWord index arg crc) (setCrc7 crc s)

/-- What `SendCommand` returns (R110): the code, the status byte, the four extension bytes (first in bits 31:24). -/
structure Reply where
  code : Code
  status : Byte
  ext : Word
  deriving DecidableEq, Repr

/-- Steps 1 and 2 of `SendCommand` (R113, R114): reselect if asked, then the settle bytes if they are owed. -/
def openExchange (resel : Bool) (s : State) : State :=
  let s := if resel then select true (select false s) else s
  if s.settle then setSettled (idleBytes Config.nSettle s) else s

/-- Steps 3 and 4 of `SendCommand` (R112, R119): the line is no longer known idle; build and send the frame; after a
stop-transmission frame discard `N_STUFF_STOPCMD` bytes. -/
def transmit (index : BitVec 6) (arg : Word) (s : State) : State :=
  let s := buildFrame index arg (lineBusy s)
  let s := sendBytes (frameBytes s.frame) s
  if index = s.cfg.idxStop then idleBytes s.cfg.nStuffStopCmd s else s

/-- Step 5 of `SendCommand` (R116): at most `left` polls; whether a response came, and the last byte polled. With no
poll allowed, which U18 puts outside the spec, no response comes (log 19). -/
def awaitResponse : Nat → Byte → State → (Bool × Byte) × State
  | 0, last, s => ((false, last), s)
  | left + 1, _, s =>
    let x := xchg Config.idleByte s
    let s := setN (x.2.n + 1) x.2
    if isResponse x.1 then ((true, x.1), s) else awaitResponse left x.1 s

/-- The four extension bytes, first received in bits 31:24 (R66, R117). -/
def readExtension (s : State) : Word × State :=
  let e0 := xchg Config.idleByte s
  let e1 := xchg Config.idleByte e0.2
  let e2 := xchg Config.idleByte e1.2
  let e3 := xchg Config.idleByte e2.2
  ((e0.1 ++ e1.1 ++ e2.1 ++ e3.1 : BitVec (8 + 8 + 8 + 8)), e3.2)

/-- The unanswered end of step 5 (R112, R116). -/
def noResponse (last : Byte) (s : State) : Reply × State :=
  ({ code := .noResponse, status := last, ext := 0 },
    setResp (last ++ 0#32 : BitVec (8 + 32)) (markTimeout s))

/-- Step 6 of `SendCommand` (R117). -/
def parseToken (ext : Bool) (status : Byte) (s : State) : Reply × State :=
  let e := if ext then readExtension (clearTimeout s) else (0, clearTimeout s)
  ({ code := classify status, status := status, ext := e.1 },
    lineIdle (setResp (status ++ e.1 : BitVec (8 + 32)) e.2))

/-- `SendCommand(index, arg, ext, resel)` (R110 to R112). -/
def sendCommand (index : BitVec 6) (arg : Word) (ext resel : Bool) (s : State) : Reply × State :=
  let s := transmit index arg (openExchange resel s)
  match awaitResponse s.cfg.nRespPoll Config.idleByte (setN 0 s) with
  | ((false, last), s) => noResponse last s
  | ((true, status), s) => parseToken ext status s

end Sys2Proof.Machine
end

