-- ==== Sys2Proof/Machine/Command.lean ====
section
/-!
DEFINITION. `SEND_COMMAND` (spec/41_command.md R118) and the twelve wire commands (spec/30_encoding.md R72), each one
command exchange with the Token and Resel columns of R72.
-/
namespace Sys2Proof.Machine

/-- `SEND_COMMAND` (R118): not gated, ends with `Complete`. -/
def execSendCommand (index : BitVec 6) (arg : Word) (ext keep : Bool) (s : State) :
    Host.Outcome State Fault Refusal :=
  let p := sendCommand index arg ext (!keep) s
  .next (complete p.1.code p.2)

/-- A wire command run on its own (log 13): the exchange, its code left in the working register `code`. Like
`SendCommand` it touches neither `result` nor `busy` (R111). -/
def issue (index : BitVec 6) (arg : Word) (ext resel : Bool) (s : State) : State :=
  let p := sendCommand index arg ext resel s
  setCode p.1.code p.2

/-- `C_RESET` (R72): software reset, 1-byte token. -/
def execCReset (arg : Word) (s : State) : Host.Outcome State Fault Refusal :=
  .next (issue s.cfg.idxReset arg false true s)

/-- `C_OPCOND_MMC` (R72): non-application operating condition, 1-byte token. -/
def execCOpcondMmc (arg : Word) (s : State) : Host.Outcome State Fault Refusal :=
  .next (issue s.cfg.idxOpcondMmc arg false true s)

/-- `C_IFCOND` (R72): interface condition, 5-byte token. -/
def execCIfcond (arg : Word) (s : State) : Host.Outcome State Fault Refusal :=
  .next (issue s.cfg.idxIfcond arg true true s)

/-- `C_STOP` (R72): stop transmission, 1-byte token, no reselect. -/
def execCStop (arg : Word) (s : State) : Host.Outcome State Fault Refusal :=
  .next (issue s.cfg.idxStop arg false false s)

/-- `C_BLKLEN` (R72): fix the block length, 1-byte token. -/
def execCBlklen (arg : Word) (s : State) : Host.Outcome State Fault Refusal :=
  .next (issue s.cfg.idxBlklen arg false true s)

/-- `C_RD1` (R72): single-block read, 1-byte token. -/
def execCRd1 (arg : Word) (s : State) : Host.Outcome State Fault Refusal :=
  .next (issue s.cfg.idxRd1 arg false true s)

/-- `C_RDM` (R72): multi-block read, 1-byte token. -/
def execCRdm (arg : Word) (s : State) : Host.Outcome State Fault Refusal :=
  .next (issue s.cfg.idxRdm arg false true s)

/-- `C_WR1` (R72): single-block write, 1-byte token. -/
def execCWr1 (arg : Word) (s : State) : Host.Outcome State Fault Refusal :=
  .next (issue s.cfg.idxWr1 arg false true s)

/-- `C_WRM` (R72): multi-block write, 1-byte token. -/
def execCWrm (arg : Word) (s : State) : Host.Outcome State Fault Refusal :=
  .next (issue s.cfg.idxWrm arg false true s)

/-- `C_OPCOND_APP` (R72): operating-condition query, 1-byte token. -/
def execCOpcondApp (arg : Word) (s : State) : Host.Outcome State Fault Refusal :=
  .next (issue s.cfg.idxOpcondApp arg false true s)

/-- `C_APP` (R72): application-specific pre-command, 1-byte token. -/
def execCApp (arg : Word) (s : State) : Host.Outcome State Fault Refusal :=
  .next (issue s.cfg.idxApp arg false true s)

/-- `C_OCR` (R72): read the operating-condition register, 5-byte token. -/
def execCOcr (arg : Word) (s : State) : Host.Outcome State Fault Refusal :=
  .next (issue s.cfg.idxOcr arg true true s)

end Sys2Proof.Machine
end

