-- ==== Sys2Proof/Machine/CrcOps.lean ====
section
/-!
DEFINITION. The checksum operations (spec/40_crc.md R94 to R98, R103 to R105). None makes a port call.
-/
namespace Sys2Proof.Machine

/-- `CRC7_CLEAR` (R94). -/
def execCrc7Clear (s : State) : Host.Outcome State Fault Refusal :=
  .next (complete .ok (setCrc7 s.cfg.crc7Init s))

/-- `CRC7_BYTE` (R95). -/
def execCrc7Byte (b : Byte) (s : State) : Host.Outcome State Fault Refusal :=
  .next (complete .ok (setCrc7 (crc7Byte s.cfg.crc7Poly s.crc7 b) s))

/-- `CRC7_BIT` (R96). -/
def execCrc7Bit (d : Bool) (s : State) : Host.Outcome State Fault Refusal :=
  .next (complete .ok (setCrc7 (crc7Bit s.cfg.crc7Poly s.crc7 d) s))

/-- `CRC7_READ` (R97): the checksum byte of the register. -/
def execCrc7Read (s : State) : Host.Outcome State Fault Refusal :=
  .next (complete .ok (setVal ((checksumByte s.crc7).setWidth 48) s))

/-- `FRAME_BUILD` (R98). -/
def execFrameBuild (index : BitVec 6) (arg : Word) (s : State) : Host.Outcome State Fault Refusal :=
  let s := buildFrame index arg s
  .next (complete .ok (setVal s.frame s))

/-- `CRC16_CLEAR` (R103). -/
def execCrc16Clear (s : State) : Host.Outcome State Fault Refusal :=
  .next (complete .ok (setCrc16 s.cfg.crc16Init s))

/-- `CRC16_BYTE` (R104). -/
def execCrc16Byte (b : Byte) (s : State) : Host.Outcome State Fault Refusal :=
  .next (complete .ok (setCrc16 (crc16Byte s.cfg.crc16Poly s.crc16 b) s))

/-- `CRC16_READ` (R105). -/
def execCrc16Read (s : State) : Host.Outcome State Fault Refusal :=
  .next (complete .ok (setVal (s.crc16.setWidth 48) s))

end Sys2Proof.Machine
end

