-- ==== Sys2Proof/Machine/Init.lean ====
section
/-!
DEFINITION. `INIT`, the card-initialisation state machine (spec/42_init.md R130 to R148), one definition per step. Step
`Start` (R131) is `initStart`.
-/
namespace Sys2Proof.Machine

/-- Step `PowerUp` (R132): the clocks with the device deselected. -/
def powerUp (s : State) : State := idleBytes s.cfg.nPowerupBytes (select false s)

/-- Step `ResetCard` (R133, R134): the idle bit must be seen set. -/
def resetCard (s : State) : Flow Unit :=
  let p := sendCommand s.cfg.idxReset 0 false true s
  if p.1.code ≠ .ok then .stop (fail p.1.code p.2)
  else if r1Idle p.1.status = false then .stop (failBadResponse p.2)
  else .go () (setFsm .idleProbe p.2)

/-- Step `Probe` (R135, R136). -/
def probe (s : State) : Flow Unit :=
  let p := sendCommand s.cfg.idxIfcond s.cfg.ifcondArg true true s
  if p.1.code = .illegalCommand then .go () (setFsm .opCondPoll (setPgen .sd1 p.2))
  else if p.1.code ≠ .ok then .stop (fail p.1.code p.2)
  else if echoOk s.cfg p.1.ext then .go () (setFsm .voltageCheck (setPgen .sd2 p.2))
  else .stop (failBadResponse p.2)

/-- The application pair of a polling round (R140, R144): the pre-command and, if it was answered `Ok`, the query; the
reply is that of the last command sent. -/
def appPair (arg : Word) (s : State) : Reply × State :=
  let p := sendCommand s.cfg.idxApp 0 false true s
  if p.1.code = .ok then sendCommand s.cfg.idxOpcondApp arg false true p.2 else p

/-- The end of a polling round (R140, R144): any code but `Ok` fails; else it goes on with whether the card is ready. -/
def roundEnd (p : Reply × State) : Flow Bool :=
  if p.1.code ≠ .ok then .stop (fail p.1.code p.2) else .go (!r1Idle p.1.status) p.2

/-- One round of `PollV2` (R140). -/
def v2Round (s : State) : Flow Bool := roundEnd (appPair s.cfg.opcondArgV2 s)

/-- One round of `PollLegacy` (R143, R144). An illegal-command answer to the pair re-classes the card as MMC; the
answer's idle bit is then not read. -/
def legacyRound (s : State) : Flow Bool :=
  if s.pgen = .sd1 then
    let p := appPair s.cfg.opcondArgLegacy s
    if p.1.code = .illegalCommand then .go false (setPgen .mmc p.2) else roundEnd p
  else roundEnd (sendCommand s.cfg.idxOpcondMmc s.cfg.opcondArgLegacy false true s)

/-- The loop of `PollV2` and `PollLegacy` (R138, R140, R144): rounds until one finds the card ready, `T_INIT` tested
after each that does not. The `Nat` bounds the recursion and no behaviour: `pollBound` is never used up. With a tick
source that stands still and a card that stays idle the loop never ends (R258, log 7). -/
def pollRounds (round : State → Flow Bool) : Nat → State → Flow Unit
  | 0, s => .stop (hang s)
  | left + 1, s =>
    if neverEnds s.cfg.tInit s then .stop (hang s)
    else
      (round s).andThen fun isReady s =>
        if isReady then .go () s
        else if s.cfg.tInit ≤ elapsed s.t0 s then .stop (fail .timeout s)
        else pollRounds round left s

/-- Step `PollV2` (R140). -/
def pollV2 (s : State) : Flow Unit := pollRounds v2Round (pollBound s.cfg.tInit s) s

/-- Step `PollLegacy` (R144). -/
def pollLegacy (s : State) : Flow Unit := pollRounds legacyRound (pollBound s.cfg.tInit s) s

/-- The polling states (R138, R141, R142): one start tick for both loops; a version-2 card passes through
`OpCondPoll` without a command. -/
def pollOpCond (s : State) : Flow Unit :=
  let s := setT0 (now s) s
  if s.fsm = .voltageCheck then
    (pollV2 s).andThen fun _ s => .go () (setFsm .opCondPoll s)
  else pollLegacy s

/-- Step `ReadMode` (R145): for a version-2 card only. -/
def readMode (s : State) : Flow Unit :=
  if s.pgen = .sd2 then
    let p := sendCommand s.cfg.idxOcr 0 true true s
    if p.1.code ≠ .ok then .stop (fail p.1.code p.2)
    else .go () (setPam (ocrMode s.cfg p.1.ext) p.2)
  else .go () s

/-- Step `FixBlockLength` (R146): the status byte must be exactly `0x00`. -/
def fixBlockLength (s : State) : Flow Unit :=
  let p := sendCommand s.cfg.idxBlklen 512#32 false true s
  if p.1.code ≠ .ok then .stop (fail p.1.code p.2)
  else if p.1.status ≠ 0 then .stop (failBadResponse p.2)
  else .go () p.2

/-- Step `Commit` (R147): identity and fast tier together, then `Finish(Ok)`. -/
def commit (s : State) : State :=
  finish .ok (commitIdentity s)

/-- The steps of `INIT` in order (R130). -/
def initRun (s : State) : Flow Unit :=
  (resetCard (powerUp (initStart s))).andThen fun _ s =>
    (probe s).andThen fun _ s =>
      (pollOpCond s).andThen fun _ s =>
        (readMode s).andThen fun _ s =>
          (fixBlockLength s).andThen fun _ s => .stop (commit s)

/-- `INIT` (R130). -/
def execInit (s : State) : Host.Outcome State Fault Refusal := .next (initRun s).state

end Sys2Proof.Machine
end

