-- ==== Sys2Proof/Machine/Query.lean ====
section
/-!
DEFINITION. The status queries (spec/44_facade.md R200 to R202, R205). None makes a port call or changes the Link
Session.
-/
namespace Sys2Proof.Machine

/-- The predicate of `READY` (R200): the identity is resolved and the line was last known idle. -/
def isReady (s : State) : Bool := decide (s.idGen ≠ .unknown) && s.linkReady

/-- The predicate of `PRESENT` (R201): ready, and the last exchange did not time out. -/
def isPresent (s : State) : Bool := isReady s && !s.lastTimeout

/-- `READY` (R200). -/
def execReady (s : State) : Host.Outcome State Fault Refusal :=
  .next (complete .ok (setVal (boolVal (isReady s)) s))

/-- `PRESENT` (R201). -/
def execPresent (s : State) : Host.Outcome State Fault Refusal :=
  .next (complete .ok (setVal (boolVal (isPresent s)) s))

/-- `CARD_TYPE` (R202). -/
def execCardType (s : State) : Host.Outcome State Fault Refusal :=
  .next (complete .ok (setVal (cardTypeVal s.idGen s.idAmode s.idCap) s))

end Sys2Proof.Machine
end

