-- ==== Sys2Proof/Machine/Transfer.lean ====
section
/-!
DEFINITION. The block read/write sequencer (spec/43_transfer.md R160 to R178): the gate, the status test, the helpers
`RecvBlock`, `SendBlock`, `BusyPoll`, and the four transfer operations.
-/
namespace Sys2Proof.Machine

/-- `Gate(a, n)` (R221): a failing test completes the operation with nothing else changed. -/
def gate (sector : Word) (count : Nat) (s : State) : Flow Unit :=
  match gateCode s sector count with
  | some code => .stop (complete code s)
  | none => .go () s

/-- `CheckR1(c, r)` (R160): the data phase begins only after a status byte of exactly `0x00`. -/
def checkR1 (p : Reply × State) : Flow Unit :=
  if p.1.code ≠ .ok then .stop (finish p.1.code p.2)
  else if p.1.status ≠ 0 then .stop (finish .badResponse (lineBusy p.2))
  else .go () (lineBusy p.2)

/-- The command phase of a transfer (R164, R168, R172, R176): the command with the translated sector, then the status
test. -/
def startTransfer (index : BitVec 6) (sector : Word) (s : State) : Flow Unit :=
  checkR1 (sendCommand index (addrOf s.idAmode sector) false true s)

/-- Receive `count` payload bytes into `buf` from address `a` on, each stored as it arrives and fed to `crc16`
(R161). -/
def recvPayload : Nat → Nat → State → State
  | 0, _, s => s
  | count + 1, a, s =>
    let x := xchg Config.idleByte s
    let s := storeBuf a x.1 (setCrc16 (crc16Byte x.2.cfg.crc16Poly x.2.crc16 x.1) x.2)
    recvPayload count (a + 1) s

/-- The two CRC bytes after a received payload and their comparison with `crc16`, high byte first (R102, R161). -/
def checkCrc16 (s : State) : Code × State :=
  let hi := xchg Config.idleByte s
  let lo := xchg Config.idleByte hi.2
  let s := lineIdle lo.2
  (if (hi.1 ++ lo.1 : BitVec (8 + 8)) ≠ s.crc16 then .dataCrcError else .ok, s)

/-- `RecvBlock(k, tok)` (R161). -/
def recvBlock (k : Nat) (tok : Byte) (s : State) : Flow Code :=
  (waitFor (fun r => r == tok) s.cfg.tToken s).andThen fun ok s =>
    if ok then
      let s := recvPayload Config.blockLen (512 * k) (setCrc16 s.cfg.crc16Init s)
      let p := checkCrc16 s
      .go p.1 p.2
    else .go .timeout (markTimeout (lineBusy s))

/-- `BusyPoll()` (R163). -/
def busyPoll (s : State) : Flow Code :=
  (waitFor (fun r => r == Config.idleByte) s.cfg.tProgram s).andThen fun ok s =>
    if ok then .go .ok (lineIdle s) else .go .programTimeout (markTimeout (lineBusy s))

/-- Send `count` payload bytes of `buf` from address `a` on, each fed to `crc16` (R162). -/
def sendPayload : Nat → Nat → State → State
  | 0, _, s => s
  | count + 1, a, s =>
    let d := loadBuf a s
    let s := send d s
    sendPayload count (a + 1) (setCrc16 (crc16Byte s.cfg.crc16Poly s.crc16 d) s)

/-- Token, payload, the two CRC bytes, and the data response in the exchange directly after them (R162): it answers
the code of the data response. -/
def sendData (k : Nat) (tok : Byte) (s : State) : Code × State :=
  let s := send tok (lineBusy s)
  let s := sendPayload Config.blockLen (512 * k) (setCrc16 s.cfg.crc16Init s)
  let s := send (s.crc16.extractLsb' 8 8) s
  let s := send (s.crc16.extractLsb' 0 8) s
  let x := xchg Config.idleByte s
  (dataResponse s.cfg x.1, x.2)

/-- `SendBlock(k, tok)` (R162). -/
def sendBlock (k : Nat) (tok : Byte) (s : State) : Flow Code :=
  (waitReady s.cfg.tReady s).andThen fun ok s =>
    if ok then
      let p := sendData k tok s
      if p.1 ≠ .ok then .go p.1 p.2 else busyPoll p.2
    else .go .timeout (markTimeout s)

/-- End a flow that goes on with a code: `Finish(code)`, the code left in the working register (R164, R168). -/
def finishWith (code : Code) (s : State) : Flow Unit := .stop (finish code (setCode code s))

/-- `READ_BLOCK` (R164). -/
def readBlockRun (sector : Word) (s : State) : Flow Unit :=
  (gate sector 1 s).andThen fun _ s =>
    (startTransfer s.cfg.idxRd1 sector s).andThen fun _ s =>
      (recvBlock 0 s.cfg.tokStart s).andThen finishWith

/-- `WRITE_BLOCK` (R168). -/
def writeBlockRun (sector : Word) (s : State) : Flow Unit :=
  (gate sector 1 s).andThen fun _ s =>
    (startTransfer s.cfg.idxWr1 sector s).andThen fun _ s =>
      (sendBlock 0 s.cfg.tokStart s).andThen finishWith

/-- The block loop of `READ_MULTI` (R172): `left` blocks from block `k` on, up to the first failure. -/
def recvBlocks : Nat → Nat → State → Flow Code
  | 0, _, s => .go .ok s
  | left + 1, k, s =>
    (recvBlock k s.cfg.tokStartMr (setK k s)).andThen fun code s =>
      if code ≠ .ok then .go code (setCode code s)
      else recvBlocks left (k + 1) (setDone (s.done + 1) (setCode code s))

/-- The end of `READ_MULTI` (R172, R173): the stop command without reselect, and after an answered one the wait for an
idle line; the first failure in time order is the result. -/
def stopRead (code : Code) (s : State) : Flow Code :=
  let p := sendCommand s.cfg.idxStop 0 false false s
  let code := if code = .ok then p.1.code else code
  if p.1.code = .noResponse then .go code p.2
  else
    (waitReady p.2.cfg.tReady (lineBusy p.2)).andThen fun ok s =>
      if ok then .go code s else .go (if code = .ok then .timeout else code) (markTimeout s)

/-- `READ_MULTI` (R172). -/
def readMultiRun (sector count : Word) (s : State) : Flow Unit :=
  (gate sector count.toNat s).andThen fun _ s =>
    let s := setDone 0 s
    if count = 0 then .stop (complete .ok s)
    else
      (startTransfer s.cfg.idxRdm sector s).andThen fun _ s =>
        (recvBlocks count.toNat 0 (setCode .ok s)).andThen fun code s =>
          (stopRead code s).andThen finishWith

/-- The block loop of `WRITE_MULTI` (R176): a block that failed ends the operation, with no stop token. -/
def sendBlocks : Nat → Nat → State → Flow Unit
  | 0, _, s => .go () s
  | left + 1, k, s =>
    (sendBlock k s.cfg.tokStartMw (setK k s)).andThen fun code s =>
      if code ≠ .ok then finishWith code s
      else sendBlocks left (k + 1) (setDone (s.done + 1) (setCode code s))

/-- The stop token of `WRITE_MULTI` and the busy poll after it (R176, R177). -/
def stopWrite (s : State) : Flow Code :=
  let s := send s.cfg.tokStop (lineBusy s)
  busyPoll (idleBytes s.cfg.nStuffStopTok s)

/-- `WRITE_MULTI` (R176). -/
def writeMultiRun (sector count : Word) (s : State) : Flow Unit :=
  (gate sector count.toNat s).andThen fun _ s =>
    let s := setDone 0 s
    if count = 0 then .stop (complete .ok s)
    else
      (startTransfer s.cfg.idxWrm sector s).andThen fun _ s =>
        (sendBlocks count.toNat 0 s).andThen fun _ s =>
          (stopWrite s).andThen finishWith

/-- `READ_BLOCK` (R164). -/
def execReadBlock (sector : Word) (s : State) : Host.Outcome State Fault Refusal := .next (readBlockRun sector s).state

/-- `WRITE_BLOCK` (R168). -/
def execWriteBlock (sector : Word) (s : State) : Host.Outcome State Fault Refusal :=
  .next (writeBlockRun sector s).state

/-- `READ_MULTI` (R172). -/
def execReadMulti (sector count : Word) (s : State) : Host.Outcome State Fault Refusal :=
  .next (readMultiRun sector count s).state

/-- `WRITE_MULTI` (R176). -/
def execWriteMulti (sector count : Word) (s : State) : Host.Outcome State Fault Refusal :=
  .next (writeMultiRun sector count s).state

end Sys2Proof.Machine
end

