-- ==== Sys2Proof/Machine/Dispatch.lean ====
section
/-!
DEFINITION. The dispatch: one arm per instruction, each one direct call of its meaning.
-/
namespace Sys2Proof.Machine

def exec (i : Instr) (s : State) : Host.Outcome State Fault Refusal :=
  match i with
  -- the checksum generators (spec/40_crc.md)
  | .crc7Clear => Sys2Proof.Machine.execCrc7Clear s
  | .crc7Byte b => Sys2Proof.Machine.execCrc7Byte b s
  | .crc7Bit d => Sys2Proof.Machine.execCrc7Bit d s
  | .crc7Read => Sys2Proof.Machine.execCrc7Read s
  | .frameBuild index arg => Sys2Proof.Machine.execFrameBuild index arg s
  | .crc16Clear => Sys2Proof.Machine.execCrc16Clear s
  | .crc16Byte b => Sys2Proof.Machine.execCrc16Byte b s
  | .crc16Read => Sys2Proof.Machine.execCrc16Read s
  -- the command framer (spec/41_command.md)
  | .sendCommand index arg ext keep => Sys2Proof.Machine.execSendCommand index arg ext keep s
  -- the initialisation state machine (spec/42_init.md)
  | .init => Sys2Proof.Machine.execInit s
  -- the block sequencer (spec/43_transfer.md)
  | .readBlock sector => Sys2Proof.Machine.execReadBlock sector s
  | .writeBlock sector => Sys2Proof.Machine.execWriteBlock sector s
  | .readMulti sector count => Sys2Proof.Machine.execReadMulti sector count s
  | .writeMulti sector count => Sys2Proof.Machine.execWriteMulti sector count s
  -- the status queries (spec/44_facade.md)
  | .ready => Sys2Proof.Machine.execReady s
  | .present => Sys2Proof.Machine.execPresent s
  | .cardType => Sys2Proof.Machine.execCardType s
  -- the wire commands (spec/30_encoding.md R72)
  | .cReset arg _ => Sys2Proof.Machine.execCReset arg s
  | .cOpcondMmc arg _ => Sys2Proof.Machine.execCOpcondMmc arg s
  | .cIfcond arg _ => Sys2Proof.Machine.execCIfcond arg s
  | .cStop arg _ => Sys2Proof.Machine.execCStop arg s
  | .cBlklen arg _ => Sys2Proof.Machine.execCBlklen arg s
  | .cRd1 arg _ => Sys2Proof.Machine.execCRd1 arg s
  | .cRdm arg _ => Sys2Proof.Machine.execCRdm arg s
  | .cWr1 arg _ => Sys2Proof.Machine.execCWr1 arg s
  | .cWrm arg _ => Sys2Proof.Machine.execCWrm arg s
  | .cOpcondApp arg _ => Sys2Proof.Machine.execCOpcondApp arg s
  | .cApp arg _ => Sys2Proof.Machine.execCApp arg s
  | .cOcr arg _ => Sys2Proof.Machine.execCOcr arg s

end Sys2Proof.Machine
end

