-- ==== Sys2Proof/Machine/HostSide.lean ====
section
/-!
DEFINITION. The host's side of the block (spec/10_state.md R33, R38; spec/60_exceptions.md R231;
spec/70_reset_and_hazards.md R240, R250): accepting a request, access to `buf`, register reads, hardware reset, and how
an instruction is placed where the next step finds it.
-/
namespace Sys2Proof.Machine

/-- A host write to `req` (R33): stored and started with `busy = 0`, ignored with `busy = 1`. -/
def hostWriteReq (w : ReqWord) (s : State) : State := if s.busy then s else { s with req := w, busy := true }

/-- The value of a host-readable register (R20, R231), in the low bits. -/
def regValue (r : HostReg) (s : State) : BitVec 48 :=
  match r with
  | .idGen => s.idGen.num.setWidth 48
  | .idAmode => s.idAmode.num.setWidth 48
  | .idCap => s.idCap.setWidth 48
  | .linkSel => boolVal s.linkSel
  | .linkClk => s.linkClk.num.setWidth 48
  | .linkReady => boolVal s.linkReady
  | .lastTimeout => boolVal s.lastTimeout
  | .fsm => s.fsm.num.setWidth 48
  | .crc7 => s.crc7.setWidth 48
  | .crc16 => s.crc16.setWidth 48
  | .frame => s.frame
  | .busy => boolVal s.busy
  | .result => s.result.num.setWidth 48
  | .resp => s.resp.setWidth 48
  | .val => s.val
  | .done => s.done.setWidth 48

/-- The datum a read puts on the host port: while `busy = 1` only `busy` itself reads as it is, every other read gives
a free value (R250, U1, log 10). -/
def readDatum (isBusyReg : Bool) (value : BitVec 48) (s : State) : BitVec 48 :=
  if s.busy && !isBusyReg then Config.freeHostRead s.host.seq else value

/-- The datum becomes the last one read; nothing else changes (R52: "Reads of host-visible registers have no side
effect"). -/
def deliver (datum : BitVec 48) (s : State) : State := { s with host := { s.host with rdata := datum } }

/-- Hardware reset (R240): every element of the block takes its reset value; the configuration, the environment and the
host stay. An operation in progress is abandoned (log 21). -/
def hardReset (s : State) : State := .resetWith s.cfg s.port s.host

/-- One move of the host. -/
def hostApply (a : HostAction) (s : State) : Host.Outcome State Fault Refusal :=
  match a with
  | .writeReq w => .next (hostWriteReq w s)
  | .writeBuf addr b =>
    if s.cfg.bufSize ≤ addr then .fault .noSuchBufAddress
    else if s.busy then .next s
    else .next (storeBuf addr b s)
  | .readReg r => .next (deliver (readDatum (r == .busy) (regValue r s) s) s)
  | .readBuf addr =>
    if s.cfg.bufSize ≤ addr then .fault .noSuchBufAddress
    else .next (deliver (readDatum false ((loadBuf addr s).setWidth 48) s) s)
  | .reset => .next (hardReset s)

/-- The host's next pending move is made; with none pending nothing happens (R8: the run has ended). -/
def hostTurn (s : State) : Host.Outcome State Fault Refusal :=
  match s.host.moves with
  | [] => .next s
  | m :: rest => hostApply m.act { s with host := { s.host with moves := rest, seq := s.host.seq + 1 } }

/-- The host's next pending move comes while the operation runs. -/
def hostIntrudes (s : State) : Bool :=
  match s.host.moves with
  | [] => false
  | m :: _ => m.duringOp

/-- A reserved op code (R76): `Complete(BadRequest)`. -/
def rejectRequest (s : State) : State := complete .badRequest s

/-- A request latched and started, and no move of the host in its way: the next step runs it (log 22). -/
def placeRequest (w : ReqWord) (s : State) : State :=
  { s with
    req := w
    busy := true
    cmd := none
    stalled := false
    host := { s.host with moves := s.host.moves.dropWhile fun m => m.duringOp } }

/-- A frame in the wire-command latch: the next step runs it (log 13, log 22). -/
def placeFrame (f : FrameWord) (s : State) : State := { s with cmd := some f, stalled := false }

end Sys2Proof.Machine
end

