-- ==== Sys2Proof/Machine/Step.lean ====
section
/-!
DEFINITION. One step of the machine. An operation that never ends lets only the host move (R258). Otherwise a frame in
the wire-command latch is run; else a started request is decoded and run whole (R74, R76, R250), unless the host's next
move comes first while it runs; else the host makes its next move.
-/
namespace Sys2Proof.Machine

/-- Run the latched request (R74); a reserved op code is rejected (R76). -/
def runRequest (s : State) : Host.Outcome State Fault Refusal :=
  match decodeReq s.req with
  | some i => exec i s
  | none => .next (rejectRequest s)

/-- Run the frame taken from the wire-command latch (log 13, log 15). -/
def runFrame (f : FrameWord) (s : State) : Host.Outcome State Fault Refusal :=
  match decodeFrame s.cfg f with
  | some i => exec i s
  | none => .refused .noSuchCommand

/-- One step. -/
def step (s : State) : Host.Outcome State Fault Refusal :=
  if s.stalled then hostTurn s
  else
    match s.cmd with
    | some f => runFrame f { s with cmd := none }
    | none =>
      if s.busy then (if hostIntrudes s then hostTurn s else runRequest s)
      else hostTurn s

/-- `s` with the table word stored where the next step finds it: a 48-bit row in the wire-command latch, a request in
`req` with `busy` set (log 22). -/
def State.withFetchWord (s : State) (nbits w : Nat) : State :=
  if nbits = 48 then placeFrame (BitVec.ofNat 48 w) s else placeRequest (BitVec.ofNat 72 w) s

end Sys2Proof.Machine
end

