-- ==== Sys2Proof/Safety.lean ====
section
/-!
DEFINITION. The terms claims use: the invariant of the machine, what the block puts on the bus, how the port moves on,
and the scripts of a card's answers under which an operation takes its course.
-/
namespace Sys2Proof.Machine

/-! ## The invariant -/

/-- `frame` is 0 (R240) or has start bit 0, transmission bit 1 and end bit 1 (R60, R78 (e)). -/
def frameFormOk (f : FrameWord) : Bool := f == 0 || (f.extractLsb' 46 2 == 0b01#2 && f.getLsbD 0)

/-- What holds of every state between steps (R29, R151, R203, R107, and the canonical form of `buf`). -/
structure State.Inv (s : State) : Prop where
  /-- `id.gen != 0` if and only if `fsm = Ready` (R29, R151 (b)) -/
  resolvedIffReady : s.idGen ≠ .unknown ↔ s.fsm = .ready
  /-- `link.clk = 1` if and only if `fsm = Ready` (R29, R151 (a)) -/
  fastIffReady : s.linkClk = .fast ↔ s.fsm = .ready
  /-- `id.amode = 1` implies `id.gen = 3` (R22, R151 (c)) -/
  blockOnlySd2 : s.idAmode = .block → s.idGen = .sd2
  /-- `id.cap` is always 0 (R23, R202) -/
  noCapacity : s.idCap = 0
  /-- `last_timeout = 1` implies `link.ready = 0` (R203) -/
  timeoutNotReady : s.lastTimeout = true → s.linkReady = false
  /-- between operations `fsm` is `Reset`, `Ready` or `Failed` (R29) -/
  fsmAtRest : s.stalled = false → s.fsm = .reset ∨ s.fsm = .ready ∨ s.fsm = .failed
  /-- an operation that never ends keeps `busy = 1` (R258) -/
  stalledBusy : s.stalled = true → s.busy = true
  /-- `done` counts at most `BUF_BLOCKS` blocks (R107) -/
  doneBound : s.done.toNat ≤ s.cfg.bufBlocks
  /-- the last frame built has its fixed bits (R78 (e)) -/
  frameForm : frameFormOk s.frame = true
  /-- `buf` is in canonical form -/
  bufWf : Memory.wf s.buf = true
  /-- `buf` has no byte outside its addresses (R47) -/
  bufInRange : Memory.inRange s.cfg.bufSize s.buf = true

/-- How a successful `INIT` leaves the block (R147, R151 (b), (c), (e)). -/
structure InitSucceeded (c : Config) (t : State) : Prop where
  result : t.result = .ok
  fsm : t.fsm = .ready
  resolved : t.idGen ≠ .unknown
  blockOnlySd2 : t.idAmode = .block → t.idGen = .sd2
  clk : t.linkClk = .fast
  ready : t.linkReady = true
  noTimeout : t.lastTimeout = false
  token : t.resp = 0
  crc : t.crc7 = crc7Of c.crc7Poly c.crc7Init (frameHead c.idxBlklen 512)
  frame : t.frame = frameWord c.idxBlklen 512 t.crc7

/-- How a failed `INIT` leaves the block (R148, R152, R225). -/
structure InitFailed (t : State) : Prop where
  result : t.result ∈ [Code.noResponse, .illegalCommand, .crcError, .addressError, .timeout, .badResponse]
  fsm : t.fsm = .failed
  unresolved : t.idGen = .unknown
  byteMode : t.idAmode = .byte
  clk : t.linkClk = .slow
  ready : t.linkReady = decide (t.result ≠ .noResponse ∧ t.result ≠ .badResponse)
  timedOut : t.lastTimeout = decide (t.result = .noResponse)

/-- How every `INIT` that ends leaves the block (R130, R151). -/
structure InitEnded (c : Config) (t : State) : Prop where
  busy : t.busy = false
  deselected : t.linkSel = false
  settled : t.settle = false
  noCapacity : t.idCap = 0
  outcome : InitSucceeded c t ∨ InitFailed t

/-! ## Classes of instructions and encodings -/

/-- The op codes R76 reserves. -/
def reservedOp (op : Byte) : Bool :=
  let n := op.toNat
  n == 0x00 || n == 0x06 || n == 0x07 || (0x0B ≤ n && n ≤ 0x0F) || (0x11 ≤ n && n ≤ 0x1F) || (0x21 ≤ n && n ≤ 0x2F) ||
    (0x34 ≤ n && n ≤ 0x3F) || (0x43 ≤ n && n ≤ 0xFF)

/-- The bits of a request word the operation with this op code uses (R74, R75, R77): the op code, and per operation the
bits of `a` and `b` its row of R75 names. -/
def usedBits (op : Byte) : ReqWord :=
  match op.toNat with
  | 0x02 | 0x09 => 0xFF_00000000_000000FF#72
  | 0x03 => 0xFF_00000000_00000001#72
  | 0x05 => 0xFF_FFFFFFFF_0000003F#72
  | 0x10 => 0xFF_FFFFFFFF_0000033F#72
  | 0x30 | 0x31 => 0xFF_FFFFFFFF_00000000#72
  | 0x32 | 0x33 => 0xFF_FFFFFFFF_FFFFFFFF#72
  | _ => 0xFF_00000000_00000000#72

/-- The operations with bus activity (R75); every wire command is sent on the bus (R72). -/
def usesBus : Instr → Bool
  | .crc7Clear | .crc7Byte _ | .crc7Bit _ | .crc7Read | .frameBuild .. | .crc16Clear | .crc16Byte _ | .crc16Read
  | .ready | .present | .cardType => false
  | .sendCommand .. | .init | .readBlock _ | .writeBlock _ | .readMulti .. | .writeMulti .. | .cReset ..
  | .cOpcondMmc .. | .cIfcond .. | .cStop .. | .cBlklen .. | .cRd1 .. | .cRdm .. | .cWr1 .. | .cWrm ..
  | .cOpcondApp .. | .cApp .. | .cOcr .. => true

/-- The operations that return a value in `val` (R36). -/
def writesVal : Instr → Bool
  | .crc7Read | .frameBuild .. | .crc16Read | .ready | .present | .cardType => true
  | .crc7Clear | .crc7Byte _ | .crc7Bit _ | .crc16Clear | .crc16Byte _ | .sendCommand .. | .init | .readBlock _
  | .writeBlock _ | .readMulti .. | .writeMulti .. | .cReset .. | .cOpcondMmc .. | .cIfcond .. | .cStop ..
  | .cBlklen .. | .cRd1 .. | .cRdm .. | .cWr1 .. | .cWrm .. | .cOpcondApp .. | .cApp .. | .cOcr .. => false

/-- The operations that write `crc16` (R31). -/
def writesCrc16 : Instr → Bool
  | .crc16Clear | .crc16Byte _ | .readBlock _ | .writeBlock _ | .readMulti .. | .writeMulti .. => true
  | .crc7Clear | .crc7Byte _ | .crc7Bit _ | .crc7Read | .frameBuild .. | .crc16Read | .sendCommand .. | .init | .ready
  | .present | .cardType | .cReset .. | .cOpcondMmc .. | .cIfcond .. | .cStop .. | .cBlklen .. | .cRd1 .. | .cRdm ..
  | .cWr1 .. | .cWrm .. | .cOpcondApp .. | .cApp .. | .cOcr .. => false

/-- The first buffer address the operation leaves alone (R38, R259): it stores only below. -/
def storesBelow : Instr → Nat
  | .readBlock _ => 512
  | .readMulti _ count => 512 * count.toNat
  | .crc7Clear | .crc7Byte _ | .crc7Bit _ | .crc7Read | .frameBuild .. | .crc16Clear | .crc16Byte _ | .crc16Read
  | .sendCommand .. | .init | .writeBlock _ | .writeMulti .. | .ready | .present | .cardType | .cReset ..
  | .cOpcondMmc .. | .cIfcond .. | .cStop .. | .cBlklen .. | .cRd1 .. | .cRdm .. | .cWr1 .. | .cWrm ..
  | .cOpcondApp .. | .cApp .. | .cOcr .. => 0

/-- The Token and Resel columns of R72: whether a wire command has a 5-byte token, and whether it reselects. -/
def wireShape : Instr → Bool × Bool
  | .cIfcond .. | .cOcr .. => (true, true)
  | .cStop .. => (false, false)
  | .cReset .. | .cOpcondMmc .. | .cBlklen .. | .cRd1 .. | .cRdm .. | .cWr1 .. | .cWrm .. | .cOpcondApp .. | .cApp ..
  | .crc7Clear | .crc7Byte _ | .crc7Bit _ | .crc7Read | .frameBuild .. | .crc16Clear | .crc16Byte _ | .crc16Read
  | .sendCommand .. | .init | .readBlock _ | .writeBlock _ | .readMulti .. | .writeMulti .. | .ready | .present
  | .cardType => (false, true)

/-! ## How a command and a transfer end -/

/-- The code, the token and the two flags after a command exchange (R112, R124, R225): either no response, or an
answered command, classified. -/
def CommandOutcome (ext : Bool) (code : Code) (t : State) : Prop :=
  (code = .noResponse ∧ t.lastTimeout = true ∧ t.linkReady = false ∧ isResponse (t.resp.extractLsb' 32 8) = false ∧
      t.resp.extractLsb' 0 32 = 0) ∨
    (code = classify (t.resp.extractLsb' 32 8) ∧ t.lastTimeout = false ∧ t.linkReady = true ∧
      isResponse (t.resp.extractLsb' 32 8) = true ∧ (ext = false → t.resp.extractLsb' 0 32 = 0))

/-- `link.ready` and `last_timeout` after a `READ_BLOCK` that passed the gate (R164, R225), by its result; nothing for
the results it cannot end with (R183). -/
def readFlags : Code → Option (Bool × Bool)
  | .ok | .dataCrcError | .illegalCommand | .crcError | .addressError => some (true, false)
  | .noResponse | .timeout => some (false, true)
  | .badResponse => some (false, false)
  | .programTimeout | .writeFault | .notReady | .badRequest => none

/-- The same for a `WRITE_BLOCK` or a `WRITE_MULTI` of at least one block (R168, R183, R225). -/
def writeFlags : Code → Option (Bool × Bool)
  | .ok | .illegalCommand | .crcError | .addressError => some (true, false)
  | .noResponse | .timeout | .programTimeout => some (false, true)
  | .badResponse | .dataCrcError | .writeFault => some (false, false)
  | .notReady | .badRequest => none

/-! ## The bus -/

/-- What the block itself puts on the port: a `Select` call or a sent byte. -/
inductive BusOut where
  | sel (on : Bool)
  | tx (b : Byte)
  deriving DecidableEq, Repr

/-- The block's part of an event (R46). -/
def BusEvent.out : BusEvent → BusOut
  | .sel on => .sel on
  | .x _ _ tx _ => .tx tx

/-- The block's part of a stretch of the history (newest event first), in the order performed. -/
def outputs (evs : List BusEvent) : List BusOut := evs.reverse.map BusEvent.out

/-- `n` idle bytes on the bus. -/
def idleOut (n : Nat) : List BusOut := List.replicate n (.tx Config.idleByte)

/-- The wire bytes of a frame on the bus (R112 step 4). -/
def frameOut (f : FrameWord) : List BusOut := (frameBytes f).map .tx

/-- The frame `SendCommand` and `FRAME_BUILD` build under a configuration (R99). -/
def builtFrame (c : Config) (index : BitVec 6) (arg : Word) : FrameWord :=
  frameWord index arg (crc7Of c.crc7Poly c.crc7Init (frameHead index arg))

/-- What `SendCommand` puts on the bus before its response poll (R120): the reselection, the settle bytes if they are
owed, the frame, the stuff bytes of a stop-transmission frame. -/
def commandHead (c : Config) (index : BitVec 6) (arg : Word) (resel settle : Bool) : List BusOut :=
  (if resel then [.sel false, .sel true] else []) ++ (if resel || settle then idleOut Config.nSettle else []) ++
    frameOut (builtFrame c index arg) ++ (if index = c.idxStop then idleOut c.nStuffStopCmd else [])

/-- `os` is what was put on the bus from `p` to `q`, in this order. -/
def Port.Sent (os : List BusOut) (p q : Port) : Prop := ∃ evs, q.hist = evs ++ p.hist ∧ outputs evs = os

/-- The event is an exchange, not a `Select` call (R46). -/
def BusEvent.isExchange : BusEvent → Bool
  | .sel _ => false
  | .x .. => true

/-- The exchanges in a stretch of the history. -/
def exchangesIn (evs : List BusEvent) : Nat := evs.countP BusEvent.isExchange

/-- The device-select level after these outputs, `on` being the level before. -/
def selAfter (on : Bool) : List BusOut → Bool
  | [] => on
  | .sel b :: os => selAfter b os
  | .tx _ :: os => selAfter on os

/-- No byte is sent while the device is deselected, `on` being the level before. -/
def sentSelected (on : Bool) : List BusOut → Bool
  | [] => true
  | .sel b :: os => sentSelected b os
  | .tx _ :: os => on && sentSelected on os

/-- Every exchange of a stretch of the history was made with this clock tier. -/
def AtTier (clk : ClkTier) (evs : List BusEvent) : Prop :=
  ∀ sel tier tx rx, BusEvent.x sel tier tx rx ∈ evs → tier = clk

/-- Each exchange of a stretch of the history (in the order performed) records the level the last `Select` before it
set, `on` being the level before the stretch (R46). -/
def recordsSelect (on : Bool) : List BusEvent → Bool
  | [] => true
  | .sel b :: evs => recordsSelect b evs
  | .x sel _ _ _ :: evs => sel == on && recordsSelect on evs

/-- The port only moves on (R44, R46): each exchange uses one answer and is in the history, ticks do not fall, and with
the free tail every exchange after the script's end passes a tick (log 6). -/
structure Port.MovesOn (p q : Port) : Prop where
  tail : q.tail = p.tail
  seq : p.seq ≤ q.seq
  script : q.script = p.script.drop (q.seq - p.seq)
  tick : p.tick ≤ q.tick
  hist : ∃ evs, q.hist = evs ++ p.hist ∧ exchangesIn evs = q.seq - p.seq
  progress : p.tail = .free → p.tick + ((q.seq - p.seq) - p.script.length) ≤ q.tick

/-! ## Scripts of answers -/

/-- The ticks that pass over a stretch of answers. -/
def ticksOf (l : List Answer) : Nat := (l.map Answer.ticks).sum

/-- The bytes received over a stretch of answers. -/
def rxOf (l : List Answer) : List Byte := l.map Answer.rx

/-- The port has used up exactly the answers `l`, with `os` put on the bus. -/
structure Port.Used (l rest : List Answer) (os : List BusOut) (p q : Port) : Prop where
  before : p.script = l ++ rest
  after : q.script = rest
  tail : q.tail = p.tail
  tick : q.tick = p.tick + ticksOf l
  sent : Port.Sent os p q

/-- Unsuccessful polls of a wait that stays within its budget (R182): no byte hits, and the ticks passed are below the
budget, which is tested after each of them. -/
def Gap (hit : Byte → Bool) (budget : Nat) (gap : List Answer) : Prop :=
  (∀ a ∈ gap, hit a.rx = false) ∧ (gap = [] ∨ ticksOf gap < budget)

/-- Answers that arrive before the response poll of a command begins (R120): to the settle bytes if they are sent, to
the frame, to the stuff bytes of a stop-transmission frame. -/
def leadLen (c : Config) (index : BitVec 6) (settle : Bool) : Nat :=
  (if settle then Config.nSettle else 0) + 6 + (if index = c.idxStop then c.nStuffStopCmd else 0)

/-- The answers to one command exchange (R120): the discarded ones, fewer than `N_RESP_POLL` bytes with bit 7 set, the
status byte, and with `ext` the four bytes of `e`. `settle` says whether settle bytes are sent. -/
def CommandAnswer (c : Config) (index : BitVec 6) (settle ext : Bool) (status : Byte) (e : Word) (l : List Answer) :
    Prop :=
  ∃ head polls st es,
    l = head ++ polls ++ st :: es ∧ head.length = leadLen c index settle ∧ (∀ a ∈ polls, isResponse a.rx = false) ∧
      polls.length < c.nRespPoll ∧ st.rx = status ∧ isResponse status = true ∧
      rxOf es = if ext then [e.extractLsb' 24 8, e.extractLsb' 16 8, e.extractLsb' 8 8, e.extractLsb' 0 8] else []

/-- The answers to a data block the block receives (R161): a gap of the token wait, the token, the payload, the two CRC
bytes. -/
def BlockAnswer (c : Config) (tok : Byte) (payload : List Byte) (crc : BitVec 16) (l : List Answer) : Prop :=
  ∃ gap a data hi lo,
    l = gap ++ a :: (data ++ [hi, lo]) ∧ Gap (fun r => r == tok) c.tToken gap ∧ a.rx = tok ∧ rxOf data = payload ∧
      payload.length = Config.blockLen ∧ hi.rx = crc.extractLsb' 8 8 ∧ lo.rx = crc.extractLsb' 0 8

/-- The answers to a wait that ends on an idle byte (R181, R163). -/
def IdleAnswer (budget : Nat) (l : List Answer) : Prop :=
  ∃ gap a, l = gap ++ [a] ∧ Gap (fun r => r == Config.idleByte) budget gap ∧ a.rx = Config.idleByte

/-- The answers to a data block the block sends (R162): the ready wait, 515 discarded bytes, the data response, and
after an accepting one the busy poll. -/
def SendAnswer (c : Config) (response : Byte) (l : List Answer) : Prop :=
  ∃ wait head d busy,
    l = wait ++ head ++ d :: busy ∧ IdleAnswer c.tReady wait ∧ head.length = Config.blockLen + 3 ∧ d.rx = response ∧
      if dataResponse c response = .ok then IdleAnswer c.tProgram busy else busy = []

/-- The answers to consecutive data blocks received with the given payloads, each followed by its own CRC-16. -/
inductive BlocksAnswer (c : Config) (tok : Byte) : List (List Byte) → List Answer → Prop where
  | nil : BlocksAnswer c tok [] []
  | cons {payload : List Byte} {more : List (List Byte)} {l rest : List Answer}
      (hblock : BlockAnswer c tok payload (crc16Of c.crc16Poly c.crc16Init payload) l)
      (hmore : BlocksAnswer c tok more rest) : BlocksAnswer c tok (payload :: more) (l ++ rest)

/-- The answers to `n` consecutive data blocks the block sends, each accepted. -/
inductive SendsAnswer (c : Config) : Nat → List Answer → Prop where
  | nil : SendsAnswer c 0 []
  | cons {n : Nat} {d : Byte} {l rest : List Answer} (hblock : SendAnswer c d l) (hok : dataResponse c d = .ok)
      (hmore : SendsAnswer c n rest) : SendsAnswer c (n + 1) (l ++ rest)

/-- A wait whose budget runs out (R182): no byte hits, and the budget is first reached with the last one. -/
def Expires (hit : Byte → Bool) (budget : Nat) (gap : List Answer) : Prop :=
  (∀ a ∈ gap, hit a.rx = false) ∧ gap ≠ [] ∧ budget ≤ ticksOf gap ∧
    (gap.dropLast = [] ∨ ticksOf gap.dropLast < budget)

/-- What a data block sent from `payload` puts on the bus (R70, R162): token, payload, CRC-16 high byte first, and the
exchange that reads the data response. -/
def blockOut (c : Config) (tok : Byte) (payload : List Byte) : List BusOut :=
  let crc := crc16Of c.crc16Poly c.crc16Init payload
  (tok :: payload ++ [crc.extractLsb' 8 8, crc.extractLsb' 0 8]).map .tx ++ idleOut 1

/-- What `n` data blocks sent from `buf`, from block `k` on, put on the bus (R176): for each block the ready wait, the
block, the busy poll. -/
inductive SendsOut (c : Config) (tok : Byte) (buf : Memory) : Nat → Nat → List BusOut → Prop where
  | nil {k : Nat} : SendsOut c tok buf k 0 []
  | cons {k n waits polls : Nat} {os : List BusOut} (hmore : SendsOut c tok buf (k + 1) n os) :
      SendsOut c tok buf k (n + 1)
        (idleOut waits ++ blockOut c tok (Memory.slice buf (512 * k) Config.blockLen) ++ idleOut polls ++ os)

/-- Answers to the rounds of `PollV2` (R140) from `spent` ticks on: the last round's query is answered with the idle
bit clear, each earlier one with the idle bit set and the budget not yet spent. -/
inductive V2Rounds (c : Config) : Nat → List Answer → Prop where
  | last {spent : Nat} {sa sq : Byte} {app query : List Answer}
      (happ : CommandAnswer c c.idxApp true false sa 0 app) (hquery : CommandAnswer c c.idxOpcondApp true false sq 0 query)
      (hsa : classify sa = .ok) (hsq : classify sq = .ok) (hidle : r1Idle sq = false) :
      V2Rounds c spent (app ++ query)
  | again {spent : Nat} {sa sq : Byte} {app query more : List Answer}
      (happ : CommandAnswer c c.idxApp true false sa 0 app) (hquery : CommandAnswer c c.idxOpcondApp true false sq 0 query)
      (hsa : classify sa = .ok) (hsq : classify sq = .ok) (hidle : r1Idle sq = true)
      (hbudget : spent + ticksOf (app ++ query) < c.tInit)
      (hmore : V2Rounds c (spent + ticksOf (app ++ query)) more) :
      V2Rounds c spent (app ++ query ++ more)

/-- Answers to the rounds of `PollLegacy` (R143, R144) for a card taken as `gen` (SD-version-1 or MMC), from `spent`
ticks on, up to the round that finds the card ready; `final` is what the card is classed as then. -/
inductive LegacyRounds (c : Config) : Gen → Nat → Gen → List Answer → Prop where
  /-- the application pair, idle bit clear -/
  | sd1Last {spent : Nat} {sa sq : Byte} {app query : List Answer}
      (happ : CommandAnswer c c.idxApp true false sa 0 app) (hquery : CommandAnswer c c.idxOpcondApp true false sq 0 query)
      (hsa : classify sa = .ok) (hsq : classify sq = .ok) (hidle : r1Idle sq = false) :
      LegacyRounds c .sd1 spent .sd1 (app ++ query)
  /-- the application pair, still idle -/
  | sd1Again {spent : Nat} {sa sq : Byte} {final : Gen} {app query more : List Answer}
      (happ : CommandAnswer c c.idxApp true false sa 0 app) (hquery : CommandAnswer c c.idxOpcondApp true false sq 0 query)
      (hsa : classify sa = .ok) (hsq : classify sq = .ok) (hidle : r1Idle sq = true)
      (hbudget : spent + ticksOf (app ++ query) < c.tInit)
      (hmore : LegacyRounds c .sd1 (spent + ticksOf (app ++ query)) final more) :
      LegacyRounds c .sd1 spent final (app ++ query ++ more)
  /-- illegal-command to the pre-command: re-classed as MMC -/
  | appIllegal {spent : Nat} {sa : Byte} {final : Gen} {app more : List Answer}
      (happ : CommandAnswer c c.idxApp true false sa 0 app) (hsa : classify sa = .illegalCommand)
      (hbudget : spent + ticksOf app < c.tInit) (hmore : LegacyRounds c .mmc (spent + ticksOf app) final more) :
      LegacyRounds c .sd1 spent final (app ++ more)
  /-- illegal-command to the query: re-classed as MMC -/
  | queryIllegal {spent : Nat} {sa sq : Byte} {final : Gen} {app query more : List Answer}
      (happ : CommandAnswer c c.idxApp true false sa 0 app) (hquery : CommandAnswer c c.idxOpcondApp true false sq 0 query)
      (hsa : classify sa = .ok) (hsq : classify sq = .illegalCommand)
      (hbudget : spent + ticksOf (app ++ query) < c.tInit)
      (hmore : LegacyRounds c .mmc (spent + ticksOf (app ++ query)) final more) :
      LegacyRounds c .sd1 spent final (app ++ query ++ more)
  /-- the non-application command, idle bit clear -/
  | mmcLast {spent : Nat} {sq : Byte} {query : List Answer}
      (hquery : CommandAnswer c c.idxOpcondMmc true false sq 0 query) (hsq : classify sq = .ok) (hidle : r1Idle sq = false) :
      LegacyRounds c .mmc spent .mmc query
  /-- the non-application command, still idle -/
  | mmcAgain {spent : Nat} {sq : Byte} {final : Gen} {query more : List Answer}
      (hquery : CommandAnswer c c.idxOpcondMmc true false sq 0 query) (hsq : classify sq = .ok) (hidle : r1Idle sq = true)
      (hbudget : spent + ticksOf query < c.tInit)
      (hmore : LegacyRounds c .mmc (spent + ticksOf query) final more) :
      LegacyRounds c .mmc spent final (query ++ more)

/-! ## Scripts under which a command, an initialisation or a stream of blocks fails -/

/-- The answers to a command the card leaves unanswered for the poll bound (R112, R116). -/
def CommandSilent (c : Config) (index : BitVec 6) (settle : Bool) (l : List Answer) : Prop :=
  ∃ head polls last,
    l = head ++ polls ++ [last] ∧ head.length = leadLen c index settle ∧ polls.length + 1 = c.nRespPoll ∧
      (∀ a ∈ polls, isResponse a.rx = false) ∧ isResponse last.rx = false

/-- The answers to a command sent with reselect that ends with a code other than `Ok` (R112). -/
def CommandFails (c : Config) (index : BitVec 6) (ext : Bool) (code : Code) (l : List Answer) : Prop :=
  (code = .noResponse ∧ CommandSilent c index true l) ∨
    (code ≠ .ok ∧ ∃ status e, CommandAnswer c index true ext status e l ∧ classify status = code)

/-- The answers to the reset command and the probe that class the card as `gen` (R134, R136): SD-version-2 by a correct
echo, SD-version-1 (for the time being) by illegal-command. -/
def Identified (c : Config) (gen : Gen) (l : List Answer) : Prop :=
  ∃ reset cond sr sc e,
    l = reset ++ cond ∧ CommandAnswer c c.idxReset true false sr 0 reset ∧ classify sr = .ok ∧ r1Idle sr = true ∧
      CommandAnswer c c.idxIfcond true true sc e cond ∧
      ((gen = .sd2 ∧ classify sc = .ok ∧ echoOk c e = true) ∨ (gen = .sd1 ∧ classify sc = .illegalCommand))

/-- The answers to one polling round that finds the card still idle (R140, R143, R144), for a card of the first class,
which it leaves in the second. -/
inductive IdleRound (c : Config) : Gen → Gen → List Answer → Prop where
  /-- the application pair, accepted -/
  | pair {g : Gen} {sa sq : Byte} {app query : List Answer} (hg : g = .sd2 ∨ g = .sd1)
      (happ : CommandAnswer c c.idxApp true false sa 0 app)
      (hquery : CommandAnswer c c.idxOpcondApp true false sq 0 query)
      (hsa : classify sa = .ok) (hsq : classify sq = .ok) (hidle : r1Idle sq = true) :
      IdleRound c g g (app ++ query)
  /-- illegal-command to the pre-command of a card taken as SD-version-1 -/
  | appIllegal {sa : Byte} {app : List Answer} (happ : CommandAnswer c c.idxApp true false sa 0 app)
      (hsa : classify sa = .illegalCommand) : IdleRound c .sd1 .mmc app
  /-- illegal-command to the query of a card taken as SD-version-1 -/
  | queryIllegal {sa sq : Byte} {app query : List Answer} (happ : CommandAnswer c c.idxApp true false sa 0 app)
      (hquery : CommandAnswer c c.idxOpcondApp true false sq 0 query) (hsa : classify sa = .ok)
      (hsq : classify sq = .illegalCommand) : IdleRound c .sd1 .mmc (app ++ query)
  /-- the non-application command -/
  | mmc {sq : Byte} {query : List Answer} (hquery : CommandAnswer c c.idxOpcondMmc true false sq 0 query)
      (hsq : classify sq = .ok) (hidle : r1Idle sq = true) : IdleRound c .mmc .mmc query

/-- Consecutive rounds that find the card still idle. -/
inductive IdleRounds (c : Config) : Gen → Gen → List Answer → Prop where
  | nil {g : Gen} : IdleRounds c g g []
  | cons {g g' final : Gen} {l more : List Answer} (hround : IdleRound c g g' l) (hmore : IdleRounds c g' final more) :
      IdleRounds c g final (l ++ more)

/-- The answers to a polling round in which a command of `INIT` fails with this code, for a card of this class (R140,
R144): illegal-command does not fail a card taken as SD-version-1 (R143). -/
inductive RoundFails (c : Config) : Gen → Code → List Answer → Prop where
  | app {g : Gen} {code : Code} {app : List Answer} (hg : g = .sd2 ∨ (g = .sd1 ∧ code ≠ .illegalCommand))
      (happ : CommandFails c c.idxApp false code app) : RoundFails c g code app
  | query {g : Gen} {code : Code} {sa : Byte} {app query : List Answer}
      (hg : g = .sd2 ∨ (g = .sd1 ∧ code ≠ .illegalCommand)) (happ : CommandAnswer c c.idxApp true false sa 0 app)
      (hsa : classify sa = .ok) (hquery : CommandFails c c.idxOpcondApp false code query) :
      RoundFails c g code (app ++ query)
  | mmc {code : Code} {query : List Answer} (hquery : CommandFails c c.idxOpcondMmc false code query) :
      RoundFails c .mmc code query

/-- The answers up to the block-length command: the card is identified, its polling rounds have ended within `T_INIT`,
and the register of an SD-version-2 card has been read (R134 to R145). -/
def CardReady (c : Config) (l : List Answer) : Prop :=
  (∃ ident rounds ocr so r, l = ident ++ rounds ++ ocr ∧ Identified c .sd2 ident ∧ V2Rounds c 0 rounds ∧
      CommandAnswer c c.idxOcr true true so r ocr ∧ classify so = .ok) ∨
    (∃ ident rounds final, l = ident ++ rounds ∧ Identified c .sd1 ident ∧ LegacyRounds c .sd1 0 final rounds)

/-- The answers after the power-up clocks under which `INIT` fails with this code (R152, cause by cause). -/
inductive InitFails (c : Config) : Code → List Answer → Prop where
  /-- the reset command fails (R133) -/
  | reset {code : Code} {l : List Answer} (h : CommandFails c c.idxReset false code l) : InitFails c code l
  /-- its idle bit is clear (R134) -/
  | notIdle {sr : Byte} {l : List Answer} (h : CommandAnswer c c.idxReset true false sr 0 l) (hsr : classify sr = .ok)
      (hidle : r1Idle sr = false) : InitFails c .badResponse l
  /-- the probe fails otherwise than with illegal-command (R136) -/
  | probe {code : Code} {sr : Byte} {reset cond : List Answer}
      (hreset : CommandAnswer c c.idxReset true false sr 0 reset) (hsr : classify sr = .ok) (hidle : r1Idle sr = true)
      (h : CommandFails c c.idxIfcond true code cond) (hcode : code ≠ .illegalCommand) :
      InitFails c code (reset ++ cond)
  /-- the probe is echoed wrongly (R136) -/
  | echo {sr sc : Byte} {e : Word} {reset cond : List Answer}
      (hreset : CommandAnswer c c.idxReset true false sr 0 reset) (hsr : classify sr = .ok) (hidle : r1Idle sr = true)
      (h : CommandAnswer c c.idxIfcond true true sc e cond) (hsc : classify sc = .ok) (hecho : echoOk c e = false) :
      InitFails c .badResponse (reset ++ cond)
  /-- a command of a polling round fails, `T_INIT` not yet spent (R140, R144) -/
  | poll {g g' : Gen} {code : Code} {ident rounds last : List Answer} (hident : Identified c g ident)
      (hrounds : IdleRounds c g g' rounds) (hbudget : rounds = [] ∨ ticksOf rounds < c.tInit)
      (h : RoundFails c g' code last) : InitFails c code (ident ++ rounds ++ last)
  /-- the card is still idle when `T_INIT` is spent (R138, R140, R144) -/
  | timeout {g g' g'' : Gen} {ident rounds last : List Answer} (hident : Identified c g ident)
      (hrounds : IdleRounds c g g' rounds) (hbudget : rounds = [] ∨ ticksOf rounds < c.tInit)
      (hlast : IdleRound c g' g'' last) (hover : c.tInit ≤ ticksOf (rounds ++ last)) :
      InitFails c .timeout (ident ++ rounds ++ last)
  /-- the register read of an SD-version-2 card fails (R145) -/
  | ocr {code : Code} {ident rounds ocr : List Answer} (hident : Identified c .sd2 ident) (hrounds : V2Rounds c 0 rounds)
      (h : CommandFails c c.idxOcr true code ocr) : InitFails c code (ident ++ rounds ++ ocr)
  /-- the block-length command fails (R146) -/
  | blklen {code : Code} {ready blklen : List Answer} (hready : CardReady c ready)
      (h : CommandFails c c.idxBlklen false code blklen) : InitFails c code (ready ++ blklen)
  /-- its status byte has another flag set (R146) -/
  | status {sb : Byte} {ready blklen : List Answer} (hready : CardReady c ready)
      (h : CommandAnswer c c.idxBlklen true false sb 0 blklen) (hsb : classify sb = .ok) (hne : sb ≠ 0) :
      InitFails c .badResponse (ready ++ blklen)

/-- The answers to the block loop of a `READ_MULTI` of `n` blocks (R172): the payloads of the leading blocks whose CRC
matched, the payload of a block whose CRC did not, and the code of the loop. -/
inductive StreamBlocks (c : Config) (n : Nat) : List (List Byte) → Option (List Byte) → Code → List Answer → Prop where
  | all {payloads : List (List Byte)} {l : List Answer} (hblocks : BlocksAnswer c c.tokStartMr payloads l)
      (hn : payloads.length = n) : StreamBlocks c n payloads none .ok l
  | badCrc {payloads : List (List Byte)} {payload : List Byte} {crc : BitVec 16} {l m : List Answer}
      (hblocks : BlocksAnswer c c.tokStartMr payloads l) (hn : payloads.length < n)
      (hbad : BlockAnswer c c.tokStartMr payload crc m) (hcrc : crc ≠ crc16Of c.crc16Poly c.crc16Init payload) :
      StreamBlocks c n payloads (some payload) .dataCrcError (l ++ m)
  | noToken {payloads : List (List Byte)} {l m : List Answer} (hblocks : BlocksAnswer c c.tokStartMr payloads l)
      (hn : payloads.length < n) (hwait : Expires (fun r => r == c.tokStartMr) c.tToken m) :
      StreamBlocks c n payloads none .timeout (l ++ m)

/-- The answers to the stop command that ends a stream and to the wait after it (R172, R173): the code of this end, and
whether the line was seen idle. -/
inductive StreamStop (c : Config) : Code → Bool → List Answer → List Answer → Prop where
  | idle {status : Byte} {stop wait : List Answer} (hstop : CommandAnswer c c.idxStop false false status 0 stop)
      (hwait : IdleAnswer c.tReady wait) : StreamStop c (classify status) true stop wait
  | busy {status : Byte} {stop wait : List Answer} (hstop : CommandAnswer c c.idxStop false false status 0 stop)
      (hwait : Expires (fun r => r == Config.idleByte) c.tReady wait) :
      StreamStop c (if classify status = .ok then .timeout else classify status) false stop wait
  | silent {stop : List Answer} (hstop : CommandSilent c c.idxStop false stop) :
      StreamStop c .noResponse false stop []

end Sys2Proof.Machine
end

