-- ==== Sys2Proof/Certificates/Slice0/Obligations.lean ====
section
/-!
DEFINITION. The statements about the model, one `def Obligations.<Name> : Prop` each, from the numbered rules of spec/.
Where a clause rests on a choice of the model its docstring names the log entry.
-/

open Sys2Proof Sys2Proof.Machine

/-! ## Reset, requests and steps -/

/-- R240: hardware reset puts every element of the block at its reset value, makes no port call, and the interface's
state after reset is one that reset leaves. -/
def Obligations.ResetSetsEveryElement : Prop :=
  (∀ s : State, ∃ t, hostApply .reset s = .next t ∧
    t.idGen = .unknown ∧ t.idAmode = .byte ∧ t.idCap = 0 ∧ t.linkSel = false ∧ t.linkClk = .slow ∧
    t.linkReady = false ∧ t.lastTimeout = false ∧ t.settle = false ∧ t.fsm = .reset ∧ t.crc7 = s.cfg.crc7Init ∧
    t.crc16 = s.cfg.crc16Init ∧ t.frame = 0 ∧ t.req = 0 ∧ t.busy = false ∧ t.result = .ok ∧ t.resp = 0 ∧ t.val = 0 ∧
    t.done = 0 ∧ (∀ a, Memory.read t.buf a = 0) ∧ t.pgen = .unknown ∧ t.pam = .byte ∧ t.t0 = 0 ∧ t.n = 0 ∧ t.k = 0 ∧
    t.code = .ok ∧ t.port = s.port ∧ t.cfg = s.cfg) ∧
  hostApply .reset State.reset = .next State.reset

/-- A step runs the instruction that the latched word decodes to (R74). The wire-command latch, the host's queue and
`withFetchWord` are the model's own (log 9, log 13, log 22). -/
def Obligations.StepRunsDecodedInstruction : Prop :=
  (∀ (s : State) (i : Instr), s.stalled = false → s.cmd = none → s.busy = true → hostIntrudes s = false →
    decode s.cfg (.request s.req) = some i → step s = exec i s) ∧
  (∀ (s : State) (f : FrameWord) (i : Instr), s.stalled = false → s.cmd = some f →
    decode s.cfg (.frame f) = some i → step s = exec i { s with cmd := none }) ∧
  (∀ (s : State) (w : ReqWord) (i : Instr), decode s.cfg (.request w) = some i →
    step (s.withFetchWord 72 w.toNat) = exec i (s.withFetchWord 72 w.toNat) ∧
      (s.withFetchWord 72 w.toNat).req = w ∧ (s.withFetchWord 72 w.toNat).busy = true) ∧
  (∀ (s : State) (f : FrameWord) (i : Instr), decode s.cfg (.frame f) = some i →
    step (s.withFetchWord 48 f.toNat) = exec i { s with stalled := false, cmd := none })

/-- R33, R250: a write of `req` is stored and starts the operation when the block is idle, and changes nothing when it
is busy. -/
def Obligations.RequestWriteIgnoredWhileBusy : Prop :=
  ∀ (w : ReqWord) (s : State),
    hostApply (.writeReq w) s = .next (if s.busy then s else { s with req := w, busy := true })

/-- R33, R74: a request the host writes to an idle block is run by the next step (the host's queue is the model's, log
9). -/
def Obligations.AcceptedRequestIsRun : Prop :=
  ∀ (s : State) (w : ReqWord) (i : Instr) (d : Bool) (rest : List HostMove),
    s.stalled = false → s.cmd = none → s.busy = false → s.host.moves = { act := .writeReq w, duringOp := d } :: rest →
    (∀ m, rest.head? = some m → m.duringOp = false) → decode s.cfg (.request w) = some i →
    ∃ t, step s = .next t ∧
      t = { s with req := w, busy := true, host := { s.host with moves := rest, seq := s.host.seq + 1 } } ∧
      step t = exec i t

/-- R76: the reserved operation codes are exactly the words that decode to no operation, and a request with one
completes with `BadRequest`, with no bus activity and no other change. -/
def Obligations.ReservedOpcodesAreRejected : Prop :=
  (∀ (c : Config) (w : ReqWord), decode c (.request w) = none ↔ reservedOp (reqOp w) = true) ∧
  (∀ s : State, s.stalled = false → s.cmd = none → s.busy = true → hostIntrudes s = false →
    reservedOp (reqOp s.req) = true → step s = .next { s with result := .badRequest, busy := false })

/-- R20, R52, R231, R250: what the host reads. A read changes nothing but the datum on the host port (the model's own
field, log 10). With `busy = 0` the datum is the register, zero-extended, an enumerated one by the number R21, R22, R25,
R29 or R210 gives it, or the byte; with `busy = 1` only `busy` itself is delivered, every other datum is a free value
(log 10). Outside the buffer a read faults (log 11). -/
def Obligations.HostReadsHaveNoSideEffect : Prop :=
  (∀ (r : HostReg) (s : State), ∃ d, hostApply (.readReg r) s = .next { s with host := { s.host with rdata := d } }) ∧
  (∀ (s : State) (read : HostReg → BitVec 48),
    (∀ r, ∃ t, hostApply (.readReg r) s = .next t ∧ t.host.rdata = read r) →
    read .busy = (if s.busy then 1 else 0) ∧
    (s.busy = false →
      read .idGen = (match s.idGen with | .unknown => 0 | .mmc => 1 | .sd1 => 2 | .sd2 => 3) ∧
      read .idAmode = (match s.idAmode with | .byte => 0 | .block => 1) ∧
      read .idCap = s.idCap.setWidth 48 ∧
      read .linkSel = (if s.linkSel then 1 else 0) ∧
      read .linkClk = (match s.linkClk with | .slow => 0 | .fast => 1) ∧
      read .linkReady = (if s.linkReady then 1 else 0) ∧
      read .lastTimeout = (if s.lastTimeout then 1 else 0) ∧
      read .fsm = (match s.fsm with
        | .reset => 0 | .idleProbe => 1 | .voltageCheck => 2 | .opCondPoll => 3 | .ready => 4 | .failed => 5) ∧
      read .crc7 = s.crc7.setWidth 48 ∧
      read .crc16 = s.crc16.setWidth 48 ∧
      read .frame = s.frame ∧
      read .result = (match s.result with
        | .ok => 0 | .noResponse => 1 | .illegalCommand => 2 | .crcError => 3 | .addressError => 4 | .dataCrcError => 5
        | .timeout => 6 | .programTimeout => 7 | .writeFault => 8 | .notReady => 9 | .badResponse => 10
        | .badRequest => 11) ∧
      read .resp = s.resp.setWidth 48 ∧
      read .val = s.val ∧
      read .done = s.done.setWidth 48)) ∧
  (∀ (a : Nat) (s : State), a < s.cfg.bufSize → ∃ d,
    hostApply (.readBuf a) s = .next { s with host := { s.host with rdata := d } } ∧
      (s.busy = false → d = (Memory.read s.buf a).setWidth 48)) ∧
  (∀ (a : Nat) (s : State), s.cfg.bufSize ≤ a → hostApply (.readBuf a) s = .fault .noSuchBufAddress)

/-- R38, R250: a host write to `buf` stores its byte when the block is idle and is ignored when it is busy; every other
byte is as before; outside the buffer it faults (log 11). -/
def Obligations.HostBufferWrites : Prop :=
  ∀ (a : Nat) (b : Byte) (s : State), Memory.wf s.buf = true →
    (s.cfg.bufSize ≤ a → hostApply (.writeBuf a b) s = .fault .noSuchBufAddress) ∧
    (a < s.cfg.bufSize → s.busy = true → hostApply (.writeBuf a b) s = .next s) ∧
    (a < s.cfg.bufSize → s.busy = false → ∃ m, hostApply (.writeBuf a b) s = .next { s with buf := m } ∧
      Memory.wf m = true ∧ ∀ x, Memory.read m x = if x = a then b else Memory.read s.buf x)

/-! ## Encodings -/

/-- Decoding an encoded instruction gives it back: every host operation with every operand value, and every wire
command with every argument and checksum, under every configuration whose twelve indices differ (R60 to R63, R72 to
R75, R80). -/
def Obligations.DecodeInvertsEncode : Prop :=
  ∀ (c : Config) (i : Instr), c.indicesDistinct = true → decode c (encode c i) = some i

/-- A request word that decodes to an operation is that operation's encoding but for the bits the operation does not
use (R74, R75, R77, R80). -/
def Obligations.UnusedRequestBitsAreIgnored : Prop :=
  (∀ (c : Config) (w : ReqWord) (i : Instr), decode c (.request w) = some i →
    encode c i = .request (w &&& usedBits (reqOp w))) ∧
  (∀ (c : Config) (w v : ReqWord), w &&& usedBits (reqOp w) = v &&& usedBits (reqOp w) →
    decode c (.request v) = decode c (.request w))

/-- A frame that decodes to a wire command is that command's encoding, bit for bit (R60, R61, R63, R72). -/
def Obligations.DecodedFrameIsTheEncoding : Prop :=
  ∀ (c : Config) (f : FrameWord) (i : Instr), decode c (.frame f) = some i → encode c i = .frame f

/-- Words written out from the spec's encodings decode to what they stand for (R72, R81). -/
def Obligations.SpecWordsDecode : Prop :=
  decodeTableWord 72 0x30_00000007_00000000 = some (.readBlock 7) ∧
  decodeTableWord 72 0x33_00000004_00000002 = some (.writeMulti 4 2) ∧
  decodeTableWord 72 0x10_00000000_0000013A = some (.sendCommand 58 0 true false) ∧
  decodeTableWord 72 0x05_000001AA_00000008 = some (.frameBuild 8 0x1AA) ∧
  decodeTableWord 72 0x02_00000000_00000040 = some (.crc7Byte 0x40) ∧
  decodeTableWord 72 0x42_00000000_00000000 = some .cardType ∧
  decodeTableWord 48 0x400000000095 = some (.cReset 0 0x4A) ∧
  decodeTableWord 48 0x48000001AA87 = some (.cIfcond 0x1AA 0x43) ∧
  decodeTableWord 48 0x4C0000000061 = some (.cStop 0 0x30) ∧
  decodeTableWord 48 0x7A00000000FD = some (.cOcr 0 0x7E)

/-! ## The checksum generators -/

/-- R90, R100: both registers hold the remainder of the bit sequence, first bit highest, times `x^7` or `x^16`, on
division by the generator polynomial whose low coefficients are the parameter. -/
def Obligations.CrcRegistersAreRemainders : Prop :=
  (∀ (p : BitVec 7) (bits : List Bool), ∃ q : Polynomial (ZMod 2),
    bits.foldl (fun m d => m * Polynomial.X + if d then 1 else 0) 0 * Polynomial.X ^ 7 =
      q * (Polynomial.X ^ 7 + ∑ i ∈ Finset.range 7, if p.getLsbD i then Polynomial.X ^ i else 0) +
        ∑ i ∈ Finset.range 7, if (bits.foldl (crc7Bit p) 0).getLsbD i then Polynomial.X ^ i else 0) ∧
  (∀ (p : BitVec 16) (bits : List Bool), ∃ q : Polynomial (ZMod 2),
    bits.foldl (fun m d => m * Polynomial.X + if d then 1 else 0) 0 * Polynomial.X ^ 16 =
      q * (Polynomial.X ^ 16 + ∑ i ∈ Finset.range 16, if p.getLsbD i then Polynomial.X ^ i else 0) +
        ∑ i ∈ Finset.range 16, if (bits.foldl (crc16Bit p) 0).getLsbD i then Polynomial.X ^ i else 0) ∧
  (∀ (p init : BitVec 7) (m : List Byte), crc7Of p init m = (m.flatMap bitsMsbFirst).foldl (crc7Bit p) init) ∧
  (∀ (p init : BitVec 16) (m : List Byte), crc16Of p init m = (m.flatMap bitsMsbFirst).foldl (crc16Bit p) init)

/-- R91, R101: one bit step as numbers (shift left by one inside the width, then the polynomial if the feedback bit is
1), and the seven flip-flop equations of R91 for the default polynomial. -/
def Obligations.CrcBitSteps : Prop :=
  (∀ (p c : BitVec 7) (d : Bool), (crc7Bit p c d).toNat =
    if (c.toNat / 64 % 2 == 1) != d then (c.toNat * 2 % 128) ^^^ p.toNat else c.toNat * 2 % 128) ∧
  (∀ (p c : BitVec 16) (d : Bool), (crc16Bit p c d).toNat =
    if (c.toNat / 32768 % 2 == 1) != d then (c.toNat * 2 % 65536) ^^^ p.toNat else c.toNat * 2 % 65536) ∧
  (∀ (q : BitVec 7) (d : Bool), let r := crc7Bit Config.default.crc7Poly q d; let fb := q.getLsbD 6 ^^ d
    r.getLsbD 0 = fb ∧ r.getLsbD 1 = q.getLsbD 0 ∧ r.getLsbD 2 = q.getLsbD 1 ∧ r.getLsbD 3 = (q.getLsbD 2 ^^ fb) ∧
      r.getLsbD 4 = q.getLsbD 3 ∧ r.getLsbD 5 = q.getLsbD 4 ∧ r.getLsbD 6 = q.getLsbD 5)

/-- R106 (a): both byte steps are linear, and an all-zero message leaves a zero register. -/
def Obligations.CrcStepsAreLinear : Prop :=
  (∀ (p c c' : BitVec 7) (b b' : Byte), crc7Byte p (c ^^^ c') (b ^^^ b') = crc7Byte p c b ^^^ crc7Byte p c' b') ∧
  (∀ (p c c' : BitVec 16) (b b' : Byte), crc16Byte p (c ^^^ c') (b ^^^ b') = crc16Byte p c b ^^^ crc16Byte p c' b') ∧
  (∀ (p : BitVec 7) (n : Nat) (m : List Byte), crc7Of p 0 (List.replicate n 0 ++ m) = crc7Of p 0 m) ∧
  (∀ (p : BitVec 16) (n : Nat) (m : List Byte), crc16Of p 0 (List.replicate n 0 ++ m) = crc16Of p 0 m)

/-- R106 (c): feeding a message and then its own checksum, highest bit first, leaves the register 0 (initial value
0). -/
def Obligations.CrcResidueIsZero : Prop :=
  (∀ (p : BitVec 7) (m : List Byte), ((List.range 7).reverse.map (crc7Of p 0 m).getLsbD).foldl (crc7Bit p)
    (crc7Of p 0 m) = 0) ∧
  (∀ (p : BitVec 16) (m : List Byte), ((List.range 16).reverse.map (crc16Of p 0 m).getLsbD).foldl (crc16Bit p)
    (crc16Of p 0 m) = 0)

/-- R106 (b), R166: with a polynomial whose constant term is 1 a single corrupted byte changes the CRC-16 of a message,
and a single corrupted bit its CRC-7. -/
def Obligations.CrcDetectsCorruption : Prop :=
  (∀ (p init : BitVec 16) (before after : List Byte) (b b' : Byte), p.getLsbD 0 = true → b ≠ b' →
    crc16Of p init (before ++ b :: after) ≠ crc16Of p init (before ++ b' :: after)) ∧
  (∀ (p init : BitVec 7) (before after : List Byte) (b : Byte) (i : Nat), p.getLsbD 0 = true → i < 8 →
    crc7Of p init (before ++ b :: after) ≠ crc7Of p init (before ++ (b ^^^ BitVec.ofNat 8 (2 ^ i)) :: after)) ∧
  Config.default.crc7Poly.getLsbD 0 = true ∧ Config.default.crc16Poly.getLsbD 0 = true

/-- R94 to R97: the four CRC-7 operations and their encodings, for every state; what is not named is as before. Eight
`CRC7_BIT` of a byte's bits equal one `CRC7_BYTE` (R96). -/
def Obligations.Crc7OperationsComplete : Prop :=
  (∀ s : State, exec .crc7Clear s = .next { s with crc7 := s.cfg.crc7Init, result := .ok, busy := false }) ∧
  (∀ (b : Byte) (s : State),
    exec (.crc7Byte b) s = .next { s with crc7 := crc7Byte s.cfg.crc7Poly s.crc7 b, result := .ok, busy := false }) ∧
  (∀ (d : Bool) (s : State),
    exec (.crc7Bit d) s = .next { s with crc7 := crc7Bit s.cfg.crc7Poly s.crc7 d, result := .ok, busy := false }) ∧
  (∀ s : State, ∃ v, exec .crc7Read s = .next { s with val := v, result := .ok, busy := false } ∧
    v.extractLsb' 1 7 = s.crc7 ∧ v.getLsbD 0 = true ∧ v.extractLsb' 8 40 = 0) ∧
  (∀ (p : BitVec 7), crc7Byte p 0 0 = 0) ∧ crc7Byte 0x09 0x00 0x40 = 0x64 ∧ crc7Bit 0x09 0x00 true = 0x09 ∧
  crc7Bit 0x09 0x09 false = 0x12 ∧ crc7Of 0x09 0x00 [0x40, 0, 0, 0, 0] = 0x4A ∧ checksumByte 0x4A = 0x95 ∧
  checksumByte Config.default.crc7Init = 0x01 ∧
  (∀ (c : Config) (a b : Word), decode c (.request (reqWord 0x01 a b)) = some .crc7Clear ∧
    decode c (.request (reqWord 0x02 a b)) = some (.crc7Byte (b.extractLsb' 0 8)) ∧
    decode c (.request (reqWord 0x03 a b)) = some (.crc7Bit (b.getLsbD 0)) ∧
    decode c (.request (reqWord 0x04 a b)) = some .crc7Read) ∧
  (∀ (b : Byte) (s : State), ((List.range 8).reverse.map b.getLsbD).foldl
      (fun (o : Host.Outcome State Fault Refusal) d =>
        match o with
        | .next t => exec (.crc7Bit d) t
        | .fault r => .fault r
        | .refused r => .refused r) (.next s) = exec (.crc7Byte b) s)

/-- R103 to R105: the three CRC-16 operations and their encodings, for every state; what is not named is as before. -/
def Obligations.Crc16OperationsComplete : Prop :=
  (∀ s : State, exec .crc16Clear s = .next { s with crc16 := s.cfg.crc16Init, result := .ok, busy := false }) ∧
  (∀ (b : Byte) (s : State),
    exec (.crc16Byte b) s = .next { s with crc16 := crc16Byte s.cfg.crc16Poly s.crc16 b, result := .ok, busy := false }) ∧
  (∀ s : State, ∃ v, exec .crc16Read s = .next { s with val := v, result := .ok, busy := false } ∧
    v.extractLsb' 0 16 = s.crc16 ∧ v.extractLsb' 16 32 = 0) ∧
  (∀ (c : Config) (a b : Word), decode c (.request (reqWord 0x08 a b)) = some .crc16Clear ∧
    decode c (.request (reqWord 0x09 a b)) = some (.crc16Byte (b.extractLsb' 0 8)) ∧
    decode c (.request (reqWord 0x0A a b)) = some .crc16Read) ∧
  Config.default.crc16Init.setWidth 48 = (0 : BitVec 48) ∧ crc16Byte 0x1021 0x0000 0x01 = 0x1021 ∧
  crc16Of 0x1021 0x0000 [0x31, 0x32, 0x33, 0x34, 0x35, 0x36, 0x37, 0x38, 0x39] = 0x31C3

/-- R98, R99 (with R60, R61, R63): `FRAME_BUILD` builds the frame field by field from a register that starts anew, for
every index and argument, the frame `SEND_COMMAND` would build, and sends nothing; what is not named is as before. -/
def Obligations.FrameBuildCompletes : Prop :=
  (∀ (index : BitVec 6) (arg : Word) (s : State), ∃ (crc : BitVec 7) (f : FrameWord),
    exec (.frameBuild index arg) s =
      .next { s with crc7 := crc, frame := f, val := f, result := .ok, busy := false } ∧
    f.extractLsb' 46 2 = 0b01#2 ∧ f.extractLsb' 40 6 = index ∧ f.extractLsb' 8 32 = arg ∧ f.extractLsb' 1 7 = crc ∧
    f.getLsbD 0 = true ∧
    crc = crc7Of s.cfg.crc7Poly s.cfg.crc7Init [f.extractLsb' 40 8, f.extractLsb' 32 8, f.extractLsb' 24 8,
      f.extractLsb' 16 8, f.extractLsb' 8 8] ∧
    ∀ ext keep : Bool, ∃ t, exec (.sendCommand index arg ext keep) s = .next t ∧ t.frame = f ∧ t.crc7 = crc) ∧
  (∀ (c : Config) (a b : Word),
    decode c (.request (reqWord 0x05 a b)) = some (.frameBuild (b.extractLsb' 0 6) a)) ∧
  builtFrame Config.default 8 0x1AA = 0x48000001AA87 ∧ crc7Of 0x09 0x00 (frameHead 8 0x1AA) = 0x43

/-! ## The status queries -/

/-- R200, R201, R203: `READY` and `PRESENT` answer from the stored state alone and change nothing else; in every state
that meets the invariant they answer the same. -/
def Obligations.ReadyAndPresentComplete : Prop :=
  (∀ s : State, exec .ready s = .next { s with
    val := if s.idGen ≠ .unknown ∧ s.linkReady = true then 1 else 0, result := .ok, busy := false }) ∧
  (∀ s : State, exec .present s = .next { s with
    val := if s.idGen ≠ .unknown ∧ s.linkReady = true ∧ s.lastTimeout = false then 1 else 0, result := .ok,
    busy := false }) ∧
  (∀ s : State, s.Inv → exec .present s = exec .ready s)

/-- R202: `CARD_TYPE`, op code `0x42`, returns generation, addressing mode and capacity hint in their fields, changes
nothing else, and in a state that meets the invariant returns one of five values. -/
def Obligations.CardTypeReturnsIdentity : Prop :=
  (∀ (c : Config) (a b : Word), decode c (.request (reqWord 0x42 a b)) = some .cardType) ∧
  ∀ s : State, ∃ v, exec .cardType s = .next { s with val := v, result := .ok, busy := false } ∧
    v.extractLsb' 0 2 = s.idGen.num ∧ v.extractLsb' 2 1 = s.idAmode.num ∧ v.extractLsb' 3 5 = 0 ∧
    v.extractLsb' 8 32 = s.idCap ∧ v.extractLsb' 40 8 = 0 ∧
    (s.Inv → v ∈ [(0x0 : BitVec 48), 0x1, 0x2, 0x3, 0x7]) ∧ (s.Inv → s.idGen = .unknown → v = 0)

/-! ## One command exchange -/

/-- R115, R124: the classification of a status byte, its priority, and the flags that are no failure. -/
def Obligations.ClassifyPriority : Prop :=
  ∀ r : Byte,
    (r.getLsbD 2 = true → classify r = .illegalCommand) ∧
    (r.getLsbD 2 = false → r.getLsbD 3 = true → classify r = .crcError) ∧
    (r.getLsbD 2 = false → r.getLsbD 3 = false → r.getLsbD 5 = true → classify r = .addressError) ∧
    (classify r = .ok ↔ r.getLsbD 2 = false ∧ r.getLsbD 3 = false ∧ r.getLsbD 5 = false) ∧
    classify r = classify (r &&& 0x2C#8)

/-- R112, R118, R124: `SEND_COMMAND` completes from every state, whatever the card answers: the frame built, the device
left selected, the code, token and flags, and nothing else changed. -/
def Obligations.SendCommandCompletes : Prop :=
  ∀ (index : BitVec 6) (arg : Word) (ext keep : Bool) (s : State), ∃ t,
    exec (.sendCommand index arg ext keep) s = .next t ∧
    t = { s with
      linkSel := !keep || s.linkSel
      settle := false
      linkReady := t.linkReady
      lastTimeout := t.lastTimeout
      crc7 := crc7Of s.cfg.crc7Poly s.cfg.crc7Init (frameHead index arg)
      frame := builtFrame s.cfg index arg
      n := t.n
      resp := t.resp
      port := t.port
      result := t.result
      busy := false } ∧
    CommandOutcome ext t.result t

/-- R120: what `SEND_COMMAND` puts on the bus, in order, and how many exchanges it makes at most. -/
def Obligations.SendCommandBusShape : Prop :=
  ∀ (index : BitVec 6) (arg : Word) (ext keep : Bool) (s : State), ∃ t polls evs,
    exec (.sendCommand index arg ext keep) s = .next t ∧ t.port.hist = evs ++ s.port.hist ∧
    outputs evs = commandHead s.cfg index arg (!keep) s.settle ++ idleOut polls ++
      (if ext = true ∧ t.result ≠ .noResponse then idleOut 4 else []) ∧
    polls ≤ s.cfg.nRespPoll ∧ (t.result ≠ .noResponse → 1 ≤ polls) ∧
    (t.result = .noResponse → polls = s.cfg.nRespPoll) ∧
    exchangesIn evs ≤ 8 + 6 + s.cfg.nStuffStopCmd + s.cfg.nRespPoll + 4

/-- R112, R116, R117: against a card that answers, `SEND_COMMAND` delivers its status byte and extension bytes in
`resp` and the classification in `result`; against one that stays silent for the poll bound, `NoResponse` and the last
byte polled. -/
def Obligations.SendCommandDeliversTheAnswer : Prop :=
  (∀ (index : BitVec 6) (arg : Word) (ext keep : Bool) (s : State) (l rest : List Answer) (status : Byte) (e : Word),
    s.port.script = l ++ rest → CommandAnswer s.cfg index (!keep || s.settle) ext status e l →
    ∃ t, exec (.sendCommand index arg ext keep) s = .next t ∧ t.result = classify status ∧
      t.resp.extractLsb' 32 8 = status ∧ t.resp.extractLsb' 0 32 = (if ext then e else 0) ∧ t.port.script = rest) ∧
  (∀ (index : BitVec 6) (arg : Word) (ext keep : Bool) (s : State) (head polls : List Answer) (last : Answer)
    (rest : List Answer),
    s.port.script = head ++ polls ++ last :: rest → head.length = leadLen s.cfg index (!keep || s.settle) →
    polls.length + 1 = s.cfg.nRespPoll → (∀ a ∈ polls, isResponse a.rx = false) → isResponse last.rx = false →
    ∃ t, exec (.sendCommand index arg ext keep) s = .next t ∧ t.result = .noResponse ∧
      t.resp.extractLsb' 32 8 = last.rx ∧ t.resp.extractLsb' 0 32 = 0 ∧ t.port.script = rest)

/-- R72, R112: each of the twelve wire commands, run alone (the model's way of running one, log 13), is one command
exchange with the Token and Resel columns of R72: it completes from every state, sends its own frame and nothing else
before the response poll, and leaves its code in `code`. A well-formed one sends exactly its encoding. -/
def Obligations.WireCommandsSendTheirFrame : Prop :=
  ∀ (i : Instr) (index : BitVec 6) (arg : Word) (crc : BitVec 7) (s : State),
    i.wireFields s.cfg = some (index, arg, crc) → ∃ t polls,
      exec i s = .next t ∧
      t = { s with
        linkSel := (wireShape i).2 || s.linkSel
        settle := false
        linkReady := t.linkReady
        lastTimeout := t.lastTimeout
        crc7 := crc7Of s.cfg.crc7Poly s.cfg.crc7Init (frameHead index arg)
        frame := builtFrame s.cfg index arg
        n := t.n
        resp := t.resp
        port := t.port
        code := t.code } ∧
      (i.wellFormed s.cfg = true → encode s.cfg i = .frame t.frame) ∧
      CommandOutcome (wireShape i).1 t.code t ∧ polls ≤ s.cfg.nRespPoll ∧
      Port.Sent (commandHead s.cfg index arg (wireShape i).2 s.settle ++ idleOut polls ++
        (if (wireShape i).1 = true ∧ t.code ≠ .noResponse then idleOut 4 else [])) s.port t.port

/-! ## Initialisation -/

/-- R151, R152 (with a tick source that goes on, the model's reading of R44's progress assumption, log 6): `INIT`
completes from every state: it ends deselected and settled, `Ok` with a resolved identity and the fast tier, or one of
six codes with the identity unknown and the slow tier. That `link.ready` is 0 after `BadResponse` is the model's
deduction (log 24): R225 sends a failed `INIT` to the row of its code, while R148's `Fail` writes no `link.ready`. -/
def Obligations.InitEndsReadyOrFailed : Prop :=
  ∀ s : State, s.port.tail = .free → ∃ t, exec .init s = .next t ∧ InitEnded s.cfg t ∧ t.stalled = s.stalled

/-- R130: what `INIT` does not write, in every state. -/
def Obligations.InitFrame : Prop :=
  ∀ s : State, ∃ t, exec .init s = .next t ∧
    t = { s with
      idGen := t.idGen
      idAmode := t.idAmode
      idCap := t.idCap
      linkSel := t.linkSel
      linkClk := t.linkClk
      linkReady := t.linkReady
      lastTimeout := t.lastTimeout
      settle := t.settle
      fsm := t.fsm
      crc7 := t.crc7
      frame := t.frame
      busy := t.busy
      result := t.result
      resp := t.resp
      pgen := t.pgen
      pam := t.pam
      t0 := t.t0
      n := t.n
      port := t.port
      stalled := t.stalled }

/-- R130 to R147, R154: a card that sees the reset command with its idle bit set, echoes the interface condition, ends
the polling rounds within `T_INIT`, answers the register read and accepts the block length is resolved as SD-version-2
with the addressing mode its register's bit gives; `INIT` takes exactly those answers. -/
def Obligations.InitResolvesVersion2 : Prop :=
  ∀ (s : State) (clocks reset cond rounds ocr blklen rest : List Answer) (sr sc so : Byte) (e r : Word),
    s.port.script = clocks ++ reset ++ cond ++ rounds ++ ocr ++ blklen ++ rest →
    clocks.length = s.cfg.nPowerupBytes →
    CommandAnswer s.cfg s.cfg.idxReset true false sr 0 reset → classify sr = .ok → r1Idle sr = true →
    CommandAnswer s.cfg s.cfg.idxIfcond true true sc e cond → classify sc = .ok → echoOk s.cfg e = true →
    V2Rounds s.cfg 0 rounds →
    CommandAnswer s.cfg s.cfg.idxOcr true true so r ocr → classify so = .ok →
    CommandAnswer s.cfg s.cfg.idxBlklen true false 0 0 blklen →
    ∃ t, exec .init s = .next t ∧ InitSucceeded s.cfg t ∧ t.idGen = .sd2 ∧
      t.idAmode = (if r.getLsbD s.cfg.ocrModeBit then .block else .byte) ∧ t.idCap = 0 ∧ t.port.script = rest

/-- R136, R143, R144: a card that answers the interface condition with illegal-command is resolved as SD-version-1 or,
once it has answered the application pair with illegal-command, as MMC; both byte-addressed, and no register is
read. -/
def Obligations.InitResolvesLegacy : Prop :=
  ∀ (s : State) (clocks reset cond rounds blklen rest : List Answer) (sr sc : Byte) (e : Word) (final : Gen),
    s.port.script = clocks ++ reset ++ cond ++ rounds ++ blklen ++ rest →
    clocks.length = s.cfg.nPowerupBytes →
    CommandAnswer s.cfg s.cfg.idxReset true false sr 0 reset → classify sr = .ok → r1Idle sr = true →
    CommandAnswer s.cfg s.cfg.idxIfcond true true sc e cond → classify sc = .illegalCommand →
    LegacyRounds s.cfg .sd1 0 final rounds →
    CommandAnswer s.cfg s.cfg.idxBlklen true false 0 0 blklen →
    ∃ t, exec .init s = .next t ∧ InitSucceeded s.cfg t ∧ t.idGen = final ∧ (final = .sd1 ∨ final = .mmc) ∧
      t.idAmode = .byte ∧ t.idCap = 0 ∧ t.port.script = rest

/-- R150: nothing from before the request enters an `INIT`. Two states with the same configuration and the same
answers to come, whatever else differs, give the same bus history segment and leave the same identity, link and
result. -/
def Obligations.InitDependsOnAnswersOnly : Prop :=
  ∀ s u : State, u.cfg = s.cfg → u.port.script = s.port.script → u.port.tail = s.port.tail →
    u.port.seq = s.port.seq → ∃ t v evs,
      exec .init s = .next t ∧ exec .init u = .next v ∧
      t.port.hist = evs ++ s.port.hist ∧ v.port.hist = evs ++ u.port.hist ∧
      v.idGen = t.idGen ∧ v.idAmode = t.idAmode ∧ v.idCap = t.idCap ∧ v.fsm = t.fsm ∧ v.linkSel = t.linkSel ∧
      v.linkClk = t.linkClk ∧ v.linkReady = t.linkReady ∧ v.lastTimeout = t.lastTimeout ∧ v.settle = t.settle ∧
      v.crc7 = t.crc7 ∧ v.frame = t.frame ∧ v.resp = t.resp ∧ v.busy = t.busy ∧
      (t.busy = false → v.result = t.result)

/-- R132, R254, R41: every `INIT` begins with `Select(false)` and the power-up clocks, deselected, on the slow tier, at
least 74 of them under the constraint of R10; no later byte of it is sent deselected. -/
def Obligations.InitBeginsWithClocks : Prop :=
  ∀ s : State, ∃ t later clocks,
    exec .init s = .next t ∧ t.port.hist = later ++ clocks ++ .sel false :: s.port.hist ∧
    clocks.length = s.cfg.nPowerupBytes ∧
    (∀ ev ∈ clocks, ∃ rx, ev = .x false .slow Config.idleByte rx) ∧
    sentSelected false (outputs later) = true ∧ (s.cfg.valid = true → 74 ≤ 8 * clocks.length)

/-! ## Transfers: gate, address, phases -/

/-- R221 (with R77, R204): the gate of the four transfer operations, its tests in order; a failing test completes the
operation with `result` and `busy` alone changed. A count of 0 passes the count test. -/
def Obligations.GateRefuses : Prop :=
  (∀ (s : State) (sector : Word) (count : Nat), gateCode s sector count =
    if s.idGen.num = 0 then some .notReady
    else if count > s.cfg.bufBlocks then some .badRequest
    else if s.idAmode.num = 0 ∧ sector.toNat ≥ 2 ^ 23 then some .badRequest
    else none) ∧
  (∀ (s : State) (sector count : Word) (code : Code),
    (gateCode s sector 1 = some code →
      exec (.readBlock sector) s = .next { s with result := code, busy := false } ∧
      exec (.writeBlock sector) s = .next { s with result := code, busy := false }) ∧
    (gateCode s sector count.toNat = some code →
      exec (.readMulti sector count) s = .next { s with result := code, busy := false } ∧
      exec (.writeMulti sector count) s = .next { s with result := code, busy := false }))

/-- R50, R51: address translation: the sector itself if block-addressed, 512 times it if byte-addressed, with no bit
lost below `2^23`; distinct sectors in range have distinct addresses. -/
def Obligations.AddressTranslation : Prop :=
  (∀ sector : Word, addrOf .block sector = sector) ∧
  (∀ sector : Word, sector.toNat < 2 ^ 23 →
    (addrOf .byte sector).toNat = sector.toNat * 512 ∧ (addrOf .byte sector).extractLsb' 0 9 = 0) ∧
  (∀ (mode : AddrMode) (a b : Word), sectorInRange mode a = true → sectorInRange mode b = true →
    addrOf mode a = addrOf mode b → a = b)

/-- R69: the data response is read by its low nibble alone, and every nibble but the three named is `BadResponse`. -/
def Obligations.DataResponseNibble : Prop :=
  (∀ (c : Config) (d : Byte), dataResponse c d = dataResponse c (d &&& 0x0F#8)) ∧
  (∀ d : Byte, dataResponse Config.default d =
    if d.toNat % 16 = 0x5 then .ok
    else if d.toNat % 16 = 0xB then .dataCrcError
    else if d.toNat % 16 = 0xD then .writeFault
    else .badResponse)

/-- R160: a read or write command answered with a status byte other than 0 ends the operation with that byte's
classification, or `BadResponse`, before any exchange of the data phase. -/
def Obligations.RefusedCommandEndsTransfer : Prop :=
  ∀ (s : State) (sector count : Word) (index : BitVec 6) (i : Instr) (l rest : List Answer) (status : Byte),
    (i = .readBlock sector ∧ index = s.cfg.idxRd1 ∧ gateCode s sector 1 = none) ∨
      (i = .writeBlock sector ∧ index = s.cfg.idxWr1 ∧ gateCode s sector 1 = none) ∨
      (i = .readMulti sector count ∧ index = s.cfg.idxRdm ∧ gateCode s sector count.toNat = none ∧ count ≠ 0) ∨
      (i = .writeMulti sector count ∧ index = s.cfg.idxWrm ∧ gateCode s sector count.toNat = none ∧ count ≠ 0) →
    s.port.script = l ++ rest → CommandAnswer s.cfg index true false status 0 l → status ≠ 0 →
    ∃ t polls, exec i s = .next t ∧
      t.result = (if classify status = .ok then .badResponse else classify status) ∧ t.busy = false ∧
      t.linkReady = decide (classify status ≠ .ok) ∧ t.lastTimeout = false ∧ t.linkSel = false ∧ t.buf = s.buf ∧
      t.crc16 = s.crc16 ∧ t.port.script = rest ∧
      Port.Sent (commandHead s.cfg index (addrOf s.idAmode sector) true s.settle ++ idleOut polls ++ [.sel false])
        s.port t.port

/-- R161, R164, R167: `READ_BLOCK` against a card that accepts the command and sends a block: the command carries the
translated sector, the payload is in block 0 of `buf` and nowhere else, the result says whether its CRC-16 matched. -/
def Obligations.ReadBlockCompletes : Prop :=
  ∀ (s : State) (sector : Word) (command block rest : List Answer) (payload : List Byte) (crc : BitVec 16),
    gateCode s sector 1 = none → Memory.wf s.buf = true → s.port.script = command ++ block ++ rest →
    CommandAnswer s.cfg s.cfg.idxRd1 true false 0 0 command → BlockAnswer s.cfg s.cfg.tokStart payload crc block →
    ∃ t polls, exec (.readBlock sector) s = .next t ∧
      t.result = (if crc = crc16Of s.cfg.crc16Poly s.cfg.crc16Init payload then .ok else .dataCrcError) ∧
      t.busy = false ∧ t.linkSel = false ∧ t.linkReady = true ∧ t.lastTimeout = false ∧ t.resp = 0 ∧
      t.frame = builtFrame s.cfg s.cfg.idxRd1 (addrOf s.idAmode sector) ∧
      t.crc16 = crc16Of s.cfg.crc16Poly s.cfg.crc16Init payload ∧
      Memory.slice t.buf 0 512 = payload ∧ (∀ a, 512 ≤ a → Memory.read t.buf a = Memory.read s.buf a) ∧
      t.port.script = rest ∧
      Port.Sent (commandHead s.cfg s.cfg.idxRd1 (addrOf s.idAmode sector) true s.settle ++ idleOut polls ++
        idleOut block.length ++ [.sel false]) s.port t.port

/-- R161, R165, R217: a start token that does not arrive within `T_TOKEN` ends `READ_BLOCK` with `Timeout`; `buf` and
`crc16` are unchanged. -/
def Obligations.ReadBlockTimesOut : Prop :=
  ∀ (s : State) (sector : Word) (command wait rest : List Answer),
    gateCode s sector 1 = none → s.port.script = command ++ wait ++ rest →
    CommandAnswer s.cfg s.cfg.idxRd1 true false 0 0 command →
    Expires (fun r => r == s.cfg.tokStart) s.cfg.tToken wait →
    ∃ t, exec (.readBlock sector) s = .next t ∧ t.result = .timeout ∧ t.busy = false ∧ t.linkSel = false ∧
      t.linkReady = false ∧ t.lastTimeout = true ∧ t.buf = s.buf ∧ t.crc16 = s.crc16 ∧ t.port.script = rest

/-- R162, R163, R168, R171: `WRITE_BLOCK` against a card that accepts the command and answers the block: it sends the
token, block 0 of `buf` and its CRC-16 after the ready wait, and the result is the data response's, after an accepting
one the busy poll's. -/
def Obligations.WriteBlockCompletes : Prop :=
  ∀ (s : State) (sector : Word) (command block rest : List Answer) (response : Byte),
    gateCode s sector 1 = none → s.port.script = command ++ block ++ rest →
    CommandAnswer s.cfg s.cfg.idxWr1 true false 0 0 command → SendAnswer s.cfg response block →
    ∃ t polls waits busy, exec (.writeBlock sector) s = .next t ∧ t.result = dataResponse s.cfg response ∧
      t.busy = false ∧ t.linkSel = false ∧ t.linkReady = decide (dataResponse s.cfg response = .ok) ∧
      t.lastTimeout = false ∧ t.frame = builtFrame s.cfg s.cfg.idxWr1 (addrOf s.idAmode sector) ∧
      t.crc16 = crc16Of s.cfg.crc16Poly s.cfg.crc16Init (Memory.slice s.buf 0 512) ∧ t.buf = s.buf ∧
      t.port.script = rest ∧
      Port.Sent (commandHead s.cfg s.cfg.idxWr1 (addrOf s.idAmode sector) true s.settle ++ idleOut polls ++
        idleOut waits ++ blockOut s.cfg s.cfg.tokStart (Memory.slice s.buf 0 512) ++ idleOut busy ++ [.sel false])
        s.port t.port

/-- R162, R163, R217, R218: in `WRITE_BLOCK` a ready wait that runs out gives `Timeout` with no block sent, a busy poll
that runs out after an accepting data response gives `ProgramTimeout`. -/
def Obligations.WriteBlockTimesOut : Prop :=
  (∀ (s : State) (sector : Word) (command wait rest : List Answer),
    gateCode s sector 1 = none → s.port.script = command ++ wait ++ rest →
    CommandAnswer s.cfg s.cfg.idxWr1 true false 0 0 command →
    Expires (fun r => r == Config.idleByte) s.cfg.tReady wait →
    ∃ t polls, exec (.writeBlock sector) s = .next t ∧ t.result = .timeout ∧ t.busy = false ∧ t.linkReady = false ∧
      t.lastTimeout = true ∧ t.crc16 = s.crc16 ∧ t.port.script = rest ∧
      Port.Sent (commandHead s.cfg s.cfg.idxWr1 (addrOf s.idAmode sector) true s.settle ++ idleOut polls ++
        idleOut wait.length ++ [.sel false]) s.port t.port) ∧
  (∀ (s : State) (sector : Word) (command wait head busy rest : List Answer) (d : Answer),
    gateCode s sector 1 = none → s.port.script = command ++ wait ++ head ++ d :: busy ++ rest →
    CommandAnswer s.cfg s.cfg.idxWr1 true false 0 0 command → IdleAnswer s.cfg.tReady wait →
    head.length = Config.blockLen + 3 → dataResponse s.cfg d.rx = .ok →
    Expires (fun r => r == Config.idleByte) s.cfg.tProgram busy →
    ∃ t, exec (.writeBlock sector) s = .next t ∧ t.result = .programTimeout ∧ t.busy = false ∧
      t.linkReady = false ∧ t.lastTimeout = true ∧ t.port.script = rest)

/-- R172 to R175: `READ_MULTI` of at least one block against a card that delivers every block, answers the stop command
and becomes idle: the payloads stand in the blocks of `buf` in order, `done` is the count, the result is the stop
command's. -/
def Obligations.ReadMultiCompletes : Prop :=
  ∀ (s : State) (sector count : Word) (command blocks stop idle rest : List Answer) (payloads : List (List Byte))
    (status : Byte),
    gateCode s sector count.toNat = none → Memory.wf s.buf = true → count ≠ 0 → payloads.length = count.toNat →
    s.port.script = command ++ blocks ++ stop ++ idle ++ rest →
    CommandAnswer s.cfg s.cfg.idxRdm true false 0 0 command →
    BlocksAnswer s.cfg s.cfg.tokStartMr payloads blocks →
    CommandAnswer s.cfg s.cfg.idxStop false false status 0 stop → IdleAnswer s.cfg.tReady idle →
    ∃ t polls polls', exec (.readMulti sector count) s = .next t ∧ t.result = classify status ∧ t.done = count ∧
      t.busy = false ∧ t.linkSel = false ∧ t.linkReady = true ∧ t.lastTimeout = false ∧
      t.frame = builtFrame s.cfg s.cfg.idxStop 0 ∧
      (∀ k (h : k < payloads.length), Memory.slice t.buf (512 * k) 512 = payloads[k]) ∧
      (∀ a, 512 * count.toNat ≤ a → Memory.read t.buf a = Memory.read s.buf a) ∧ t.port.script = rest ∧
      Port.Sent (commandHead s.cfg s.cfg.idxRdm (addrOf s.idAmode sector) true s.settle ++ idleOut polls ++
        idleOut blocks.length ++ commandHead s.cfg s.cfg.idxStop 0 false false ++ idleOut polls' ++
        idleOut idle.length ++ [.sel false]) s.port t.port

/-- R176 to R179: `WRITE_MULTI` of at least one block against a card that accepts every block: the blocks of `buf` are
sent in order, each with its own token and CRC-16, then the stop token; `done` is the count. -/
def Obligations.WriteMultiCompletes : Prop :=
  ∀ (s : State) (sector count : Word) (command blocks stuff busy rest : List Answer) (stop : Answer),
    gateCode s sector count.toNat = none → count ≠ 0 →
    s.port.script = command ++ blocks ++ stop :: stuff ++ busy ++ rest →
    CommandAnswer s.cfg s.cfg.idxWrm true false 0 0 command → SendsAnswer s.cfg count.toNat blocks →
    stuff.length = s.cfg.nStuffStopTok → IdleAnswer s.cfg.tProgram busy →
    ∃ t polls os, exec (.writeMulti sector count) s = .next t ∧ t.result = .ok ∧ t.done = count ∧
      t.busy = false ∧ t.linkSel = false ∧ t.linkReady = true ∧ t.lastTimeout = false ∧ t.buf = s.buf ∧
      t.frame = builtFrame s.cfg s.cfg.idxWrm (addrOf s.idAmode sector) ∧ t.port.script = rest ∧
      SendsOut s.cfg s.cfg.tokStartMw s.buf 0 count.toNat os ∧
      Port.Sent (commandHead s.cfg s.cfg.idxWrm (addrOf s.idAmode sector) true s.settle ++ idleOut polls ++ os ++
        .tx s.cfg.tokStop :: idleOut s.cfg.nStuffStopTok ++ idleOut busy.length ++ [.sel false]) s.port t.port

/-- R172, R174, R176, R178: a count of 0 that passes the gate is `Ok` at once with `done = 0` and nothing else. -/
def Obligations.EmptyMultiCompletes : Prop :=
  ∀ (s : State) (sector : Word), gateCode s sector 0 = none →
    exec (.readMulti sector 0) s = .next { s with done := 0, result := .ok, busy := false } ∧
    exec (.writeMulti sector 0) s = .next { s with done := 0, result := .ok, busy := false }

/-- R180: multi-block and single-block operations agree. The blocks one `READ_MULTI` leaves in `buf` are, one by one,
what `READ_BLOCK` of the same sectors leaves in block 0 from a card that delivers the same payloads; block k of one
`WRITE_MULTI` is sent with the payload and CRC bytes with which `WRITE_BLOCK` sends a block 0 that holds the same
data. -/
def Obligations.MultiBlockEqualsSingleBlocks : Prop :=
  (∀ (s : State) (sector count : Word) (command blocks stop idle rest : List Answer) (payloads : List (List Byte))
    (status : Byte),
    gateCode s sector count.toNat = none → Memory.wf s.buf = true → count ≠ 0 → payloads.length = count.toNat →
    s.port.script = command ++ blocks ++ stop ++ idle ++ rest →
    CommandAnswer s.cfg s.cfg.idxRdm true false 0 0 command →
    BlocksAnswer s.cfg s.cfg.tokStartMr payloads blocks →
    CommandAnswer s.cfg s.cfg.idxStop false false status 0 stop → classify status = .ok →
    IdleAnswer s.cfg.tReady idle →
    ∃ t, exec (.readMulti sector count) s = .next t ∧ t.result = .ok ∧ t.done = count ∧
      ∀ (k : Nat) (hk : k < payloads.length) (u : State) (command' block' rest' : List Answer),
        u.cfg = s.cfg → u.idAmode = s.idAmode → gateCode u (sector + BitVec.ofNat 32 k) 1 = none →
        Memory.wf u.buf = true → u.port.script = command' ++ block' ++ rest' →
        CommandAnswer u.cfg u.cfg.idxRd1 true false 0 0 command' →
        BlockAnswer u.cfg u.cfg.tokStart payloads[k] (crc16Of u.cfg.crc16Poly u.cfg.crc16Init payloads[k]) block' →
        ∃ v, exec (.readBlock (sector + BitVec.ofNat 32 k)) u = .next v ∧ v.result = .ok ∧
          Memory.slice v.buf 0 512 = Memory.slice t.buf (512 * k) 512) ∧
  (∀ (s : State) (sector count : Word) (command blocks stuff busy rest : List Answer) (stop : Answer),
    gateCode s sector count.toNat = none → count ≠ 0 →
    s.port.script = command ++ blocks ++ stop :: stuff ++ busy ++ rest →
    CommandAnswer s.cfg s.cfg.idxWrm true false 0 0 command → SendsAnswer s.cfg count.toNat blocks →
    stuff.length = s.cfg.nStuffStopTok → IdleAnswer s.cfg.tProgram busy →
    ∃ t, exec (.writeMulti sector count) s = .next t ∧ t.result = .ok ∧ t.done = count ∧
      ∀ (k : Nat) (u : State) (command' block' rest' : List Answer) (d : Byte),
        k < count.toNat → u.cfg = s.cfg → gateCode u (sector + BitVec.ofNat 32 k) 1 = none →
        Memory.slice u.buf 0 512 = Memory.slice s.buf (512 * k) 512 →
        u.port.script = command' ++ block' ++ rest' → CommandAnswer u.cfg u.cfg.idxWr1 true false 0 0 command' →
        SendAnswer u.cfg d block' → dataResponse u.cfg d = .ok →
        ∃ v before after before' after' wire, exec (.writeBlock (sector + BitVec.ofNat 32 k)) u = .next v ∧
          v.result = .ok ∧ wire.length = 515 ∧
          wire = (blockOut s.cfg s.cfg.tokStart (Memory.slice s.buf (512 * k) 512)).tail ∧
          Port.Sent (before ++ .tx s.cfg.tokStartMw :: wire ++ after) s.port t.port ∧
          Port.Sent (before' ++ .tx s.cfg.tokStart :: wire ++ after') u.port v.port)

/-- R184: the round trip, for both addressing modes. `WRITE_BLOCK` sends block 0 of `buf` to the address of the sector;
if the card then returns, on a `READ_BLOCK` of the same sector, the payload it was sent, with its CRC-16, block 0 of
`buf` after the read is block 0 before the write, and both frames carry the same argument. -/
def Obligations.WriteThenReadReturnsTheData : Prop :=
  ∀ (s : State) (sector : Word) (command block rest : List Answer) (response : Byte),
    gateCode s sector 1 = none → s.port.script = command ++ block ++ rest →
    CommandAnswer s.cfg s.cfg.idxWr1 true false 0 0 command → SendAnswer s.cfg response block →
    dataResponse s.cfg response = .ok →
    ∃ t payload polls waits busy, exec (.writeBlock sector) s = .next t ∧ t.result = .ok ∧ payload.length = 512 ∧
      Port.Sent (commandHead s.cfg s.cfg.idxWr1 (addrOf s.idAmode sector) true s.settle ++ idleOut polls ++
        idleOut waits ++ blockOut s.cfg s.cfg.tokStart payload ++ idleOut busy ++ [.sel false]) s.port t.port ∧
      ∀ (u : State) (command' block' rest' : List Answer), u.cfg = s.cfg → u.idAmode = s.idAmode →
        gateCode u sector 1 = none → Memory.wf u.buf = true → u.port.script = command' ++ block' ++ rest' →
        CommandAnswer u.cfg u.cfg.idxRd1 true false 0 0 command' →
        BlockAnswer u.cfg u.cfg.tokStart payload (crc16Of u.cfg.crc16Poly u.cfg.crc16Init payload) block' →
        ∃ v, exec (.readBlock sector) u = .next v ∧ v.result = .ok ∧
          Memory.slice v.buf 0 512 = Memory.slice s.buf 0 512 ∧
          v.frame.extractLsb' 8 32 = t.frame.extractLsb' 8 32

/-- R164, R168, R172, R183, R225: with a tick source that goes on (log 6), the four transfer operations, once past the
gate, end deselected and settled with one of the codes of R183, and that code determines `link.ready` and
`last_timeout`; after a failed `READ_MULTI` these are what its last step left (R225), never an idle line after a
timeout. -/
def Obligations.TransferEndsWithItsFlags : Prop :=
  ∀ (s : State) (sector count : Word), s.port.tail = .free →
    (gateCode s sector 1 = none → ∃ t, exec (.readBlock sector) s = .next t ∧ t.busy = false ∧ t.linkSel = false ∧
      t.settle = false ∧ readFlags t.result = some (t.linkReady, t.lastTimeout)) ∧
    (gateCode s sector 1 = none → ∃ t, exec (.writeBlock sector) s = .next t ∧ t.busy = false ∧ t.linkSel = false ∧
      t.settle = false ∧ writeFlags t.result = some (t.linkReady, t.lastTimeout)) ∧
    (gateCode s sector count.toNat = none → count ≠ 0 → ∃ t, exec (.writeMulti sector count) s = .next t ∧
      t.busy = false ∧ t.linkSel = false ∧ t.settle = false ∧
      writeFlags t.result = some (t.linkReady, t.lastTimeout) ∧ t.done.toNat ≤ count.toNat ∧
      (t.result = .ok → t.done = count)) ∧
    (gateCode s sector count.toNat = none → count ≠ 0 → ∃ t, exec (.readMulti sector count) s = .next t ∧
      t.busy = false ∧ t.linkSel = false ∧ t.settle = false ∧ (readFlags t.result).isSome = true ∧
      (t.lastTimeout = true → t.linkReady = false) ∧ t.done.toNat ≤ count.toNat ∧
      (t.result = .ok → t.linkReady = true ∧ t.lastTimeout = false ∧ t.done = count))

/-! ## Frames -/

/-- R164, R172, R259: what the two read operations leave alone, in every state: everything but the registers named, and
of `buf` every byte outside the blocks they fill. -/
def Obligations.ReadFrame : Prop :=
  (∀ (sector : Word) (s t : State), exec (.readBlock sector) s = .next t →
    t = { s with
      linkSel := t.linkSel
      linkReady := t.linkReady
      lastTimeout := t.lastTimeout
      settle := t.settle
      crc7 := t.crc7
      crc16 := t.crc16
      frame := t.frame
      busy := t.busy
      result := t.result
      resp := t.resp
      buf := t.buf
      t0 := t.t0
      n := t.n
      code := t.code
      port := t.port
      stalled := t.stalled } ∧
    ∀ a, 512 ≤ a → Memory.read t.buf a = Memory.read s.buf a) ∧
  (∀ (sector count : Word) (s t : State), exec (.readMulti sector count) s = .next t →
    t = { s with
      linkSel := t.linkSel
      linkReady := t.linkReady
      lastTimeout := t.lastTimeout
      settle := t.settle
      crc7 := t.crc7
      crc16 := t.crc16
      frame := t.frame
      busy := t.busy
      result := t.result
      resp := t.resp
      done := t.done
      buf := t.buf
      t0 := t.t0
      n := t.n
      k := t.k
      code := t.code
      port := t.port
      stalled := t.stalled } ∧
    ∀ a, 512 * count.toNat ≤ a → Memory.read t.buf a = Memory.read s.buf a)

/-- R168, R176, R259: what the two write operations leave alone, in every state: all of `buf`, and every register not
named. -/
def Obligations.WriteFrame : Prop :=
  (∀ (sector : Word) (s t : State), exec (.writeBlock sector) s = .next t →
    t = { s with
      linkSel := t.linkSel
      linkReady := t.linkReady
      lastTimeout := t.lastTimeout
      settle := t.settle
      crc7 := t.crc7
      crc16 := t.crc16
      frame := t.frame
      busy := t.busy
      result := t.result
      resp := t.resp
      t0 := t.t0
      n := t.n
      code := t.code
      port := t.port
      stalled := t.stalled }) ∧
  (∀ (sector count : Word) (s t : State), exec (.writeMulti sector count) s = .next t →
    t = { s with
      linkSel := t.linkSel
      linkReady := t.linkReady
      lastTimeout := t.lastTimeout
      settle := t.settle
      crc7 := t.crc7
      crc16 := t.crc16
      frame := t.frame
      busy := t.busy
      result := t.result
      resp := t.resp
      done := t.done
      t0 := t.t0
      n := t.n
      k := t.k
      code := t.code
      port := t.port
      stalled := t.stalled })

/-! ## The whole machine -/

/-- R21, R22, R23, R25, R29, R7: over every instruction: only `INIT` writes the identity, the clock tier, `fsm` and its
classification registers; nothing writes the configuration. -/
def Obligations.OnlyInitWritesIdentity : Prop :=
  ∀ (i : Instr) (s t : State), exec i s = .next t → t.cfg = s.cfg ∧
    (i ≠ .init → t.idGen = s.idGen ∧ t.idAmode = s.idAmode ∧ t.idCap = s.idCap ∧ t.linkClk = s.linkClk ∧
      t.fsm = s.fsm ∧ t.pgen = s.pgen ∧ t.pam = s.pam)

/-- R31, R33, R36, R37, R38, R75, R259: over every instruction: who writes `val`, `crc16`, `done` and `buf`; nothing
writes `req` or the host's queue; an operation without bus activity leaves the port and the link alone. -/
def Obligations.EachRegisterHasItsWriters : Prop :=
  ∀ (i : Instr) (s t : State), exec i s = .next t →
    (writesVal i = false → t.val = s.val) ∧ (writesCrc16 i = false → t.crc16 = s.crc16) ∧
    ((∀ a n, i ≠ .readMulti a n ∧ i ≠ .writeMulti a n) → t.done = s.done) ∧
    (∀ a, storesBelow i ≤ a → Memory.read t.buf a = Memory.read s.buf a) ∧ t.req = s.req ∧ t.host = s.host ∧
    t.cmd = s.cmd ∧
    (usesBus i = false → t.port = s.port ∧ t.linkSel = s.linkSel ∧ t.linkClk = s.linkClk ∧
      t.linkReady = s.linkReady ∧ t.lastTimeout = s.lastTimeout ∧ t.settle = s.settle ∧ t.resp = s.resp)

/-- R8, R211: with a tick source that goes on (the model's reading of R44's progress assumption, log 6) every
instruction ends: a host operation with `busy = 0`; a wire command, run alone in the model's own way (log 13), with
`busy` and `result` as they were (R111). -/
def Obligations.EveryOperationEnds : Prop :=
  ∀ (i : Instr) (s : State), s.port.tail = .free → ∃ t, exec i s = .next t ∧ t.stalled = s.stalled ∧
    (i.wireFields s.cfg = none → t.busy = false) ∧
    (i.wireFields s.cfg ≠ none → t.busy = s.busy ∧ t.result = s.result)

/-- R44, R46, R54: over every instruction the port only moves on: one answer used and one event recorded an exchange,
ticks not falling, the history extended and never changed. That one tick at least passes at each exchange past the
script, with the free tail (`Port.MovesOn.progress`), is the model's choice (log 6, PRESUMED), and that answers stand in
a script is too (log 4); no rule says either. -/
def Obligations.HistoryOnlyGrows : Prop :=
  ∀ (i : Instr) (s t : State), exec i s = .next t → Port.MovesOn s.port t.port

/-- R46, R15: over every instruction, each exchange in the history records the device-select level of the last
`Select`, and `link.sel` is the level of the last one. -/
def Obligations.HistoryRecordsSelect : Prop :=
  ∀ (i : Instr) (s t : State), exec i s = .next t → ∃ evs, t.port.hist = evs ++ s.port.hist ∧
    recordsSelect s.linkSel evs.reverse = true ∧ selAfter s.linkSel (outputs evs) = t.linkSel

/-- R255: every exchange of `INIT` is made on the slow tier, every exchange of a transfer on the fast tier (in a state
that meets the invariant), every exchange of `SEND_COMMAND` on the current one. -/
def Obligations.ClockTierOfExchanges : Prop :=
  (∀ s t : State, exec .init s = .next t → ∃ evs, t.port.hist = evs ++ s.port.hist ∧ AtTier .slow evs) ∧
  (∀ (sector count : Word) (i : Instr) (s t : State), s.Inv →
    i = .readBlock sector ∨ i = .writeBlock sector ∨ i = .readMulti sector count ∨ i = .writeMulti sector count →
    exec i s = .next t → ∃ evs, t.port.hist = evs ++ s.port.hist ∧ AtTier .fast evs) ∧
  (∀ (index : BitVec 6) (arg : Word) (ext keep : Bool) (s t : State),
    exec (.sendCommand index arg ext keep) s = .next t →
    ∃ evs, t.port.hist = evs ++ s.port.hist ∧ AtTier s.linkClk evs)

/-- R258: on a tick source that stands still below the budget, an operation whose awaited byte does not come never ends:
`busy` stays 1. The answers so far may be any that do not end the wait, changing or not; then the tail says that nothing
ends it (log 7; the mark `stalled` is the model's). A token wait, a ready wait, and `INIT` at a card that stays idle. -/
def Obligations.TickStallNeverEnds : Prop :=
  (∀ (s : State) (sector : Word) (command rest : List Answer),
    gateCode s sector 1 = none → s.port.script = command ++ rest → s.port.tail = .stalled →
    CommandAnswer s.cfg s.cfg.idxRd1 true false 0 0 command → (∀ a ∈ rest, a.rx ≠ s.cfg.tokStart) →
    ticksOf rest < s.cfg.tToken →
    ∃ t, exec (.readBlock sector) s = .next t ∧ t.busy = true ∧ t.stalled = true ∧ t.buf = s.buf) ∧
  (∀ (s : State) (sector : Word) (command rest : List Answer),
    gateCode s sector 1 = none → s.port.script = command ++ rest → s.port.tail = .stalled →
    CommandAnswer s.cfg s.cfg.idxWr1 true false 0 0 command → (∀ a ∈ rest, a.rx ≠ Config.idleByte) →
    ticksOf rest < s.cfg.tReady →
    ∃ t, exec (.writeBlock sector) s = .next t ∧ t.busy = true ∧ t.stalled = true) ∧
  (∀ (s : State) (g g' : Gen) (clocks ident rounds : List Answer),
    s.port.script = clocks ++ ident ++ rounds → s.port.tail = .stalled → clocks.length = s.cfg.nPowerupBytes →
    Identified s.cfg g ident → IdleRounds s.cfg g g' rounds → ticksOf rounds < s.cfg.tInit →
    ∃ t, exec .init s = .next t ∧ t.busy = true ∧ t.stalled = true ∧ t.idGen = .unknown ∧ t.linkClk = .slow ∧
      t.fsm = (if g = .sd2 then .voltageCheck else .opCondPoll))

/-- R240, R258, R33: an operation that never ends stays so, with `busy = 1` and the port at rest, under every move of
the host but hardware reset, which ends it (log 7, log 21). -/
def Obligations.HungOperationEndsOnlyByReset : Prop :=
  ∀ s t : State, s.Inv → s.stalled = true → step s = .next t →
    (t.stalled = true ∧ t.busy = true ∧ t.port = s.port ∧ t.req = s.req ∧ t.buf = s.buf ∧ t.result = s.result) ∨
      (∃ m rest, s.host.moves = m :: rest ∧ m.act = .reset ∧ t.busy = false ∧ t.stalled = false ∧ t.fsm = .reset ∧
        t.idGen = .unknown)

/-- R22, R29, R78 (e), R107, R151, R203: the invariant of the machine is kept by every step, from every state that
meets it. -/
def Obligations.StepKeepsInvariant : Prop :=
  ∀ s t : State, s.Inv → step s = .next t → t.Inv

/-- R240: the state after reset meets the invariant. -/
def Obligations.ResetMeetsInvariant : Prop := State.reset.Inv

/-! ## Failures, cause by cause -/

/-- R172 to R175, R183: how `READ_MULTI` of at least one block ends against a card that accepts the command, whether or
not a block fails, whether or not the stop command is answered, and whether or not the line becomes idle after it: the
stop command is always sent, with no reselection; the first failure in time order is the result; `done` counts the leading good blocks, which stand in `buf`
in order; a block whose CRC did not match stands after them as received; nothing above is touched; and the flags are
those of the last step. -/
def Obligations.ReadMultiReportsFirstFailure : Prop :=
  ∀ (s : State) (sector count : Word) (command blocks stop wait rest : List Answer) (payloads : List (List Byte))
    (bad : Option (List Byte)) (blockCode stopCode : Code) (idle : Bool),
    gateCode s sector count.toNat = none → Memory.wf s.buf = true → count ≠ 0 →
    s.port.script = command ++ blocks ++ stop ++ wait ++ rest →
    CommandAnswer s.cfg s.cfg.idxRdm true false 0 0 command →
    StreamBlocks s.cfg count.toNat payloads bad blockCode blocks → StreamStop s.cfg stopCode idle stop wait →
    ∃ t polls polls', exec (.readMulti sector count) s = .next t ∧
      t.result = (if blockCode = .ok then stopCode else blockCode) ∧ t.done = BitVec.ofNat 32 payloads.length ∧
      t.busy = false ∧ t.linkSel = false ∧ t.linkReady = idle ∧ t.lastTimeout = !idle ∧
      t.frame = builtFrame s.cfg s.cfg.idxStop 0 ∧
      (∀ k (h : k < payloads.length), Memory.slice t.buf (512 * k) 512 = payloads[k]) ∧
      (∀ p, bad = some p → Memory.slice t.buf (512 * payloads.length) 512 = p) ∧
      (∀ a, 512 * (payloads.length + bad.toList.length) ≤ a → Memory.read t.buf a = Memory.read s.buf a) ∧
      t.port.script = rest ∧
      Port.Sent (commandHead s.cfg s.cfg.idxRdm (addrOf s.idAmode sector) true s.settle ++ idleOut polls ++
        idleOut blocks.length ++ commandHead s.cfg s.cfg.idxStop 0 false false ++ idleOut polls' ++
        idleOut wait.length ++ [.sel false]) s.port t.port

/-- R133, R134, R136, R140, R143 to R146, R152: which answer makes `INIT` fail with which code, for every cause of R152,
from every state: `INIT` uses exactly those answers, ends in `Failed` with that code, the identity unknown and the slow
tier, and with the flags of R225's rows (`Timeout`: `link.ready = 1`, `last_timeout = 0`). That `link.ready` is 0 after
`BadResponse` is the model's deduction (log 24): R148's `Fail` writes no `link.ready`. -/
def Obligations.InitFailsByCause : Prop :=
  ∀ (s : State) (clocks l rest : List Answer) (code : Code),
    s.port.script = clocks ++ l ++ rest → clocks.length = s.cfg.nPowerupBytes → InitFails s.cfg code l →
    ∃ t, exec .init s = .next t ∧ t.result = code ∧ InitEnded s.cfg t ∧ InitFailed t ∧ t.stalled = s.stalled ∧
      t.port.script = rest
end

