-- ==== Sys2Proof/Laws/Buffer.lean ====
section
/-!
SUPPORT. The laws of the data buffer: read after write, the canonical form, and that equal reads are equal buffers.
-/
namespace Sys2Proof.Machine

theorem Memory.wfFrom_mono {lo lo' : Nat} (h : lo' ≤ lo) {m : Memory} (hw : Memory.wfFrom lo m = true) :
    Memory.wfFrom lo' m = true := by
  cases m with
  | nil => rfl
  | cons c m =>
    obtain ⟨x, y⟩ := c
    simp only [Memory.wfFrom, Bool.and_eq_true, decide_eq_true_eq] at hw ⊢
    exact ⟨⟨by omega, hw.1.2⟩, hw.2⟩

/-- In a canonical list, an address below the first possible one reads 0. -/
theorem Memory.read_below {lo a : Nat} {m : Memory} (hw : Memory.wfFrom lo m = true) (h : a < lo) :
    Memory.read m a = 0 := by
  induction m generalizing lo with
  | nil => rfl
  | cons c m ih =>
    obtain ⟨x, y⟩ := c
    simp only [Memory.wfFrom, Bool.and_eq_true, decide_eq_true_eq] at hw
    have hx : ¬ x = a := by omega
    simp only [Memory.read, hx, if_false]
    exact ih hw.2 (by omega)

theorem Memory.read_write_same_from {lo a : Nat} {b : Byte} {m : Memory} (hw : Memory.wfFrom lo m = true) :
    Memory.read (Memory.write m a b) a = b := by
  induction m generalizing lo with
  | nil =>
    simp only [Memory.write]
    split_ifs with hb
    · simp [Memory.read, hb]
    · simp [Memory.read]
  | cons c m ih =>
    obtain ⟨x, y⟩ := c
    simp only [Memory.wfFrom, Bool.and_eq_true, decide_eq_true_eq] at hw
    simp only [Memory.write]
    split_ifs with h1 h2 h3 h4
    · have hx : ¬ x = a := by omega
      simp only [Memory.read, hx, if_false]
      rw [h2]; exact Memory.read_below hw.2 (by omega)
    · simp [Memory.read]
    · rw [h4]; exact Memory.read_below hw.2 (by omega)
    · simp [Memory.read]
    · have hx : ¬ x = a := by omega
      simp only [Memory.read, hx, if_false]
      exact ih hw.2

/-- A read after a write to the same address gives the byte written. -/
theorem Memory.read_write_same {a : Nat} {b : Byte} {m : Memory} (hw : Memory.wf m = true) :
    Memory.read (Memory.write m a b) a = b := Memory.read_write_same_from hw

/-- A write leaves every other address alone. -/
theorem Memory.read_write_other {a a' : Nat} {b : Byte} {m : Memory} (h : a' ≠ a) :
    Memory.read (Memory.write m a b) a' = Memory.read m a' := by
  induction m with
  | nil =>
    simp only [Memory.write]
    split_ifs with hb
    · rfl
    · simp [Memory.read, Ne.symm h]
  | cons c m ih =>
    obtain ⟨x, y⟩ := c
    simp only [Memory.write]
    split_ifs with h1 h2 h3 h4
    · rfl
    · simp [Memory.read, Ne.symm h]
    · subst h3; simp [Memory.read, Ne.symm h]
    · subst h3; simp [Memory.read, Ne.symm h]
    · simp only [Memory.read, ih]

theorem Memory.wfFrom_write {lo a : Nat} {b : Byte} {m : Memory} (hw : Memory.wfFrom lo m = true) (ha : lo ≤ a) :
    Memory.wfFrom lo (Memory.write m a b) = true := by
  induction m generalizing lo with
  | nil =>
    simp only [Memory.write]
    split_ifs with hb
    · rfl
    · simpa [Memory.wfFrom, ha] using hb
  | cons c m ih =>
    obtain ⟨x, y⟩ := c
    have hw' := hw
    simp only [Memory.wfFrom, Bool.and_eq_true, decide_eq_true_eq] at hw
    simp only [Memory.write]
    split_ifs with h1 h2 h3 h4
    · exact hw'
    · simp only [Memory.wfFrom, Bool.and_eq_true, decide_eq_true_eq]
      exact ⟨⟨ha, h2⟩, ⟨by omega, hw.1.2⟩, hw.2⟩
    · exact Memory.wfFrom_mono (by omega) hw.2
    · simp only [Memory.wfFrom, Bool.and_eq_true, decide_eq_true_eq]
      exact ⟨⟨ha, h4⟩, h3 ▸ hw.2⟩
    · simp only [Memory.wfFrom, Bool.and_eq_true, decide_eq_true_eq]
      exact ⟨hw.1, ih hw.2 (by omega)⟩

/-- Every write keeps the canonical form. -/
theorem Memory.wf_write {a : Nat} {b : Byte} {m : Memory} (hw : Memory.wf m = true) :
    Memory.wf (Memory.write m a b) = true := Memory.wfFrom_write hw (Nat.zero_le a)

/-- A write inside the buffer lists no address outside it. -/
theorem Memory.inRange_write {size a : Nat} {b : Byte} {m : Memory} (h : Memory.inRange size m = true)
    (ha : a < size) : Memory.inRange size (Memory.write m a b) = true := by
  induction m with
  | nil =>
    simp only [Memory.write]
    split_ifs with hb
    · rfl
    · simp [Memory.inRange, ha]
  | cons c m ih =>
    obtain ⟨x, y⟩ := c
    simp only [Memory.inRange, List.all_cons, Bool.and_eq_true, decide_eq_true_eq] at h ih ⊢
    simp only [Memory.write]
    split_ifs with h1 h2 h3 h4
    · simp [h.1, h.2]
    · simp [h.1, h.2, ha]
    · exact h.2
    · simp [h.2, ha]
    · simp only [List.all_cons, Bool.and_eq_true, decide_eq_true_eq]
      exact ⟨h.1, ih h.2⟩

theorem Memory.ext_from {lo lo' : Nat} {m m' : Memory} (hm : Memory.wfFrom lo m = true)
    (hm' : Memory.wfFrom lo' m' = true) (h : ∀ a, Memory.read m a = Memory.read m' a) : m = m' := by
  induction m generalizing lo lo' m' with
  | nil =>
    cases m' with
    | nil => rfl
    | cons c m' =>
      obtain ⟨x, y⟩ := c
      have := h x
      simp only [Memory.wfFrom, Bool.and_eq_true, decide_eq_true_eq] at hm'
      simp [Memory.read] at this
      exact absurd this.symm hm'.1.2
  | cons c m ih =>
    obtain ⟨x, y⟩ := c
    have hm0 := hm
    simp only [Memory.wfFrom, Bool.and_eq_true, decide_eq_true_eq] at hm
    cases m' with
    | nil =>
      have := h x
      simp [Memory.read] at this
      exact absurd this hm.1.2
    | cons c' m' =>
      obtain ⟨x', y'⟩ := c'
      have hm0' := hm'
      simp only [Memory.wfFrom, Bool.and_eq_true, decide_eq_true_eq] at hm'
      have hx : x = x' := by
        rcases Nat.lt_trichotomy x x' with hlt | heq | hgt
        · have h1 := h x
          rw [Memory.read_below (m := (x', y') :: m') (lo := x') (by
            simp only [Memory.wfFrom, Bool.and_eq_true, decide_eq_true_eq]
            exact ⟨⟨Nat.le_refl _, hm'.1.2⟩, hm'.2⟩) hlt] at h1
          simp [Memory.read] at h1
          exact absurd h1 hm.1.2
        · exact heq
        · have h1 := h x'
          rw [Memory.read_below (m := (x, y) :: m) (lo := x) (by
            simp only [Memory.wfFrom, Bool.and_eq_true, decide_eq_true_eq]
            exact ⟨⟨Nat.le_refl _, hm.1.2⟩, hm.2⟩) hgt] at h1
          simp [Memory.read] at h1
          exact absurd h1.symm hm'.1.2
      subst hx
      have hy : y = y' := by have := h x; simpa [Memory.read] using this
      subst hy
      rw [ih hm.2 hm'.2 (fun a => ?_)]
      by_cases ha : x = a
      · subst ha
        rw [Memory.read_below hm.2 (by omega), Memory.read_below hm'.2 (by omega)]
      · have := h a
        simpa [Memory.read, ha] using this

/-- Canonical buffers that read the same everywhere are equal. -/
theorem Memory.ext {m m' : Memory} (hm : Memory.wf m = true) (hm' : Memory.wf m' = true)
    (h : ∀ a, Memory.read m a = Memory.read m' a) : m = m' := Memory.ext_from hm hm' h

@[simp] theorem Memory.slice_length (m : Memory) (a n : Nat) : (Memory.slice m a n).length = n := by
  induction n generalizing a with
  | zero => rfl
  | succ n ih => simp [Memory.slice, ih]

/-- Slices agree where the reads do. -/
theorem Memory.slice_congr {m m' : Memory} {a n : Nat}
    (h : ∀ i, a ≤ i → i < a + n → Memory.read m i = Memory.read m' i) :
    Memory.slice m a n = Memory.slice m' a n := by
  induction n generalizing a with
  | zero => rfl
  | succ n ih =>
    simp only [Memory.slice]
    rw [h a (Nat.le_refl _) (by omega), ih (fun i h1 h2 => h i (by omega) (by omega))]

/-- A slice read byte by byte. -/
theorem Memory.slice_getElem? {m : Memory} {a n i : Nat} (h : i < n) :
    (Memory.slice m a n)[i]? = some (Memory.read m (a + i)) := by
  induction n generalizing a i with
  | zero => omega
  | succ n ih =>
    cases i with
    | zero => simp [Memory.slice]
    | succ i =>
      simp only [Memory.slice, List.getElem?_cons_succ]
      rw [ih (by omega)]
      congr 2; omega

/-! ## Writing a stretch of bytes -/

/-- Bytes written to consecutive addresses from `a` on. -/
def Memory.writeAll (m : Memory) (a : Nat) : List Byte → Memory
  | [] => m
  | b :: bs => Memory.writeAll (Memory.write m a b) (a + 1) bs

theorem Memory.wf_writeAll {m : Memory} {a : Nat} {bs : List Byte} (h : Memory.wf m = true) :
    Memory.wf (Memory.writeAll m a bs) = true := by
  induction bs generalizing m a with
  | nil => exact h
  | cons b bs ih => exact ih (Memory.wf_write h)

theorem Memory.inRange_writeAll {size : Nat} {m : Memory} {a : Nat} {bs : List Byte}
    (h : Memory.inRange size m = true) (ha : a + bs.length ≤ size) :
    Memory.inRange size (Memory.writeAll m a bs) = true := by
  induction bs generalizing m a with
  | nil => exact h
  | cons b bs ih =>
    simp only [List.length_cons] at ha
    exact ih (Memory.inRange_write h (by omega)) (by omega)

/-- Every byte outside the stretch reads as before. -/
theorem Memory.read_writeAll_other {m : Memory} {a i : Nat} {bs : List Byte} (h : i < a ∨ a + bs.length ≤ i) :
    Memory.read (Memory.writeAll m a bs) i = Memory.read m i := by
  induction bs generalizing m a with
  | nil => rfl
  | cons b bs ih =>
    simp only [List.length_cons] at h
    rw [Memory.writeAll, ih (by omega), Memory.read_write_other (by omega)]

/-- The stretch reads as the bytes written. -/
theorem Memory.slice_writeAll {m : Memory} {a : Nat} {bs : List Byte} (h : Memory.wf m = true) :
    Memory.slice (Memory.writeAll m a bs) a bs.length = bs := by
  induction bs generalizing m a with
  | nil => rfl
  | cons b bs ih =>
    simp only [Memory.writeAll, List.length_cons, Memory.slice]
    rw [ih (Memory.wf_write h), Memory.read_writeAll_other (by omega), Memory.read_write_same h]

/-- Slices outside the stretch are as before. -/
theorem Memory.slice_writeAll_other {m : Memory} {a i n : Nat} {bs : List Byte}
    (h : i + n ≤ a ∨ a + bs.length ≤ i) :
    Memory.slice (Memory.writeAll m a bs) i n = Memory.slice m i n :=
  Memory.slice_congr fun j h1 h2 => Memory.read_writeAll_other (by omega)

end Sys2Proof.Machine
end

