-- ==== Sys2Proof/Laws/State.lean ====
section
/-!
SUPPORT. One lemma per field per named update of the state, true by rfl: no later proof unfolds an update.
-/
namespace Sys2Proof.Machine

/-! ## `setSettled` -/

@[simp] theorem setSettled_cfg (s : State) : (setSettled s).cfg = s.cfg := rfl
@[simp] theorem setSettled_idGen (s : State) : (setSettled s).idGen = s.idGen := rfl
@[simp] theorem setSettled_idAmode (s : State) : (setSettled s).idAmode = s.idAmode := rfl
@[simp] theorem setSettled_idCap (s : State) : (setSettled s).idCap = s.idCap := rfl
@[simp] theorem setSettled_linkSel (s : State) : (setSettled s).linkSel = s.linkSel := rfl
@[simp] theorem setSettled_linkClk (s : State) : (setSettled s).linkClk = s.linkClk := rfl
@[simp] theorem setSettled_linkReady (s : State) : (setSettled s).linkReady = s.linkReady := rfl
@[simp] theorem setSettled_lastTimeout (s : State) : (setSettled s).lastTimeout = s.lastTimeout := rfl
@[simp] theorem setSettled_settle (s : State) : (setSettled s).settle = false := rfl
@[simp] theorem setSettled_fsm (s : State) : (setSettled s).fsm = s.fsm := rfl
@[simp] theorem setSettled_crc7 (s : State) : (setSettled s).crc7 = s.crc7 := rfl
@[simp] theorem setSettled_crc16 (s : State) : (setSettled s).crc16 = s.crc16 := rfl
@[simp] theorem setSettled_frame (s : State) : (setSettled s).frame = s.frame := rfl
@[simp] theorem setSettled_req (s : State) : (setSettled s).req = s.req := rfl
@[simp] theorem setSettled_busy (s : State) : (setSettled s).busy = s.busy := rfl
@[simp] theorem setSettled_result (s : State) : (setSettled s).result = s.result := rfl
@[simp] theorem setSettled_resp (s : State) : (setSettled s).resp = s.resp := rfl
@[simp] theorem setSettled_val (s : State) : (setSettled s).val = s.val := rfl
@[simp] theorem setSettled_done (s : State) : (setSettled s).done = s.done := rfl
@[simp] theorem setSettled_buf (s : State) : (setSettled s).buf = s.buf := rfl
@[simp] theorem setSettled_pgen (s : State) : (setSettled s).pgen = s.pgen := rfl
@[simp] theorem setSettled_pam (s : State) : (setSettled s).pam = s.pam := rfl
@[simp] theorem setSettled_t0 (s : State) : (setSettled s).t0 = s.t0 := rfl
@[simp] theorem setSettled_n (s : State) : (setSettled s).n = s.n := rfl
@[simp] theorem setSettled_k (s : State) : (setSettled s).k = s.k := rfl
@[simp] theorem setSettled_code (s : State) : (setSettled s).code = s.code := rfl
@[simp] theorem setSettled_port (s : State) : (setSettled s).port = s.port := rfl
@[simp] theorem setSettled_host (s : State) : (setSettled s).host = s.host := rfl
@[simp] theorem setSettled_cmd (s : State) : (setSettled s).cmd = s.cmd := rfl
@[simp] theorem setSettled_stalled (s : State) : (setSettled s).stalled = s.stalled := rfl

/-! ## `setN` -/

@[simp] theorem setN_cfg (v : Nat) (s : State) : (setN v s).cfg = s.cfg := rfl
@[simp] theorem setN_idGen (v : Nat) (s : State) : (setN v s).idGen = s.idGen := rfl
@[simp] theorem setN_idAmode (v : Nat) (s : State) : (setN v s).idAmode = s.idAmode := rfl
@[simp] theorem setN_idCap (v : Nat) (s : State) : (setN v s).idCap = s.idCap := rfl
@[simp] theorem setN_linkSel (v : Nat) (s : State) : (setN v s).linkSel = s.linkSel := rfl
@[simp] theorem setN_linkClk (v : Nat) (s : State) : (setN v s).linkClk = s.linkClk := rfl
@[simp] theorem setN_linkReady (v : Nat) (s : State) : (setN v s).linkReady = s.linkReady := rfl
@[simp] theorem setN_lastTimeout (v : Nat) (s : State) : (setN v s).lastTimeout = s.lastTimeout := rfl
@[simp] theorem setN_settle (v : Nat) (s : State) : (setN v s).settle = s.settle := rfl
@[simp] theorem setN_fsm (v : Nat) (s : State) : (setN v s).fsm = s.fsm := rfl
@[simp] theorem setN_crc7 (v : Nat) (s : State) : (setN v s).crc7 = s.crc7 := rfl
@[simp] theorem setN_crc16 (v : Nat) (s : State) : (setN v s).crc16 = s.crc16 := rfl
@[simp] theorem setN_frame (v : Nat) (s : State) : (setN v s).frame = s.frame := rfl
@[simp] theorem setN_req (v : Nat) (s : State) : (setN v s).req = s.req := rfl
@[simp] theorem setN_busy (v : Nat) (s : State) : (setN v s).busy = s.busy := rfl
@[simp] theorem setN_result (v : Nat) (s : State) : (setN v s).result = s.result := rfl
@[simp] theorem setN_resp (v : Nat) (s : State) : (setN v s).resp = s.resp := rfl
@[simp] theorem setN_val (v : Nat) (s : State) : (setN v s).val = s.val := rfl
@[simp] theorem setN_done (v : Nat) (s : State) : (setN v s).done = s.done := rfl
@[simp] theorem setN_buf (v : Nat) (s : State) : (setN v s).buf = s.buf := rfl
@[simp] theorem setN_pgen (v : Nat) (s : State) : (setN v s).pgen = s.pgen := rfl
@[simp] theorem setN_pam (v : Nat) (s : State) : (setN v s).pam = s.pam := rfl
@[simp] theorem setN_t0 (v : Nat) (s : State) : (setN v s).t0 = s.t0 := rfl
@[simp] theorem setN_n (v : Nat) (s : State) : (setN v s).n = v := rfl
@[simp] theorem setN_k (v : Nat) (s : State) : (setN v s).k = s.k := rfl
@[simp] theorem setN_code (v : Nat) (s : State) : (setN v s).code = s.code := rfl
@[simp] theorem setN_port (v : Nat) (s : State) : (setN v s).port = s.port := rfl
@[simp] theorem setN_host (v : Nat) (s : State) : (setN v s).host = s.host := rfl
@[simp] theorem setN_cmd (v : Nat) (s : State) : (setN v s).cmd = s.cmd := rfl
@[simp] theorem setN_stalled (v : Nat) (s : State) : (setN v s).stalled = s.stalled := rfl

/-! ## `setResp` -/

@[simp] theorem setResp_cfg (v : BitVec 40) (s : State) : (setResp v s).cfg = s.cfg := rfl
@[simp] theorem setResp_idGen (v : BitVec 40) (s : State) : (setResp v s).idGen = s.idGen := rfl
@[simp] theorem setResp_idAmode (v : BitVec 40) (s : State) : (setResp v s).idAmode = s.idAmode := rfl
@[simp] theorem setResp_idCap (v : BitVec 40) (s : State) : (setResp v s).idCap = s.idCap := rfl
@[simp] theorem setResp_linkSel (v : BitVec 40) (s : State) : (setResp v s).linkSel = s.linkSel := rfl
@[simp] theorem setResp_linkClk (v : BitVec 40) (s : State) : (setResp v s).linkClk = s.linkClk := rfl
@[simp] theorem setResp_linkReady (v : BitVec 40) (s : State) : (setResp v s).linkReady = s.linkReady := rfl
@[simp] theorem setResp_lastTimeout (v : BitVec 40) (s : State) : (setResp v s).lastTimeout = s.lastTimeout := rfl
@[simp] theorem setResp_settle (v : BitVec 40) (s : State) : (setResp v s).settle = s.settle := rfl
@[simp] theorem setResp_fsm (v : BitVec 40) (s : State) : (setResp v s).fsm = s.fsm := rfl
@[simp] theorem setResp_crc7 (v : BitVec 40) (s : State) : (setResp v s).crc7 = s.crc7 := rfl
@[simp] theorem setResp_crc16 (v : BitVec 40) (s : State) : (setResp v s).crc16 = s.crc16 := rfl
@[simp] theorem setResp_frame (v : BitVec 40) (s : State) : (setResp v s).frame = s.frame := rfl
@[simp] theorem setResp_req (v : BitVec 40) (s : State) : (setResp v s).req = s.req := rfl
@[simp] theorem setResp_busy (v : BitVec 40) (s : State) : (setResp v s).busy = s.busy := rfl
@[simp] theorem setResp_result (v : BitVec 40) (s : State) : (setResp v s).result = s.result := rfl
@[simp] theorem setResp_resp (v : BitVec 40) (s : State) : (setResp v s).resp = v := rfl
@[simp] theorem setResp_val (v : BitVec 40) (s : State) : (setResp v s).val = s.val := rfl
@[simp] theorem setResp_done (v : BitVec 40) (s : State) : (setResp v s).done = s.done := rfl
@[simp] theorem setResp_buf (v : BitVec 40) (s : State) : (setResp v s).buf = s.buf := rfl
@[simp] theorem setResp_pgen (v : BitVec 40) (s : State) : (setResp v s).pgen = s.pgen := rfl
@[simp] theorem setResp_pam (v : BitVec 40) (s : State) : (setResp v s).pam = s.pam := rfl
@[simp] theorem setResp_t0 (v : BitVec 40) (s : State) : (setResp v s).t0 = s.t0 := rfl
@[simp] theorem setResp_n (v : BitVec 40) (s : State) : (setResp v s).n = s.n := rfl
@[simp] theorem setResp_k (v : BitVec 40) (s : State) : (setResp v s).k = s.k := rfl
@[simp] theorem setResp_code (v : BitVec 40) (s : State) : (setResp v s).code = s.code := rfl
@[simp] theorem setResp_port (v : BitVec 40) (s : State) : (setResp v s).port = s.port := rfl
@[simp] theorem setResp_host (v : BitVec 40) (s : State) : (setResp v s).host = s.host := rfl
@[simp] theorem setResp_cmd (v : BitVec 40) (s : State) : (setResp v s).cmd = s.cmd := rfl
@[simp] theorem setResp_stalled (v : BitVec 40) (s : State) : (setResp v s).stalled = s.stalled := rfl

/-! ## `setFsm` -/

@[simp] theorem setFsm_cfg (v : Fsm) (s : State) : (setFsm v s).cfg = s.cfg := rfl
@[simp] theorem setFsm_idGen (v : Fsm) (s : State) : (setFsm v s).idGen = s.idGen := rfl
@[simp] theorem setFsm_idAmode (v : Fsm) (s : State) : (setFsm v s).idAmode = s.idAmode := rfl
@[simp] theorem setFsm_idCap (v : Fsm) (s : State) : (setFsm v s).idCap = s.idCap := rfl
@[simp] theorem setFsm_linkSel (v : Fsm) (s : State) : (setFsm v s).linkSel = s.linkSel := rfl
@[simp] theorem setFsm_linkClk (v : Fsm) (s : State) : (setFsm v s).linkClk = s.linkClk := rfl
@[simp] theorem setFsm_linkReady (v : Fsm) (s : State) : (setFsm v s).linkReady = s.linkReady := rfl
@[simp] theorem setFsm_lastTimeout (v : Fsm) (s : State) : (setFsm v s).lastTimeout = s.lastTimeout := rfl
@[simp] theorem setFsm_settle (v : Fsm) (s : State) : (setFsm v s).settle = s.settle := rfl
@[simp] theorem setFsm_fsm (v : Fsm) (s : State) : (setFsm v s).fsm = v := rfl
@[simp] theorem setFsm_crc7 (v : Fsm) (s : State) : (setFsm v s).crc7 = s.crc7 := rfl
@[simp] theorem setFsm_crc16 (v : Fsm) (s : State) : (setFsm v s).crc16 = s.crc16 := rfl
@[simp] theorem setFsm_frame (v : Fsm) (s : State) : (setFsm v s).frame = s.frame := rfl
@[simp] theorem setFsm_req (v : Fsm) (s : State) : (setFsm v s).req = s.req := rfl
@[simp] theorem setFsm_busy (v : Fsm) (s : State) : (setFsm v s).busy = s.busy := rfl
@[simp] theorem setFsm_result (v : Fsm) (s : State) : (setFsm v s).result = s.result := rfl
@[simp] theorem setFsm_resp (v : Fsm) (s : State) : (setFsm v s).resp = s.resp := rfl
@[simp] theorem setFsm_val (v : Fsm) (s : State) : (setFsm v s).val = s.val := rfl
@[simp] theorem setFsm_done (v : Fsm) (s : State) : (setFsm v s).done = s.done := rfl
@[simp] theorem setFsm_buf (v : Fsm) (s : State) : (setFsm v s).buf = s.buf := rfl
@[simp] theorem setFsm_pgen (v : Fsm) (s : State) : (setFsm v s).pgen = s.pgen := rfl
@[simp] theorem setFsm_pam (v : Fsm) (s : State) : (setFsm v s).pam = s.pam := rfl
@[simp] theorem setFsm_t0 (v : Fsm) (s : State) : (setFsm v s).t0 = s.t0 := rfl
@[simp] theorem setFsm_n (v : Fsm) (s : State) : (setFsm v s).n = s.n := rfl
@[simp] theorem setFsm_k (v : Fsm) (s : State) : (setFsm v s).k = s.k := rfl
@[simp] theorem setFsm_code (v : Fsm) (s : State) : (setFsm v s).code = s.code := rfl
@[simp] theorem setFsm_port (v : Fsm) (s : State) : (setFsm v s).port = s.port := rfl
@[simp] theorem setFsm_host (v : Fsm) (s : State) : (setFsm v s).host = s.host := rfl
@[simp] theorem setFsm_cmd (v : Fsm) (s : State) : (setFsm v s).cmd = s.cmd := rfl
@[simp] theorem setFsm_stalled (v : Fsm) (s : State) : (setFsm v s).stalled = s.stalled := rfl

/-! ## `setPgen` -/

@[simp] theorem setPgen_cfg (v : Gen) (s : State) : (setPgen v s).cfg = s.cfg := rfl
@[simp] theorem setPgen_idGen (v : Gen) (s : State) : (setPgen v s).idGen = s.idGen := rfl
@[simp] theorem setPgen_idAmode (v : Gen) (s : State) : (setPgen v s).idAmode = s.idAmode := rfl
@[simp] theorem setPgen_idCap (v : Gen) (s : State) : (setPgen v s).idCap = s.idCap := rfl
@[simp] theorem setPgen_linkSel (v : Gen) (s : State) : (setPgen v s).linkSel = s.linkSel := rfl
@[simp] theorem setPgen_linkClk (v : Gen) (s : State) : (setPgen v s).linkClk = s.linkClk := rfl
@[simp] theorem setPgen_linkReady (v : Gen) (s : State) : (setPgen v s).linkReady = s.linkReady := rfl
@[simp] theorem setPgen_lastTimeout (v : Gen) (s : State) : (setPgen v s).lastTimeout = s.lastTimeout := rfl
@[simp] theorem setPgen_settle (v : Gen) (s : State) : (setPgen v s).settle = s.settle := rfl
@[simp] theorem setPgen_fsm (v : Gen) (s : State) : (setPgen v s).fsm = s.fsm := rfl
@[simp] theorem setPgen_crc7 (v : Gen) (s : State) : (setPgen v s).crc7 = s.crc7 := rfl
@[simp] theorem setPgen_crc16 (v : Gen) (s : State) : (setPgen v s).crc16 = s.crc16 := rfl
@[simp] theorem setPgen_frame (v : Gen) (s : State) : (setPgen v s).frame = s.frame := rfl
@[simp] theorem setPgen_req (v : Gen) (s : State) : (setPgen v s).req = s.req := rfl
@[simp] theorem setPgen_busy (v : Gen) (s : State) : (setPgen v s).busy = s.busy := rfl
@[simp] theorem setPgen_result (v : Gen) (s : State) : (setPgen v s).result = s.result := rfl
@[simp] theorem setPgen_resp (v : Gen) (s : State) : (setPgen v s).resp = s.resp := rfl
@[simp] theorem setPgen_val (v : Gen) (s : State) : (setPgen v s).val = s.val := rfl
@[simp] theorem setPgen_done (v : Gen) (s : State) : (setPgen v s).done = s.done := rfl
@[simp] theorem setPgen_buf (v : Gen) (s : State) : (setPgen v s).buf = s.buf := rfl
@[simp] theorem setPgen_pgen (v : Gen) (s : State) : (setPgen v s).pgen = v := rfl
@[simp] theorem setPgen_pam (v : Gen) (s : State) : (setPgen v s).pam = s.pam := rfl
@[simp] theorem setPgen_t0 (v : Gen) (s : State) : (setPgen v s).t0 = s.t0 := rfl
@[simp] theorem setPgen_n (v : Gen) (s : State) : (setPgen v s).n = s.n := rfl
@[simp] theorem setPgen_k (v : Gen) (s : State) : (setPgen v s).k = s.k := rfl
@[simp] theorem setPgen_code (v : Gen) (s : State) : (setPgen v s).code = s.code := rfl
@[simp] theorem setPgen_port (v : Gen) (s : State) : (setPgen v s).port = s.port := rfl
@[simp] theorem setPgen_host (v : Gen) (s : State) : (setPgen v s).host = s.host := rfl
@[simp] theorem setPgen_cmd (v : Gen) (s : State) : (setPgen v s).cmd = s.cmd := rfl
@[simp] theorem setPgen_stalled (v : Gen) (s : State) : (setPgen v s).stalled = s.stalled := rfl

/-! ## `setPam` -/

@[simp] theorem setPam_cfg (v : AddrMode) (s : State) : (setPam v s).cfg = s.cfg := rfl
@[simp] theorem setPam_idGen (v : AddrMode) (s : State) : (setPam v s).idGen = s.idGen := rfl
@[simp] theorem setPam_idAmode (v : AddrMode) (s : State) : (setPam v s).idAmode = s.idAmode := rfl
@[simp] theorem setPam_idCap (v : AddrMode) (s : State) : (setPam v s).idCap = s.idCap := rfl
@[simp] theorem setPam_linkSel (v : AddrMode) (s : State) : (setPam v s).linkSel = s.linkSel := rfl
@[simp] theorem setPam_linkClk (v : AddrMode) (s : State) : (setPam v s).linkClk = s.linkClk := rfl
@[simp] theorem setPam_linkReady (v : AddrMode) (s : State) : (setPam v s).linkReady = s.linkReady := rfl
@[simp] theorem setPam_lastTimeout (v : AddrMode) (s : State) : (setPam v s).lastTimeout = s.lastTimeout := rfl
@[simp] theorem setPam_settle (v : AddrMode) (s : State) : (setPam v s).settle = s.settle := rfl
@[simp] theorem setPam_fsm (v : AddrMode) (s : State) : (setPam v s).fsm = s.fsm := rfl
@[simp] theorem setPam_crc7 (v : AddrMode) (s : State) : (setPam v s).crc7 = s.crc7 := rfl
@[simp] theorem setPam_crc16 (v : AddrMode) (s : State) : (setPam v s).crc16 = s.crc16 := rfl
@[simp] theorem setPam_frame (v : AddrMode) (s : State) : (setPam v s).frame = s.frame := rfl
@[simp] theorem setPam_req (v : AddrMode) (s : State) : (setPam v s).req = s.req := rfl
@[simp] theorem setPam_busy (v : AddrMode) (s : State) : (setPam v s).busy = s.busy := rfl
@[simp] theorem setPam_result (v : AddrMode) (s : State) : (setPam v s).result = s.result := rfl
@[simp] theorem setPam_resp (v : AddrMode) (s : State) : (setPam v s).resp = s.resp := rfl
@[simp] theorem setPam_val (v : AddrMode) (s : State) : (setPam v s).val = s.val := rfl
@[simp] theorem setPam_done (v : AddrMode) (s : State) : (setPam v s).done = s.done := rfl
@[simp] theorem setPam_buf (v : AddrMode) (s : State) : (setPam v s).buf = s.buf := rfl
@[simp] theorem setPam_pgen (v : AddrMode) (s : State) : (setPam v s).pgen = s.pgen := rfl
@[simp] theorem setPam_pam (v : AddrMode) (s : State) : (setPam v s).pam = v := rfl
@[simp] theorem setPam_t0 (v : AddrMode) (s : State) : (setPam v s).t0 = s.t0 := rfl
@[simp] theorem setPam_n (v : AddrMode) (s : State) : (setPam v s).n = s.n := rfl
@[simp] theorem setPam_k (v : AddrMode) (s : State) : (setPam v s).k = s.k := rfl
@[simp] theorem setPam_code (v : AddrMode) (s : State) : (setPam v s).code = s.code := rfl
@[simp] theorem setPam_port (v : AddrMode) (s : State) : (setPam v s).port = s.port := rfl
@[simp] theorem setPam_host (v : AddrMode) (s : State) : (setPam v s).host = s.host := rfl
@[simp] theorem setPam_cmd (v : AddrMode) (s : State) : (setPam v s).cmd = s.cmd := rfl
@[simp] theorem setPam_stalled (v : AddrMode) (s : State) : (setPam v s).stalled = s.stalled := rfl

/-! ## `setT0` -/

@[simp] theorem setT0_cfg (v : Nat) (s : State) : (setT0 v s).cfg = s.cfg := rfl
@[simp] theorem setT0_idGen (v : Nat) (s : State) : (setT0 v s).idGen = s.idGen := rfl
@[simp] theorem setT0_idAmode (v : Nat) (s : State) : (setT0 v s).idAmode = s.idAmode := rfl
@[simp] theorem setT0_idCap (v : Nat) (s : State) : (setT0 v s).idCap = s.idCap := rfl
@[simp] theorem setT0_linkSel (v : Nat) (s : State) : (setT0 v s).linkSel = s.linkSel := rfl
@[simp] theorem setT0_linkClk (v : Nat) (s : State) : (setT0 v s).linkClk = s.linkClk := rfl
@[simp] theorem setT0_linkReady (v : Nat) (s : State) : (setT0 v s).linkReady = s.linkReady := rfl
@[simp] theorem setT0_lastTimeout (v : Nat) (s : State) : (setT0 v s).lastTimeout = s.lastTimeout := rfl
@[simp] theorem setT0_settle (v : Nat) (s : State) : (setT0 v s).settle = s.settle := rfl
@[simp] theorem setT0_fsm (v : Nat) (s : State) : (setT0 v s).fsm = s.fsm := rfl
@[simp] theorem setT0_crc7 (v : Nat) (s : State) : (setT0 v s).crc7 = s.crc7 := rfl
@[simp] theorem setT0_crc16 (v : Nat) (s : State) : (setT0 v s).crc16 = s.crc16 := rfl
@[simp] theorem setT0_frame (v : Nat) (s : State) : (setT0 v s).frame = s.frame := rfl
@[simp] theorem setT0_req (v : Nat) (s : State) : (setT0 v s).req = s.req := rfl
@[simp] theorem setT0_busy (v : Nat) (s : State) : (setT0 v s).busy = s.busy := rfl
@[simp] theorem setT0_result (v : Nat) (s : State) : (setT0 v s).result = s.result := rfl
@[simp] theorem setT0_resp (v : Nat) (s : State) : (setT0 v s).resp = s.resp := rfl
@[simp] theorem setT0_val (v : Nat) (s : State) : (setT0 v s).val = s.val := rfl
@[simp] theorem setT0_done (v : Nat) (s : State) : (setT0 v s).done = s.done := rfl
@[simp] theorem setT0_buf (v : Nat) (s : State) : (setT0 v s).buf = s.buf := rfl
@[simp] theorem setT0_pgen (v : Nat) (s : State) : (setT0 v s).pgen = s.pgen := rfl
@[simp] theorem setT0_pam (v : Nat) (s : State) : (setT0 v s).pam = s.pam := rfl
@[simp] theorem setT0_t0 (v : Nat) (s : State) : (setT0 v s).t0 = v := rfl
@[simp] theorem setT0_n (v : Nat) (s : State) : (setT0 v s).n = s.n := rfl
@[simp] theorem setT0_k (v : Nat) (s : State) : (setT0 v s).k = s.k := rfl
@[simp] theorem setT0_code (v : Nat) (s : State) : (setT0 v s).code = s.code := rfl
@[simp] theorem setT0_port (v : Nat) (s : State) : (setT0 v s).port = s.port := rfl
@[simp] theorem setT0_host (v : Nat) (s : State) : (setT0 v s).host = s.host := rfl
@[simp] theorem setT0_cmd (v : Nat) (s : State) : (setT0 v s).cmd = s.cmd := rfl
@[simp] theorem setT0_stalled (v : Nat) (s : State) : (setT0 v s).stalled = s.stalled := rfl

/-! ## `setK` -/

@[simp] theorem setK_cfg (v : Nat) (s : State) : (setK v s).cfg = s.cfg := rfl
@[simp] theorem setK_idGen (v : Nat) (s : State) : (setK v s).idGen = s.idGen := rfl
@[simp] theorem setK_idAmode (v : Nat) (s : State) : (setK v s).idAmode = s.idAmode := rfl
@[simp] theorem setK_idCap (v : Nat) (s : State) : (setK v s).idCap = s.idCap := rfl
@[simp] theorem setK_linkSel (v : Nat) (s : State) : (setK v s).linkSel = s.linkSel := rfl
@[simp] theorem setK_linkClk (v : Nat) (s : State) : (setK v s).linkClk = s.linkClk := rfl
@[simp] theorem setK_linkReady (v : Nat) (s : State) : (setK v s).linkReady = s.linkReady := rfl
@[simp] theorem setK_lastTimeout (v : Nat) (s : State) : (setK v s).lastTimeout = s.lastTimeout := rfl
@[simp] theorem setK_settle (v : Nat) (s : State) : (setK v s).settle = s.settle := rfl
@[simp] theorem setK_fsm (v : Nat) (s : State) : (setK v s).fsm = s.fsm := rfl
@[simp] theorem setK_crc7 (v : Nat) (s : State) : (setK v s).crc7 = s.crc7 := rfl
@[simp] theorem setK_crc16 (v : Nat) (s : State) : (setK v s).crc16 = s.crc16 := rfl
@[simp] theorem setK_frame (v : Nat) (s : State) : (setK v s).frame = s.frame := rfl
@[simp] theorem setK_req (v : Nat) (s : State) : (setK v s).req = s.req := rfl
@[simp] theorem setK_busy (v : Nat) (s : State) : (setK v s).busy = s.busy := rfl
@[simp] theorem setK_result (v : Nat) (s : State) : (setK v s).result = s.result := rfl
@[simp] theorem setK_resp (v : Nat) (s : State) : (setK v s).resp = s.resp := rfl
@[simp] theorem setK_val (v : Nat) (s : State) : (setK v s).val = s.val := rfl
@[simp] theorem setK_done (v : Nat) (s : State) : (setK v s).done = s.done := rfl
@[simp] theorem setK_buf (v : Nat) (s : State) : (setK v s).buf = s.buf := rfl
@[simp] theorem setK_pgen (v : Nat) (s : State) : (setK v s).pgen = s.pgen := rfl
@[simp] theorem setK_pam (v : Nat) (s : State) : (setK v s).pam = s.pam := rfl
@[simp] theorem setK_t0 (v : Nat) (s : State) : (setK v s).t0 = s.t0 := rfl
@[simp] theorem setK_n (v : Nat) (s : State) : (setK v s).n = s.n := rfl
@[simp] theorem setK_k (v : Nat) (s : State) : (setK v s).k = v := rfl
@[simp] theorem setK_code (v : Nat) (s : State) : (setK v s).code = s.code := rfl
@[simp] theorem setK_port (v : Nat) (s : State) : (setK v s).port = s.port := rfl
@[simp] theorem setK_host (v : Nat) (s : State) : (setK v s).host = s.host := rfl
@[simp] theorem setK_cmd (v : Nat) (s : State) : (setK v s).cmd = s.cmd := rfl
@[simp] theorem setK_stalled (v : Nat) (s : State) : (setK v s).stalled = s.stalled := rfl

/-! ## `setCode` -/

@[simp] theorem setCode_cfg (v : Code) (s : State) : (setCode v s).cfg = s.cfg := rfl
@[simp] theorem setCode_idGen (v : Code) (s : State) : (setCode v s).idGen = s.idGen := rfl
@[simp] theorem setCode_idAmode (v : Code) (s : State) : (setCode v s).idAmode = s.idAmode := rfl
@[simp] theorem setCode_idCap (v : Code) (s : State) : (setCode v s).idCap = s.idCap := rfl
@[simp] theorem setCode_linkSel (v : Code) (s : State) : (setCode v s).linkSel = s.linkSel := rfl
@[simp] theorem setCode_linkClk (v : Code) (s : State) : (setCode v s).linkClk = s.linkClk := rfl
@[simp] theorem setCode_linkReady (v : Code) (s : State) : (setCode v s).linkReady = s.linkReady := rfl
@[simp] theorem setCode_lastTimeout (v : Code) (s : State) : (setCode v s).lastTimeout = s.lastTimeout := rfl
@[simp] theorem setCode_settle (v : Code) (s : State) : (setCode v s).settle = s.settle := rfl
@[simp] theorem setCode_fsm (v : Code) (s : State) : (setCode v s).fsm = s.fsm := rfl
@[simp] theorem setCode_crc7 (v : Code) (s : State) : (setCode v s).crc7 = s.crc7 := rfl
@[simp] theorem setCode_crc16 (v : Code) (s : State) : (setCode v s).crc16 = s.crc16 := rfl
@[simp] theorem setCode_frame (v : Code) (s : State) : (setCode v s).frame = s.frame := rfl
@[simp] theorem setCode_req (v : Code) (s : State) : (setCode v s).req = s.req := rfl
@[simp] theorem setCode_busy (v : Code) (s : State) : (setCode v s).busy = s.busy := rfl
@[simp] theorem setCode_result (v : Code) (s : State) : (setCode v s).result = s.result := rfl
@[simp] theorem setCode_resp (v : Code) (s : State) : (setCode v s).resp = s.resp := rfl
@[simp] theorem setCode_val (v : Code) (s : State) : (setCode v s).val = s.val := rfl
@[simp] theorem setCode_done (v : Code) (s : State) : (setCode v s).done = s.done := rfl
@[simp] theorem setCode_buf (v : Code) (s : State) : (setCode v s).buf = s.buf := rfl
@[simp] theorem setCode_pgen (v : Code) (s : State) : (setCode v s).pgen = s.pgen := rfl
@[simp] theorem setCode_pam (v : Code) (s : State) : (setCode v s).pam = s.pam := rfl
@[simp] theorem setCode_t0 (v : Code) (s : State) : (setCode v s).t0 = s.t0 := rfl
@[simp] theorem setCode_n (v : Code) (s : State) : (setCode v s).n = s.n := rfl
@[simp] theorem setCode_k (v : Code) (s : State) : (setCode v s).k = s.k := rfl
@[simp] theorem setCode_code (v : Code) (s : State) : (setCode v s).code = v := rfl
@[simp] theorem setCode_port (v : Code) (s : State) : (setCode v s).port = s.port := rfl
@[simp] theorem setCode_host (v : Code) (s : State) : (setCode v s).host = s.host := rfl
@[simp] theorem setCode_cmd (v : Code) (s : State) : (setCode v s).cmd = s.cmd := rfl
@[simp] theorem setCode_stalled (v : Code) (s : State) : (setCode v s).stalled = s.stalled := rfl

/-! ## `setCrc7` -/

@[simp] theorem setCrc7_cfg (v : BitVec 7) (s : State) : (setCrc7 v s).cfg = s.cfg := rfl
@[simp] theorem setCrc7_idGen (v : BitVec 7) (s : State) : (setCrc7 v s).idGen = s.idGen := rfl
@[simp] theorem setCrc7_idAmode (v : BitVec 7) (s : State) : (setCrc7 v s).idAmode = s.idAmode := rfl
@[simp] theorem setCrc7_idCap (v : BitVec 7) (s : State) : (setCrc7 v s).idCap = s.idCap := rfl
@[simp] theorem setCrc7_linkSel (v : BitVec 7) (s : State) : (setCrc7 v s).linkSel = s.linkSel := rfl
@[simp] theorem setCrc7_linkClk (v : BitVec 7) (s : State) : (setCrc7 v s).linkClk = s.linkClk := rfl
@[simp] theorem setCrc7_linkReady (v : BitVec 7) (s : State) : (setCrc7 v s).linkReady = s.linkReady := rfl
@[simp] theorem setCrc7_lastTimeout (v : BitVec 7) (s : State) : (setCrc7 v s).lastTimeout = s.lastTimeout := rfl
@[simp] theorem setCrc7_settle (v : BitVec 7) (s : State) : (setCrc7 v s).settle = s.settle := rfl
@[simp] theorem setCrc7_fsm (v : BitVec 7) (s : State) : (setCrc7 v s).fsm = s.fsm := rfl
@[simp] theorem setCrc7_crc7 (v : BitVec 7) (s : State) : (setCrc7 v s).crc7 = v := rfl
@[simp] theorem setCrc7_crc16 (v : BitVec 7) (s : State) : (setCrc7 v s).crc16 = s.crc16 := rfl
@[simp] theorem setCrc7_frame (v : BitVec 7) (s : State) : (setCrc7 v s).frame = s.frame := rfl
@[simp] theorem setCrc7_req (v : BitVec 7) (s : State) : (setCrc7 v s).req = s.req := rfl
@[simp] theorem setCrc7_busy (v : BitVec 7) (s : State) : (setCrc7 v s).busy = s.busy := rfl
@[simp] theorem setCrc7_result (v : BitVec 7) (s : State) : (setCrc7 v s).result = s.result := rfl
@[simp] theorem setCrc7_resp (v : BitVec 7) (s : State) : (setCrc7 v s).resp = s.resp := rfl
@[simp] theorem setCrc7_val (v : BitVec 7) (s : State) : (setCrc7 v s).val = s.val := rfl
@[simp] theorem setCrc7_done (v : BitVec 7) (s : State) : (setCrc7 v s).done = s.done := rfl
@[simp] theorem setCrc7_buf (v : BitVec 7) (s : State) : (setCrc7 v s).buf = s.buf := rfl
@[simp] theorem setCrc7_pgen (v : BitVec 7) (s : State) : (setCrc7 v s).pgen = s.pgen := rfl
@[simp] theorem setCrc7_pam (v : BitVec 7) (s : State) : (setCrc7 v s).pam = s.pam := rfl
@[simp] theorem setCrc7_t0 (v : BitVec 7) (s : State) : (setCrc7 v s).t0 = s.t0 := rfl
@[simp] theorem setCrc7_n (v : BitVec 7) (s : State) : (setCrc7 v s).n = s.n := rfl
@[simp] theorem setCrc7_k (v : BitVec 7) (s : State) : (setCrc7 v s).k = s.k := rfl
@[simp] theorem setCrc7_code (v : BitVec 7) (s : State) : (setCrc7 v s).code = s.code := rfl
@[simp] theorem setCrc7_port (v : BitVec 7) (s : State) : (setCrc7 v s).port = s.port := rfl
@[simp] theorem setCrc7_host (v : BitVec 7) (s : State) : (setCrc7 v s).host = s.host := rfl
@[simp] theorem setCrc7_cmd (v : BitVec 7) (s : State) : (setCrc7 v s).cmd = s.cmd := rfl
@[simp] theorem setCrc7_stalled (v : BitVec 7) (s : State) : (setCrc7 v s).stalled = s.stalled := rfl

/-! ## `setCrc16` -/

@[simp] theorem setCrc16_cfg (v : BitVec 16) (s : State) : (setCrc16 v s).cfg = s.cfg := rfl
@[simp] theorem setCrc16_idGen (v : BitVec 16) (s : State) : (setCrc16 v s).idGen = s.idGen := rfl
@[simp] theorem setCrc16_idAmode (v : BitVec 16) (s : State) : (setCrc16 v s).idAmode = s.idAmode := rfl
@[simp] theorem setCrc16_idCap (v : BitVec 16) (s : State) : (setCrc16 v s).idCap = s.idCap := rfl
@[simp] theorem setCrc16_linkSel (v : BitVec 16) (s : State) : (setCrc16 v s).linkSel = s.linkSel := rfl
@[simp] theorem setCrc16_linkClk (v : BitVec 16) (s : State) : (setCrc16 v s).linkClk = s.linkClk := rfl
@[simp] theorem setCrc16_linkReady (v : BitVec 16) (s : State) : (setCrc16 v s).linkReady = s.linkReady := rfl
@[simp] theorem setCrc16_lastTimeout (v : BitVec 16) (s : State) : (setCrc16 v s).lastTimeout = s.lastTimeout := rfl
@[simp] theorem setCrc16_settle (v : BitVec 16) (s : State) : (setCrc16 v s).settle = s.settle := rfl
@[simp] theorem setCrc16_fsm (v : BitVec 16) (s : State) : (setCrc16 v s).fsm = s.fsm := rfl
@[simp] theorem setCrc16_crc7 (v : BitVec 16) (s : State) : (setCrc16 v s).crc7 = s.crc7 := rfl
@[simp] theorem setCrc16_crc16 (v : BitVec 16) (s : State) : (setCrc16 v s).crc16 = v := rfl
@[simp] theorem setCrc16_frame (v : BitVec 16) (s : State) : (setCrc16 v s).frame = s.frame := rfl
@[simp] theorem setCrc16_req (v : BitVec 16) (s : State) : (setCrc16 v s).req = s.req := rfl
@[simp] theorem setCrc16_busy (v : BitVec 16) (s : State) : (setCrc16 v s).busy = s.busy := rfl
@[simp] theorem setCrc16_result (v : BitVec 16) (s : State) : (setCrc16 v s).result = s.result := rfl
@[simp] theorem setCrc16_resp (v : BitVec 16) (s : State) : (setCrc16 v s).resp = s.resp := rfl
@[simp] theorem setCrc16_val (v : BitVec 16) (s : State) : (setCrc16 v s).val = s.val := rfl
@[simp] theorem setCrc16_done (v : BitVec 16) (s : State) : (setCrc16 v s).done = s.done := rfl
@[simp] theorem setCrc16_buf (v : BitVec 16) (s : State) : (setCrc16 v s).buf = s.buf := rfl
@[simp] theorem setCrc16_pgen (v : BitVec 16) (s : State) : (setCrc16 v s).pgen = s.pgen := rfl
@[simp] theorem setCrc16_pam (v : BitVec 16) (s : State) : (setCrc16 v s).pam = s.pam := rfl
@[simp] theorem setCrc16_t0 (v : BitVec 16) (s : State) : (setCrc16 v s).t0 = s.t0 := rfl
@[simp] theorem setCrc16_n (v : BitVec 16) (s : State) : (setCrc16 v s).n = s.n := rfl
@[simp] theorem setCrc16_k (v : BitVec 16) (s : State) : (setCrc16 v s).k = s.k := rfl
@[simp] theorem setCrc16_code (v : BitVec 16) (s : State) : (setCrc16 v s).code = s.code := rfl
@[simp] theorem setCrc16_port (v : BitVec 16) (s : State) : (setCrc16 v s).port = s.port := rfl
@[simp] theorem setCrc16_host (v : BitVec 16) (s : State) : (setCrc16 v s).host = s.host := rfl
@[simp] theorem setCrc16_cmd (v : BitVec 16) (s : State) : (setCrc16 v s).cmd = s.cmd := rfl
@[simp] theorem setCrc16_stalled (v : BitVec 16) (s : State) : (setCrc16 v s).stalled = s.stalled := rfl

/-! ## `setFrame` -/

@[simp] theorem setFrame_cfg (v : FrameWord) (s : State) : (setFrame v s).cfg = s.cfg := rfl
@[simp] theorem setFrame_idGen (v : FrameWord) (s : State) : (setFrame v s).idGen = s.idGen := rfl
@[simp] theorem setFrame_idAmode (v : FrameWord) (s : State) : (setFrame v s).idAmode = s.idAmode := rfl
@[simp] theorem setFrame_idCap (v : FrameWord) (s : State) : (setFrame v s).idCap = s.idCap := rfl
@[simp] theorem setFrame_linkSel (v : FrameWord) (s : State) : (setFrame v s).linkSel = s.linkSel := rfl
@[simp] theorem setFrame_linkClk (v : FrameWord) (s : State) : (setFrame v s).linkClk = s.linkClk := rfl
@[simp] theorem setFrame_linkReady (v : FrameWord) (s : State) : (setFrame v s).linkReady = s.linkReady := rfl
@[simp] theorem setFrame_lastTimeout (v : FrameWord) (s : State) : (setFrame v s).lastTimeout = s.lastTimeout := rfl
@[simp] theorem setFrame_settle (v : FrameWord) (s : State) : (setFrame v s).settle = s.settle := rfl
@[simp] theorem setFrame_fsm (v : FrameWord) (s : State) : (setFrame v s).fsm = s.fsm := rfl
@[simp] theorem setFrame_crc7 (v : FrameWord) (s : State) : (setFrame v s).crc7 = s.crc7 := rfl
@[simp] theorem setFrame_crc16 (v : FrameWord) (s : State) : (setFrame v s).crc16 = s.crc16 := rfl
@[simp] theorem setFrame_frame (v : FrameWord) (s : State) : (setFrame v s).frame = v := rfl
@[simp] theorem setFrame_req (v : FrameWord) (s : State) : (setFrame v s).req = s.req := rfl
@[simp] theorem setFrame_busy (v : FrameWord) (s : State) : (setFrame v s).busy = s.busy := rfl
@[simp] theorem setFrame_result (v : FrameWord) (s : State) : (setFrame v s).result = s.result := rfl
@[simp] theorem setFrame_resp (v : FrameWord) (s : State) : (setFrame v s).resp = s.resp := rfl
@[simp] theorem setFrame_val (v : FrameWord) (s : State) : (setFrame v s).val = s.val := rfl
@[simp] theorem setFrame_done (v : FrameWord) (s : State) : (setFrame v s).done = s.done := rfl
@[simp] theorem setFrame_buf (v : FrameWord) (s : State) : (setFrame v s).buf = s.buf := rfl
@[simp] theorem setFrame_pgen (v : FrameWord) (s : State) : (setFrame v s).pgen = s.pgen := rfl
@[simp] theorem setFrame_pam (v : FrameWord) (s : State) : (setFrame v s).pam = s.pam := rfl
@[simp] theorem setFrame_t0 (v : FrameWord) (s : State) : (setFrame v s).t0 = s.t0 := rfl
@[simp] theorem setFrame_n (v : FrameWord) (s : State) : (setFrame v s).n = s.n := rfl
@[simp] theorem setFrame_k (v : FrameWord) (s : State) : (setFrame v s).k = s.k := rfl
@[simp] theorem setFrame_code (v : FrameWord) (s : State) : (setFrame v s).code = s.code := rfl
@[simp] theorem setFrame_port (v : FrameWord) (s : State) : (setFrame v s).port = s.port := rfl
@[simp] theorem setFrame_host (v : FrameWord) (s : State) : (setFrame v s).host = s.host := rfl
@[simp] theorem setFrame_cmd (v : FrameWord) (s : State) : (setFrame v s).cmd = s.cmd := rfl
@[simp] theorem setFrame_stalled (v : FrameWord) (s : State) : (setFrame v s).stalled = s.stalled := rfl

/-! ## `setVal` -/

@[simp] theorem setVal_cfg (v : BitVec 48) (s : State) : (setVal v s).cfg = s.cfg := rfl
@[simp] theorem setVal_idGen (v : BitVec 48) (s : State) : (setVal v s).idGen = s.idGen := rfl
@[simp] theorem setVal_idAmode (v : BitVec 48) (s : State) : (setVal v s).idAmode = s.idAmode := rfl
@[simp] theorem setVal_idCap (v : BitVec 48) (s : State) : (setVal v s).idCap = s.idCap := rfl
@[simp] theorem setVal_linkSel (v : BitVec 48) (s : State) : (setVal v s).linkSel = s.linkSel := rfl
@[simp] theorem setVal_linkClk (v : BitVec 48) (s : State) : (setVal v s).linkClk = s.linkClk := rfl
@[simp] theorem setVal_linkReady (v : BitVec 48) (s : State) : (setVal v s).linkReady = s.linkReady := rfl
@[simp] theorem setVal_lastTimeout (v : BitVec 48) (s : State) : (setVal v s).lastTimeout = s.lastTimeout := rfl
@[simp] theorem setVal_settle (v : BitVec 48) (s : State) : (setVal v s).settle = s.settle := rfl
@[simp] theorem setVal_fsm (v : BitVec 48) (s : State) : (setVal v s).fsm = s.fsm := rfl
@[simp] theorem setVal_crc7 (v : BitVec 48) (s : State) : (setVal v s).crc7 = s.crc7 := rfl
@[simp] theorem setVal_crc16 (v : BitVec 48) (s : State) : (setVal v s).crc16 = s.crc16 := rfl
@[simp] theorem setVal_frame (v : BitVec 48) (s : State) : (setVal v s).frame = s.frame := rfl
@[simp] theorem setVal_req (v : BitVec 48) (s : State) : (setVal v s).req = s.req := rfl
@[simp] theorem setVal_busy (v : BitVec 48) (s : State) : (setVal v s).busy = s.busy := rfl
@[simp] theorem setVal_result (v : BitVec 48) (s : State) : (setVal v s).result = s.result := rfl
@[simp] theorem setVal_resp (v : BitVec 48) (s : State) : (setVal v s).resp = s.resp := rfl
@[simp] theorem setVal_val (v : BitVec 48) (s : State) : (setVal v s).val = v := rfl
@[simp] theorem setVal_done (v : BitVec 48) (s : State) : (setVal v s).done = s.done := rfl
@[simp] theorem setVal_buf (v : BitVec 48) (s : State) : (setVal v s).buf = s.buf := rfl
@[simp] theorem setVal_pgen (v : BitVec 48) (s : State) : (setVal v s).pgen = s.pgen := rfl
@[simp] theorem setVal_pam (v : BitVec 48) (s : State) : (setVal v s).pam = s.pam := rfl
@[simp] theorem setVal_t0 (v : BitVec 48) (s : State) : (setVal v s).t0 = s.t0 := rfl
@[simp] theorem setVal_n (v : BitVec 48) (s : State) : (setVal v s).n = s.n := rfl
@[simp] theorem setVal_k (v : BitVec 48) (s : State) : (setVal v s).k = s.k := rfl
@[simp] theorem setVal_code (v : BitVec 48) (s : State) : (setVal v s).code = s.code := rfl
@[simp] theorem setVal_port (v : BitVec 48) (s : State) : (setVal v s).port = s.port := rfl
@[simp] theorem setVal_host (v : BitVec 48) (s : State) : (setVal v s).host = s.host := rfl
@[simp] theorem setVal_cmd (v : BitVec 48) (s : State) : (setVal v s).cmd = s.cmd := rfl
@[simp] theorem setVal_stalled (v : BitVec 48) (s : State) : (setVal v s).stalled = s.stalled := rfl

/-! ## `setDone` -/

@[simp] theorem setDone_cfg (v : Word) (s : State) : (setDone v s).cfg = s.cfg := rfl
@[simp] theorem setDone_idGen (v : Word) (s : State) : (setDone v s).idGen = s.idGen := rfl
@[simp] theorem setDone_idAmode (v : Word) (s : State) : (setDone v s).idAmode = s.idAmode := rfl
@[simp] theorem setDone_idCap (v : Word) (s : State) : (setDone v s).idCap = s.idCap := rfl
@[simp] theorem setDone_linkSel (v : Word) (s : State) : (setDone v s).linkSel = s.linkSel := rfl
@[simp] theorem setDone_linkClk (v : Word) (s : State) : (setDone v s).linkClk = s.linkClk := rfl
@[simp] theorem setDone_linkReady (v : Word) (s : State) : (setDone v s).linkReady = s.linkReady := rfl
@[simp] theorem setDone_lastTimeout (v : Word) (s : State) : (setDone v s).lastTimeout = s.lastTimeout := rfl
@[simp] theorem setDone_settle (v : Word) (s : State) : (setDone v s).settle = s.settle := rfl
@[simp] theorem setDone_fsm (v : Word) (s : State) : (setDone v s).fsm = s.fsm := rfl
@[simp] theorem setDone_crc7 (v : Word) (s : State) : (setDone v s).crc7 = s.crc7 := rfl
@[simp] theorem setDone_crc16 (v : Word) (s : State) : (setDone v s).crc16 = s.crc16 := rfl
@[simp] theorem setDone_frame (v : Word) (s : State) : (setDone v s).frame = s.frame := rfl
@[simp] theorem setDone_req (v : Word) (s : State) : (setDone v s).req = s.req := rfl
@[simp] theorem setDone_busy (v : Word) (s : State) : (setDone v s).busy = s.busy := rfl
@[simp] theorem setDone_result (v : Word) (s : State) : (setDone v s).result = s.result := rfl
@[simp] theorem setDone_resp (v : Word) (s : State) : (setDone v s).resp = s.resp := rfl
@[simp] theorem setDone_val (v : Word) (s : State) : (setDone v s).val = s.val := rfl
@[simp] theorem setDone_done (v : Word) (s : State) : (setDone v s).done = v := rfl
@[simp] theorem setDone_buf (v : Word) (s : State) : (setDone v s).buf = s.buf := rfl
@[simp] theorem setDone_pgen (v : Word) (s : State) : (setDone v s).pgen = s.pgen := rfl
@[simp] theorem setDone_pam (v : Word) (s : State) : (setDone v s).pam = s.pam := rfl
@[simp] theorem setDone_t0 (v : Word) (s : State) : (setDone v s).t0 = s.t0 := rfl
@[simp] theorem setDone_n (v : Word) (s : State) : (setDone v s).n = s.n := rfl
@[simp] theorem setDone_k (v : Word) (s : State) : (setDone v s).k = s.k := rfl
@[simp] theorem setDone_code (v : Word) (s : State) : (setDone v s).code = s.code := rfl
@[simp] theorem setDone_port (v : Word) (s : State) : (setDone v s).port = s.port := rfl
@[simp] theorem setDone_host (v : Word) (s : State) : (setDone v s).host = s.host := rfl
@[simp] theorem setDone_cmd (v : Word) (s : State) : (setDone v s).cmd = s.cmd := rfl
@[simp] theorem setDone_stalled (v : Word) (s : State) : (setDone v s).stalled = s.stalled := rfl

/-! ## `initStart` -/

@[simp] theorem initStart_cfg (s : State) : (initStart s).cfg = s.cfg := rfl
@[simp] theorem initStart_idGen (s : State) : (initStart s).idGen = .unknown := rfl
@[simp] theorem initStart_idAmode (s : State) : (initStart s).idAmode = .byte := rfl
@[simp] theorem initStart_idCap (s : State) : (initStart s).idCap = 0 := rfl
@[simp] theorem initStart_linkSel (s : State) : (initStart s).linkSel = s.linkSel := rfl
@[simp] theorem initStart_linkClk (s : State) : (initStart s).linkClk = .slow := rfl
@[simp] theorem initStart_linkReady (s : State) : (initStart s).linkReady = s.linkReady := rfl
@[simp] theorem initStart_lastTimeout (s : State) : (initStart s).lastTimeout = s.lastTimeout := rfl
@[simp] theorem initStart_settle (s : State) : (initStart s).settle = s.settle := rfl
@[simp] theorem initStart_fsm (s : State) : (initStart s).fsm = .reset := rfl
@[simp] theorem initStart_crc7 (s : State) : (initStart s).crc7 = s.crc7 := rfl
@[simp] theorem initStart_crc16 (s : State) : (initStart s).crc16 = s.crc16 := rfl
@[simp] theorem initStart_frame (s : State) : (initStart s).frame = s.frame := rfl
@[simp] theorem initStart_req (s : State) : (initStart s).req = s.req := rfl
@[simp] theorem initStart_busy (s : State) : (initStart s).busy = s.busy := rfl
@[simp] theorem initStart_result (s : State) : (initStart s).result = s.result := rfl
@[simp] theorem initStart_resp (s : State) : (initStart s).resp = s.resp := rfl
@[simp] theorem initStart_val (s : State) : (initStart s).val = s.val := rfl
@[simp] theorem initStart_done (s : State) : (initStart s).done = s.done := rfl
@[simp] theorem initStart_buf (s : State) : (initStart s).buf = s.buf := rfl
@[simp] theorem initStart_pgen (s : State) : (initStart s).pgen = .unknown := rfl
@[simp] theorem initStart_pam (s : State) : (initStart s).pam = .byte := rfl
@[simp] theorem initStart_t0 (s : State) : (initStart s).t0 = s.t0 := rfl
@[simp] theorem initStart_n (s : State) : (initStart s).n = s.n := rfl
@[simp] theorem initStart_k (s : State) : (initStart s).k = s.k := rfl
@[simp] theorem initStart_code (s : State) : (initStart s).code = s.code := rfl
@[simp] theorem initStart_port (s : State) : (initStart s).port = s.port := rfl
@[simp] theorem initStart_host (s : State) : (initStart s).host = s.host := rfl
@[simp] theorem initStart_cmd (s : State) : (initStart s).cmd = s.cmd := rfl
@[simp] theorem initStart_stalled (s : State) : (initStart s).stalled = s.stalled := rfl

/-! ## `commitIdentity` -/

@[simp] theorem commitIdentity_cfg (s : State) : (commitIdentity s).cfg = s.cfg := rfl
@[simp] theorem commitIdentity_idGen (s : State) : (commitIdentity s).idGen = s.pgen := rfl
@[simp] theorem commitIdentity_idAmode (s : State) : (commitIdentity s).idAmode = s.pam := rfl
@[simp] theorem commitIdentity_idCap (s : State) : (commitIdentity s).idCap = 0 := rfl
@[simp] theorem commitIdentity_linkSel (s : State) : (commitIdentity s).linkSel = s.linkSel := rfl
@[simp] theorem commitIdentity_linkClk (s : State) : (commitIdentity s).linkClk = .fast := rfl
@[simp] theorem commitIdentity_linkReady (s : State) : (commitIdentity s).linkReady = s.linkReady := rfl
@[simp] theorem commitIdentity_lastTimeout (s : State) : (commitIdentity s).lastTimeout = s.lastTimeout := rfl
@[simp] theorem commitIdentity_settle (s : State) : (commitIdentity s).settle = s.settle := rfl
@[simp] theorem commitIdentity_fsm (s : State) : (commitIdentity s).fsm = .ready := rfl
@[simp] theorem commitIdentity_crc7 (s : State) : (commitIdentity s).crc7 = s.crc7 := rfl
@[simp] theorem commitIdentity_crc16 (s : State) : (commitIdentity s).crc16 = s.crc16 := rfl
@[simp] theorem commitIdentity_frame (s : State) : (commitIdentity s).frame = s.frame := rfl
@[simp] theorem commitIdentity_req (s : State) : (commitIdentity s).req = s.req := rfl
@[simp] theorem commitIdentity_busy (s : State) : (commitIdentity s).busy = s.busy := rfl
@[simp] theorem commitIdentity_result (s : State) : (commitIdentity s).result = s.result := rfl
@[simp] theorem commitIdentity_resp (s : State) : (commitIdentity s).resp = s.resp := rfl
@[simp] theorem commitIdentity_val (s : State) : (commitIdentity s).val = s.val := rfl
@[simp] theorem commitIdentity_done (s : State) : (commitIdentity s).done = s.done := rfl
@[simp] theorem commitIdentity_buf (s : State) : (commitIdentity s).buf = s.buf := rfl
@[simp] theorem commitIdentity_pgen (s : State) : (commitIdentity s).pgen = s.pgen := rfl
@[simp] theorem commitIdentity_pam (s : State) : (commitIdentity s).pam = s.pam := rfl
@[simp] theorem commitIdentity_t0 (s : State) : (commitIdentity s).t0 = s.t0 := rfl
@[simp] theorem commitIdentity_n (s : State) : (commitIdentity s).n = s.n := rfl
@[simp] theorem commitIdentity_k (s : State) : (commitIdentity s).k = s.k := rfl
@[simp] theorem commitIdentity_code (s : State) : (commitIdentity s).code = s.code := rfl
@[simp] theorem commitIdentity_port (s : State) : (commitIdentity s).port = s.port := rfl
@[simp] theorem commitIdentity_host (s : State) : (commitIdentity s).host = s.host := rfl
@[simp] theorem commitIdentity_cmd (s : State) : (commitIdentity s).cmd = s.cmd := rfl
@[simp] theorem commitIdentity_stalled (s : State) : (commitIdentity s).stalled = s.stalled := rfl

/-! ## `lineBusy` -/

@[simp] theorem lineBusy_cfg (s : State) : (lineBusy s).cfg = s.cfg := rfl
@[simp] theorem lineBusy_idGen (s : State) : (lineBusy s).idGen = s.idGen := rfl
@[simp] theorem lineBusy_idAmode (s : State) : (lineBusy s).idAmode = s.idAmode := rfl
@[simp] theorem lineBusy_idCap (s : State) : (lineBusy s).idCap = s.idCap := rfl
@[simp] theorem lineBusy_linkSel (s : State) : (lineBusy s).linkSel = s.linkSel := rfl
@[simp] theorem lineBusy_linkClk (s : State) : (lineBusy s).linkClk = s.linkClk := rfl
@[simp] theorem lineBusy_linkReady (s : State) : (lineBusy s).linkReady = false := rfl
@[simp] theorem lineBusy_lastTimeout (s : State) : (lineBusy s).lastTimeout = s.lastTimeout := rfl
@[simp] theorem lineBusy_settle (s : State) : (lineBusy s).settle = s.settle := rfl
@[simp] theorem lineBusy_fsm (s : State) : (lineBusy s).fsm = s.fsm := rfl
@[simp] theorem lineBusy_crc7 (s : State) : (lineBusy s).crc7 = s.crc7 := rfl
@[simp] theorem lineBusy_crc16 (s : State) : (lineBusy s).crc16 = s.crc16 := rfl
@[simp] theorem lineBusy_frame (s : State) : (lineBusy s).frame = s.frame := rfl
@[simp] theorem lineBusy_req (s : State) : (lineBusy s).req = s.req := rfl
@[simp] theorem lineBusy_busy (s : State) : (lineBusy s).busy = s.busy := rfl
@[simp] theorem lineBusy_result (s : State) : (lineBusy s).result = s.result := rfl
@[simp] theorem lineBusy_resp (s : State) : (lineBusy s).resp = s.resp := rfl
@[simp] theorem lineBusy_val (s : State) : (lineBusy s).val = s.val := rfl
@[simp] theorem lineBusy_done (s : State) : (lineBusy s).done = s.done := rfl
@[simp] theorem lineBusy_buf (s : State) : (lineBusy s).buf = s.buf := rfl
@[simp] theorem lineBusy_pgen (s : State) : (lineBusy s).pgen = s.pgen := rfl
@[simp] theorem lineBusy_pam (s : State) : (lineBusy s).pam = s.pam := rfl
@[simp] theorem lineBusy_t0 (s : State) : (lineBusy s).t0 = s.t0 := rfl
@[simp] theorem lineBusy_n (s : State) : (lineBusy s).n = s.n := rfl
@[simp] theorem lineBusy_k (s : State) : (lineBusy s).k = s.k := rfl
@[simp] theorem lineBusy_code (s : State) : (lineBusy s).code = s.code := rfl
@[simp] theorem lineBusy_port (s : State) : (lineBusy s).port = s.port := rfl
@[simp] theorem lineBusy_host (s : State) : (lineBusy s).host = s.host := rfl
@[simp] theorem lineBusy_cmd (s : State) : (lineBusy s).cmd = s.cmd := rfl
@[simp] theorem lineBusy_stalled (s : State) : (lineBusy s).stalled = s.stalled := rfl

/-! ## `lineIdle` -/

@[simp] theorem lineIdle_cfg (s : State) : (lineIdle s).cfg = s.cfg := rfl
@[simp] theorem lineIdle_idGen (s : State) : (lineIdle s).idGen = s.idGen := rfl
@[simp] theorem lineIdle_idAmode (s : State) : (lineIdle s).idAmode = s.idAmode := rfl
@[simp] theorem lineIdle_idCap (s : State) : (lineIdle s).idCap = s.idCap := rfl
@[simp] theorem lineIdle_linkSel (s : State) : (lineIdle s).linkSel = s.linkSel := rfl
@[simp] theorem lineIdle_linkClk (s : State) : (lineIdle s).linkClk = s.linkClk := rfl
@[simp] theorem lineIdle_linkReady (s : State) : (lineIdle s).linkReady = true := rfl
@[simp] theorem lineIdle_lastTimeout (s : State) : (lineIdle s).lastTimeout = s.lastTimeout := rfl
@[simp] theorem lineIdle_settle (s : State) : (lineIdle s).settle = s.settle := rfl
@[simp] theorem lineIdle_fsm (s : State) : (lineIdle s).fsm = s.fsm := rfl
@[simp] theorem lineIdle_crc7 (s : State) : (lineIdle s).crc7 = s.crc7 := rfl
@[simp] theorem lineIdle_crc16 (s : State) : (lineIdle s).crc16 = s.crc16 := rfl
@[simp] theorem lineIdle_frame (s : State) : (lineIdle s).frame = s.frame := rfl
@[simp] theorem lineIdle_req (s : State) : (lineIdle s).req = s.req := rfl
@[simp] theorem lineIdle_busy (s : State) : (lineIdle s).busy = s.busy := rfl
@[simp] theorem lineIdle_result (s : State) : (lineIdle s).result = s.result := rfl
@[simp] theorem lineIdle_resp (s : State) : (lineIdle s).resp = s.resp := rfl
@[simp] theorem lineIdle_val (s : State) : (lineIdle s).val = s.val := rfl
@[simp] theorem lineIdle_done (s : State) : (lineIdle s).done = s.done := rfl
@[simp] theorem lineIdle_buf (s : State) : (lineIdle s).buf = s.buf := rfl
@[simp] theorem lineIdle_pgen (s : State) : (lineIdle s).pgen = s.pgen := rfl
@[simp] theorem lineIdle_pam (s : State) : (lineIdle s).pam = s.pam := rfl
@[simp] theorem lineIdle_t0 (s : State) : (lineIdle s).t0 = s.t0 := rfl
@[simp] theorem lineIdle_n (s : State) : (lineIdle s).n = s.n := rfl
@[simp] theorem lineIdle_k (s : State) : (lineIdle s).k = s.k := rfl
@[simp] theorem lineIdle_code (s : State) : (lineIdle s).code = s.code := rfl
@[simp] theorem lineIdle_port (s : State) : (lineIdle s).port = s.port := rfl
@[simp] theorem lineIdle_host (s : State) : (lineIdle s).host = s.host := rfl
@[simp] theorem lineIdle_cmd (s : State) : (lineIdle s).cmd = s.cmd := rfl
@[simp] theorem lineIdle_stalled (s : State) : (lineIdle s).stalled = s.stalled := rfl

/-! ## `markTimeout` -/

@[simp] theorem markTimeout_cfg (s : State) : (markTimeout s).cfg = s.cfg := rfl
@[simp] theorem markTimeout_idGen (s : State) : (markTimeout s).idGen = s.idGen := rfl
@[simp] theorem markTimeout_idAmode (s : State) : (markTimeout s).idAmode = s.idAmode := rfl
@[simp] theorem markTimeout_idCap (s : State) : (markTimeout s).idCap = s.idCap := rfl
@[simp] theorem markTimeout_linkSel (s : State) : (markTimeout s).linkSel = s.linkSel := rfl
@[simp] theorem markTimeout_linkClk (s : State) : (markTimeout s).linkClk = s.linkClk := rfl
@[simp] theorem markTimeout_linkReady (s : State) : (markTimeout s).linkReady = s.linkReady := rfl
@[simp] theorem markTimeout_lastTimeout (s : State) : (markTimeout s).lastTimeout = true := rfl
@[simp] theorem markTimeout_settle (s : State) : (markTimeout s).settle = s.settle := rfl
@[simp] theorem markTimeout_fsm (s : State) : (markTimeout s).fsm = s.fsm := rfl
@[simp] theorem markTimeout_crc7 (s : State) : (markTimeout s).crc7 = s.crc7 := rfl
@[simp] theorem markTimeout_crc16 (s : State) : (markTimeout s).crc16 = s.crc16 := rfl
@[simp] theorem markTimeout_frame (s : State) : (markTimeout s).frame = s.frame := rfl
@[simp] theorem markTimeout_req (s : State) : (markTimeout s).req = s.req := rfl
@[simp] theorem markTimeout_busy (s : State) : (markTimeout s).busy = s.busy := rfl
@[simp] theorem markTimeout_result (s : State) : (markTimeout s).result = s.result := rfl
@[simp] theorem markTimeout_resp (s : State) : (markTimeout s).resp = s.resp := rfl
@[simp] theorem markTimeout_val (s : State) : (markTimeout s).val = s.val := rfl
@[simp] theorem markTimeout_done (s : State) : (markTimeout s).done = s.done := rfl
@[simp] theorem markTimeout_buf (s : State) : (markTimeout s).buf = s.buf := rfl
@[simp] theorem markTimeout_pgen (s : State) : (markTimeout s).pgen = s.pgen := rfl
@[simp] theorem markTimeout_pam (s : State) : (markTimeout s).pam = s.pam := rfl
@[simp] theorem markTimeout_t0 (s : State) : (markTimeout s).t0 = s.t0 := rfl
@[simp] theorem markTimeout_n (s : State) : (markTimeout s).n = s.n := rfl
@[simp] theorem markTimeout_k (s : State) : (markTimeout s).k = s.k := rfl
@[simp] theorem markTimeout_code (s : State) : (markTimeout s).code = s.code := rfl
@[simp] theorem markTimeout_port (s : State) : (markTimeout s).port = s.port := rfl
@[simp] theorem markTimeout_host (s : State) : (markTimeout s).host = s.host := rfl
@[simp] theorem markTimeout_cmd (s : State) : (markTimeout s).cmd = s.cmd := rfl
@[simp] theorem markTimeout_stalled (s : State) : (markTimeout s).stalled = s.stalled := rfl

/-! ## `clearTimeout` -/

@[simp] theorem clearTimeout_cfg (s : State) : (clearTimeout s).cfg = s.cfg := rfl
@[simp] theorem clearTimeout_idGen (s : State) : (clearTimeout s).idGen = s.idGen := rfl
@[simp] theorem clearTimeout_idAmode (s : State) : (clearTimeout s).idAmode = s.idAmode := rfl
@[simp] theorem clearTimeout_idCap (s : State) : (clearTimeout s).idCap = s.idCap := rfl
@[simp] theorem clearTimeout_linkSel (s : State) : (clearTimeout s).linkSel = s.linkSel := rfl
@[simp] theorem clearTimeout_linkClk (s : State) : (clearTimeout s).linkClk = s.linkClk := rfl
@[simp] theorem clearTimeout_linkReady (s : State) : (clearTimeout s).linkReady = s.linkReady := rfl
@[simp] theorem clearTimeout_lastTimeout (s : State) : (clearTimeout s).lastTimeout = false := rfl
@[simp] theorem clearTimeout_settle (s : State) : (clearTimeout s).settle = s.settle := rfl
@[simp] theorem clearTimeout_fsm (s : State) : (clearTimeout s).fsm = s.fsm := rfl
@[simp] theorem clearTimeout_crc7 (s : State) : (clearTimeout s).crc7 = s.crc7 := rfl
@[simp] theorem clearTimeout_crc16 (s : State) : (clearTimeout s).crc16 = s.crc16 := rfl
@[simp] theorem clearTimeout_frame (s : State) : (clearTimeout s).frame = s.frame := rfl
@[simp] theorem clearTimeout_req (s : State) : (clearTimeout s).req = s.req := rfl
@[simp] theorem clearTimeout_busy (s : State) : (clearTimeout s).busy = s.busy := rfl
@[simp] theorem clearTimeout_result (s : State) : (clearTimeout s).result = s.result := rfl
@[simp] theorem clearTimeout_resp (s : State) : (clearTimeout s).resp = s.resp := rfl
@[simp] theorem clearTimeout_val (s : State) : (clearTimeout s).val = s.val := rfl
@[simp] theorem clearTimeout_done (s : State) : (clearTimeout s).done = s.done := rfl
@[simp] theorem clearTimeout_buf (s : State) : (clearTimeout s).buf = s.buf := rfl
@[simp] theorem clearTimeout_pgen (s : State) : (clearTimeout s).pgen = s.pgen := rfl
@[simp] theorem clearTimeout_pam (s : State) : (clearTimeout s).pam = s.pam := rfl
@[simp] theorem clearTimeout_t0 (s : State) : (clearTimeout s).t0 = s.t0 := rfl
@[simp] theorem clearTimeout_n (s : State) : (clearTimeout s).n = s.n := rfl
@[simp] theorem clearTimeout_k (s : State) : (clearTimeout s).k = s.k := rfl
@[simp] theorem clearTimeout_code (s : State) : (clearTimeout s).code = s.code := rfl
@[simp] theorem clearTimeout_port (s : State) : (clearTimeout s).port = s.port := rfl
@[simp] theorem clearTimeout_host (s : State) : (clearTimeout s).host = s.host := rfl
@[simp] theorem clearTimeout_cmd (s : State) : (clearTimeout s).cmd = s.cmd := rfl
@[simp] theorem clearTimeout_stalled (s : State) : (clearTimeout s).stalled = s.stalled := rfl

/-! ## `storeBuf` -/

@[simp] theorem storeBuf_cfg (a : Nat) (b : Byte) (s : State) : (storeBuf a b s).cfg = s.cfg := rfl
@[simp] theorem storeBuf_idGen (a : Nat) (b : Byte) (s : State) : (storeBuf a b s).idGen = s.idGen := rfl
@[simp] theorem storeBuf_idAmode (a : Nat) (b : Byte) (s : State) : (storeBuf a b s).idAmode = s.idAmode := rfl
@[simp] theorem storeBuf_idCap (a : Nat) (b : Byte) (s : State) : (storeBuf a b s).idCap = s.idCap := rfl
@[simp] theorem storeBuf_linkSel (a : Nat) (b : Byte) (s : State) : (storeBuf a b s).linkSel = s.linkSel := rfl
@[simp] theorem storeBuf_linkClk (a : Nat) (b : Byte) (s : State) : (storeBuf a b s).linkClk = s.linkClk := rfl
@[simp] theorem storeBuf_linkReady (a : Nat) (b : Byte) (s : State) : (storeBuf a b s).linkReady = s.linkReady := rfl
@[simp] theorem storeBuf_lastTimeout (a : Nat) (b : Byte) (s : State) : (storeBuf a b s).lastTimeout = s.lastTimeout := rfl
@[simp] theorem storeBuf_settle (a : Nat) (b : Byte) (s : State) : (storeBuf a b s).settle = s.settle := rfl
@[simp] theorem storeBuf_fsm (a : Nat) (b : Byte) (s : State) : (storeBuf a b s).fsm = s.fsm := rfl
@[simp] theorem storeBuf_crc7 (a : Nat) (b : Byte) (s : State) : (storeBuf a b s).crc7 = s.crc7 := rfl
@[simp] theorem storeBuf_crc16 (a : Nat) (b : Byte) (s : State) : (storeBuf a b s).crc16 = s.crc16 := rfl
@[simp] theorem storeBuf_frame (a : Nat) (b : Byte) (s : State) : (storeBuf a b s).frame = s.frame := rfl
@[simp] theorem storeBuf_req (a : Nat) (b : Byte) (s : State) : (storeBuf a b s).req = s.req := rfl
@[simp] theorem storeBuf_busy (a : Nat) (b : Byte) (s : State) : (storeBuf a b s).busy = s.busy := rfl
@[simp] theorem storeBuf_result (a : Nat) (b : Byte) (s : State) : (storeBuf a b s).result = s.result := rfl
@[simp] theorem storeBuf_resp (a : Nat) (b : Byte) (s : State) : (storeBuf a b s).resp = s.resp := rfl
@[simp] theorem storeBuf_val (a : Nat) (b : Byte) (s : State) : (storeBuf a b s).val = s.val := rfl
@[simp] theorem storeBuf_done (a : Nat) (b : Byte) (s : State) : (storeBuf a b s).done = s.done := rfl
@[simp] theorem storeBuf_buf (a : Nat) (b : Byte) (s : State) : (storeBuf a b s).buf = Memory.write s.buf a b := rfl
@[simp] theorem storeBuf_pgen (a : Nat) (b : Byte) (s : State) : (storeBuf a b s).pgen = s.pgen := rfl
@[simp] theorem storeBuf_pam (a : Nat) (b : Byte) (s : State) : (storeBuf a b s).pam = s.pam := rfl
@[simp] theorem storeBuf_t0 (a : Nat) (b : Byte) (s : State) : (storeBuf a b s).t0 = s.t0 := rfl
@[simp] theorem storeBuf_n (a : Nat) (b : Byte) (s : State) : (storeBuf a b s).n = s.n := rfl
@[simp] theorem storeBuf_k (a : Nat) (b : Byte) (s : State) : (storeBuf a b s).k = s.k := rfl
@[simp] theorem storeBuf_code (a : Nat) (b : Byte) (s : State) : (storeBuf a b s).code = s.code := rfl
@[simp] theorem storeBuf_port (a : Nat) (b : Byte) (s : State) : (storeBuf a b s).port = s.port := rfl
@[simp] theorem storeBuf_host (a : Nat) (b : Byte) (s : State) : (storeBuf a b s).host = s.host := rfl
@[simp] theorem storeBuf_cmd (a : Nat) (b : Byte) (s : State) : (storeBuf a b s).cmd = s.cmd := rfl
@[simp] theorem storeBuf_stalled (a : Nat) (b : Byte) (s : State) : (storeBuf a b s).stalled = s.stalled := rfl

/-! ## `xchg` -/

@[simp] theorem xchg_cfg (tx : Byte) (s : State) : (xchg tx s).2.cfg = s.cfg := rfl
@[simp] theorem xchg_idGen (tx : Byte) (s : State) : (xchg tx s).2.idGen = s.idGen := rfl
@[simp] theorem xchg_idAmode (tx : Byte) (s : State) : (xchg tx s).2.idAmode = s.idAmode := rfl
@[simp] theorem xchg_idCap (tx : Byte) (s : State) : (xchg tx s).2.idCap = s.idCap := rfl
@[simp] theorem xchg_linkSel (tx : Byte) (s : State) : (xchg tx s).2.linkSel = s.linkSel := rfl
@[simp] theorem xchg_linkClk (tx : Byte) (s : State) : (xchg tx s).2.linkClk = s.linkClk := rfl
@[simp] theorem xchg_linkReady (tx : Byte) (s : State) : (xchg tx s).2.linkReady = s.linkReady := rfl
@[simp] theorem xchg_lastTimeout (tx : Byte) (s : State) : (xchg tx s).2.lastTimeout = s.lastTimeout := rfl
@[simp] theorem xchg_settle (tx : Byte) (s : State) : (xchg tx s).2.settle = s.settle := rfl
@[simp] theorem xchg_fsm (tx : Byte) (s : State) : (xchg tx s).2.fsm = s.fsm := rfl
@[simp] theorem xchg_crc7 (tx : Byte) (s : State) : (xchg tx s).2.crc7 = s.crc7 := rfl
@[simp] theorem xchg_crc16 (tx : Byte) (s : State) : (xchg tx s).2.crc16 = s.crc16 := rfl
@[simp] theorem xchg_frame (tx : Byte) (s : State) : (xchg tx s).2.frame = s.frame := rfl
@[simp] theorem xchg_req (tx : Byte) (s : State) : (xchg tx s).2.req = s.req := rfl
@[simp] theorem xchg_busy (tx : Byte) (s : State) : (xchg tx s).2.busy = s.busy := rfl
@[simp] theorem xchg_result (tx : Byte) (s : State) : (xchg tx s).2.result = s.result := rfl
@[simp] theorem xchg_resp (tx : Byte) (s : State) : (xchg tx s).2.resp = s.resp := rfl
@[simp] theorem xchg_val (tx : Byte) (s : State) : (xchg tx s).2.val = s.val := rfl
@[simp] theorem xchg_done (tx : Byte) (s : State) : (xchg tx s).2.done = s.done := rfl
@[simp] theorem xchg_buf (tx : Byte) (s : State) : (xchg tx s).2.buf = s.buf := rfl
@[simp] theorem xchg_pgen (tx : Byte) (s : State) : (xchg tx s).2.pgen = s.pgen := rfl
@[simp] theorem xchg_pam (tx : Byte) (s : State) : (xchg tx s).2.pam = s.pam := rfl
@[simp] theorem xchg_t0 (tx : Byte) (s : State) : (xchg tx s).2.t0 = s.t0 := rfl
@[simp] theorem xchg_n (tx : Byte) (s : State) : (xchg tx s).2.n = s.n := rfl
@[simp] theorem xchg_k (tx : Byte) (s : State) : (xchg tx s).2.k = s.k := rfl
@[simp] theorem xchg_code (tx : Byte) (s : State) : (xchg tx s).2.code = s.code := rfl
@[simp] theorem xchg_port (tx : Byte) (s : State) : (xchg tx s).2.port = s.port.afterXchg s.linkSel s.linkClk tx := rfl
@[simp] theorem xchg_host (tx : Byte) (s : State) : (xchg tx s).2.host = s.host := rfl
@[simp] theorem xchg_cmd (tx : Byte) (s : State) : (xchg tx s).2.cmd = s.cmd := rfl
@[simp] theorem xchg_stalled (tx : Byte) (s : State) : (xchg tx s).2.stalled = s.stalled := rfl

/-! ## `select` -/

@[simp] theorem select_cfg (on : Bool) (s : State) : (select on s).cfg = s.cfg := rfl
@[simp] theorem select_idGen (on : Bool) (s : State) : (select on s).idGen = s.idGen := rfl
@[simp] theorem select_idAmode (on : Bool) (s : State) : (select on s).idAmode = s.idAmode := rfl
@[simp] theorem select_idCap (on : Bool) (s : State) : (select on s).idCap = s.idCap := rfl
@[simp] theorem select_linkSel (on : Bool) (s : State) : (select on s).linkSel = on := rfl
@[simp] theorem select_linkClk (on : Bool) (s : State) : (select on s).linkClk = s.linkClk := rfl
@[simp] theorem select_linkReady (on : Bool) (s : State) : (select on s).linkReady = s.linkReady := rfl
@[simp] theorem select_lastTimeout (on : Bool) (s : State) : (select on s).lastTimeout = s.lastTimeout := rfl
@[simp] theorem select_settle (on : Bool) (s : State) : (select on s).settle = (on || s.settle) := rfl
@[simp] theorem select_fsm (on : Bool) (s : State) : (select on s).fsm = s.fsm := rfl
@[simp] theorem select_crc7 (on : Bool) (s : State) : (select on s).crc7 = s.crc7 := rfl
@[simp] theorem select_crc16 (on : Bool) (s : State) : (select on s).crc16 = s.crc16 := rfl
@[simp] theorem select_frame (on : Bool) (s : State) : (select on s).frame = s.frame := rfl
@[simp] theorem select_req (on : Bool) (s : State) : (select on s).req = s.req := rfl
@[simp] theorem select_busy (on : Bool) (s : State) : (select on s).busy = s.busy := rfl
@[simp] theorem select_result (on : Bool) (s : State) : (select on s).result = s.result := rfl
@[simp] theorem select_resp (on : Bool) (s : State) : (select on s).resp = s.resp := rfl
@[simp] theorem select_val (on : Bool) (s : State) : (select on s).val = s.val := rfl
@[simp] theorem select_done (on : Bool) (s : State) : (select on s).done = s.done := rfl
@[simp] theorem select_buf (on : Bool) (s : State) : (select on s).buf = s.buf := rfl
@[simp] theorem select_pgen (on : Bool) (s : State) : (select on s).pgen = s.pgen := rfl
@[simp] theorem select_pam (on : Bool) (s : State) : (select on s).pam = s.pam := rfl
@[simp] theorem select_t0 (on : Bool) (s : State) : (select on s).t0 = s.t0 := rfl
@[simp] theorem select_n (on : Bool) (s : State) : (select on s).n = s.n := rfl
@[simp] theorem select_k (on : Bool) (s : State) : (select on s).k = s.k := rfl
@[simp] theorem select_code (on : Bool) (s : State) : (select on s).code = s.code := rfl
@[simp] theorem select_port (on : Bool) (s : State) : (select on s).port = { s.port with hist := .sel on :: s.port.hist } := rfl
@[simp] theorem select_host (on : Bool) (s : State) : (select on s).host = s.host := rfl
@[simp] theorem select_cmd (on : Bool) (s : State) : (select on s).cmd = s.cmd := rfl
@[simp] theorem select_stalled (on : Bool) (s : State) : (select on s).stalled = s.stalled := rfl

/-! ## `complete` -/

@[simp] theorem complete_cfg (c : Code) (s : State) : (complete c s).cfg = s.cfg := rfl
@[simp] theorem complete_idGen (c : Code) (s : State) : (complete c s).idGen = s.idGen := rfl
@[simp] theorem complete_idAmode (c : Code) (s : State) : (complete c s).idAmode = s.idAmode := rfl
@[simp] theorem complete_idCap (c : Code) (s : State) : (complete c s).idCap = s.idCap := rfl
@[simp] theorem complete_linkSel (c : Code) (s : State) : (complete c s).linkSel = s.linkSel := rfl
@[simp] theorem complete_linkClk (c : Code) (s : State) : (complete c s).linkClk = s.linkClk := rfl
@[simp] theorem complete_linkReady (c : Code) (s : State) : (complete c s).linkReady = s.linkReady := rfl
@[simp] theorem complete_lastTimeout (c : Code) (s : State) : (complete c s).lastTimeout = s.lastTimeout := rfl
@[simp] theorem complete_settle (c : Code) (s : State) : (complete c s).settle = s.settle := rfl
@[simp] theorem complete_fsm (c : Code) (s : State) : (complete c s).fsm = s.fsm := rfl
@[simp] theorem complete_crc7 (c : Code) (s : State) : (complete c s).crc7 = s.crc7 := rfl
@[simp] theorem complete_crc16 (c : Code) (s : State) : (complete c s).crc16 = s.crc16 := rfl
@[simp] theorem complete_frame (c : Code) (s : State) : (complete c s).frame = s.frame := rfl
@[simp] theorem complete_req (c : Code) (s : State) : (complete c s).req = s.req := rfl
@[simp] theorem complete_busy (c : Code) (s : State) : (complete c s).busy = false := rfl
@[simp] theorem complete_result (c : Code) (s : State) : (complete c s).result = c := rfl
@[simp] theorem complete_resp (c : Code) (s : State) : (complete c s).resp = s.resp := rfl
@[simp] theorem complete_val (c : Code) (s : State) : (complete c s).val = s.val := rfl
@[simp] theorem complete_done (c : Code) (s : State) : (complete c s).done = s.done := rfl
@[simp] theorem complete_buf (c : Code) (s : State) : (complete c s).buf = s.buf := rfl
@[simp] theorem complete_pgen (c : Code) (s : State) : (complete c s).pgen = s.pgen := rfl
@[simp] theorem complete_pam (c : Code) (s : State) : (complete c s).pam = s.pam := rfl
@[simp] theorem complete_t0 (c : Code) (s : State) : (complete c s).t0 = s.t0 := rfl
@[simp] theorem complete_n (c : Code) (s : State) : (complete c s).n = s.n := rfl
@[simp] theorem complete_k (c : Code) (s : State) : (complete c s).k = s.k := rfl
@[simp] theorem complete_code (c : Code) (s : State) : (complete c s).code = s.code := rfl
@[simp] theorem complete_port (c : Code) (s : State) : (complete c s).port = s.port := rfl
@[simp] theorem complete_host (c : Code) (s : State) : (complete c s).host = s.host := rfl
@[simp] theorem complete_cmd (c : Code) (s : State) : (complete c s).cmd = s.cmd := rfl
@[simp] theorem complete_stalled (c : Code) (s : State) : (complete c s).stalled = s.stalled := rfl

/-! ## `finish` -/

@[simp] theorem finish_cfg (c : Code) (s : State) : (finish c s).cfg = s.cfg := rfl
@[simp] theorem finish_idGen (c : Code) (s : State) : (finish c s).idGen = s.idGen := rfl
@[simp] theorem finish_idAmode (c : Code) (s : State) : (finish c s).idAmode = s.idAmode := rfl
@[simp] theorem finish_idCap (c : Code) (s : State) : (finish c s).idCap = s.idCap := rfl
@[simp] theorem finish_linkSel (c : Code) (s : State) : (finish c s).linkSel = false := rfl
@[simp] theorem finish_linkClk (c : Code) (s : State) : (finish c s).linkClk = s.linkClk := rfl
@[simp] theorem finish_linkReady (c : Code) (s : State) : (finish c s).linkReady = s.linkReady := rfl
@[simp] theorem finish_lastTimeout (c : Code) (s : State) : (finish c s).lastTimeout = s.lastTimeout := rfl
@[simp] theorem finish_settle (c : Code) (s : State) : (finish c s).settle = s.settle := rfl
@[simp] theorem finish_fsm (c : Code) (s : State) : (finish c s).fsm = s.fsm := rfl
@[simp] theorem finish_crc7 (c : Code) (s : State) : (finish c s).crc7 = s.crc7 := rfl
@[simp] theorem finish_crc16 (c : Code) (s : State) : (finish c s).crc16 = s.crc16 := rfl
@[simp] theorem finish_frame (c : Code) (s : State) : (finish c s).frame = s.frame := rfl
@[simp] theorem finish_req (c : Code) (s : State) : (finish c s).req = s.req := rfl
@[simp] theorem finish_busy (c : Code) (s : State) : (finish c s).busy = false := rfl
@[simp] theorem finish_result (c : Code) (s : State) : (finish c s).result = c := rfl
@[simp] theorem finish_resp (c : Code) (s : State) : (finish c s).resp = s.resp := rfl
@[simp] theorem finish_val (c : Code) (s : State) : (finish c s).val = s.val := rfl
@[simp] theorem finish_done (c : Code) (s : State) : (finish c s).done = s.done := rfl
@[simp] theorem finish_buf (c : Code) (s : State) : (finish c s).buf = s.buf := rfl
@[simp] theorem finish_pgen (c : Code) (s : State) : (finish c s).pgen = s.pgen := rfl
@[simp] theorem finish_pam (c : Code) (s : State) : (finish c s).pam = s.pam := rfl
@[simp] theorem finish_t0 (c : Code) (s : State) : (finish c s).t0 = s.t0 := rfl
@[simp] theorem finish_n (c : Code) (s : State) : (finish c s).n = s.n := rfl
@[simp] theorem finish_k (c : Code) (s : State) : (finish c s).k = s.k := rfl
@[simp] theorem finish_code (c : Code) (s : State) : (finish c s).code = s.code := rfl
@[simp] theorem finish_port (c : Code) (s : State) : (finish c s).port = { s.port with hist := .sel false :: s.port.hist } := rfl
@[simp] theorem finish_host (c : Code) (s : State) : (finish c s).host = s.host := rfl
@[simp] theorem finish_cmd (c : Code) (s : State) : (finish c s).cmd = s.cmd := rfl
@[simp] theorem finish_stalled (c : Code) (s : State) : (finish c s).stalled = s.stalled := rfl

/-! ## `fail` -/

@[simp] theorem fail_cfg (c : Code) (s : State) : (fail c s).cfg = s.cfg := rfl
@[simp] theorem fail_idGen (c : Code) (s : State) : (fail c s).idGen = s.idGen := rfl
@[simp] theorem fail_idAmode (c : Code) (s : State) : (fail c s).idAmode = s.idAmode := rfl
@[simp] theorem fail_idCap (c : Code) (s : State) : (fail c s).idCap = s.idCap := rfl
@[simp] theorem fail_linkSel (c : Code) (s : State) : (fail c s).linkSel = false := rfl
@[simp] theorem fail_linkClk (c : Code) (s : State) : (fail c s).linkClk = s.linkClk := rfl
@[simp] theorem fail_linkReady (c : Code) (s : State) : (fail c s).linkReady = s.linkReady := rfl
@[simp] theorem fail_lastTimeout (c : Code) (s : State) : (fail c s).lastTimeout = s.lastTimeout := rfl
@[simp] theorem fail_settle (c : Code) (s : State) : (fail c s).settle = s.settle := rfl
@[simp] theorem fail_fsm (c : Code) (s : State) : (fail c s).fsm = .failed := rfl
@[simp] theorem fail_crc7 (c : Code) (s : State) : (fail c s).crc7 = s.crc7 := rfl
@[simp] theorem fail_crc16 (c : Code) (s : State) : (fail c s).crc16 = s.crc16 := rfl
@[simp] theorem fail_frame (c : Code) (s : State) : (fail c s).frame = s.frame := rfl
@[simp] theorem fail_req (c : Code) (s : State) : (fail c s).req = s.req := rfl
@[simp] theorem fail_busy (c : Code) (s : State) : (fail c s).busy = false := rfl
@[simp] theorem fail_result (c : Code) (s : State) : (fail c s).result = c := rfl
@[simp] theorem fail_resp (c : Code) (s : State) : (fail c s).resp = s.resp := rfl
@[simp] theorem fail_val (c : Code) (s : State) : (fail c s).val = s.val := rfl
@[simp] theorem fail_done (c : Code) (s : State) : (fail c s).done = s.done := rfl
@[simp] theorem fail_buf (c : Code) (s : State) : (fail c s).buf = s.buf := rfl
@[simp] theorem fail_pgen (c : Code) (s : State) : (fail c s).pgen = s.pgen := rfl
@[simp] theorem fail_pam (c : Code) (s : State) : (fail c s).pam = s.pam := rfl
@[simp] theorem fail_t0 (c : Code) (s : State) : (fail c s).t0 = s.t0 := rfl
@[simp] theorem fail_n (c : Code) (s : State) : (fail c s).n = s.n := rfl
@[simp] theorem fail_k (c : Code) (s : State) : (fail c s).k = s.k := rfl
@[simp] theorem fail_code (c : Code) (s : State) : (fail c s).code = s.code := rfl
@[simp] theorem fail_port (c : Code) (s : State) : (fail c s).port = { s.port with hist := .sel false :: s.port.hist } := rfl
@[simp] theorem fail_host (c : Code) (s : State) : (fail c s).host = s.host := rfl
@[simp] theorem fail_cmd (c : Code) (s : State) : (fail c s).cmd = s.cmd := rfl
@[simp] theorem fail_stalled (c : Code) (s : State) : (fail c s).stalled = s.stalled := rfl

/-! ## `hang` -/

@[simp] theorem hang_cfg (s : State) : (hang s).cfg = s.cfg := rfl
@[simp] theorem hang_idGen (s : State) : (hang s).idGen = s.idGen := rfl
@[simp] theorem hang_idAmode (s : State) : (hang s).idAmode = s.idAmode := rfl
@[simp] theorem hang_idCap (s : State) : (hang s).idCap = s.idCap := rfl
@[simp] theorem hang_linkSel (s : State) : (hang s).linkSel = s.linkSel := rfl
@[simp] theorem hang_linkClk (s : State) : (hang s).linkClk = s.linkClk := rfl
@[simp] theorem hang_linkReady (s : State) : (hang s).linkReady = s.linkReady := rfl
@[simp] theorem hang_lastTimeout (s : State) : (hang s).lastTimeout = s.lastTimeout := rfl
@[simp] theorem hang_settle (s : State) : (hang s).settle = s.settle := rfl
@[simp] theorem hang_fsm (s : State) : (hang s).fsm = s.fsm := rfl
@[simp] theorem hang_crc7 (s : State) : (hang s).crc7 = s.crc7 := rfl
@[simp] theorem hang_crc16 (s : State) : (hang s).crc16 = s.crc16 := rfl
@[simp] theorem hang_frame (s : State) : (hang s).frame = s.frame := rfl
@[simp] theorem hang_req (s : State) : (hang s).req = s.req := rfl
@[simp] theorem hang_busy (s : State) : (hang s).busy = true := rfl
@[simp] theorem hang_result (s : State) : (hang s).result = s.result := rfl
@[simp] theorem hang_resp (s : State) : (hang s).resp = s.resp := rfl
@[simp] theorem hang_val (s : State) : (hang s).val = s.val := rfl
@[simp] theorem hang_done (s : State) : (hang s).done = s.done := rfl
@[simp] theorem hang_buf (s : State) : (hang s).buf = s.buf := rfl
@[simp] theorem hang_pgen (s : State) : (hang s).pgen = s.pgen := rfl
@[simp] theorem hang_pam (s : State) : (hang s).pam = s.pam := rfl
@[simp] theorem hang_t0 (s : State) : (hang s).t0 = s.t0 := rfl
@[simp] theorem hang_n (s : State) : (hang s).n = s.n := rfl
@[simp] theorem hang_k (s : State) : (hang s).k = s.k := rfl
@[simp] theorem hang_code (s : State) : (hang s).code = s.code := rfl
@[simp] theorem hang_port (s : State) : (hang s).port = s.port := rfl
@[simp] theorem hang_host (s : State) : (hang s).host = s.host := rfl
@[simp] theorem hang_cmd (s : State) : (hang s).cmd = s.cmd := rfl
@[simp] theorem hang_stalled (s : State) : (hang s).stalled = true := rfl

/-! ## `buildFrame` -/

@[simp] theorem buildFrame_cfg (i : BitVec 6) (a : Word) (s : State) : (buildFrame i a s).cfg = s.cfg := rfl
@[simp] theorem buildFrame_idGen (i : BitVec 6) (a : Word) (s : State) : (buildFrame i a s).idGen = s.idGen := rfl
@[simp] theorem buildFrame_idAmode (i : BitVec 6) (a : Word) (s : State) : (buildFrame i a s).idAmode = s.idAmode := rfl
@[simp] theorem buildFrame_idCap (i : BitVec 6) (a : Word) (s : State) : (buildFrame i a s).idCap = s.idCap := rfl
@[simp] theorem buildFrame_linkSel (i : BitVec 6) (a : Word) (s : State) : (buildFrame i a s).linkSel = s.linkSel := rfl
@[simp] theorem buildFrame_linkClk (i : BitVec 6) (a : Word) (s : State) : (buildFrame i a s).linkClk = s.linkClk := rfl
@[simp] theorem buildFrame_linkReady (i : BitVec 6) (a : Word) (s : State) : (buildFrame i a s).linkReady = s.linkReady := rfl
@[simp] theorem buildFrame_lastTimeout (i : BitVec 6) (a : Word) (s : State) : (buildFrame i a s).lastTimeout = s.lastTimeout := rfl
@[simp] theorem buildFrame_settle (i : BitVec 6) (a : Word) (s : State) : (buildFrame i a s).settle = s.settle := rfl
@[simp] theorem buildFrame_fsm (i : BitVec 6) (a : Word) (s : State) : (buildFrame i a s).fsm = s.fsm := rfl
@[simp] theorem buildFrame_crc7 (i : BitVec 6) (a : Word) (s : State) : (buildFrame i a s).crc7 = crc7Of s.cfg.crc7Poly s.cfg.crc7Init (frameHead i a) := rfl
@[simp] theorem buildFrame_crc16 (i : BitVec 6) (a : Word) (s : State) : (buildFrame i a s).crc16 = s.crc16 := rfl
@[simp] theorem buildFrame_frame (i : BitVec 6) (a : Word) (s : State) : (buildFrame i a s).frame = frameWord i a (crc7Of s.cfg.crc7Poly s.cfg.crc7Init (frameHead i a)) := rfl
@[simp] theorem buildFrame_req (i : BitVec 6) (a : Word) (s : State) : (buildFrame i a s).req = s.req := rfl
@[simp] theorem buildFrame_busy (i : BitVec 6) (a : Word) (s : State) : (buildFrame i a s).busy = s.busy := rfl
@[simp] theorem buildFrame_result (i : BitVec 6) (a : Word) (s : State) : (buildFrame i a s).result = s.result := rfl
@[simp] theorem buildFrame_resp (i : BitVec 6) (a : Word) (s : State) : (buildFrame i a s).resp = s.resp := rfl
@[simp] theorem buildFrame_val (i : BitVec 6) (a : Word) (s : State) : (buildFrame i a s).val = s.val := rfl
@[simp] theorem buildFrame_done (i : BitVec 6) (a : Word) (s : State) : (buildFrame i a s).done = s.done := rfl
@[simp] theorem buildFrame_buf (i : BitVec 6) (a : Word) (s : State) : (buildFrame i a s).buf = s.buf := rfl
@[simp] theorem buildFrame_pgen (i : BitVec 6) (a : Word) (s : State) : (buildFrame i a s).pgen = s.pgen := rfl
@[simp] theorem buildFrame_pam (i : BitVec 6) (a : Word) (s : State) : (buildFrame i a s).pam = s.pam := rfl
@[simp] theorem buildFrame_t0 (i : BitVec 6) (a : Word) (s : State) : (buildFrame i a s).t0 = s.t0 := rfl
@[simp] theorem buildFrame_n (i : BitVec 6) (a : Word) (s : State) : (buildFrame i a s).n = s.n := rfl
@[simp] theorem buildFrame_k (i : BitVec 6) (a : Word) (s : State) : (buildFrame i a s).k = s.k := rfl
@[simp] theorem buildFrame_code (i : BitVec 6) (a : Word) (s : State) : (buildFrame i a s).code = s.code := rfl
@[simp] theorem buildFrame_port (i : BitVec 6) (a : Word) (s : State) : (buildFrame i a s).port = s.port := rfl
@[simp] theorem buildFrame_host (i : BitVec 6) (a : Word) (s : State) : (buildFrame i a s).host = s.host := rfl
@[simp] theorem buildFrame_cmd (i : BitVec 6) (a : Word) (s : State) : (buildFrame i a s).cmd = s.cmd := rfl
@[simp] theorem buildFrame_stalled (i : BitVec 6) (a : Word) (s : State) : (buildFrame i a s).stalled = s.stalled := rfl

@[simp] theorem xchg_rx (tx : Byte) (s : State) : (xchg tx s).1 = s.port.answer.rx := rfl

theorem send_eq (tx : Byte) (s : State) : send tx s = (xchg tx s).2 := rfl

end Sys2Proof.Machine
end

