-- ==== Sys2Proof/Laws/Rel.lean ====
section
/-!
SUPPORT. What the operations can do, said once. An operation is a sequence of named updates; a relation between states
that is reflexive, transitive and holds across each update of a sub-block therefore holds across every operation of
that sub-block. A frame ("everything but these fields is as before"), a field that nothing writes, and a monotone
quantity are all such relations: a proof gives the relation and its closure, and cites the lemma of the operation.
-/
namespace Sys2Proof.Machine

/-! ## The sets of updates -/

/-- Closed under an exchange whose received byte only the port remembers. -/
structure ExchangeRel (R : State → State → Prop) : Prop where
  refl : ∀ s, R s s
  trans : ∀ {a b c}, R a b → R b c → R a c
  xchg : ∀ tx s, R s (xchg tx s).2

/-- Closed under the updates of one command exchange (R111). -/
structure CommandRel (R : State → State → Prop) : Prop extends ExchangeRel R where
  select : ∀ on s, R s (select on s)
  settled : ∀ s, R s (setSettled s)
  busyLine : ∀ s, R s (lineBusy s)
  idleLine : ∀ s, R s (lineIdle s)
  timedOut : ∀ s, R s (markTimeout s)
  answered : ∀ s, R s (clearTimeout s)
  build : ∀ index arg s, R s (buildFrame index arg s)
  count : ∀ n s, R s (setN n s)
  token : ∀ r s, R s (setResp r s)

/-- Closed under the updates of `INIT` after `PowerUp` and before `Commit` (R130): every command reselects, every end
deselects, none of them makes `fsm` Ready. -/
structure InitRel (R : State → State → Prop) : Prop where
  refl : ∀ s, R s s
  trans : ∀ {a b c}, R a b → R b c → R a c
  command : ∀ index arg ext s, R s (sendCommand index arg ext true s).2
  deselect : ∀ s, R s (select false s)
  busyLine : ∀ s, R s (lineBusy s)
  fsm : ∀ f s, f ≠ .ready → R s (setFsm f s)
  classed : ∀ g s, R s (setPgen g s)
  mode : ∀ m s, R s (setPam m s)
  timer : ∀ t s, R s (setT0 t s)
  hang : ∀ s, R s (hang s)
  complete : ∀ c s, R s (complete c s)

/-- Closed under the updates of the block helpers, the waits and the ends of a multi-block operation (R161 to R163,
R173, R177, R181); `P` says which buffer addresses may be stored to. -/
structure BlockRel (P : Nat → Prop) (R : State → State → Prop) : Prop extends CommandRel R where
  timer : ∀ t s, R s (setT0 t s)
  hang : ∀ s, R s (hang s)
  store : ∀ a b s, P a → R s (storeBuf a b s)
  crc : ∀ c s, R s (setCrc16 c s)

/-- Closed under the updates of a single-block transfer (R160 to R168). -/
structure SingleRel (P : Nat → Prop) (R : State → State → Prop) : Prop extends BlockRel P R where
  complete : ∀ c s, R s (complete c s)
  code : ∀ c s, R s (setCode c s)

/-- Closed under the updates of a transfer (R160 to R178). -/
structure TransferRel (P : Nat → Prop) (R : State → State → Prop) : Prop extends SingleRel P R where
  block : ∀ k s, R s (setK k s)
  doneCount : ∀ d s, R s (setDone d s)

variable {R : State → State → Prop} {P : Nat → Prop}

/-! ## One command exchange -/

theorem idleBytes_rel (h : ExchangeRel R) (n : Nat) (s : State) : R s (idleBytes n s) := by
  induction n generalizing s with
  | zero => exact h.refl s
  | succ n ih => exact h.trans (h.xchg _ s) (ih _)

theorem sendBytes_rel (h : ExchangeRel R) (bs : List Byte) (s : State) : R s (sendBytes bs s) := by
  induction bs generalizing s with
  | nil => exact h.refl s
  | cons b bs ih => exact h.trans (h.xchg b s) (ih _)

theorem openExchange_rel (h : CommandRel R) (resel : Bool) (s : State) : R s (openExchange resel s) := by
  unfold openExchange
  have hsel : R s (if resel then select true (select false s) else s) := by
    split
    · exact h.trans (h.select _ _) (h.select _ _)
    · exact h.refl s
  revert hsel
  generalize (if resel then select true (select false s) else s) = u
  intro hsel
  dsimp only
  split
  · exact h.trans hsel (h.trans (idleBytes_rel h.toExchangeRel _ _) (h.settled _))
  · exact hsel

theorem transmit_rel (h : CommandRel R) (index : BitVec 6) (arg : Word) (s : State) : R s (transmit index arg s) := by
  unfold transmit
  have hsent := h.trans (h.trans (h.busyLine s) (h.build index arg _))
    (sendBytes_rel h.toExchangeRel (frameBytes (buildFrame index arg (lineBusy s)).frame) _)
  dsimp only
  split
  · exact h.trans hsent (idleBytes_rel h.toExchangeRel _ _)
  · exact hsent

theorem awaitResponse_rel (h : CommandRel R) (left : Nat) (last : Byte) (s : State) :
    R s (awaitResponse left last s).2 := by
  induction left generalizing last s with
  | zero => exact h.refl s
  | succ left ih =>
    simp only [awaitResponse]
    have hpoll : R s (setN ((xchg Config.idleByte s).2.n + 1) (xchg Config.idleByte s).2) :=
      h.trans (h.xchg _ s) (h.count _ _)
    split
    · exact hpoll
    · exact h.trans hpoll (ih _ _)

theorem readExtension_rel (h : ExchangeRel R) (s : State) : R s (readExtension s).2 :=
  h.trans (h.xchg _ s) (h.trans (h.xchg _ _) (h.trans (h.xchg _ _) (h.xchg _ _)))

theorem parseToken_rel (h : CommandRel R) (ext : Bool) (status : Byte) (s : State) :
    R s (parseToken ext status s).2 := by
  unfold parseToken
  cases ext
  · exact h.trans (h.answered s) (h.trans (h.token _ _) (h.idleLine _))
  · exact h.trans (h.answered s) (h.trans (readExtension_rel h.toExchangeRel _) (h.trans (h.token _ _) (h.idleLine _)))

/-- Whatever holds across the updates of one command exchange holds across `SendCommand`. -/
theorem sendCommand_rel (h : CommandRel R) (index : BitVec 6) (arg : Word) (ext resel : Bool) (s : State) :
    R s (sendCommand index arg ext resel s).2 := by
  unfold sendCommand
  have hsent := h.trans (h.trans (openExchange_rel h resel s) (transmit_rel h index arg _)) (h.count 0 _)
  have hpoll := h.trans hsent
    (awaitResponse_rel h (transmit index arg (openExchange resel s)).cfg.nRespPoll Config.idleByte _)
  dsimp only
  split
  · rename_i heq; rw [heq] at hpoll
    exact h.trans hpoll (h.trans (h.timedOut _) (h.token _ _))
  · rename_i heq; rw [heq] at hpoll
    exact h.trans hpoll (parseToken_rel h _ _ _)

/-! ## Flows -/

theorem Flow.andThen_rel {α β : Type} (trans : ∀ {a b c}, R a b → R b c → R a c) {s : State} {f : Flow α}
    {k : α → State → Flow β} (hf : R s f.state) (hk : ∀ a t, f = .go a t → R t (k a t).state) :
    R s (f.andThen k).state := by
  cases f with
  | go a t => exact trans hf (hk a t rfl)
  | stop t => exact hf

/-! ## `INIT` -/

theorem finish_rel (h : CommandRel R) (hc : ∀ c s, R s (complete c s)) (c : Code) (s : State) :
    R s (finish c s) := h.trans (h.select _ _) (hc _ _)

theorem fail_rel (h : InitRel R) (c : Code) (s : State) : R s (fail c s) :=
  h.trans (h.fsm _ _ (by simp)) (h.trans (h.deselect _) (h.complete _ _))

theorem failBadResponse_rel (h : InitRel R) (s : State) : R s (failBadResponse s) :=
  h.trans (h.busyLine s) (fail_rel h _ _)

theorem resetCard_rel (h : InitRel R) (s : State) : R s (resetCard s).state := by
  unfold resetCard
  have hq := h.command s.cfg.idxReset 0 false s
  dsimp only
  split_ifs
  · exact h.trans hq (fail_rel h _ _)
  · exact h.trans hq (failBadResponse_rel h _)
  · exact h.trans hq (h.fsm _ _ (by simp))

theorem probe_rel (h : InitRel R) (s : State) : R s (probe s).state := by
  unfold probe
  have hq := h.command s.cfg.idxIfcond s.cfg.ifcondArg true s
  dsimp only
  split_ifs
  · exact h.trans hq (h.trans (h.classed .sd1 _) (h.fsm .opCondPoll _ (by simp)))
  · exact h.trans hq (fail_rel h _ _)
  · exact h.trans hq (h.trans (h.classed .sd2 _) (h.fsm .voltageCheck _ (by simp)))
  · exact h.trans hq (failBadResponse_rel h _)

theorem appPair_rel (h : InitRel R) (arg : Word) (s : State) : R s (appPair arg s).2 := by
  unfold appPair
  have hp := h.command s.cfg.idxApp 0 false s
  dsimp only
  split_ifs
  · exact h.trans hp (h.command _ _ _ _)
  · exact hp

theorem roundEnd_rel (h : InitRel R) (p : Reply × State) : R p.2 (roundEnd p).state := by
  unfold roundEnd
  split_ifs
  · exact fail_rel h _ _
  · exact h.refl _

theorem v2Round_rel (h : InitRel R) (s : State) : R s (v2Round s).state :=
  h.trans (appPair_rel h _ s) (roundEnd_rel h _)

theorem legacyRound_rel (h : InitRel R) (s : State) : R s (legacyRound s).state := by
  unfold legacyRound
  have hp := appPair_rel h s.cfg.opcondArgLegacy s
  dsimp only
  split_ifs
  · exact h.trans hp (h.classed .mmc _)
  · exact h.trans hp (roundEnd_rel h _)
  · exact h.trans (h.command _ _ _ s) (roundEnd_rel h _)

theorem pollRounds_rel (h : InitRel R) {round : State → Flow Bool} (hround : ∀ s, R s (round s).state) (left : Nat)
    (s : State) : R s (pollRounds round left s).state := by
  induction left generalizing s with
  | zero => exact h.hang s
  | succ left ih =>
    rw [pollRounds]
    split_ifs
    · exact h.hang s
    refine Flow.andThen_rel (R := R) h.trans (hround s) fun b t _ => ?_
    split_ifs
    · exact h.refl t
    · exact fail_rel h _ _
    · exact ih _

theorem pollOpCond_rel (h : InitRel R) (s : State) : R s (pollOpCond s).state := by
  unfold pollOpCond
  dsimp only
  split_ifs
  · exact h.trans (h.timer _ s) (Flow.andThen_rel (R := R) h.trans (pollRounds_rel h (v2Round_rel h) _ _) fun _ t _ => h.fsm _ t (by simp))
  · exact h.trans (h.timer _ s) (pollRounds_rel h (legacyRound_rel h) _ _)

theorem readMode_rel (h : InitRel R) (s : State) : R s (readMode s).state := by
  unfold readMode
  have hq := h.command s.cfg.idxOcr 0 true s
  dsimp only
  split_ifs
  · exact h.trans hq (fail_rel h _ _)
  · exact h.trans hq (h.mode _ _)
  · exact h.refl s

theorem fixBlockLength_rel (h : InitRel R) (s : State) : R s (fixBlockLength s).state := by
  unfold fixBlockLength
  have hq := h.command s.cfg.idxBlklen 512#32 false s
  dsimp only
  split_ifs
  · exact h.trans hq (fail_rel h _ _)
  · exact h.trans hq (failBadResponse_rel h _)
  · exact hq

theorem powerUp_rel (h : CommandRel R) (s : State) : R s (powerUp s) :=
  h.trans (h.select _ s) (idleBytes_rel h.toExchangeRel _ _)

/-- Whatever holds across the updates of `INIT` before `Commit` holds from the end of `PowerUp` to the end of `INIT`, or
to the state `Commit` starts from. -/
theorem initRun_cases (h : InitRel R) (s : State) :
    R (powerUp (initStart s)) (initRun s).state ∨
      ∃ t, R (powerUp (initStart s)) t ∧ (initRun s).state = commit t := by
  unfold initRun
  have h1 := resetCard_rel h (powerUp (initStart s))
  generalize resetCard (powerUp (initStart s)) = f at h1 ⊢
  cases f with
  | stop t => exact .inl h1
  | go _ t =>
    have h2 := h.trans h1 (probe_rel h t)
    show R _ (Flow.andThen (probe t) _).state ∨ ∃ u, _ ∧ (Flow.andThen (probe t) _).state = _
    generalize probe t = f at h2 ⊢
    cases f with
    | stop t => exact .inl h2
    | go _ t =>
      have h3 := h.trans h2 (pollOpCond_rel h t)
      show R _ (Flow.andThen (pollOpCond t) _).state ∨ ∃ u, _ ∧ (Flow.andThen (pollOpCond t) _).state = _
      generalize pollOpCond t = f at h3 ⊢
      cases f with
      | stop t => exact .inl h3
      | go _ t =>
        have h4 := h.trans h3 (readMode_rel h t)
        show R _ (Flow.andThen (readMode t) _).state ∨ ∃ u, _ ∧ (Flow.andThen (readMode t) _).state = _
        generalize readMode t = f at h4 ⊢
        cases f with
        | stop t => exact .inl h4
        | go _ t =>
          have h5 := h.trans h4 (fixBlockLength_rel h t)
          show R _ (Flow.andThen (fixBlockLength t) _).state ∨ ∃ u, _ ∧ (Flow.andThen (fixBlockLength t) _).state = _
          generalize fixBlockLength t = f at h5 ⊢
          cases f with
          | stop t => exact .inl h5
          | go _ t => exact .inr ⟨t, h5, rfl⟩

/-- Whatever holds across all updates of `INIT` holds from the end of `PowerUp` to the end of `INIT`. -/
theorem initRun_rel (h : InitRel R) (hcommit : ∀ s, R s (commitIdentity s)) (s : State) :
    R (powerUp (initStart s)) (initRun s).state := by
  rcases initRun_cases h s with h1 | ⟨t, h1, h2⟩
  · exact h1
  · rw [h2]
    exact h.trans h1 (h.trans (hcommit t) (h.trans (h.deselect _) (h.complete _ _)))

/-- A relation closed under the exchange updates and those of `INIT`. -/
theorem InitRel.of_command (h : CommandRel R) (fsm : ∀ f s, f ≠ .ready → R s (setFsm f s)) (classed : ∀ g s, R s (setPgen g s))
    (mode : ∀ m s, R s (setPam m s)) (timer : ∀ t s, R s (setT0 t s)) (hang : ∀ s, R s (Machine.hang s))
    (complete : ∀ c s, R s (Machine.complete c s)) : InitRel R :=
  ⟨h.refl, h.trans, fun _ _ _ s => sendCommand_rel h _ _ _ _ s, h.select false, h.busyLine, fsm, classed, mode, timer, hang,
    complete⟩

/-! ## Transfers -/

theorem pollUntil_rel (h : ExchangeRel R) (hit : Byte → Bool) (budget left : Nat) (s : State) :
    R s (pollUntil hit budget left s).2 := by
  induction left generalizing s with
  | zero => exact h.refl s
  | succ left ih =>
    simp only [pollUntil]
    split_ifs
    · exact h.refl s
    · exact h.xchg _ s
    · exact h.xchg _ s
    · exact h.trans (h.xchg _ s) (ih _)

theorem waitFor_rel (h : BlockRel P R) (hit : Byte → Bool) (budget : Nat) (s : State) :
    R s (waitFor hit budget s).state := by
  unfold waitFor
  dsimp only
  have hp := h.trans (h.timer (now s) s)
    (pollUntil_rel h.toExchangeRel hit budget (pollBound budget (setT0 (now s) s)) _)
  split
  all_goals rename_i heq; rw [heq] at hp
  · exact hp
  · exact hp
  · exact h.trans hp (h.hang _)

theorem waitReady_rel (h : BlockRel P R) (budget : Nat) (s : State) : R s (waitReady budget s).state := by
  refine Flow.andThen_rel (R := R) h.trans (waitFor_rel h _ _ s) fun ok t _ => ?_
  cases ok
  · exact h.busyLine t
  · exact h.idleLine t

theorem gate_rel (h : SingleRel P R) (sector : Word) (count : Nat) (s : State) :
    R s (gate sector count s).state := by
  unfold gate
  split
  · exact h.complete _ s
  · exact h.refl s

theorem startTransfer_rel (h : SingleRel P R) (index : BitVec 6) (sector : Word) (s : State) :
    R s (startTransfer index sector s).state := by
  unfold startTransfer checkR1
  have hq := sendCommand_rel h.toCommandRel index (addrOf s.idAmode sector) false true s
  split_ifs
  · exact h.trans hq (finish_rel h.toCommandRel h.complete _ _)
  · exact h.trans hq (h.trans (h.busyLine _) (finish_rel h.toCommandRel h.complete _ _))
  · exact h.trans hq (h.busyLine _)

theorem recvPayload_rel (h : BlockRel P R) (count a : Nat) (s : State)
    (hP : ∀ i, a ≤ i → i < a + count → P i) : R s (recvPayload count a s) := by
  induction count generalizing a s with
  | zero => exact h.refl s
  | succ count ih =>
    have hx := h.trans (h.xchg Config.idleByte s) (h.crc (crc16Byte (xchg Config.idleByte s).2.cfg.crc16Poly
      (xchg Config.idleByte s).2.crc16 (xchg Config.idleByte s).1) _)
    have hs := h.trans hx (h.store a (xchg Config.idleByte s).1 _ (hP a (Nat.le_refl a) (by omega)))
    exact h.trans hs (ih (a + 1) _ fun i h1 h2 => hP i (by omega) (by omega))

theorem checkCrc16_rel (h : BlockRel P R) (s : State) : R s (checkCrc16 s).2 :=
  h.trans (h.xchg _ s) (h.trans (h.xchg _ _) (h.idleLine _))

theorem recvBlock_rel (h : BlockRel P R) (k : Nat) (tok : Byte) (s : State)
    (hP : ∀ i, 512 * k ≤ i → i < 512 * k + 512 → P i) : R s (recvBlock k tok s).state := by
  refine Flow.andThen_rel (R := R) h.trans (waitFor_rel h _ _ s) fun ok t _ => ?_
  cases ok
  · exact h.trans (h.busyLine t) (h.timedOut _)
  · have hP' : ∀ i, 512 * k ≤ i → i < 512 * k + Config.blockLen → P i := by simpa only [Config.blockLen] using hP
    have hrecv := recvPayload_rel h Config.blockLen (512 * k) (setCrc16 t.cfg.crc16Init t) hP'
    simp only [if_true, Flow.state]
    exact h.trans (h.crc _ t) (h.trans hrecv (checkCrc16_rel h _))

theorem busyPoll_rel (h : BlockRel P R) (s : State) : R s (busyPoll s).state := by
  refine Flow.andThen_rel (R := R) h.trans (waitFor_rel h _ _ s) fun ok t _ => ?_
  cases ok
  · exact h.trans (h.busyLine t) (h.timedOut _)
  · exact h.idleLine t

theorem sendPayload_rel (h : BlockRel P R) (count a : Nat) (s : State) : R s (sendPayload count a s) := by
  induction count generalizing a s with
  | zero => exact h.refl s
  | succ count ih => exact h.trans (h.trans (h.xchg _ s) (h.crc _ _)) (ih _ _)

theorem sendData_rel (h : BlockRel P R) (k : Nat) (tok : Byte) (s : State) : R s (sendData k tok s).2 := by
  unfold sendData
  have hsent := h.trans (h.trans (h.trans (h.busyLine s) (h.xchg tok _)) (h.crc s.cfg.crc16Init _))
    (sendPayload_rel h Config.blockLen (512 * k) (setCrc16 s.cfg.crc16Init (xchg tok (lineBusy s)).2))
  revert hsent
  show R s (sendPayload Config.blockLen (512 * k) (setCrc16 s.cfg.crc16Init (xchg tok (lineBusy s)).2)) → _
  dsimp only [send_eq, xchg_cfg, lineBusy_cfg]
  generalize sendPayload Config.blockLen (512 * k) (setCrc16 s.cfg.crc16Init (xchg tok (lineBusy s)).2) = t
  intro hsent
  exact h.trans hsent (h.trans (h.xchg _ t) (h.trans (h.xchg _ _) (h.xchg _ _)))

theorem sendBlock_rel (h : BlockRel P R) (k : Nat) (tok : Byte) (s : State) : R s (sendBlock k tok s).state := by
  refine Flow.andThen_rel (R := R) h.trans (waitReady_rel h _ s) fun ok t _ => ?_
  cases ok
  · exact h.timedOut t
  · simp only [if_true]
    split_ifs
    · exact sendData_rel h _ _ _
    · exact h.trans (sendData_rel h _ _ _) (busyPoll_rel h _)

theorem finishWith_rel (h : SingleRel P R) (code : Code) (s : State) : R s (finishWith code s).state :=
  h.trans (h.code _ s) (finish_rel h.toCommandRel h.complete _ _)

/-- Whatever holds across the updates of a transfer that stores only to block 0 holds across `READ_BLOCK`. -/
theorem readBlockRun_rel (h : SingleRel P R) (sector : Word) (s : State) (hP : ∀ i, i < 512 → P i) :
    R s (readBlockRun sector s).state := by
  refine Flow.andThen_rel (R := R) h.trans (gate_rel h _ _ s) fun _ t _ => ?_
  refine Flow.andThen_rel (R := R) h.trans (startTransfer_rel h _ _ t) fun _ t _ => ?_
  exact Flow.andThen_rel (R := R) h.trans (recvBlock_rel h.toBlockRel 0 _ t fun i _ h2 => hP i (by omega)) fun c t _ =>
    finishWith_rel h c t

/-- Whatever holds across the updates of a transfer that stores nothing holds across `WRITE_BLOCK`. -/
theorem writeBlockRun_rel (h : SingleRel P R) (sector : Word) (s : State) : R s (writeBlockRun sector s).state := by
  refine Flow.andThen_rel (R := R) h.trans (gate_rel h _ _ s) fun _ t _ => ?_
  refine Flow.andThen_rel (R := R) h.trans (startTransfer_rel h _ _ t) fun _ t _ => ?_
  exact Flow.andThen_rel (R := R) h.trans (sendBlock_rel h.toBlockRel 0 _ t) fun c t _ => finishWith_rel h c t

theorem recvBlocks_rel (h : TransferRel P R) (left k : Nat) (s : State)
    (hP : ∀ i, 512 * k ≤ i → i < 512 * (k + left) → P i) : R s (recvBlocks left k s).state := by
  induction left generalizing k s with
  | zero => exact h.refl s
  | succ left ih =>
    refine Flow.andThen_rel (R := R) h.trans (h.trans (h.block k s)
      (recvBlock_rel h.toBlockRel k _ _ fun i h1 h2 => hP i h1 (by omega))) fun c t _ => ?_
    split_ifs
    · exact h.code _ t
    · exact h.trans (h.trans (h.code c t) (h.doneCount _ _)) (ih _ _ fun i h1 h2 => hP i (by omega) (by omega))

theorem stopRead_rel (h : BlockRel P R) (code : Code) (s : State) : R s (stopRead code s).state := by
  unfold stopRead
  have hq := sendCommand_rel h.toCommandRel s.cfg.idxStop 0 false false s
  revert hq
  generalize sendCommand s.cfg.idxStop 0 false false s = p
  intro hq
  dsimp only
  generalize (if code = .ok then p.1.code else code) = c
  split
  · exact hq
  · refine Flow.andThen_rel (R := R) h.trans (h.trans hq (h.trans (h.busyLine _) (waitReady_rel h _ _)))
      fun ok t _ => ?_
    cases ok
    · exact h.timedOut t
    · exact h.refl t

/-- Whatever holds across the updates of a transfer that stores only to the blocks counted holds across
`READ_MULTI`. -/
theorem readMultiRun_rel (h : TransferRel P R) (sector count : Word) (s : State)
    (hP : ∀ i, i < 512 * count.toNat → P i) : R s (readMultiRun sector count s).state := by
  refine Flow.andThen_rel (R := R) h.trans (gate_rel h.toSingleRel _ _ s) fun _ t _ => ?_
  dsimp only
  split_ifs
  · exact h.trans (h.doneCount _ t) (h.complete _ _)
  · refine h.trans (h.doneCount 0 t) (Flow.andThen_rel (R := R) h.trans (startTransfer_rel h.toSingleRel _ _ _) fun _ t _ => ?_)
    refine Flow.andThen_rel (R := R) h.trans (h.trans (h.code .ok t)
      (recvBlocks_rel h _ 0 _ fun i _ h2 => hP i (by omega))) fun c t _ => ?_
    exact Flow.andThen_rel (R := R) h.trans (stopRead_rel h.toBlockRel c t) fun c t _ => finishWith_rel h.toSingleRel c t

theorem sendBlocks_rel (h : TransferRel P R) (left k : Nat) (s : State) : R s (sendBlocks left k s).state := by
  induction left generalizing k s with
  | zero => exact h.refl s
  | succ left ih =>
    refine Flow.andThen_rel (R := R) h.trans (h.trans (h.block k s) (sendBlock_rel h.toBlockRel k _ _)) fun c t _ => ?_
    split_ifs
    · exact finishWith_rel h.toSingleRel c t
    · exact h.trans (h.trans (h.code c t) (h.doneCount _ _)) (ih _ _)

theorem stopWrite_rel (h : BlockRel P R) (s : State) : R s (stopWrite s).state := by
  unfold stopWrite
  exact h.trans (h.trans (h.busyLine s) (h.xchg _ _))
    (h.trans (idleBytes_rel h.toExchangeRel _ _) (busyPoll_rel h _))

/-- Whatever holds across the updates of a transfer that stores nothing holds across `WRITE_MULTI`. -/
theorem writeMultiRun_rel (h : TransferRel P R) (sector count : Word) (s : State) :
    R s (writeMultiRun sector count s).state := by
  refine Flow.andThen_rel (R := R) h.trans (gate_rel h.toSingleRel _ _ s) fun _ t _ => ?_
  dsimp only
  split_ifs
  · exact h.trans (h.doneCount _ t) (h.complete _ _)
  · refine h.trans (h.doneCount 0 t) (Flow.andThen_rel (R := R) h.trans (startTransfer_rel h.toSingleRel _ _ _) fun _ t _ => ?_)
    refine Flow.andThen_rel (R := R) h.trans (sendBlocks_rel h _ 0 _) fun _ t _ => ?_
    exact Flow.andThen_rel (R := R) h.trans (stopWrite_rel h.toBlockRel t) fun c t _ => finishWith_rel h.toSingleRel c t

end Sys2Proof.Machine
end

