-- ==== Sys2Proof/Laws/Fields.lean ====
section
/-!
SUPPORT. Which fields the exchange procedures and `SendCommand` leave alone (R111), one lemma per field, from the
relation lemmas of Laws/Rel.lean.
-/
namespace Sys2Proof.Machine

/-- A field no exchange touches, as a relation. -/
theorem exchangeRel_of {α : Type} {f : State → α} (h : ∀ tx s, f (xchg tx s).2 = f s) :
    ExchangeRel (fun s t => f t = f s) := ⟨fun _ => rfl, fun h1 h2 => h2.trans h1, h⟩

/-! ## `idleBytes` -/

@[simp] theorem idleBytes_cfg (m : Nat) (s : State) : (idleBytes m s).cfg = s.cfg :=
  idleBytes_rel (exchangeRel_of (f := State.cfg) fun _ _ => rfl) m s
@[simp] theorem idleBytes_idGen (m : Nat) (s : State) : (idleBytes m s).idGen = s.idGen :=
  idleBytes_rel (exchangeRel_of (f := State.idGen) fun _ _ => rfl) m s
@[simp] theorem idleBytes_idAmode (m : Nat) (s : State) : (idleBytes m s).idAmode = s.idAmode :=
  idleBytes_rel (exchangeRel_of (f := State.idAmode) fun _ _ => rfl) m s
@[simp] theorem idleBytes_idCap (m : Nat) (s : State) : (idleBytes m s).idCap = s.idCap :=
  idleBytes_rel (exchangeRel_of (f := State.idCap) fun _ _ => rfl) m s
@[simp] theorem idleBytes_linkSel (m : Nat) (s : State) : (idleBytes m s).linkSel = s.linkSel :=
  idleBytes_rel (exchangeRel_of (f := State.linkSel) fun _ _ => rfl) m s
@[simp] theorem idleBytes_linkClk (m : Nat) (s : State) : (idleBytes m s).linkClk = s.linkClk :=
  idleBytes_rel (exchangeRel_of (f := State.linkClk) fun _ _ => rfl) m s
@[simp] theorem idleBytes_linkReady (m : Nat) (s : State) : (idleBytes m s).linkReady = s.linkReady :=
  idleBytes_rel (exchangeRel_of (f := State.linkReady) fun _ _ => rfl) m s
@[simp] theorem idleBytes_lastTimeout (m : Nat) (s : State) : (idleBytes m s).lastTimeout = s.lastTimeout :=
  idleBytes_rel (exchangeRel_of (f := State.lastTimeout) fun _ _ => rfl) m s
@[simp] theorem idleBytes_settle (m : Nat) (s : State) : (idleBytes m s).settle = s.settle :=
  idleBytes_rel (exchangeRel_of (f := State.settle) fun _ _ => rfl) m s
@[simp] theorem idleBytes_fsm (m : Nat) (s : State) : (idleBytes m s).fsm = s.fsm :=
  idleBytes_rel (exchangeRel_of (f := State.fsm) fun _ _ => rfl) m s
@[simp] theorem idleBytes_crc7 (m : Nat) (s : State) : (idleBytes m s).crc7 = s.crc7 :=
  idleBytes_rel (exchangeRel_of (f := State.crc7) fun _ _ => rfl) m s
@[simp] theorem idleBytes_crc16 (m : Nat) (s : State) : (idleBytes m s).crc16 = s.crc16 :=
  idleBytes_rel (exchangeRel_of (f := State.crc16) fun _ _ => rfl) m s
@[simp] theorem idleBytes_frame (m : Nat) (s : State) : (idleBytes m s).frame = s.frame :=
  idleBytes_rel (exchangeRel_of (f := State.frame) fun _ _ => rfl) m s
@[simp] theorem idleBytes_req (m : Nat) (s : State) : (idleBytes m s).req = s.req :=
  idleBytes_rel (exchangeRel_of (f := State.req) fun _ _ => rfl) m s
@[simp] theorem idleBytes_busy (m : Nat) (s : State) : (idleBytes m s).busy = s.busy :=
  idleBytes_rel (exchangeRel_of (f := State.busy) fun _ _ => rfl) m s
@[simp] theorem idleBytes_result (m : Nat) (s : State) : (idleBytes m s).result = s.result :=
  idleBytes_rel (exchangeRel_of (f := State.result) fun _ _ => rfl) m s
@[simp] theorem idleBytes_resp (m : Nat) (s : State) : (idleBytes m s).resp = s.resp :=
  idleBytes_rel (exchangeRel_of (f := State.resp) fun _ _ => rfl) m s
@[simp] theorem idleBytes_val (m : Nat) (s : State) : (idleBytes m s).val = s.val :=
  idleBytes_rel (exchangeRel_of (f := State.val) fun _ _ => rfl) m s
@[simp] theorem idleBytes_done (m : Nat) (s : State) : (idleBytes m s).done = s.done :=
  idleBytes_rel (exchangeRel_of (f := State.done) fun _ _ => rfl) m s
@[simp] theorem idleBytes_buf (m : Nat) (s : State) : (idleBytes m s).buf = s.buf :=
  idleBytes_rel (exchangeRel_of (f := State.buf) fun _ _ => rfl) m s
@[simp] theorem idleBytes_pgen (m : Nat) (s : State) : (idleBytes m s).pgen = s.pgen :=
  idleBytes_rel (exchangeRel_of (f := State.pgen) fun _ _ => rfl) m s
@[simp] theorem idleBytes_pam (m : Nat) (s : State) : (idleBytes m s).pam = s.pam :=
  idleBytes_rel (exchangeRel_of (f := State.pam) fun _ _ => rfl) m s
@[simp] theorem idleBytes_t0 (m : Nat) (s : State) : (idleBytes m s).t0 = s.t0 :=
  idleBytes_rel (exchangeRel_of (f := State.t0) fun _ _ => rfl) m s
@[simp] theorem idleBytes_n (m : Nat) (s : State) : (idleBytes m s).n = s.n :=
  idleBytes_rel (exchangeRel_of (f := State.n) fun _ _ => rfl) m s
@[simp] theorem idleBytes_k (m : Nat) (s : State) : (idleBytes m s).k = s.k :=
  idleBytes_rel (exchangeRel_of (f := State.k) fun _ _ => rfl) m s
@[simp] theorem idleBytes_code (m : Nat) (s : State) : (idleBytes m s).code = s.code :=
  idleBytes_rel (exchangeRel_of (f := State.code) fun _ _ => rfl) m s
@[simp] theorem idleBytes_host (m : Nat) (s : State) : (idleBytes m s).host = s.host :=
  idleBytes_rel (exchangeRel_of (f := State.host) fun _ _ => rfl) m s
@[simp] theorem idleBytes_cmd (m : Nat) (s : State) : (idleBytes m s).cmd = s.cmd :=
  idleBytes_rel (exchangeRel_of (f := State.cmd) fun _ _ => rfl) m s
@[simp] theorem idleBytes_stalled (m : Nat) (s : State) : (idleBytes m s).stalled = s.stalled :=
  idleBytes_rel (exchangeRel_of (f := State.stalled) fun _ _ => rfl) m s

/-! ## `sendBytes` -/

@[simp] theorem sendBytes_cfg (bs : List Byte) (s : State) : (sendBytes bs s).cfg = s.cfg :=
  sendBytes_rel (exchangeRel_of (f := State.cfg) fun _ _ => rfl) bs s
@[simp] theorem sendBytes_idGen (bs : List Byte) (s : State) : (sendBytes bs s).idGen = s.idGen :=
  sendBytes_rel (exchangeRel_of (f := State.idGen) fun _ _ => rfl) bs s
@[simp] theorem sendBytes_idAmode (bs : List Byte) (s : State) : (sendBytes bs s).idAmode = s.idAmode :=
  sendBytes_rel (exchangeRel_of (f := State.idAmode) fun _ _ => rfl) bs s
@[simp] theorem sendBytes_idCap (bs : List Byte) (s : State) : (sendBytes bs s).idCap = s.idCap :=
  sendBytes_rel (exchangeRel_of (f := State.idCap) fun _ _ => rfl) bs s
@[simp] theorem sendBytes_linkSel (bs : List Byte) (s : State) : (sendBytes bs s).linkSel = s.linkSel :=
  sendBytes_rel (exchangeRel_of (f := State.linkSel) fun _ _ => rfl) bs s
@[simp] theorem sendBytes_linkClk (bs : List Byte) (s : State) : (sendBytes bs s).linkClk = s.linkClk :=
  sendBytes_rel (exchangeRel_of (f := State.linkClk) fun _ _ => rfl) bs s
@[simp] theorem sendBytes_linkReady (bs : List Byte) (s : State) : (sendBytes bs s).linkReady = s.linkReady :=
  sendBytes_rel (exchangeRel_of (f := State.linkReady) fun _ _ => rfl) bs s
@[simp] theorem sendBytes_lastTimeout (bs : List Byte) (s : State) : (sendBytes bs s).lastTimeout = s.lastTimeout :=
  sendBytes_rel (exchangeRel_of (f := State.lastTimeout) fun _ _ => rfl) bs s
@[simp] theorem sendBytes_settle (bs : List Byte) (s : State) : (sendBytes bs s).settle = s.settle :=
  sendBytes_rel (exchangeRel_of (f := State.settle) fun _ _ => rfl) bs s
@[simp] theorem sendBytes_fsm (bs : List Byte) (s : State) : (sendBytes bs s).fsm = s.fsm :=
  sendBytes_rel (exchangeRel_of (f := State.fsm) fun _ _ => rfl) bs s
@[simp] theorem sendBytes_crc7 (bs : List Byte) (s : State) : (sendBytes bs s).crc7 = s.crc7 :=
  sendBytes_rel (exchangeRel_of (f := State.crc7) fun _ _ => rfl) bs s
@[simp] theorem sendBytes_crc16 (bs : List Byte) (s : State) : (sendBytes bs s).crc16 = s.crc16 :=
  sendBytes_rel (exchangeRel_of (f := State.crc16) fun _ _ => rfl) bs s
@[simp] theorem sendBytes_frame (bs : List Byte) (s : State) : (sendBytes bs s).frame = s.frame :=
  sendBytes_rel (exchangeRel_of (f := State.frame) fun _ _ => rfl) bs s
@[simp] theorem sendBytes_req (bs : List Byte) (s : State) : (sendBytes bs s).req = s.req :=
  sendBytes_rel (exchangeRel_of (f := State.req) fun _ _ => rfl) bs s
@[simp] theorem sendBytes_busy (bs : List Byte) (s : State) : (sendBytes bs s).busy = s.busy :=
  sendBytes_rel (exchangeRel_of (f := State.busy) fun _ _ => rfl) bs s
@[simp] theorem sendBytes_result (bs : List Byte) (s : State) : (sendBytes bs s).result = s.result :=
  sendBytes_rel (exchangeRel_of (f := State.result) fun _ _ => rfl) bs s
@[simp] theorem sendBytes_resp (bs : List Byte) (s : State) : (sendBytes bs s).resp = s.resp :=
  sendBytes_rel (exchangeRel_of (f := State.resp) fun _ _ => rfl) bs s
@[simp] theorem sendBytes_val (bs : List Byte) (s : State) : (sendBytes bs s).val = s.val :=
  sendBytes_rel (exchangeRel_of (f := State.val) fun _ _ => rfl) bs s
@[simp] theorem sendBytes_done (bs : List Byte) (s : State) : (sendBytes bs s).done = s.done :=
  sendBytes_rel (exchangeRel_of (f := State.done) fun _ _ => rfl) bs s
@[simp] theorem sendBytes_buf (bs : List Byte) (s : State) : (sendBytes bs s).buf = s.buf :=
  sendBytes_rel (exchangeRel_of (f := State.buf) fun _ _ => rfl) bs s
@[simp] theorem sendBytes_pgen (bs : List Byte) (s : State) : (sendBytes bs s).pgen = s.pgen :=
  sendBytes_rel (exchangeRel_of (f := State.pgen) fun _ _ => rfl) bs s
@[simp] theorem sendBytes_pam (bs : List Byte) (s : State) : (sendBytes bs s).pam = s.pam :=
  sendBytes_rel (exchangeRel_of (f := State.pam) fun _ _ => rfl) bs s
@[simp] theorem sendBytes_t0 (bs : List Byte) (s : State) : (sendBytes bs s).t0 = s.t0 :=
  sendBytes_rel (exchangeRel_of (f := State.t0) fun _ _ => rfl) bs s
@[simp] theorem sendBytes_n (bs : List Byte) (s : State) : (sendBytes bs s).n = s.n :=
  sendBytes_rel (exchangeRel_of (f := State.n) fun _ _ => rfl) bs s
@[simp] theorem sendBytes_k (bs : List Byte) (s : State) : (sendBytes bs s).k = s.k :=
  sendBytes_rel (exchangeRel_of (f := State.k) fun _ _ => rfl) bs s
@[simp] theorem sendBytes_code (bs : List Byte) (s : State) : (sendBytes bs s).code = s.code :=
  sendBytes_rel (exchangeRel_of (f := State.code) fun _ _ => rfl) bs s
@[simp] theorem sendBytes_host (bs : List Byte) (s : State) : (sendBytes bs s).host = s.host :=
  sendBytes_rel (exchangeRel_of (f := State.host) fun _ _ => rfl) bs s
@[simp] theorem sendBytes_cmd (bs : List Byte) (s : State) : (sendBytes bs s).cmd = s.cmd :=
  sendBytes_rel (exchangeRel_of (f := State.cmd) fun _ _ => rfl) bs s
@[simp] theorem sendBytes_stalled (bs : List Byte) (s : State) : (sendBytes bs s).stalled = s.stalled :=
  sendBytes_rel (exchangeRel_of (f := State.stalled) fun _ _ => rfl) bs s

/-! ## `readExtension` -/

@[simp] theorem readExtension_cfg (s : State) : (readExtension s).2.cfg = s.cfg :=
  readExtension_rel (exchangeRel_of (f := State.cfg) fun _ _ => rfl) s
@[simp] theorem readExtension_idGen (s : State) : (readExtension s).2.idGen = s.idGen :=
  readExtension_rel (exchangeRel_of (f := State.idGen) fun _ _ => rfl) s
@[simp] theorem readExtension_idAmode (s : State) : (readExtension s).2.idAmode = s.idAmode :=
  readExtension_rel (exchangeRel_of (f := State.idAmode) fun _ _ => rfl) s
@[simp] theorem readExtension_idCap (s : State) : (readExtension s).2.idCap = s.idCap :=
  readExtension_rel (exchangeRel_of (f := State.idCap) fun _ _ => rfl) s
@[simp] theorem readExtension_linkSel (s : State) : (readExtension s).2.linkSel = s.linkSel :=
  readExtension_rel (exchangeRel_of (f := State.linkSel) fun _ _ => rfl) s
@[simp] theorem readExtension_linkClk (s : State) : (readExtension s).2.linkClk = s.linkClk :=
  readExtension_rel (exchangeRel_of (f := State.linkClk) fun _ _ => rfl) s
@[simp] theorem readExtension_linkReady (s : State) : (readExtension s).2.linkReady = s.linkReady :=
  readExtension_rel (exchangeRel_of (f := State.linkReady) fun _ _ => rfl) s
@[simp] theorem readExtension_lastTimeout (s : State) : (readExtension s).2.lastTimeout = s.lastTimeout :=
  readExtension_rel (exchangeRel_of (f := State.lastTimeout) fun _ _ => rfl) s
@[simp] theorem readExtension_settle (s : State) : (readExtension s).2.settle = s.settle :=
  readExtension_rel (exchangeRel_of (f := State.settle) fun _ _ => rfl) s
@[simp] theorem readExtension_fsm (s : State) : (readExtension s).2.fsm = s.fsm :=
  readExtension_rel (exchangeRel_of (f := State.fsm) fun _ _ => rfl) s
@[simp] theorem readExtension_crc7 (s : State) : (readExtension s).2.crc7 = s.crc7 :=
  readExtension_rel (exchangeRel_of (f := State.crc7) fun _ _ => rfl) s
@[simp] theorem readExtension_crc16 (s : State) : (readExtension s).2.crc16 = s.crc16 :=
  readExtension_rel (exchangeRel_of (f := State.crc16) fun _ _ => rfl) s
@[simp] theorem readExtension_frame (s : State) : (readExtension s).2.frame = s.frame :=
  readExtension_rel (exchangeRel_of (f := State.frame) fun _ _ => rfl) s
@[simp] theorem readExtension_req (s : State) : (readExtension s).2.req = s.req :=
  readExtension_rel (exchangeRel_of (f := State.req) fun _ _ => rfl) s
@[simp] theorem readExtension_busy (s : State) : (readExtension s).2.busy = s.busy :=
  readExtension_rel (exchangeRel_of (f := State.busy) fun _ _ => rfl) s
@[simp] theorem readExtension_result (s : State) : (readExtension s).2.result = s.result :=
  readExtension_rel (exchangeRel_of (f := State.result) fun _ _ => rfl) s
@[simp] theorem readExtension_resp (s : State) : (readExtension s).2.resp = s.resp :=
  readExtension_rel (exchangeRel_of (f := State.resp) fun _ _ => rfl) s
@[simp] theorem readExtension_val (s : State) : (readExtension s).2.val = s.val :=
  readExtension_rel (exchangeRel_of (f := State.val) fun _ _ => rfl) s
@[simp] theorem readExtension_done (s : State) : (readExtension s).2.done = s.done :=
  readExtension_rel (exchangeRel_of (f := State.done) fun _ _ => rfl) s
@[simp] theorem readExtension_buf (s : State) : (readExtension s).2.buf = s.buf :=
  readExtension_rel (exchangeRel_of (f := State.buf) fun _ _ => rfl) s
@[simp] theorem readExtension_pgen (s : State) : (readExtension s).2.pgen = s.pgen :=
  readExtension_rel (exchangeRel_of (f := State.pgen) fun _ _ => rfl) s
@[simp] theorem readExtension_pam (s : State) : (readExtension s).2.pam = s.pam :=
  readExtension_rel (exchangeRel_of (f := State.pam) fun _ _ => rfl) s
@[simp] theorem readExtension_t0 (s : State) : (readExtension s).2.t0 = s.t0 :=
  readExtension_rel (exchangeRel_of (f := State.t0) fun _ _ => rfl) s
@[simp] theorem readExtension_n (s : State) : (readExtension s).2.n = s.n :=
  readExtension_rel (exchangeRel_of (f := State.n) fun _ _ => rfl) s
@[simp] theorem readExtension_k (s : State) : (readExtension s).2.k = s.k :=
  readExtension_rel (exchangeRel_of (f := State.k) fun _ _ => rfl) s
@[simp] theorem readExtension_code (s : State) : (readExtension s).2.code = s.code :=
  readExtension_rel (exchangeRel_of (f := State.code) fun _ _ => rfl) s
@[simp] theorem readExtension_host (s : State) : (readExtension s).2.host = s.host :=
  readExtension_rel (exchangeRel_of (f := State.host) fun _ _ => rfl) s
@[simp] theorem readExtension_cmd (s : State) : (readExtension s).2.cmd = s.cmd :=
  readExtension_rel (exchangeRel_of (f := State.cmd) fun _ _ => rfl) s
@[simp] theorem readExtension_stalled (s : State) : (readExtension s).2.stalled = s.stalled :=
  readExtension_rel (exchangeRel_of (f := State.stalled) fun _ _ => rfl) s

/-! ## `pollUntil` -/

@[simp] theorem pollUntil_cfg (hit : Byte → Bool) (T left : Nat) (s : State) : (pollUntil hit T left s).2.cfg = s.cfg :=
  pollUntil_rel (exchangeRel_of (f := State.cfg) fun _ _ => rfl) hit T left s
@[simp] theorem pollUntil_idGen (hit : Byte → Bool) (T left : Nat) (s : State) : (pollUntil hit T left s).2.idGen = s.idGen :=
  pollUntil_rel (exchangeRel_of (f := State.idGen) fun _ _ => rfl) hit T left s
@[simp] theorem pollUntil_idAmode (hit : Byte → Bool) (T left : Nat) (s : State) : (pollUntil hit T left s).2.idAmode = s.idAmode :=
  pollUntil_rel (exchangeRel_of (f := State.idAmode) fun _ _ => rfl) hit T left s
@[simp] theorem pollUntil_idCap (hit : Byte → Bool) (T left : Nat) (s : State) : (pollUntil hit T left s).2.idCap = s.idCap :=
  pollUntil_rel (exchangeRel_of (f := State.idCap) fun _ _ => rfl) hit T left s
@[simp] theorem pollUntil_linkSel (hit : Byte → Bool) (T left : Nat) (s : State) : (pollUntil hit T left s).2.linkSel = s.linkSel :=
  pollUntil_rel (exchangeRel_of (f := State.linkSel) fun _ _ => rfl) hit T left s
@[simp] theorem pollUntil_linkClk (hit : Byte → Bool) (T left : Nat) (s : State) : (pollUntil hit T left s).2.linkClk = s.linkClk :=
  pollUntil_rel (exchangeRel_of (f := State.linkClk) fun _ _ => rfl) hit T left s
@[simp] theorem pollUntil_linkReady (hit : Byte → Bool) (T left : Nat) (s : State) : (pollUntil hit T left s).2.linkReady = s.linkReady :=
  pollUntil_rel (exchangeRel_of (f := State.linkReady) fun _ _ => rfl) hit T left s
@[simp] theorem pollUntil_lastTimeout (hit : Byte → Bool) (T left : Nat) (s : State) : (pollUntil hit T left s).2.lastTimeout = s.lastTimeout :=
  pollUntil_rel (exchangeRel_of (f := State.lastTimeout) fun _ _ => rfl) hit T left s
@[simp] theorem pollUntil_settle (hit : Byte → Bool) (T left : Nat) (s : State) : (pollUntil hit T left s).2.settle = s.settle :=
  pollUntil_rel (exchangeRel_of (f := State.settle) fun _ _ => rfl) hit T left s
@[simp] theorem pollUntil_fsm (hit : Byte → Bool) (T left : Nat) (s : State) : (pollUntil hit T left s).2.fsm = s.fsm :=
  pollUntil_rel (exchangeRel_of (f := State.fsm) fun _ _ => rfl) hit T left s
@[simp] theorem pollUntil_crc7 (hit : Byte → Bool) (T left : Nat) (s : State) : (pollUntil hit T left s).2.crc7 = s.crc7 :=
  pollUntil_rel (exchangeRel_of (f := State.crc7) fun _ _ => rfl) hit T left s
@[simp] theorem pollUntil_crc16 (hit : Byte → Bool) (T left : Nat) (s : State) : (pollUntil hit T left s).2.crc16 = s.crc16 :=
  pollUntil_rel (exchangeRel_of (f := State.crc16) fun _ _ => rfl) hit T left s
@[simp] theorem pollUntil_frame (hit : Byte → Bool) (T left : Nat) (s : State) : (pollUntil hit T left s).2.frame = s.frame :=
  pollUntil_rel (exchangeRel_of (f := State.frame) fun _ _ => rfl) hit T left s
@[simp] theorem pollUntil_req (hit : Byte → Bool) (T left : Nat) (s : State) : (pollUntil hit T left s).2.req = s.req :=
  pollUntil_rel (exchangeRel_of (f := State.req) fun _ _ => rfl) hit T left s
@[simp] theorem pollUntil_busy (hit : Byte → Bool) (T left : Nat) (s : State) : (pollUntil hit T left s).2.busy = s.busy :=
  pollUntil_rel (exchangeRel_of (f := State.busy) fun _ _ => rfl) hit T left s
@[simp] theorem pollUntil_result (hit : Byte → Bool) (T left : Nat) (s : State) : (pollUntil hit T left s).2.result = s.result :=
  pollUntil_rel (exchangeRel_of (f := State.result) fun _ _ => rfl) hit T left s
@[simp] theorem pollUntil_resp (hit : Byte → Bool) (T left : Nat) (s : State) : (pollUntil hit T left s).2.resp = s.resp :=
  pollUntil_rel (exchangeRel_of (f := State.resp) fun _ _ => rfl) hit T left s
@[simp] theorem pollUntil_val (hit : Byte → Bool) (T left : Nat) (s : State) : (pollUntil hit T left s).2.val = s.val :=
  pollUntil_rel (exchangeRel_of (f := State.val) fun _ _ => rfl) hit T left s
@[simp] theorem pollUntil_done (hit : Byte → Bool) (T left : Nat) (s : State) : (pollUntil hit T left s).2.done = s.done :=
  pollUntil_rel (exchangeRel_of (f := State.done) fun _ _ => rfl) hit T left s
@[simp] theorem pollUntil_buf (hit : Byte → Bool) (T left : Nat) (s : State) : (pollUntil hit T left s).2.buf = s.buf :=
  pollUntil_rel (exchangeRel_of (f := State.buf) fun _ _ => rfl) hit T left s
@[simp] theorem pollUntil_pgen (hit : Byte → Bool) (T left : Nat) (s : State) : (pollUntil hit T left s).2.pgen = s.pgen :=
  pollUntil_rel (exchangeRel_of (f := State.pgen) fun _ _ => rfl) hit T left s
@[simp] theorem pollUntil_pam (hit : Byte → Bool) (T left : Nat) (s : State) : (pollUntil hit T left s).2.pam = s.pam :=
  pollUntil_rel (exchangeRel_of (f := State.pam) fun _ _ => rfl) hit T left s
@[simp] theorem pollUntil_t0 (hit : Byte → Bool) (T left : Nat) (s : State) : (pollUntil hit T left s).2.t0 = s.t0 :=
  pollUntil_rel (exchangeRel_of (f := State.t0) fun _ _ => rfl) hit T left s
@[simp] theorem pollUntil_n (hit : Byte → Bool) (T left : Nat) (s : State) : (pollUntil hit T left s).2.n = s.n :=
  pollUntil_rel (exchangeRel_of (f := State.n) fun _ _ => rfl) hit T left s
@[simp] theorem pollUntil_k (hit : Byte → Bool) (T left : Nat) (s : State) : (pollUntil hit T left s).2.k = s.k :=
  pollUntil_rel (exchangeRel_of (f := State.k) fun _ _ => rfl) hit T left s
@[simp] theorem pollUntil_code (hit : Byte → Bool) (T left : Nat) (s : State) : (pollUntil hit T left s).2.code = s.code :=
  pollUntil_rel (exchangeRel_of (f := State.code) fun _ _ => rfl) hit T left s
@[simp] theorem pollUntil_host (hit : Byte → Bool) (T left : Nat) (s : State) : (pollUntil hit T left s).2.host = s.host :=
  pollUntil_rel (exchangeRel_of (f := State.host) fun _ _ => rfl) hit T left s
@[simp] theorem pollUntil_cmd (hit : Byte → Bool) (T left : Nat) (s : State) : (pollUntil hit T left s).2.cmd = s.cmd :=
  pollUntil_rel (exchangeRel_of (f := State.cmd) fun _ _ => rfl) hit T left s
@[simp] theorem pollUntil_stalled (hit : Byte → Bool) (T left : Nat) (s : State) : (pollUntil hit T left s).2.stalled = s.stalled :=
  pollUntil_rel (exchangeRel_of (f := State.stalled) fun _ _ => rfl) hit T left s

/-! ## `awaitResponse` -/

theorem awaitResponse_field {α : Type} {f : State → α} (hx : ∀ tx s, f (xchg tx s).2 = f s)
    (hn : ∀ v s, f (setN v s) = f s) (left : Nat) (last : Byte) (s : State) :
    f (awaitResponse left last s).2 = f s := by
  induction left generalizing last s with
  | zero => rfl
  | succ left ih =>
    simp only [awaitResponse]
    split
    · exact (hn _ _).trans (hx _ _)
    · exact (ih _ _).trans ((hn _ _).trans (hx _ _))

@[simp] theorem awaitResponse_cfg (left : Nat) (last : Byte) (s : State) :
    (awaitResponse left last s).2.cfg = s.cfg := awaitResponse_field (f := State.cfg) (fun _ _ => rfl) (fun _ _ => rfl) left last s
@[simp] theorem awaitResponse_idGen (left : Nat) (last : Byte) (s : State) :
    (awaitResponse left last s).2.idGen = s.idGen := awaitResponse_field (f := State.idGen) (fun _ _ => rfl) (fun _ _ => rfl) left last s
@[simp] theorem awaitResponse_idAmode (left : Nat) (last : Byte) (s : State) :
    (awaitResponse left last s).2.idAmode = s.idAmode := awaitResponse_field (f := State.idAmode) (fun _ _ => rfl) (fun _ _ => rfl) left last s
@[simp] theorem awaitResponse_idCap (left : Nat) (last : Byte) (s : State) :
    (awaitResponse left last s).2.idCap = s.idCap := awaitResponse_field (f := State.idCap) (fun _ _ => rfl) (fun _ _ => rfl) left last s
@[simp] theorem awaitResponse_linkSel (left : Nat) (last : Byte) (s : State) :
    (awaitResponse left last s).2.linkSel = s.linkSel := awaitResponse_field (f := State.linkSel) (fun _ _ => rfl) (fun _ _ => rfl) left last s
@[simp] theorem awaitResponse_linkClk (left : Nat) (last : Byte) (s : State) :
    (awaitResponse left last s).2.linkClk = s.linkClk := awaitResponse_field (f := State.linkClk) (fun _ _ => rfl) (fun _ _ => rfl) left last s
@[simp] theorem awaitResponse_linkReady (left : Nat) (last : Byte) (s : State) :
    (awaitResponse left last s).2.linkReady = s.linkReady := awaitResponse_field (f := State.linkReady) (fun _ _ => rfl) (fun _ _ => rfl) left last s
@[simp] theorem awaitResponse_lastTimeout (left : Nat) (last : Byte) (s : State) :
    (awaitResponse left last s).2.lastTimeout = s.lastTimeout := awaitResponse_field (f := State.lastTimeout) (fun _ _ => rfl) (fun _ _ => rfl) left last s
@[simp] theorem awaitResponse_settle (left : Nat) (last : Byte) (s : State) :
    (awaitResponse left last s).2.settle = s.settle := awaitResponse_field (f := State.settle) (fun _ _ => rfl) (fun _ _ => rfl) left last s
@[simp] theorem awaitResponse_fsm (left : Nat) (last : Byte) (s : State) :
    (awaitResponse left last s).2.fsm = s.fsm := awaitResponse_field (f := State.fsm) (fun _ _ => rfl) (fun _ _ => rfl) left last s
@[simp] theorem awaitResponse_crc7 (left : Nat) (last : Byte) (s : State) :
    (awaitResponse left last s).2.crc7 = s.crc7 := awaitResponse_field (f := State.crc7) (fun _ _ => rfl) (fun _ _ => rfl) left last s
@[simp] theorem awaitResponse_crc16 (left : Nat) (last : Byte) (s : State) :
    (awaitResponse left last s).2.crc16 = s.crc16 := awaitResponse_field (f := State.crc16) (fun _ _ => rfl) (fun _ _ => rfl) left last s
@[simp] theorem awaitResponse_frame (left : Nat) (last : Byte) (s : State) :
    (awaitResponse left last s).2.frame = s.frame := awaitResponse_field (f := State.frame) (fun _ _ => rfl) (fun _ _ => rfl) left last s
@[simp] theorem awaitResponse_req (left : Nat) (last : Byte) (s : State) :
    (awaitResponse left last s).2.req = s.req := awaitResponse_field (f := State.req) (fun _ _ => rfl) (fun _ _ => rfl) left last s
@[simp] theorem awaitResponse_busy (left : Nat) (last : Byte) (s : State) :
    (awaitResponse left last s).2.busy = s.busy := awaitResponse_field (f := State.busy) (fun _ _ => rfl) (fun _ _ => rfl) left last s
@[simp] theorem awaitResponse_result (left : Nat) (last : Byte) (s : State) :
    (awaitResponse left last s).2.result = s.result := awaitResponse_field (f := State.result) (fun _ _ => rfl) (fun _ _ => rfl) left last s
@[simp] theorem awaitResponse_resp (left : Nat) (last : Byte) (s : State) :
    (awaitResponse left last s).2.resp = s.resp := awaitResponse_field (f := State.resp) (fun _ _ => rfl) (fun _ _ => rfl) left last s
@[simp] theorem awaitResponse_val (left : Nat) (last : Byte) (s : State) :
    (awaitResponse left last s).2.val = s.val := awaitResponse_field (f := State.val) (fun _ _ => rfl) (fun _ _ => rfl) left last s
@[simp] theorem awaitResponse_done (left : Nat) (last : Byte) (s : State) :
    (awaitResponse left last s).2.done = s.done := awaitResponse_field (f := State.done) (fun _ _ => rfl) (fun _ _ => rfl) left last s
@[simp] theorem awaitResponse_buf (left : Nat) (last : Byte) (s : State) :
    (awaitResponse left last s).2.buf = s.buf := awaitResponse_field (f := State.buf) (fun _ _ => rfl) (fun _ _ => rfl) left last s
@[simp] theorem awaitResponse_pgen (left : Nat) (last : Byte) (s : State) :
    (awaitResponse left last s).2.pgen = s.pgen := awaitResponse_field (f := State.pgen) (fun _ _ => rfl) (fun _ _ => rfl) left last s
@[simp] theorem awaitResponse_pam (left : Nat) (last : Byte) (s : State) :
    (awaitResponse left last s).2.pam = s.pam := awaitResponse_field (f := State.pam) (fun _ _ => rfl) (fun _ _ => rfl) left last s
@[simp] theorem awaitResponse_t0 (left : Nat) (last : Byte) (s : State) :
    (awaitResponse left last s).2.t0 = s.t0 := awaitResponse_field (f := State.t0) (fun _ _ => rfl) (fun _ _ => rfl) left last s
@[simp] theorem awaitResponse_k (left : Nat) (last : Byte) (s : State) :
    (awaitResponse left last s).2.k = s.k := awaitResponse_field (f := State.k) (fun _ _ => rfl) (fun _ _ => rfl) left last s
@[simp] theorem awaitResponse_code (left : Nat) (last : Byte) (s : State) :
    (awaitResponse left last s).2.code = s.code := awaitResponse_field (f := State.code) (fun _ _ => rfl) (fun _ _ => rfl) left last s
@[simp] theorem awaitResponse_host (left : Nat) (last : Byte) (s : State) :
    (awaitResponse left last s).2.host = s.host := awaitResponse_field (f := State.host) (fun _ _ => rfl) (fun _ _ => rfl) left last s
@[simp] theorem awaitResponse_cmd (left : Nat) (last : Byte) (s : State) :
    (awaitResponse left last s).2.cmd = s.cmd := awaitResponse_field (f := State.cmd) (fun _ _ => rfl) (fun _ _ => rfl) left last s
@[simp] theorem awaitResponse_stalled (left : Nat) (last : Byte) (s : State) :
    (awaitResponse left last s).2.stalled = s.stalled := awaitResponse_field (f := State.stalled) (fun _ _ => rfl) (fun _ _ => rfl) left last s

/-! ## `SendCommand` -/

/-- A field no update of a command exchange touches, as a relation. -/
theorem commandRel_of {α : Type} {f : State → α} (hx : ∀ tx s, f (xchg tx s).2 = f s)
    (hsel : ∀ on s, f (select on s) = f s) (hset : ∀ s, f (setSettled s) = f s) (hb : ∀ s, f (lineBusy s) = f s)
    (hi : ∀ s, f (lineIdle s) = f s) (ht : ∀ s, f (markTimeout s) = f s) (ha : ∀ s, f (clearTimeout s) = f s)
    (hbuild : ∀ i a s, f (buildFrame i a s) = f s) (hn : ∀ v s, f (setN v s) = f s)
    (hr : ∀ v s, f (setResp v s) = f s) : CommandRel (fun s t => f t = f s) where
  toExchangeRel := exchangeRel_of hx
  select := hsel
  settled := hset
  busyLine := hb
  idleLine := hi
  timedOut := ht
  answered := ha
  build := hbuild
  count := hn
  token := hr

@[simp] theorem sendCommand_cfg (i : BitVec 6) (a : Word) (e r : Bool) (s : State) :
    (sendCommand i a e r s).2.cfg = s.cfg :=
  sendCommand_rel (commandRel_of (f := State.cfg) (fun _ _ => rfl) (fun _ _ => rfl) (fun _ => rfl) (fun _ => rfl)
    (fun _ => rfl) (fun _ => rfl) (fun _ => rfl) (fun _ _ _ => rfl) (fun _ _ => rfl) (fun _ _ => rfl)) i a e r s
@[simp] theorem sendCommand_idGen (i : BitVec 6) (a : Word) (e r : Bool) (s : State) :
    (sendCommand i a e r s).2.idGen = s.idGen :=
  sendCommand_rel (commandRel_of (f := State.idGen) (fun _ _ => rfl) (fun _ _ => rfl) (fun _ => rfl) (fun _ => rfl)
    (fun _ => rfl) (fun _ => rfl) (fun _ => rfl) (fun _ _ _ => rfl) (fun _ _ => rfl) (fun _ _ => rfl)) i a e r s
@[simp] theorem sendCommand_idAmode (i : BitVec 6) (a : Word) (e r : Bool) (s : State) :
    (sendCommand i a e r s).2.idAmode = s.idAmode :=
  sendCommand_rel (commandRel_of (f := State.idAmode) (fun _ _ => rfl) (fun _ _ => rfl) (fun _ => rfl) (fun _ => rfl)
    (fun _ => rfl) (fun _ => rfl) (fun _ => rfl) (fun _ _ _ => rfl) (fun _ _ => rfl) (fun _ _ => rfl)) i a e r s
@[simp] theorem sendCommand_idCap (i : BitVec 6) (a : Word) (e r : Bool) (s : State) :
    (sendCommand i a e r s).2.idCap = s.idCap :=
  sendCommand_rel (commandRel_of (f := State.idCap) (fun _ _ => rfl) (fun _ _ => rfl) (fun _ => rfl) (fun _ => rfl)
    (fun _ => rfl) (fun _ => rfl) (fun _ => rfl) (fun _ _ _ => rfl) (fun _ _ => rfl) (fun _ _ => rfl)) i a e r s
@[simp] theorem sendCommand_linkClk (i : BitVec 6) (a : Word) (e r : Bool) (s : State) :
    (sendCommand i a e r s).2.linkClk = s.linkClk :=
  sendCommand_rel (commandRel_of (f := State.linkClk) (fun _ _ => rfl) (fun _ _ => rfl) (fun _ => rfl) (fun _ => rfl)
    (fun _ => rfl) (fun _ => rfl) (fun _ => rfl) (fun _ _ _ => rfl) (fun _ _ => rfl) (fun _ _ => rfl)) i a e r s
@[simp] theorem sendCommand_fsm (i : BitVec 6) (a : Word) (e r : Bool) (s : State) :
    (sendCommand i a e r s).2.fsm = s.fsm :=
  sendCommand_rel (commandRel_of (f := State.fsm) (fun _ _ => rfl) (fun _ _ => rfl) (fun _ => rfl) (fun _ => rfl)
    (fun _ => rfl) (fun _ => rfl) (fun _ => rfl) (fun _ _ _ => rfl) (fun _ _ => rfl) (fun _ _ => rfl)) i a e r s
@[simp] theorem sendCommand_crc16 (i : BitVec 6) (a : Word) (e r : Bool) (s : State) :
    (sendCommand i a e r s).2.crc16 = s.crc16 :=
  sendCommand_rel (commandRel_of (f := State.crc16) (fun _ _ => rfl) (fun _ _ => rfl) (fun _ => rfl) (fun _ => rfl)
    (fun _ => rfl) (fun _ => rfl) (fun _ => rfl) (fun _ _ _ => rfl) (fun _ _ => rfl) (fun _ _ => rfl)) i a e r s
@[simp] theorem sendCommand_req (i : BitVec 6) (a : Word) (e r : Bool) (s : State) :
    (sendCommand i a e r s).2.req = s.req :=
  sendCommand_rel (commandRel_of (f := State.req) (fun _ _ => rfl) (fun _ _ => rfl) (fun _ => rfl) (fun _ => rfl)
    (fun _ => rfl) (fun _ => rfl) (fun _ => rfl) (fun _ _ _ => rfl) (fun _ _ => rfl) (fun _ _ => rfl)) i a e r s
@[simp] theorem sendCommand_busy (i : BitVec 6) (a : Word) (e r : Bool) (s : State) :
    (sendCommand i a e r s).2.busy = s.busy :=
  sendCommand_rel (commandRel_of (f := State.busy) (fun _ _ => rfl) (fun _ _ => rfl) (fun _ => rfl) (fun _ => rfl)
    (fun _ => rfl) (fun _ => rfl) (fun _ => rfl) (fun _ _ _ => rfl) (fun _ _ => rfl) (fun _ _ => rfl)) i a e r s
@[simp] theorem sendCommand_result (i : BitVec 6) (a : Word) (e r : Bool) (s : State) :
    (sendCommand i a e r s).2.result = s.result :=
  sendCommand_rel (commandRel_of (f := State.result) (fun _ _ => rfl) (fun _ _ => rfl) (fun _ => rfl) (fun _ => rfl)
    (fun _ => rfl) (fun _ => rfl) (fun _ => rfl) (fun _ _ _ => rfl) (fun _ _ => rfl) (fun _ _ => rfl)) i a e r s
@[simp] theorem sendCommand_val (i : BitVec 6) (a : Word) (e r : Bool) (s : State) :
    (sendCommand i a e r s).2.val = s.val :=
  sendCommand_rel (commandRel_of (f := State.val) (fun _ _ => rfl) (fun _ _ => rfl) (fun _ => rfl) (fun _ => rfl)
    (fun _ => rfl) (fun _ => rfl) (fun _ => rfl) (fun _ _ _ => rfl) (fun _ _ => rfl) (fun _ _ => rfl)) i a e r s
@[simp] theorem sendCommand_done (i : BitVec 6) (a : Word) (e r : Bool) (s : State) :
    (sendCommand i a e r s).2.done = s.done :=
  sendCommand_rel (commandRel_of (f := State.done) (fun _ _ => rfl) (fun _ _ => rfl) (fun _ => rfl) (fun _ => rfl)
    (fun _ => rfl) (fun _ => rfl) (fun _ => rfl) (fun _ _ _ => rfl) (fun _ _ => rfl) (fun _ _ => rfl)) i a e r s
@[simp] theorem sendCommand_buf (i : BitVec 6) (a : Word) (e r : Bool) (s : State) :
    (sendCommand i a e r s).2.buf = s.buf :=
  sendCommand_rel (commandRel_of (f := State.buf) (fun _ _ => rfl) (fun _ _ => rfl) (fun _ => rfl) (fun _ => rfl)
    (fun _ => rfl) (fun _ => rfl) (fun _ => rfl) (fun _ _ _ => rfl) (fun _ _ => rfl) (fun _ _ => rfl)) i a e r s
@[simp] theorem sendCommand_pgen (i : BitVec 6) (a : Word) (e r : Bool) (s : State) :
    (sendCommand i a e r s).2.pgen = s.pgen :=
  sendCommand_rel (commandRel_of (f := State.pgen) (fun _ _ => rfl) (fun _ _ => rfl) (fun _ => rfl) (fun _ => rfl)
    (fun _ => rfl) (fun _ => rfl) (fun _ => rfl) (fun _ _ _ => rfl) (fun _ _ => rfl) (fun _ _ => rfl)) i a e r s
@[simp] theorem sendCommand_pam (i : BitVec 6) (a : Word) (e r : Bool) (s : State) :
    (sendCommand i a e r s).2.pam = s.pam :=
  sendCommand_rel (commandRel_of (f := State.pam) (fun _ _ => rfl) (fun _ _ => rfl) (fun _ => rfl) (fun _ => rfl)
    (fun _ => rfl) (fun _ => rfl) (fun _ => rfl) (fun _ _ _ => rfl) (fun _ _ => rfl) (fun _ _ => rfl)) i a e r s
@[simp] theorem sendCommand_t0 (i : BitVec 6) (a : Word) (e r : Bool) (s : State) :
    (sendCommand i a e r s).2.t0 = s.t0 :=
  sendCommand_rel (commandRel_of (f := State.t0) (fun _ _ => rfl) (fun _ _ => rfl) (fun _ => rfl) (fun _ => rfl)
    (fun _ => rfl) (fun _ => rfl) (fun _ => rfl) (fun _ _ _ => rfl) (fun _ _ => rfl) (fun _ _ => rfl)) i a e r s
@[simp] theorem sendCommand_k (i : BitVec 6) (a : Word) (e r : Bool) (s : State) :
    (sendCommand i a e r s).2.k = s.k :=
  sendCommand_rel (commandRel_of (f := State.k) (fun _ _ => rfl) (fun _ _ => rfl) (fun _ => rfl) (fun _ => rfl)
    (fun _ => rfl) (fun _ => rfl) (fun _ => rfl) (fun _ _ _ => rfl) (fun _ _ => rfl) (fun _ _ => rfl)) i a e r s
@[simp] theorem sendCommand_code (i : BitVec 6) (a : Word) (e r : Bool) (s : State) :
    (sendCommand i a e r s).2.code = s.code :=
  sendCommand_rel (commandRel_of (f := State.code) (fun _ _ => rfl) (fun _ _ => rfl) (fun _ => rfl) (fun _ => rfl)
    (fun _ => rfl) (fun _ => rfl) (fun _ => rfl) (fun _ _ _ => rfl) (fun _ _ => rfl) (fun _ _ => rfl)) i a e r s
@[simp] theorem sendCommand_host (i : BitVec 6) (a : Word) (e r : Bool) (s : State) :
    (sendCommand i a e r s).2.host = s.host :=
  sendCommand_rel (commandRel_of (f := State.host) (fun _ _ => rfl) (fun _ _ => rfl) (fun _ => rfl) (fun _ => rfl)
    (fun _ => rfl) (fun _ => rfl) (fun _ => rfl) (fun _ _ _ => rfl) (fun _ _ => rfl) (fun _ _ => rfl)) i a e r s
@[simp] theorem sendCommand_cmd (i : BitVec 6) (a : Word) (e r : Bool) (s : State) :
    (sendCommand i a e r s).2.cmd = s.cmd :=
  sendCommand_rel (commandRel_of (f := State.cmd) (fun _ _ => rfl) (fun _ _ => rfl) (fun _ => rfl) (fun _ => rfl)
    (fun _ => rfl) (fun _ => rfl) (fun _ => rfl) (fun _ _ _ => rfl) (fun _ _ => rfl) (fun _ _ => rfl)) i a e r s
@[simp] theorem sendCommand_stalled (i : BitVec 6) (a : Word) (e r : Bool) (s : State) :
    (sendCommand i a e r s).2.stalled = s.stalled :=
  sendCommand_rel (commandRel_of (f := State.stalled) (fun _ _ => rfl) (fun _ _ => rfl) (fun _ => rfl) (fun _ => rfl)
    (fun _ => rfl) (fun _ => rfl) (fun _ => rfl) (fun _ _ _ => rfl) (fun _ _ => rfl) (fun _ _ => rfl)) i a e r s

end Sys2Proof.Machine
end

