-- ==== Sys2Proof/Laws/Bus.lean ====
section
/-!
SUPPORT. What the exchange procedures put on the bus and which answers they use up (spec/20_memory.md R41, R43, R46).
-/
namespace Sys2Proof.Machine

/-! ## Outputs and stretches of the port -/

@[simp] theorem outputs_nil : outputs [] = [] := rfl
theorem outputs_append (a b : List BusEvent) : outputs (a ++ b) = outputs b ++ outputs a := by
  simp [outputs]
@[simp] theorem idleOut_zero : idleOut 0 = [] := rfl
theorem idleOut_succ (n : Nat) : idleOut (n + 1) = .tx Config.idleByte :: idleOut n := rfl
theorem idleOut_add (m n : Nat) : idleOut (m + n) = idleOut m ++ idleOut n := by simp [idleOut]
@[simp] theorem ticksOf_nil : ticksOf [] = 0 := rfl
@[simp] theorem ticksOf_cons (a : Answer) (l : List Answer) : ticksOf (a :: l) = a.ticks + ticksOf l := by
  simp [ticksOf]
@[simp] theorem ticksOf_append (a b : List Answer) : ticksOf (a ++ b) = ticksOf a + ticksOf b := by
  simp [ticksOf]
@[simp] theorem rxOf_nil : rxOf [] = [] := rfl
@[simp] theorem rxOf_cons (a : Answer) (l : List Answer) : rxOf (a :: l) = a.rx :: rxOf l := rfl

theorem Port.Sent.refl (p : Port) : Port.Sent [] p p := ⟨[], rfl, rfl⟩
theorem Port.Sent.trans {p q r : Port} {os os' : List BusOut} (h : Port.Sent os p q) (h' : Port.Sent os' q r) :
    Port.Sent (os ++ os') p r := by
  obtain ⟨e, he, ho⟩ := h
  obtain ⟨e', he', ho'⟩ := h'
  exact ⟨e' ++ e, by simp [he', he], by rw [outputs_append, ho, ho']⟩

theorem Port.Used.refl (p : Port) : Port.Used [] p.script [] p p := ⟨rfl, rfl, rfl, rfl, .refl p⟩
theorem Port.Used.trans {p q r : Port} {l l' rest : List Answer} {os os' : List BusOut}
    (h : Port.Used l (l' ++ rest) os p q) (h' : Port.Used l' rest os' q r) :
    Port.Used (l ++ l') rest (os ++ os') p r :=
  ⟨by simp [h.before], h'.after, h'.tail.trans h.tail, by rw [h'.tick, h.tick, ticksOf_append, Nat.add_assoc],
    h.sent.trans h'.sent⟩

/-! ## One exchange, one call -/

/-- The deselection that ends an operation (R16), after the last answers used. -/
theorem Port.Used.deselect {p q : Port} {l rest : List Answer} {os : List BusOut} (h : Port.Used l rest os p q) :
    Port.Sent (os ++ [.sel false]) p { q with hist := .sel false :: q.hist } :=
  h.sent.trans ⟨[.sel false], rfl, rfl⟩

theorem select_sent (on : Bool) (s : State) : Port.Sent [.sel on] s.port (select on s).port := ⟨[.sel on], rfl, rfl⟩
theorem select_used (on : Bool) (s : State) :
    Port.Used [] s.port.script [.sel on] s.port (select on s).port := ⟨rfl, rfl, rfl, rfl, select_sent on s⟩
theorem xchg_sent (tx : Byte) (s : State) : Port.Sent [.tx tx] s.port (xchg tx s).2.port :=
  ⟨[.x s.linkSel s.linkClk tx s.port.answer.rx], rfl, rfl⟩
theorem answer_of_script {p : Port} {a : Answer} {rest : List Answer} (h : p.script = a :: rest) : p.answer = a := by
  simp [Port.answer, h]
theorem xchg_rx_script {s : State} {a : Answer} {rest : List Answer} (tx : Byte) (h : s.port.script = a :: rest) :
    (xchg tx s).1 = a.rx := by simp [xchg, answer_of_script h]
theorem xchg_used {s : State} {a : Answer} {rest : List Answer} (tx : Byte) (h : s.port.script = a :: rest) :
    Port.Used [a] rest [.tx tx] s.port (xchg tx s).2.port :=
  ⟨h, by simp [xchg, Port.afterXchg, h], rfl, by simp [xchg, Port.afterXchg, answer_of_script h],
    xchg_sent tx s⟩

/-! ## Runs of exchanges -/

theorem idleBytes_sent (n : Nat) (s : State) : Port.Sent (idleOut n) s.port (idleBytes n s).port := by
  induction n generalizing s with
  | zero => exact .refl _
  | succ n ih => exact (xchg_sent Config.idleByte s).trans (ih _)

theorem sendBytes_sent (bs : List Byte) (s : State) :
    Port.Sent (bs.map .tx) s.port (sendBytes bs s).port := by
  induction bs generalizing s with
  | nil => exact .refl _
  | cons b bs ih => exact (xchg_sent b s).trans (ih _)

theorem idleBytes_used {l rest : List Answer} {s : State} (h : s.port.script = l ++ rest) :
    Port.Used l rest (idleOut l.length) s.port (idleBytes l.length s).port := by
  induction l generalizing s with
  | nil => exact ⟨h, h, rfl, rfl, .refl _⟩
  | cons a l ih =>
    have hx := xchg_used (rest := l ++ rest) Config.idleByte h
    exact hx.trans (ih (s := (xchg Config.idleByte s).2) hx.after)

theorem sendBytes_used {bs : List Byte} {l rest : List Answer} {s : State} (h : s.port.script = l ++ rest)
    (hl : l.length = bs.length) : Port.Used l rest (bs.map .tx) s.port (sendBytes bs s).port := by
  induction bs generalizing l s with
  | nil => cases l with
    | nil => exact ⟨h, h, rfl, rfl, .refl _⟩
    | cons a l => simp at hl
  | cons b bs ih => cases l with
    | nil => simp at hl
    | cons a l =>
      have hx := xchg_used (rest := l ++ rest) b h
      exact hx.trans (ih (s := (xchg b s).2) hx.after (by simpa using hl))

/-- An exchange changes only the port. -/
theorem exchangeRel_port : ExchangeRel fun s t => t = { s with port := t.port } :=
  ⟨fun _ => rfl, fun h1 h2 => h2.trans (by rw [h1]), fun _ _ => rfl⟩
theorem idleBytes_eq (n : Nat) (s : State) : idleBytes n s = { s with port := (idleBytes n s).port } :=
  idleBytes_rel exchangeRel_port n s
theorem sendBytes_eq (bs : List Byte) (s : State) : sendBytes bs s = { s with port := (sendBytes bs s).port } :=
  sendBytes_rel exchangeRel_port bs s
theorem readExtension_eq (s : State) : (readExtension s).2 = { s with port := (readExtension s).2.port } :=
  readExtension_rel exchangeRel_port s
theorem pollUntil_eq (hit : Byte → Bool) (budget left : Nat) (s : State) :
    (pollUntil hit budget left s).2 = { s with port := (pollUntil hit budget left s).2.port } :=
  pollUntil_rel exchangeRel_port hit budget left s

/-! ## Extension bytes -/

theorem readExtension_sent (s : State) : Port.Sent (idleOut 4) s.port (readExtension s).2.port :=
  (((xchg_sent _ s).trans (xchg_sent _ _)).trans (xchg_sent _ _)).trans (xchg_sent _ _)

theorem extract_bytes (e : Word) :
    (e.extractLsb' 24 8 ++ e.extractLsb' 16 8 ++ e.extractLsb' 8 8 ++ e.extractLsb' 0 8 : BitVec (8 + 8 + 8 + 8)) =
      e := by
  apply BitVec.eq_of_getLsbD_eq
  intro i hi
  simp only [BitVec.getLsbD_append, BitVec.getLsbD_extractLsb']
  split_ifs <;> rw [decide_eq_true (by omega), Bool.true_and] <;> congr 1 <;> omega

theorem readExtension_used {l rest : List Answer} {e : Word} {s : State} (h : s.port.script = l ++ rest)
    (hl : rxOf l = [e.extractLsb' 24 8, e.extractLsb' 16 8, e.extractLsb' 8 8, e.extractLsb' 0 8]) :
    (readExtension s).1 = e ∧ Port.Used l rest (idleOut 4) s.port (readExtension s).2.port := by
  obtain ⟨a, l, rfl, ha, hl⟩ := List.map_eq_cons_iff.1 hl
  obtain ⟨b, l, rfl, hb, hl⟩ := List.map_eq_cons_iff.1 hl
  obtain ⟨c, l, rfl, hc, hl⟩ := List.map_eq_cons_iff.1 hl
  obtain ⟨d, l, rfl, hd, hl⟩ := List.map_eq_cons_iff.1 hl
  obtain rfl := List.map_eq_nil_iff.1 hl
  have h0 := xchg_used (rest := [b, c, d] ++ rest) Config.idleByte h
  have h1 := xchg_used (rest := [c, d] ++ rest) Config.idleByte h0.after
  have h2 := xchg_used (rest := [d] ++ rest) Config.idleByte h1.after
  have h3 := xchg_used (rest := rest) Config.idleByte h2.after
  refine ⟨?_, h0.trans (h1.trans (h2.trans h3))⟩
  simp only [readExtension]
  rw [xchg_rx_script _ h, xchg_rx_script _ h0.after, xchg_rx_script _ h1.after, xchg_rx_script _ h2.after, ha, hb, hc,
    hd]
  exact extract_bytes e

end Sys2Proof.Machine
end

