-- ==== Sys2Proof/Laws/Command.lean ====
section
/-!
SUPPORT. Everything one command exchange can do (spec/41_command.md R112, R120, R124), said once: for every state, and
for a state whose script answers the command.
-/
namespace Sys2Proof.Machine

/-! ## The opening and the frame -/

theorem openExchange_spec (resel : Bool) (s : State) :
    openExchange resel s =
        { s with linkSel := resel || s.linkSel, settle := false, port := (openExchange resel s).port } ∧
      Port.Sent ((if resel then [.sel false, .sel true] else []) ++
        (if resel || s.settle then idleOut Config.nSettle else [])) s.port (openExchange resel s).port := by
  unfold openExchange
  cases resel
  · cases hs : s.settle
    · simp only [Bool.false_eq_true, if_false, hs, Bool.false_or]
      refine ⟨?_, .refl _⟩
      cases s; simp_all
    · simp only [Bool.false_eq_true, if_false, hs, if_true, Bool.false_or]
      exact ⟨by rw [idleBytes_eq]; rfl, idleBytes_sent _ _⟩
  · simp only [if_true, Bool.true_or]
    rw [if_pos (show (select true (select false s)).settle = true from rfl)]
    refine ⟨by rw [idleBytes_eq]; rfl, ?_⟩
    exact ((select_sent false s).trans (select_sent true _)).trans (idleBytes_sent _ _)

theorem builtFrame_eq (index : BitVec 6) (arg : Word) (s : State) :
    (buildFrame index arg s).frame = builtFrame s.cfg index arg := rfl

theorem transmit_spec (index : BitVec 6) (arg : Word) (s : State) :
    transmit index arg s =
        { s with
          linkReady := false
          crc7 := crc7Of s.cfg.crc7Poly s.cfg.crc7Init (frameHead index arg)
          frame := builtFrame s.cfg index arg
          port := (transmit index arg s).port } ∧
      Port.Sent (frameOut (builtFrame s.cfg index arg) ++
        (if index = s.cfg.idxStop then idleOut s.cfg.nStuffStopCmd else [])) s.port (transmit index arg s).port := by
  unfold transmit
  have hs := sendBytes_sent (frameBytes (buildFrame index arg (lineBusy s)).frame) (buildFrame index arg (lineBusy s))
  have he := sendBytes_eq (frameBytes (buildFrame index arg (lineBusy s)).frame) (buildFrame index arg (lineBusy s))
  dsimp only
  revert hs he
  generalize sendBytes (frameBytes (buildFrame index arg (lineBusy s)).frame) (buildFrame index arg (lineBusy s)) = t
  intro hs he
  have hc : t.cfg = s.cfg := by rw [he]; rfl
  rw [hc]
  split_ifs
  · refine ⟨?_, hs.trans (idleBytes_sent _ _)⟩
    rw [idleBytes_eq, he]; rfl
  · refine ⟨by rw [he]; rfl, ?_⟩
    rw [List.append_nil]; exact hs

/-! ## The response poll -/

theorem awaitResponse_spec (left : Nat) {last : Byte} (s : State) (hlast : isResponse last = false) :
    ∃ polls, awaitResponse left last s =
        ((isResponse (awaitResponse left last s).1.2, (awaitResponse left last s).1.2),
          { s with n := s.n + polls, port := (awaitResponse left last s).2.port }) ∧
      Port.Sent (idleOut polls) s.port (awaitResponse left last s).2.port ∧ polls ≤ left ∧
      (if isResponse (awaitResponse left last s).1.2 then 0 < polls else polls = left) := by
  induction left generalizing last s with
  | zero =>
    exact ⟨0, by simp only [awaitResponse, hlast, Nat.add_zero], .refl _, Nat.le_refl _, by
      simp [awaitResponse, hlast]⟩
  | succ left ih =>
    rw [awaitResponse]
    have hx := xchg_sent Config.idleByte s
    generalize hr : isResponse (xchg Config.idleByte s).1 = b
    cases b
    · have hi := ih (setN ((xchg Config.idleByte s).2.n + 1) (xchg Config.idleByte s).2) hr
      simp only [Bool.false_eq_true, if_false]
      revert hi
      generalize awaitResponse left (xchg Config.idleByte s).1
        (setN ((xchg Config.idleByte s).2.n + 1) (xchg Config.idleByte s).2) = p
      rintro ⟨polls, he, hs, hle, hp⟩
      refine ⟨1 + polls, ?_, ?_, by omega, ?_⟩
      · rw [he]; simp only [setN_n, xchg_n, Nat.add_assoc]; rfl
      · rw [idleOut_add]; exact hx.trans hs
      · cases hr : isResponse p.1.2 <;> simp only [hr, if_true, Bool.false_eq_true, if_false] at hp ⊢ <;> omega
    · simp only [if_true]
      exact ⟨1, by rw [hr]; rfl, hx, by omega, by rw [if_pos hr]; omega⟩

/-! ## The whole exchange -/

/-- The state an exchange leaves, given what the poll found: the flags, the token and the port. -/
def afterCommand (index : BitVec 6) (arg : Word) (resel answered : Bool) (polls : Nat) (token : BitVec 40) (port : Port)
    (s : State) : State :=
  { s with
    linkSel := resel || s.linkSel
    settle := false
    linkReady := answered
    lastTimeout := !answered
    crc7 := crc7Of s.cfg.crc7Poly s.cfg.crc7Init (frameHead index arg)
    frame := builtFrame s.cfg index arg
    n := polls
    resp := token
    port := port }

/-- Everything `SendCommand` can do (R112, R120, R124). -/
theorem sendCommand_cases (index : BitVec 6) (arg : Word) (ext resel : Bool) (s : State) :
    ∃ polls status e, polls ≤ s.cfg.nRespPoll ∧ ((ext && isResponse status) = false → e = 0) ∧
      (if isResponse status then 0 < polls else polls = s.cfg.nRespPoll) ∧
      sendCommand index arg ext resel s =
        ({ code := if isResponse status then classify status else .noResponse, status := status, ext := e },
          afterCommand index arg resel (isResponse status) polls (status ++ e : BitVec (8 + 32))
            (sendCommand index arg ext resel s).2.port s) ∧
      Port.Sent (commandHead s.cfg index arg resel s.settle ++ idleOut polls ++
        (if ext && isResponse status then idleOut 4 else [])) s.port (sendCommand index arg ext resel s).2.port := by
  obtain ⟨ho, hos⟩ := openExchange_spec resel s
  obtain ⟨ht, hts⟩ := transmit_spec index arg (openExchange resel s)
  have hw := awaitResponse_spec (transmit index arg (openExchange resel s)).cfg.nRespPoll
    (setN 0 (transmit index arg (openExchange resel s))) (last := Config.idleByte) (by decide)
  unfold sendCommand
  dsimp only
  revert hw
  generalize hp : awaitResponse (transmit index arg (openExchange resel s)).cfg.nRespPoll Config.idleByte
    (setN 0 (transmit index arg (openExchange resel s))) = p
  clear hp
  revert ht hts
  generalize transmit index arg (openExchange resel s) = t
  revert ho hos
  generalize openExchange resel s = o
  intro ho hos ht hts hw
  obtain ⟨polls, he, hs, hle, hpolls⟩ := hw
  have hoc : o.cfg = s.cfg := by rw [ho]
  have htc : t.cfg = s.cfg := by rw [ht, ← hoc]
  rw [hoc] at ht hts
  rw [htc] at hle hpolls
  simp only [setN_n, setN_port, Nat.zero_add] at he hs
  have hsent := (hos.trans hts).trans hs
  rw [← List.append_assoc] at hsent
  obtain ⟨⟨found, status⟩, u⟩ := p
  simp only [Prod.mk.injEq] at he hsent hpolls
  obtain ⟨⟨hfound, -⟩, hu⟩ := he
  subst hfound
  have hu' : u = { s with
      linkSel := resel || s.linkSel
      settle := false
      linkReady := false
      crc7 := crc7Of s.cfg.crc7Poly s.cfg.crc7Init (frameHead index arg)
      frame := builtFrame s.cfg index arg
      n := polls
      port := u.port } := by
    generalize u.port = x at hu ⊢
    rw [hu, ht, ho]; rfl
  clear hu ht ho
  generalize u.port = x at hu' hsent
  subst hu'
  have hhead : Port.Sent (commandHead s.cfg index arg resel s.settle ++ idleOut polls) s.port x := by
    simpa [commandHead] using hsent
  cases hr : isResponse status
  · refine ⟨polls, status, 0, hle, fun _ => rfl, by simpa [hr] using hpolls, by rw [hr]; rfl, ?_⟩
    rw [hr, Bool.and_false, if_neg Bool.false_ne_true, List.append_nil]
    exact hhead
  · cases ext
    · refine ⟨polls, status, 0, hle, fun _ => rfl, by simpa [hr] using hpolls, by rw [hr]; rfl, ?_⟩
      rw [Bool.false_and, if_neg Bool.false_ne_true, List.append_nil]
      exact hhead
    · simp only [parseToken, if_true]
      generalize hv : clearTimeout _ = v
      have hx := readExtension_sent v
      have he := readExtension_eq v
      revert hx he
      generalize readExtension v = y
      intro hx he
      subst hv
      refine ⟨polls, status, y.1, hle, by simp [hr], by simpa [hr] using hpolls, ?_, ?_⟩
      · rw [hr]; rw [he]; rfl
      · rw [hr]; exact hhead.trans hx

/-! ## The exchange against a script -/

theorem openExchange_used {resel : Bool} {s : State} {l rest : List Answer} (h : s.port.script = l ++ rest)
    (hl : l.length = if resel || s.settle then Config.nSettle else 0) :
    Port.Used l rest ((if resel then [.sel false, .sel true] else []) ++
      (if resel || s.settle then idleOut Config.nSettle else [])) s.port (openExchange resel s).port := by
  have hrun : ∀ u : State, u.port.script = l ++ rest → l.length = Config.nSettle →
      Port.Used l rest (idleOut Config.nSettle) u.port (setSettled (idleBytes Config.nSettle u)).port := by
    intro u hu hn
    rw [← hn]; exact idleBytes_used hu
  have hnone : l.length = 0 → l = [] := List.eq_nil_of_length_eq_zero
  unfold openExchange
  cases resel
  · cases hs : s.settle <;> rw [hs] at hl
    · obtain rfl := hnone hl
      simp only [Bool.false_eq_true, if_false, hs, Bool.false_or]
      exact ⟨h, h, rfl, rfl, .refl _⟩
    · simp only [Bool.false_eq_true, if_false, hs, if_true, Bool.false_or]
      exact hrun s h hl
  · simp only [Bool.true_or, if_true] at hl ⊢
    rw [if_pos (show (select true (select false s)).settle = true from rfl)]
    have h2 : (select true (select false s)).port.script = l ++ rest := h
    have h1 := Port.Used.trans (l' := []) (rest := s.port.script) (select_used false s)
      (select_used true (select false s))
    exact Port.Used.trans (l := []) (rest := rest) (by rw [← h]; exact h1) (hrun _ h2 hl)

theorem transmit_used {index : BitVec 6} {arg : Word} {s : State} {l rest : List Answer}
    (h : s.port.script = l ++ rest)
    (hl : l.length = 6 + (if index = s.cfg.idxStop then s.cfg.nStuffStopCmd else 0)) :
    Port.Used l rest (frameOut (builtFrame s.cfg index arg) ++
      (if index = s.cfg.idxStop then idleOut s.cfg.nStuffStopCmd else [])) s.port (transmit index arg s).port := by
  have hsplit : l = l.take 6 ++ l.drop 6 := (List.take_append_drop 6 l).symm
  have h6 : (l.take 6).length = (frameBytes (buildFrame index arg (lineBusy s)).frame).length := by
    simp [frameBytes, hl]
  have hb : (buildFrame index arg (lineBusy s)).port.script = l.take 6 ++ (l.drop 6 ++ rest) := by
    rw [← List.append_assoc, ← hsplit]; exact h
  have hu := sendBytes_used hb h6
  rw [hsplit]
  unfold transmit
  have he := sendBytes_eq (frameBytes (buildFrame index arg (lineBusy s)).frame) (buildFrame index arg (lineBusy s))
  dsimp only
  revert hu he
  generalize sendBytes (frameBytes (buildFrame index arg (lineBusy s)).frame) (buildFrame index arg (lineBusy s)) = t
  intro hu he
  have hc : t.cfg = s.cfg := by rw [he]; rfl
  rw [hc]
  have hd : (l.drop 6).length = if index = s.cfg.idxStop then s.cfg.nStuffStopCmd else 0 := by simp [hl]
  split_ifs at hd ⊢
  · exact hu.trans (by rw [← hd]; exact idleBytes_used hu.after)
  · obtain hnil := List.eq_nil_of_length_eq_zero hd
    rw [hnil] at hu ⊢
    rw [List.append_nil, List.append_nil]
    exact hu

theorem awaitResponse_used {left : Nat} {last : Byte} {s : State} {polls : List Answer} {st : Answer}
    {rest : List Answer} (h : s.port.script = polls ++ st :: rest) (hp : ∀ a ∈ polls, isResponse a.rx = false)
    (hleft : polls.length < left) (hst : isResponse st.rx = true) :
    ∃ port, awaitResponse left last s = ((true, st.rx), { s with n := s.n + (polls.length + 1), port := port }) ∧
      Port.Used (polls ++ [st]) rest (idleOut (polls.length + 1)) s.port port := by
  induction polls generalizing left last s with
  | nil =>
    obtain _ | left := left
    · simp at hleft
    rw [awaitResponse]
    have hx := xchg_used Config.idleByte h
    refine ⟨(xchg Config.idleByte s).2.port, ?_, hx⟩
    rw [xchg_rx_script _ h, if_pos hst]; rfl
  | cons a polls ih =>
    obtain _ | left := left
    · simp at hleft
    rw [awaitResponse]
    have hx := xchg_used Config.idleByte h
    obtain ⟨port, he, hu⟩ := ih (left := left) (last := (xchg Config.idleByte s).1)
      (s := setN ((xchg Config.idleByte s).2.n + 1) (xchg Config.idleByte s).2) hx.after
      (fun b hb => hp b (List.mem_cons_of_mem _ hb)) (by simpa using hleft)
    refine ⟨port, ?_, ?_⟩
    · have hr := hp a (List.mem_cons_self ..)
      rw [← xchg_rx_script Config.idleByte h] at hr
      rw [hr, if_neg Bool.false_ne_true, he]
      simp only [setN_n, xchg_n, List.length_cons]
      rw [show s.n + 1 + (polls.length + 1) = s.n + (polls.length + 1 + 1) by omega]
      rfl
    · exact Port.Used.trans (l := [a]) (l' := polls ++ [st]) (by simpa using hx) hu

/-- A command whose answers stand in the script (R112, R120). -/
theorem sendCommand_answered {index : BitVec 6} {arg : Word} {ext resel : Bool} {s : State} {l rest : List Answer}
    {status : Byte} {e : Word} (h : s.port.script = l ++ rest)
    (ha : CommandAnswer s.cfg index (resel || s.settle) ext status e l) :
    ∃ polls port, sendCommand index arg ext resel s =
        ({ code := classify status, status := status, ext := if ext then e else 0 },
          afterCommand index arg resel true polls (status ++ (if ext then e else 0) : BitVec (8 + 32)) port s) ∧
      0 < polls ∧ polls ≤ s.cfg.nRespPoll ∧
      Port.Used l rest (commandHead s.cfg index arg resel s.settle ++ idleOut polls ++
        (if ext then idleOut 4 else [])) s.port port := by
  obtain ⟨head, polls, st, es, rfl, hhead, hp, hlen, hst, hresp, hes⟩ := ha
  obtain ⟨ho, -⟩ := openExchange_spec resel s
  have hsplit := List.take_append_drop (if resel || s.settle then Config.nSettle else 0) head
  have hl1 : (head.take (if resel || s.settle then Config.nSettle else 0)).length =
      if resel || s.settle then Config.nSettle else 0 := by
    rw [List.length_take, hhead, leadLen]; omega
  have hl2 : (head.drop (if resel || s.settle then Config.nSettle else 0)).length =
      6 + if index = s.cfg.idxStop then s.cfg.nStuffStopCmd else 0 := by
    rw [List.length_drop, hhead, leadLen]; omega
  revert hsplit hl1 hl2
  generalize head.take (if resel || s.settle then Config.nSettle else 0) = h1
  generalize head.drop (if resel || s.settle then Config.nSettle else 0) = h2
  intro hsplit hl1 hl2
  have hu1 := openExchange_used (rest := h2 ++ (polls ++ st :: es) ++ rest) (by rw [h, ← hsplit]; simp) hl1
  unfold sendCommand
  dsimp only
  revert ho hu1
  generalize openExchange resel s = o
  intro ho hu1
  have hoc : o.cfg = s.cfg := by rw [ho]
  obtain ⟨ht, -⟩ := transmit_spec index arg o
  have hu2 := transmit_used (index := index) (arg := arg) (s := o) (l := h2) (rest := polls ++ st :: es ++ rest)
    (by rw [hu1.after]; simp) (by rw [hoc]; exact hl2)
  revert ht hu2
  generalize transmit index arg o = t
  intro ht hu2
  have htc : t.cfg = s.cfg := by rw [ht, ← hoc]
  obtain ⟨p3, he, hu3⟩ := awaitResponse_used (left := s.cfg.nRespPoll) (last := Config.idleByte) (s := setN 0 t)
    (polls := polls) (st := st) (rest := es ++ rest) (by rw [setN_port, hu2.after]; simp) hp hlen (by rw [hst]; exact hresp)
  rw [htc, he]
  simp only [setN_n, Nat.zero_add]
  rw [hoc] at ht hu2
  have hu' : Port.Used (head ++ polls ++ [st]) (es ++ rest) (commandHead s.cfg index arg resel s.settle ++
      idleOut (polls.length + 1)) s.port p3 := by
    have h12 := Port.Used.trans (l := h1) (l' := h2) (rest := polls ++ st :: es ++ rest) (by simpa using hu1) hu2
    have h123 := Port.Used.trans (l := h1 ++ h2) (l' := polls ++ [st]) (rest := es ++ rest) (by simpa using h12) hu3
    rw [hsplit] at h123
    simpa [commandHead] using h123
  have ht' : { t with n := polls.length + 1, port := p3 } = { s with
      linkSel := resel || s.linkSel
      settle := false
      linkReady := false
      crc7 := crc7Of s.cfg.crc7Poly s.cfg.crc7Init (frameHead index arg)
      frame := builtFrame s.cfg index arg
      n := polls.length + 1
      port := p3 } := by rw [ht, ho]
  simp only [setN] at he ⊢
  rw [ht', hst]
  cases ext
  · obtain rfl : es = [] := by simpa [rxOf] using hes
    refine ⟨polls.length + 1, p3, rfl, by omega, hlen, ?_⟩
    simpa using hu'
  · simp only [parseToken, if_true] at hes ⊢
    generalize hv : clearTimeout _ = v
    have hvs : v.port.script = es ++ rest := by rw [← hv]; exact hu'.after
    obtain ⟨hxe, hxu⟩ := readExtension_used hvs hes
    have hx := readExtension_eq v
    revert hxe hxu hx
    generalize readExtension v = y
    intro hxe hxu hx
    subst hv
    refine ⟨polls.length + 1, y.2.port, ?_, by omega, hlen, ?_⟩
    · rw [hxe, hx]; rfl
    · have := Port.Used.trans (l := head ++ polls ++ [st]) (l' := es) (rest := rest) hu' hxu
      simpa using this

/-! ## A card that stays silent -/

theorem awaitResponse_silent {polls : List Answer} {a : Answer} {last : Byte} {s : State} {rest : List Answer}
    (h : s.port.script = polls ++ a :: rest) (hp : ∀ b ∈ polls, isResponse b.rx = false)
    (ha : isResponse a.rx = false) :
    ∃ port, awaitResponse (polls.length + 1) last s =
        ((false, a.rx), { s with n := s.n + (polls.length + 1), port := port }) ∧
      Port.Used (polls ++ [a]) rest (idleOut (polls.length + 1)) s.port port := by
  induction polls generalizing last s with
  | nil =>
    rw [awaitResponse]
    have hx := xchg_used Config.idleByte h
    refine ⟨(xchg Config.idleByte s).2.port, ?_, hx⟩
    rw [xchg_rx_script _ h, if_neg (by simp [ha])]; rfl
  | cons b polls ih =>
    rw [awaitResponse]
    have hx := xchg_used Config.idleByte h
    obtain ⟨port, he, hu⟩ := ih (last := (xchg Config.idleByte s).1)
      (s := setN ((xchg Config.idleByte s).2.n + 1) (xchg Config.idleByte s).2) hx.after
      (fun c hc => hp c (List.mem_cons_of_mem _ hc))
    refine ⟨port, ?_, ?_⟩
    · have hr := hp b (List.mem_cons_self ..)
      rw [← xchg_rx_script Config.idleByte h] at hr
      rw [hr, if_neg Bool.false_ne_true, List.length_cons, he]
      simp only [setN_n, xchg_n]
      rw [show s.n + 1 + (polls.length + 1) = s.n + (polls.length + 1 + 1) by omega]
      rfl
    · exact Port.Used.trans (l := [b]) (l' := polls ++ [a]) (by simpa using hx) hu

/-- A command to a card that stays silent for the poll bound (R112, R116). -/
theorem sendCommand_silent {index : BitVec 6} {arg : Word} {ext resel : Bool} {s : State} {head polls : List Answer}
    {a : Answer} {rest : List Answer} (h : s.port.script = head ++ polls ++ a :: rest)
    (hhead : head.length = leadLen s.cfg index (resel || s.settle)) (hn : polls.length + 1 = s.cfg.nRespPoll)
    (hp : ∀ b ∈ polls, isResponse b.rx = false) (ha : isResponse a.rx = false) :
    ∃ port, sendCommand index arg ext resel s =
        ({ code := .noResponse, status := a.rx, ext := 0 },
          afterCommand index arg resel false s.cfg.nRespPoll (a.rx ++ (0 : Word) : BitVec (8 + 32)) port s) ∧
      Port.Used (head ++ polls ++ [a]) rest (commandHead s.cfg index arg resel s.settle ++ idleOut s.cfg.nRespPoll)
        s.port port := by
  obtain ⟨ho, -⟩ := openExchange_spec resel s
  have hsplit := List.take_append_drop (if resel || s.settle then Config.nSettle else 0) head
  have hl1 : (head.take (if resel || s.settle then Config.nSettle else 0)).length =
      if resel || s.settle then Config.nSettle else 0 := by
    rw [List.length_take, hhead, leadLen]; omega
  have hl2 : (head.drop (if resel || s.settle then Config.nSettle else 0)).length =
      6 + if index = s.cfg.idxStop then s.cfg.nStuffStopCmd else 0 := by
    rw [List.length_drop, hhead, leadLen]; omega
  revert hsplit hl1 hl2
  generalize head.take (if resel || s.settle then Config.nSettle else 0) = h1
  generalize head.drop (if resel || s.settle then Config.nSettle else 0) = h2
  intro hsplit hl1 hl2
  have hu1 := openExchange_used (rest := h2 ++ (polls ++ a :: rest)) (by rw [h, ← hsplit]; simp) hl1
  unfold sendCommand
  dsimp only
  revert ho hu1
  generalize openExchange resel s = o
  intro ho hu1
  have hoc : o.cfg = s.cfg := by rw [ho]
  obtain ⟨ht, -⟩ := transmit_spec index arg o
  have hu2 := transmit_used (index := index) (arg := arg) (s := o) (l := h2) (rest := polls ++ a :: rest)
    (by rw [hu1.after]) (by rw [hoc]; exact hl2)
  revert ht hu2
  generalize transmit index arg o = t
  intro ht hu2
  have htc : t.cfg = s.cfg := by rw [ht, ← hoc]
  obtain ⟨p3, he, hu3⟩ := awaitResponse_silent (last := Config.idleByte) (s := setN 0 t) (polls := polls) (a := a)
    (rest := rest) (by rw [setN_port, hu2.after]) hp ha
  rw [htc, ← hn, he]
  rw [hoc] at ht hu2
  refine ⟨p3, ?_, ?_⟩
  · simp only [setN_n, Nat.zero_add]
    generalize polls.length + 1 = m
    rw [ht, ho]; rfl
  · have h12 := Port.Used.trans (l := h1) (l' := h2) (rest := polls ++ a :: rest) hu1 hu2
    have h123 := Port.Used.trans (l := h1 ++ h2) (l' := polls ++ [a]) (rest := rest) (by simpa using h12) hu3
    rw [hsplit] at h123
    simpa [commandHead] using h123

/-! ## The answer and the code -/

/-- The fields of `resp` (R34). -/
theorem token_fields (status : Byte) (e : Word) :
    ((status ++ e : BitVec (8 + 32)) : BitVec 40).extractLsb' 32 8 = status ∧
      ((status ++ e : BitVec (8 + 32)) : BitVec 40).extractLsb' 0 32 = e := by
  have h : ∀ i, ((status ++ e : BitVec (8 + 32)) : BitVec 40).getLsbD i =
      if i < 32 then e.getLsbD i else status.getLsbD (i - 32) := fun i => BitVec.getLsbD_append
  constructor <;> apply BitVec.eq_of_getLsbD_eq <;> intro i hi <;>
    rw [BitVec.getLsbD_extractLsb', h, decide_eq_true hi, Bool.true_and]
  · rw [if_neg (by omega), Nat.add_sub_cancel_left]
  · rw [if_pos (by omega), Nat.zero_add]

/-- `Classify` never answers `NoResponse`, so a command's code says whether it was answered. -/
theorem code_noResponse (answered : Bool) (status : Byte) :
    (if answered then classify status else Code.noResponse) = .noResponse ↔ answered = false := by
  cases answered
  · simp
  · simp only [classify, if_true]; split_ifs <;> simp

/-- The outcome `sendCommand_cases` leaves. -/
theorem commandOutcome_of {ext : Bool} {status : Byte} {e : Word} {t : State}
    (he : (ext && isResponse status) = false → e = 0) (hresp : t.resp = (status ++ e : BitVec (8 + 32)))
    (hready : t.linkReady = isResponse status) (htime : t.lastTimeout = !isResponse status) :
    CommandOutcome ext (if isResponse status then classify status else .noResponse) t := by
  obtain ⟨ha, hb⟩ := token_fields status e
  unfold CommandOutcome
  rw [hresp, hready, htime, ha, hb]
  cases hr : isResponse status
  · left; simp [hr] at he ⊢; exact he
  · right; simp [hr] at he ⊢; exact he

end Sys2Proof.Machine
end

