-- ==== Sys2Proof/Laws/Crc.lean ====
section
/-!
SUPPORT. The bit and byte steps of the two checksum generators (spec/40_crc.md R91, R92, R101): bit by bit, linear, and
over joined messages.
-/
namespace Sys2Proof.Machine

/-! ## CRC-7 -/

theorem crc7Bit_getLsbD (p c : BitVec 7) (d : Bool) (i : Nat) : (crc7Bit p c d).getLsbD i =
    (decide (i < 7) && ((decide (0 < i) && c.getLsbD (i - 1)) ^^ ((c.getLsbD 6 ^^ d) && p.getLsbD i))) := by
  unfold crc7Bit
  dsimp only
  cases c.getLsbD 6 ^^ d
  · rw [if_neg Bool.false_ne_true, BitVec.getLsbD_shiftLeft]
    by_cases h : 0 < i <;> simp [h, show (i < 1) = ¬ 0 < i by simp]
  · rw [if_pos rfl, BitVec.getLsbD_xor, BitVec.getLsbD_shiftLeft]
    by_cases hn : i < 7
    · by_cases h : 0 < i <;> simp [h, hn, show (i < 1) = ¬ 0 < i by simp]
    · simp [hn, BitVec.getLsbD_of_ge p i (by omega)]

theorem crc7Bit_xor (p c c' : BitVec 7) (d d' : Bool) :
    crc7Bit p (c ^^^ c') (d ^^ d') = crc7Bit p c d ^^^ crc7Bit p c' d' := by
  apply BitVec.eq_of_getLsbD_eq
  intro i hi
  simp only [BitVec.getLsbD_xor, crc7Bit_getLsbD]
  generalize decide (i < 7) = a, decide (0 < i) = b, c.getLsbD (i - 1) = x, c'.getLsbD (i - 1) = x', c.getLsbD 6 = y,
    c'.getLsbD 6 = y', p.getLsbD i = z
  revert a b x x' y y' z d d'
  decide

@[simp] theorem crc7Bit_zero (p : BitVec 7) : crc7Bit p 0 false = 0 := by
  apply BitVec.eq_of_getLsbD_eq
  intro i hi
  simp [crc7Bit_getLsbD]

theorem crc7Byte_eq (p c : BitVec 7) (b : Byte) : crc7Byte p c b = (bitsMsbFirst b).foldl (crc7Bit p) c := rfl

theorem crc7Of_append (p init : BitVec 7) (m m' : List Byte) :
    crc7Of p init (m ++ m') = crc7Of p (crc7Of p init m) m' := by simp [crc7Of]

/-! ## CRC-16 -/

theorem crc16Bit_getLsbD (p c : BitVec 16) (d : Bool) (i : Nat) : (crc16Bit p c d).getLsbD i =
    (decide (i < 16) && ((decide (0 < i) && c.getLsbD (i - 1)) ^^ ((c.getLsbD 15 ^^ d) && p.getLsbD i))) := by
  unfold crc16Bit
  dsimp only
  cases c.getLsbD 15 ^^ d
  · rw [if_neg Bool.false_ne_true, BitVec.getLsbD_shiftLeft]
    by_cases h : 0 < i <;> simp [h, show (i < 1) = ¬ 0 < i by simp]
  · rw [if_pos rfl, BitVec.getLsbD_xor, BitVec.getLsbD_shiftLeft]
    by_cases hn : i < 16
    · by_cases h : 0 < i <;> simp [h, hn, show (i < 1) = ¬ 0 < i by simp]
    · simp [hn, BitVec.getLsbD_of_ge p i (by omega)]

theorem crc16Bit_xor (p c c' : BitVec 16) (d d' : Bool) :
    crc16Bit p (c ^^^ c') (d ^^ d') = crc16Bit p c d ^^^ crc16Bit p c' d' := by
  apply BitVec.eq_of_getLsbD_eq
  intro i hi
  simp only [BitVec.getLsbD_xor, crc16Bit_getLsbD]
  generalize decide (i < 16) = a, decide (0 < i) = b, c.getLsbD (i - 1) = x, c'.getLsbD (i - 1) = x', c.getLsbD 15 = y,
    c'.getLsbD 15 = y', p.getLsbD i = z
  revert a b x x' y y' z d d'
  decide

@[simp] theorem crc16Bit_zero (p : BitVec 16) : crc16Bit p 0 false = 0 := by
  apply BitVec.eq_of_getLsbD_eq
  intro i hi
  simp [crc16Bit_getLsbD]

theorem crc16Byte_eq (p c : BitVec 16) (b : Byte) : crc16Byte p c b = (bitsMsbFirst b).foldl (crc16Bit p) c := rfl

theorem crc16Of_append (p init : BitVec 16) (m m' : List Byte) :
    crc16Of p init (m ++ m') = crc16Of p (crc16Of p init m) m' := by simp [crc16Of]

/-! ## The bits of a byte -/

theorem bitsMsbFirst_length (b : Byte) : (bitsMsbFirst b).length = 8 := rfl

theorem bitsMsbFirst_xor (b b' : Byte) :
    bitsMsbFirst (b ^^^ b') = List.zipWith (fun x y => x ^^ y) (bitsMsbFirst b) (bitsMsbFirst b') := by
  simp [bitsMsbFirst]

end Sys2Proof.Machine
end

