-- ==== Sys2Proof/Laws/Encoding.lean ====
section
/-!
SUPPORT. The fields of a request word and of a Command Frame (spec/30_encoding.md R60, R73), bit by bit.
-/
namespace Sys2Proof

open Machine (frameWord checksumByte)

/-! ## Request words -/

theorem reqWord_getLsbD (op : Byte) (a b : Word) (i : Nat) : (reqWord op a b).getLsbD i =
    if i < 32 then b.getLsbD i else if i < 64 then a.getLsbD (i - 32) else op.getLsbD (i - 64) := by
  have h1 : (reqWord op a b).getLsbD i = if i < 32 then b.getLsbD i else (op ++ a).getLsbD (i - 32) :=
    BitVec.getLsbD_append
  have h2 : (op ++ a).getLsbD (i - 32) =
      if i - 32 < 32 then a.getLsbD (i - 32) else op.getLsbD (i - 32 - 32) := BitVec.getLsbD_append
  rw [h1, h2]
  simp only [Nat.sub_sub]
  split_ifs <;> first | rfl | omega

@[simp] theorem reqOp_reqWord (op : Byte) (a b : Word) : reqOp (reqWord op a b) = op := by
  apply BitVec.eq_of_getLsbD_eq
  intro i hi
  rw [reqOp, BitVec.getLsbD_extractLsb', reqWord_getLsbD, decide_eq_true hi, Bool.true_and, if_neg (by omega),
    if_neg (by omega), Nat.add_sub_cancel_left]

@[simp] theorem reqA_reqWord (op : Byte) (a b : Word) : reqA (reqWord op a b) = a := by
  apply BitVec.eq_of_getLsbD_eq
  intro i hi
  rw [reqA, BitVec.getLsbD_extractLsb', reqWord_getLsbD, decide_eq_true hi, Bool.true_and, if_neg (by omega),
    if_pos (by omega), Nat.add_sub_cancel_left]

@[simp] theorem reqB_reqWord (op : Byte) (a b : Word) : reqB (reqWord op a b) = b := by
  apply BitVec.eq_of_getLsbD_eq
  intro i hi
  rw [reqB, BitVec.getLsbD_extractLsb', reqWord_getLsbD, decide_eq_true hi, Bool.true_and, if_pos (by omega),
    Nat.zero_add]

/-- A request word is its three fields. -/
theorem reqWord_fields (w : ReqWord) : reqWord (reqOp w) (reqA w) (reqB w) = w := by
  apply BitVec.eq_of_getLsbD_eq
  intro i hi
  simp only [reqWord_getLsbD, reqOp, reqA, reqB, BitVec.getLsbD_extractLsb']
  split_ifs <;> rw [decide_eq_true (by omega), Bool.true_and] <;> congr 1 <;> omega

/-! ## Operand `b` of `SEND_COMMAND` -/

theorem sendCommandB_getLsbD (index : BitVec 6) (ext keep : Bool) (i : Nat) :
    (sendCommandB index ext keep).getLsbD i =
      if i < 6 then index.getLsbD i else if i = 8 then ext else if i = 9 then keep else false := by
  have h1 : (bit keep ++ bit ext ++ 0#2 ++ index : BitVec (1 + 1 + 2 + 6)).getLsbD i =
      if i < 6 then index.getLsbD i else (bit keep ++ bit ext ++ 0#2).getLsbD (i - 6) :=
    BitVec.getLsbD_append
  have h2 : (bit keep ++ bit ext ++ 0#2).getLsbD (i - 6) =
      if i - 6 < 2 then (0#2).getLsbD (i - 6) else (bit keep ++ bit ext).getLsbD (i - 6 - 2) :=
    BitVec.getLsbD_append
  have h3 : (bit keep ++ bit ext).getLsbD (i - 6 - 2) =
      if i - 6 - 2 < 1 then (bit ext).getLsbD (i - 6 - 2) else (bit keep).getLsbD (i - 6 - 2 - 1) :=
    BitVec.getLsbD_append
  rw [sendCommandB, BitVec.getLsbD_setWidth, h1, h2, h3]
  simp only [bit, BitVec.getLsbD_zero, BitVec.getLsbD_ofBool]
  by_cases h6 : i < 6
  · simp [h6, show i < 32 by omega]
  by_cases hi : i < 10
  · interval_cases i <;> simp_all
  · simp only [h6, if_false, show ¬ i - 6 < 2 by omega, show ¬ i - 6 - 2 < 1 by omega, show ¬ i = 8 by omega,
      show ¬ i = 9 by omega, show ¬ i - 6 - 2 - 1 = 0 by omega, decide_false, Bool.false_and, Bool.and_false]

/-! ## Frames -/

theorem frameWord_getLsbD (index : BitVec 6) (arg : Word) (crc : BitVec 7) (i : Nat) :
    (frameWord index arg crc).getLsbD i =
      if i = 0 then true
      else if i < 8 then crc.getLsbD (i - 1)
      else if i < 40 then arg.getLsbD (i - 8)
      else if i < 46 then index.getLsbD (i - 40)
      else decide (i = 46) := by
  have h1 : (frameWord index arg crc).getLsbD i =
      if i < 8 then (checksumByte crc).getLsbD i else (0b01#2 ++ index ++ arg).getLsbD (i - 8) :=
    BitVec.getLsbD_append
  have h2 : (checksumByte crc).getLsbD i = if i < 1 then (1#1).getLsbD i else crc.getLsbD (i - 1) :=
    BitVec.getLsbD_append
  have h3 : (0b01#2 ++ index ++ arg).getLsbD (i - 8) =
      if i - 8 < 32 then arg.getLsbD (i - 8) else (0b01#2 ++ index).getLsbD (i - 8 - 32) :=
    BitVec.getLsbD_append
  have h4 : (0b01#2 ++ index).getLsbD (i - 8 - 32) =
      if i - 8 - 32 < 6 then index.getLsbD (i - 8 - 32) else (0b01#2).getLsbD (i - 8 - 32 - 6) :=
    BitVec.getLsbD_append
  have h5 : ∀ j, (0b01#2 : BitVec 2).getLsbD j = decide (j = 0) := by
    intro j
    by_cases hj : j < 2
    · interval_cases j <;> decide
    · rw [BitVec.getLsbD_of_ge _ _ (by omega), decide_eq_false (by omega)]
  rw [h1, h2, h3, h4, h5]
  simp only [Nat.sub_sub]
  by_cases h0 : i = 0
  · subst h0; simp
  rw [if_neg h0]
  split_ifs <;> first | rfl | omega | (congr 1; simp only [eq_iff_iff]; omega)

/-- The fields of a frame word. -/
theorem frameWord_fields (index : BitVec 6) (arg : Word) (crc : BitVec 7) :
    (frameWord index arg crc).extractLsb' 46 2 = 0b01#2 ∧ (frameWord index arg crc).getLsbD 0 = true ∧
      (frameWord index arg crc).extractLsb' 40 6 = index ∧ (frameWord index arg crc).extractLsb' 8 32 = arg ∧
      (frameWord index arg crc).extractLsb' 1 7 = crc := by
  refine ⟨?_, by rw [frameWord_getLsbD]; rfl, ?_, ?_, ?_⟩ <;> apply BitVec.eq_of_getLsbD_eq <;> intro i hi <;>
    rw [BitVec.getLsbD_extractLsb', frameWord_getLsbD, decide_eq_true hi, Bool.true_and]
  · obtain rfl | rfl : i = 0 ∨ i = 1 := by omega
    all_goals rfl
  · rw [if_neg (by omega), if_neg (by omega), if_neg (by omega), if_pos (by omega), Nat.add_sub_cancel_left]
  · rw [if_neg (by omega), if_neg (by omega), if_pos (by omega), Nat.add_sub_cancel_left]
  · rw [if_neg (by omega), if_pos (by omega), Nat.add_sub_cancel_left]

/-- A word with the fixed bits of a frame is its fields. -/
theorem frameWord_of_fields {f : BitVec 48} (hstart : f.extractLsb' 46 2 = 0b01#2) (hend : f.getLsbD 0 = true) :
    frameWord (f.extractLsb' 40 6) (f.extractLsb' 8 32) (f.extractLsb' 1 7) = f := by
  apply BitVec.eq_of_getLsbD_eq
  intro i hi
  have h46 : f.getLsbD 46 = true := by have := congrArg (·.getLsbD 0) hstart; simpa using this
  have h47 : f.getLsbD 47 = false := by have := congrArg (·.getLsbD 1) hstart; simpa using this
  rw [frameWord_getLsbD]
  simp only [BitVec.getLsbD_extractLsb']
  split_ifs with h0 h1 h2 h3
  · subst h0; exact hend.symm
  · rw [decide_eq_true (by omega), Bool.true_and]; congr 1; omega
  · rw [decide_eq_true (by omega), Bool.true_and]; congr 1; omega
  · rw [decide_eq_true (by omega), Bool.true_and]; congr 1; omega
  · obtain rfl | rfl : i = 46 ∨ i = 47 := by omega
    · exact h46.symm
    · exact h47.symm

/-- A frame of one of the twelve commands decodes by its index. -/
theorem decodeFrame_frameWord (c : Config) (index : BitVec 6) (arg : Word) (crc : BitVec 7) :
    decodeFrame c (frameWord index arg crc) = commandOf c index arg crc := by
  obtain ⟨h1, h2, h3, h4, h5⟩ := frameWord_fields index arg crc
  rw [decodeFrame, if_pos ⟨h1, h2⟩, h3, h4, h5]

end Sys2Proof
end

