-- ==== Sys2Proof/Laws/Flow.lean ====
section
/-!
SUPPORT. A flow meets a pair of conditions: one on where it goes on, one on where it stops.
-/
namespace Sys2Proof.Machine

/-- Where the flow goes on `Q` holds of its value and state; where it stops `S` holds of its state. -/
def Flow.Meets {α : Type} (Q : α → State → Prop) (S : State → Prop) : Flow α → Prop
  | .go a s => Q a s
  | .stop s => S s

theorem Flow.Meets.andThen {α β : Type} {Q : α → State → Prop} {Q' : β → State → Prop} {S : State → Prop}
    {f : Flow α} {k : α → State → Flow β} (hf : f.Meets Q S) (hk : ∀ a t, Q a t → (k a t).Meets Q' S) :
    (f.andThen k).Meets Q' S := by
  cases f with
  | go a t => exact hk a t hf
  | stop t => exact hf

/-- The same, the stops of the first part being read as stops of the whole. -/
theorem Flow.Meets.andThen_stop {α β : Type} {Q : α → State → Prop} {Q' : β → State → Prop} {S S' : State → Prop}
    {f : Flow α} {k : α → State → Flow β} (hf : f.Meets Q S) (hS : ∀ t, S t → S' t)
    (hk : ∀ a t, Q a t → (k a t).Meets Q' S') : (f.andThen k).Meets Q' S' := by
  cases f with
  | go a t => exact hk a t hf
  | stop t => exact hS t hf

theorem Flow.Meets.mono {α : Type} {Q Q' : α → State → Prop} {S S' : State → Prop} {f : Flow α} (hf : f.Meets Q S)
    (hQ : ∀ a t, Q a t → Q' a t) (hS : ∀ t, S t → S' t) : f.Meets Q' S' := by
  cases f with
  | go a t => exact hQ a t hf
  | stop t => exact hS t hf

theorem Flow.Meets.of_stop {α : Type} {S : State → Prop} {f : Flow α} (hf : f.Meets (fun _ _ => False) S) :
    S f.state := by
  cases f with
  | go a t => exact hf.elim
  | stop t => exact hf

end Sys2Proof.Machine
end

