-- ==== Sys2Proof/Laws/Port.lean ====
section
/-!
SUPPORT. The port only moves on (spec/20_memory.md R44, R46): across every exchange, hence across every operation.
-/
namespace Sys2Proof.Machine

@[simp] theorem exchangesIn_append (a b : List BusEvent) : exchangesIn (a ++ b) = exchangesIn a + exchangesIn b := by
  simp [exchangesIn]

theorem Port.MovesOn.refl (p : Port) : Port.MovesOn p p :=
  ⟨rfl, Nat.le_refl _, by simp, Nat.le_refl _, ⟨[], rfl, by simp [exchangesIn]⟩, fun _ => by simp⟩

theorem Port.MovesOn.trans {p q r : Port} (h : Port.MovesOn p q) (h' : Port.MovesOn q r) : Port.MovesOn p r := by
  have hseq := h.seq
  have hseq' := h'.seq
  refine ⟨h'.tail.trans h.tail, by omega, ?_, h.tick.trans h'.tick, ?_, fun hf => ?_⟩
  · rw [h'.script, h.script, List.drop_drop]; congr 1; omega
  · obtain ⟨e, he, hx⟩ := h.hist
    obtain ⟨e', he', hx'⟩ := h'.hist
    exact ⟨e' ++ e, by simp [he', he], by rw [exchangesIn_append]; omega⟩
  · have h1 := h.progress hf
    have h2 := h'.progress (by rw [h.tail, hf])
    rw [h.script, List.length_drop] at h2
    omega

theorem xchg_movesOn (tx : Byte) (s : State) : Port.MovesOn s.port (xchg tx s).2.port := by
  refine ⟨rfl, by simp [xchg, Port.afterXchg], by simp [xchg, Port.afterXchg], by simp [xchg, Port.afterXchg],
    ⟨[.x s.linkSel s.linkClk tx s.port.answer.rx], rfl, by simp [xchg, Port.afterXchg, exchangesIn, BusEvent.isExchange]⟩, fun hf => ?_⟩
  simp only [xchg, Port.afterXchg]
  cases hs : s.port.script with
  | nil => simp [Port.answer, hs, hf]
  | cons a rest => simp

/-- The relation "the port moves on" holds across every update of the block. -/
theorem movesOn_exchange : ExchangeRel fun s t => Port.MovesOn s.port t.port :=
  ⟨fun s => .refl s.port, .trans, fun tx s => xchg_movesOn tx s⟩

theorem select_movesOn (on : Bool) (s : State) : Port.MovesOn s.port (select on s).port :=
  ⟨rfl, Nat.le_refl _, by simp [select], Nat.le_refl _, ⟨[.sel on], rfl, by simp [select, exchangesIn, BusEvent.isExchange]⟩,
    fun _ => by simp [select]⟩

theorem movesOn_command : CommandRel fun s t => Port.MovesOn s.port t.port where
  toExchangeRel := movesOn_exchange
  select := select_movesOn
  settled s := .refl s.port
  busyLine s := .refl s.port
  idleLine s := .refl s.port
  timedOut s := .refl s.port
  answered s := .refl s.port
  build _ _ s := .refl s.port
  count _ s := .refl s.port
  token _ s := .refl s.port

theorem movesOn_init : InitRel fun s t => Port.MovesOn s.port t.port :=
  .of_command movesOn_command (fun _ s _ => .refl s.port) (fun _ s => .refl s.port) (fun _ s => .refl s.port)
    (fun _ s => .refl s.port) (fun s => .refl s.port) fun _ s => .refl s.port

/-- Across the whole of `INIT` the port only moves on. -/
theorem initRun_movesOn (s : State) : Port.MovesOn s.port (initRun s).state.port :=
  (powerUp_rel movesOn_command (initStart s)).trans (initRun_rel movesOn_init (fun s => .refl s.port) s)

theorem movesOn_block : BlockRel (fun _ => True) fun s t => Port.MovesOn s.port t.port where
  toCommandRel := movesOn_command
  timer _ s := .refl s.port
  hang s := .refl s.port
  store _ _ s _ := .refl s.port
  crc _ s := .refl s.port

theorem movesOn_single : SingleRel (fun _ => True) fun s t => Port.MovesOn s.port t.port where
  toBlockRel := movesOn_block
  complete _ s := .refl s.port
  code _ s := .refl s.port

theorem movesOn_transfer : TransferRel (fun _ => True) fun s t => Port.MovesOn s.port t.port where
  toSingleRel := movesOn_single
  block _ s := .refl s.port
  doneCount _ s := .refl s.port

theorem sendCommand_movesOn (index : BitVec 6) (arg : Word) (ext resel : Bool) (s : State) :
    Port.MovesOn s.port (sendCommand index arg ext resel s).2.port :=
  sendCommand_rel movesOn_command index arg ext resel s

/-- A byte is sent, not a `Select` call made. -/
def BusOut.isByte : BusOut → Bool
  | .sel _ => false
  | .tx _ => true

@[simp] theorem countP_idleOut (n : Nat) : (idleOut n).countP BusOut.isByte = n := by
  simp [idleOut, List.countP_replicate, BusOut.isByte]
@[simp] theorem countP_frameOut (f : FrameWord) : (frameOut f).countP BusOut.isByte = 6 := rfl

/-- Exchanges and sent bytes are the same count. -/
theorem exchangesIn_outputs (evs : List BusEvent) : exchangesIn evs = (outputs evs).countP BusOut.isByte := by
  simp only [exchangesIn, outputs, List.countP_map, List.countP_reverse]
  congr 1
  funext ev
  cases ev <;> rfl

/-- What was put on the bus says how many exchanges were made. -/
theorem Port.MovesOn.seq_of_sent {p q : Port} {os : List BusOut} (h : Port.MovesOn p q) (hs : Port.Sent os p q) :
    q.seq - p.seq = os.countP BusOut.isByte := by
  obtain ⟨e, he, hx⟩ := h.hist
  obtain ⟨e', he', ho⟩ := hs
  obtain rfl : e = e' := List.append_cancel_right (he.symm.trans he')
  rw [← hx, ← ho, exchangesIn_outputs]

end Sys2Proof.Machine
end

