-- ==== Sys2Proof/Laws/Wait.lean ====
section
/-!
SUPPORT. Everything a tick-bounded wait can do (spec/43_transfer.md R181, R182): for every state, and for a state whose
script makes it succeed, run out of budget, or never end.
-/
namespace Sys2Proof.Machine

/-! ## For every state -/

/-- While answers stand in the script a loop may go on. -/
theorem neverEnds_script {budget : Nat} {s : State} (h : s.port.script ≠ []) : neverEnds budget s = false := by
  simp [neverEnds, h]

/-- With a tick source that goes on a loop may go on. -/
theorem neverEnds_free {budget : Nat} {s : State} (h : s.port.tail = .free) : neverEnds budget s = false := by
  simp [neverEnds, h]

/-- A loop that has come to its end on a tick source that stands still. -/
theorem neverEnds_stalled {budget : Nat} {s : State} (h : s.port.tail = .stalled) (hs : s.port.script = [])
    (hb : elapsed s.t0 s < budget) : neverEnds budget s = true := by
  simp [neverEnds, h, hs, hb]

theorem neverEnds_tail {budget : Nat} {s : State} (h : neverEnds budget s = true) : s.port.tail ≠ .free := fun hf => by
  rw [neverEnds_free hf] at h; simp at h

/-- A wait leaves everything but the start tick and the port; it polls with the idle byte. -/
theorem pollUntil_sent (hit : Byte → Bool) (budget left : Nat) (s : State) :
    ∃ polls, Port.Sent (idleOut polls) s.port (pollUntil hit budget left s).2.port := by
  induction left generalizing s with
  | zero => exact ⟨0, .refl _⟩
  | succ left ih =>
    rw [pollUntil]
    have hx := xchg_sent Config.idleByte s
    split_ifs
    · exact ⟨0, .refl _⟩
    dsimp only
    split_ifs
    · exact ⟨1, hx⟩
    · exact ⟨1, hx⟩
    · obtain ⟨polls, hp⟩ := ih (xchg Config.idleByte s).2
      exact ⟨1 + polls, by rw [idleOut_add]; exact hx.trans hp⟩

/-- With a tick source that goes on (R44) a wait ends within `pollBound` polls. -/
theorem pollUntil_ends {hit : Byte → Bool} {budget left : Nat} {s : State} (htail : s.port.tail = .free)
    (ht0 : s.t0 ≤ s.port.tick) (hleft : s.port.script.length + (budget - elapsed s.t0 s) < left) :
    (pollUntil hit budget left s).1 ≠ .stalled := by
  induction left generalizing s with
  | zero => omega
  | succ left ih =>
    rw [pollUntil, neverEnds_free htail, if_neg Bool.false_ne_true]
    dsimp only
    split_ifs with h1 h2
    · simp
    · simp
    · have htick : (xchg Config.idleByte s).2.port.tick = s.port.tick + s.port.answer.ticks := rfl
      have hscript : (xchg Config.idleByte s).2.port.script = s.port.script.tail := rfl
      refine ih (s := (xchg Config.idleByte s).2) htail ?_ ?_
      · rw [xchg_t0, htick]; omega
      · simp only [elapsed, xchg_t0, htick, hscript] at h2 hleft ⊢
        cases hs : s.port.script with
        | cons a rest => simp only [hs, List.length_cons, List.tail_cons] at hleft ⊢; omega
        | nil =>
          have ha : 1 ≤ s.port.answer.ticks := by simp [Port.answer, hs, htail]
          simp only [hs, List.length_nil, List.tail_nil] at hleft ⊢
          omega

/-- The bound on the polls is no behaviour: above the answers still in the script and the ticks still in the budget, one
more makes no difference. -/
theorem pollUntil_bound {hit : Byte → Bool} {budget left : Nat} {s : State} (ht0 : s.t0 ≤ s.port.tick)
    (hleft : s.port.script.length + (budget - elapsed s.t0 s) < left) :
    pollUntil hit budget left s = pollUntil hit budget (left + 1) s := by
  induction left generalizing s with
  | zero => omega
  | succ left ih =>
    rw [pollUntil, pollUntil]
    split_ifs with hnever
    · rfl
    dsimp only
    split_ifs with h1 h2
    · rfl
    · rfl
    have htick : (xchg Config.idleByte s).2.port.tick = s.port.tick + s.port.answer.ticks := rfl
    have hscript : (xchg Config.idleByte s).2.port.script = s.port.script.tail := rfl
    refine ih (s := (xchg Config.idleByte s).2) (by rw [xchg_t0, htick]; omega) ?_
    simp only [elapsed, xchg_t0, htick, hscript] at h2 hleft ⊢
    cases hs : s.port.script with
    | cons a rest => simp only [hs, List.length_cons, List.tail_cons] at hleft ⊢; omega
    | nil =>
      cases htail : s.port.tail with
      | free =>
        have ha : 1 ≤ s.port.answer.ticks := by simp [Port.answer, hs, htail]
        simp only [hs, List.length_nil, List.tail_nil] at hleft ⊢
        omega
      | stalled => exact absurd (neverEnds_stalled htail hs (by simp only [elapsed]; omega)) hnever

/-- Everything a wait can do. -/
theorem waitFor_cases (hit : Byte → Bool) (budget : Nat) (s : State) :
    ∃ polls port, Port.Sent (idleOut polls) s.port port ∧
      ((∃ ok, waitFor hit budget s = .go ok { s with t0 := s.port.tick, port := port }) ∨
        (waitFor hit budget s = .stop (hang { s with t0 := s.port.tick, port := port }) ∧ s.port.tail ≠ .free)) := by
  obtain ⟨polls, hp⟩ := pollUntil_sent hit budget (pollBound budget (setT0 (now s) s)) (setT0 (now s) s)
  have he := pollUntil_eq hit budget (pollBound budget (setT0 (now s) s)) (setT0 (now s) s)
  have hend : s.port.tail = .free → (pollUntil hit budget (pollBound budget (setT0 (now s) s)) (setT0 (now s) s)).1 ≠
      .stalled := fun h => pollUntil_ends h (Nat.le_refl _) (by
    simp only [pollBound, setT0_port, elapsed, setT0_t0, now]; omega)
  unfold waitFor
  dsimp only
  revert hp he hend
  generalize pollUntil hit budget (pollBound budget (setT0 (now s) s)) (setT0 (now s) s) = p
  obtain ⟨r, u⟩ := p
  intro hp he hend
  dsimp only at he hp hend ⊢
  generalize u.port = port at he hp
  subst he
  refine ⟨polls, port, hp, ?_⟩
  cases r
  · exact .inl ⟨true, rfl⟩
  · exact .inl ⟨false, rfl⟩
  · exact .inr ⟨rfl, fun h => hend h rfl⟩

/-! ## Against a script -/

theorem pollUntil_hit {hit : Byte → Bool} {budget left : Nat} {s : State} {gap : List Answer} {a : Answer}
    {rest : List Answer} (h : s.port.script = gap ++ a :: rest) (hgap : ∀ b ∈ gap, hit b.rx = false)
    (hticks : gap = [] ∨ s.port.tick + ticksOf gap < s.t0 + budget) (hhit : hit a.rx = true)
    (ht0 : s.t0 ≤ s.port.tick) (hleft : gap.length < left) :
    ∃ port, pollUntil hit budget left s = (.hit, { s with port := port }) ∧
      Port.Used (gap ++ [a]) rest (idleOut (gap.length + 1)) s.port port := by
  induction gap generalizing left s with
  | nil =>
    obtain _ | left := left
    · simp at hleft
    rw [pollUntil, neverEnds_script (by simp [h]), if_neg Bool.false_ne_true]
    refine ⟨(xchg Config.idleByte s).2.port, ?_, xchg_used _ h⟩
    dsimp only
    rw [xchg_rx_script _ h, if_pos hhit]; rfl
  | cons b gap ih =>
    obtain _ | left := left
    · simp at hleft
    rw [pollUntil, neverEnds_script (by simp [h]), if_neg Bool.false_ne_true]
    dsimp only
    have hx := xchg_used Config.idleByte h
    have htick : (xchg Config.idleByte s).2.port.tick = s.port.tick + b.ticks := by
      rw [hx.tick, ticksOf_cons, ticksOf_nil, Nat.add_zero]
    have hlt : s.port.tick + ticksOf (b :: gap) < s.t0 + budget := by simpa using hticks
    rw [ticksOf_cons] at hlt
    obtain ⟨port, he, hu⟩ := ih (left := left) (s := (xchg Config.idleByte s).2) hx.after
      (fun c hc => hgap c (List.mem_cons_of_mem _ hc)) (.inr (by rw [htick, xchg_t0]; omega))
      (by rw [htick, xchg_t0]; omega) (by simpa using hleft)
    refine ⟨port, ?_, Port.Used.trans (l := [b]) (os := [.tx Config.idleByte]) (l' := gap ++ [a]) (by simpa using hx) hu⟩
    have hb := hgap b (List.mem_cons_self ..)
    rw [← xchg_rx_script Config.idleByte h] at hb
    rw [hb, if_neg Bool.false_ne_true, if_neg (by simp only [elapsed, xchg_t0, htick]; omega), he]
    rfl

theorem pollUntil_expired {hit : Byte → Bool} {budget left : Nat} {s : State} {gap : List Answer} {a : Answer}
    {rest : List Answer} (h : s.port.script = gap ++ a :: rest) (hgap : ∀ b ∈ gap, hit b.rx = false)
    (hticks : gap = [] ∨ s.port.tick + ticksOf gap < s.t0 + budget) (hmiss : hit a.rx = false)
    (hover : s.t0 + budget ≤ s.port.tick + (ticksOf gap + a.ticks)) (ht0 : s.t0 ≤ s.port.tick)
    (hleft : gap.length < left) :
    ∃ port, pollUntil hit budget left s = (.expired, { s with port := port }) ∧
      Port.Used (gap ++ [a]) rest (idleOut (gap.length + 1)) s.port port := by
  induction gap generalizing left s with
  | nil =>
    obtain _ | left := left
    · simp at hleft
    rw [pollUntil, neverEnds_script (by simp [h]), if_neg Bool.false_ne_true]
    dsimp only
    have hx := xchg_used Config.idleByte h
    have htick : (xchg Config.idleByte s).2.port.tick = s.port.tick + a.ticks := by
      rw [hx.tick, ticksOf_cons, ticksOf_nil, Nat.add_zero]
    refine ⟨(xchg Config.idleByte s).2.port, ?_, hx⟩
    rw [xchg_rx_script _ h, hmiss, if_neg Bool.false_ne_true,
      if_pos (by simp only [elapsed, xchg_t0, htick, ticksOf_nil] at hover ⊢; omega)]
    rfl
  | cons b gap ih =>
    obtain _ | left := left
    · simp at hleft
    rw [pollUntil, neverEnds_script (by simp [h]), if_neg Bool.false_ne_true]
    dsimp only
    have hx := xchg_used Config.idleByte h
    have htick : (xchg Config.idleByte s).2.port.tick = s.port.tick + b.ticks := by
      rw [hx.tick, ticksOf_cons, ticksOf_nil, Nat.add_zero]
    have hlt : s.port.tick + ticksOf (b :: gap) < s.t0 + budget := by simpa using hticks
    rw [ticksOf_cons] at hlt hover
    obtain ⟨port, he, hu⟩ := ih (left := left) (s := (xchg Config.idleByte s).2) hx.after
      (fun c hc => hgap c (List.mem_cons_of_mem _ hc)) (.inr (by rw [htick, xchg_t0]; omega))
      (by rw [htick, xchg_t0]; omega) (by rw [htick, xchg_t0]; omega) (by simpa using hleft)
    refine ⟨port, ?_, Port.Used.trans (l := [b]) (os := [.tx Config.idleByte]) (l' := gap ++ [a]) (by simpa using hx) hu⟩
    have hb := hgap b (List.mem_cons_self ..)
    rw [← xchg_rx_script Config.idleByte h] at hb
    rw [hb, if_neg Bool.false_ne_true, if_neg (by simp only [elapsed, xchg_t0, htick]; omega), he]
    rfl

/-- A wait that succeeds (R182). -/
theorem waitFor_hit {hit : Byte → Bool} {budget : Nat} {s : State} {gap : List Answer} {a : Answer}
    {rest : List Answer} (h : s.port.script = gap ++ a :: rest) (hgap : Gap hit budget gap) (hhit : hit a.rx = true) :
    ∃ port, waitFor hit budget s = .go true { s with t0 := s.port.tick, port := port } ∧
      Port.Used (gap ++ [a]) rest (idleOut (gap.length + 1)) s.port port := by
  obtain ⟨port, he, hu⟩ := pollUntil_hit (left := pollBound budget (setT0 (now s) s)) (budget := budget)
    (s := setT0 (now s) s) h hgap.1
    (hgap.2.imp id fun h => by simp only [setT0_port, setT0_t0, now]; omega) hhit (Nat.le_refl _)
    (by simp only [pollBound, setT0_port, h, List.length_append, List.length_cons]; omega)
  exact ⟨port, by unfold waitFor; dsimp only; rw [he]; rfl, hu⟩

/-- A wait whose budget runs out (R182). -/
theorem waitFor_expired {hit : Byte → Bool} {budget : Nat} {s : State} {gap rest : List Answer}
    (h : s.port.script = gap ++ rest) (hgap : Expires hit budget gap) :
    ∃ port, waitFor hit budget s = .go false { s with t0 := s.port.tick, port := port } ∧
      Port.Used gap rest (idleOut gap.length) s.port port := by
  obtain ⟨hmiss, hne, hover, hdrop⟩ := hgap
  obtain ⟨init, a, rfl⟩ : ∃ init a, gap = init ++ [a] := ⟨gap.dropLast, gap.getLast hne, (List.dropLast_concat_getLast hne).symm⟩
  simp only [List.dropLast_concat, ticksOf_append, ticksOf_cons, ticksOf_nil, Nat.add_zero] at hover hdrop
  obtain ⟨port, he, hu⟩ := pollUntil_expired (hit := hit) (left := pollBound budget (setT0 (now s) s))
    (budget := budget) (s := setT0 (now s) s) (gap := init) (a := a) (rest := rest) (by simpa using h)
    (fun b hb => hmiss b (List.mem_append_left _ hb))
    (hdrop.imp id fun h => by simp only [setT0_port, setT0_t0, now]; omega) (hmiss a (by simp))
    (by simp only [setT0_port, setT0_t0, now]; omega) (Nat.le_refl _)
    (by simp only [pollBound, setT0_port, h, List.length_append, List.length_cons]; omega)
  refine ⟨port, by unfold waitFor; dsimp only; rw [he]; rfl, ?_⟩
  simpa using hu

theorem pollUntil_stalls {hit : Byte → Bool} {budget left : Nat} {s : State} (htail : s.port.tail = .stalled)
    (hscript : ∀ a ∈ s.port.script, hit a.rx = false)
    (hticks : s.port.tick + ticksOf s.port.script < s.t0 + budget) (ht0 : s.t0 ≤ s.port.tick) :
    (pollUntil hit budget left s).1 = .stalled := by
  induction left generalizing s with
  | zero => rfl
  | succ left ih =>
    cases hs : s.port.script with
    | cons b rest =>
      rw [pollUntil, neverEnds_script (by simp [hs]), if_neg Bool.false_ne_true]
      dsimp only
      have hx := xchg_used Config.idleByte hs
      have htick : (xchg Config.idleByte s).2.port.tick = s.port.tick + b.ticks := by
        rw [hx.tick, ticksOf_cons, ticksOf_nil, Nat.add_zero]
      rw [hs, ticksOf_cons] at hticks
      have hb := hscript b (by simp [hs])
      rw [← xchg_rx_script Config.idleByte hs] at hb
      rw [hb, if_neg Bool.false_ne_true, if_neg (by simp only [elapsed, xchg_t0, htick]; omega)]
      refine ih (s := (xchg Config.idleByte s).2) htail (fun a ha => ?_) ?_ ?_
      · rw [hx.after] at ha; exact hscript a (by simp [hs, ha])
      · rw [hx.after, htick, xchg_t0]; omega
      · rw [htick, xchg_t0]; omega
    | nil =>
      rw [hs, ticksOf_nil] at hticks
      rw [pollUntil, neverEnds_stalled htail hs (by simp only [elapsed]; omega), if_pos rfl]

/-- A wait on a tick source that stands still never ends (R258). -/
theorem waitFor_stalls {hit : Byte → Bool} {budget : Nat} {s : State} (htail : s.port.tail = .stalled)
    (hscript : ∀ a ∈ s.port.script, hit a.rx = false) (hticks : ticksOf s.port.script < budget) :
    ∃ polls port, waitFor hit budget s = .stop (hang { s with t0 := s.port.tick, port := port }) ∧
      Port.Sent (idleOut polls) s.port port := by
  have h1 := pollUntil_stalls (hit := hit) (budget := budget) (left := pollBound budget (setT0 (now s) s))
    (s := setT0 (now s) s) htail hscript (by simp only [setT0_port, setT0_t0, now]; omega)
    (Nat.le_refl _)
  have he := pollUntil_eq hit budget (pollBound budget (setT0 (now s) s)) (setT0 (now s) s)
  obtain ⟨polls, hp⟩ := pollUntil_sent hit budget (pollBound budget (setT0 (now s) s)) (setT0 (now s) s)
  unfold waitFor
  dsimp only
  revert h1 he hp
  generalize pollUntil hit budget (pollBound budget (setT0 (now s) s)) (setT0 (now s) s) = p
  obtain ⟨r, u⟩ := p
  intro h1 he hp
  dsimp only at h1 he hp ⊢
  subst h1
  generalize u.port = port at he hp
  subst he
  exact ⟨polls, port, rfl, hp⟩

end Sys2Proof.Machine
end

