-- ==== Sys2Proof/Laws/Init.lean ====
section
/-!
SUPPORT. How `INIT` can end (spec/42_init.md R147 to R152): it succeeds, it fails, or, with a tick source that stands
still, it never ends.
-/
namespace Sys2Proof.Machine

/-- What holds while `INIT` runs (R151 (a)): the identity is unknown and the clock tier slow. -/
structure Mid (c : Config) (z : Bool) (s : State) : Prop where
  cfg : s.cfg = c
  unresolved : s.idGen = .unknown
  byteMode : s.idAmode = .byte
  noCapacity : s.idCap = 0
  clk : s.linkClk = .slow
  going : s.stalled = z

/-- While `INIT` runs, after an answered command. -/
structure Answered (c : Config) (z : Bool) (s : State) : Prop extends Mid c z s where
  settled : s.settle = false
  ready : s.linkReady = true
  noTimeout : s.lastTimeout = false

/-- `INIT` has ended and did not hang. -/
def Ended (c : Config) (z : Bool) (t : State) : Prop := InitEnded c t ∧ t.stalled = z

/-- `INIT` has ended, or never ends on a tick source that stands still. -/
def InitStop (c : Config) (z : Bool) (t : State) : Prop :=
  Ended c z t ∨ ∃ u, t = hang u ∧ u.port.tail ≠ .free ∧ Answered c z u

/-- A code other than the ones a response poll and `Classify` give is not a command's code. -/
theorem command_code (b : Bool) (status : Byte) :
    (if b then classify status else Code.noResponse) ∈
      [Code.ok, .noResponse, .illegalCommand, .crcError, .addressError] := by
  cases b
  · simp
  · simp only [classify, if_true]; split_ifs <;> simp

/-- One command of `INIT`: if it was answered the block is `Answered`; if its code is not `Ok`, `Fail` with that code
is an ending. -/
theorem command_mid {c : Config} {z : Bool} {s : State} (hs : Mid c z s) (index : BitVec 6) (arg : Word) (ext : Bool) :
    let p := sendCommand index arg ext true s
    (p.1.code = .noResponse ∨ Answered c z p.2) ∧ (p.1.code ≠ .ok → Ended c z (fail p.1.code p.2)) ∧
      p.2.pgen = s.pgen ∧ p.2.pam = s.pam ∧ p.2.t0 = s.t0 ∧ p.2.fsm = s.fsm := by
  obtain ⟨polls, status, e, -, -, -, h, -⟩ := sendCommand_cases index arg ext true s
  have hcode := command_code (isResponse status) status
  rw [h]
  dsimp only
  cases hr : isResponse status
  · refine ⟨.inl rfl, fun _ => ?_, rfl, rfl, rfl, rfl⟩
    exact ⟨⟨rfl, rfl, rfl, hs.noCapacity, .inr ⟨by simp [fail, finish, complete], rfl, hs.unresolved, hs.byteMode,
      hs.clk, rfl, rfl⟩⟩, hs.going⟩
  · rw [hr] at hcode
    simp only [if_true] at hcode ⊢
    have hno : classify status ≠ .noResponse := by simp only [classify]; split_ifs <;> simp
    refine ⟨.inr ⟨⟨hs.cfg, hs.unresolved, hs.byteMode, hs.noCapacity, hs.clk, hs.going⟩, rfl, rfl, rfl⟩, fun hok => ?_,
      rfl, rfl, rfl, rfl⟩
    refine ⟨⟨rfl, rfl, rfl, hs.noCapacity, .inr ⟨?_, rfl, hs.unresolved, hs.byteMode, hs.clk, ?_, ?_⟩⟩, hs.going⟩
    · show classify status ∈ _
      simp only [List.mem_cons, List.not_mem_nil, or_false] at hcode ⊢
      tauto
    · have hbad : classify status ≠ .badResponse := by simp only [classify]; split_ifs <;> simp
      show true = decide (classify status ≠ .noResponse ∧ classify status ≠ .badResponse); simp [hno, hbad]
    · show false = decide (classify status = .noResponse); simp [hno]

/-- `INIT` ends with `Timeout` after an answered command (R225). -/
theorem Answered.timeout {c : Config} {z : Bool} {s : State} (hs : Answered c z s) : Ended c z (fail .timeout s) :=
  ⟨⟨rfl, rfl, hs.settled, hs.noCapacity, .inr ⟨by simp, rfl, hs.unresolved, hs.byteMode, hs.clk, hs.ready,
    hs.noTimeout⟩⟩, hs.going⟩

/-- `INIT` ends with `BadResponse` after an answered command (R225, log 24). -/
theorem Answered.badResponse {c : Config} {z : Bool} {s : State} (hs : Answered c z s) :
    Ended c z (failBadResponse s) :=
  ⟨⟨rfl, rfl, hs.settled, hs.noCapacity, .inr ⟨by simp [failBadResponse], rfl, hs.unresolved, hs.byteMode, hs.clk, rfl,
    hs.noTimeout⟩⟩, hs.going⟩

theorem command_ok {c : Config} {z : Bool} {s : State} (hs : Mid c z s) {index : BitVec 6} {arg : Word} {ext : Bool}
    (h : (sendCommand index arg ext true s).1.code = .ok ∨
      (sendCommand index arg ext true s).1.code = .illegalCommand) :
    Answered c z (sendCommand index arg ext true s).2 := by
  rcases (command_mid hs index arg ext).1 with h' | h'
  · rw [h'] at h; simp at h
  · exact h'

/-! ## The steps -/

theorem Answered.setFsm {c : Config} {z : Bool} {s : State} (h : Answered c z s) (f : Fsm) : Answered c z (setFsm f s) :=
  ⟨⟨h.cfg, h.unresolved, h.byteMode, h.noCapacity, h.clk, h.going⟩, h.settled, h.ready, h.noTimeout⟩
theorem Answered.setPgen {c : Config} {z : Bool} {s : State} (h : Answered c z s) (g : Gen) : Answered c z (setPgen g s) :=
  ⟨⟨h.cfg, h.unresolved, h.byteMode, h.noCapacity, h.clk, h.going⟩, h.settled, h.ready, h.noTimeout⟩

theorem resetCard_meets {c : Config} {z : Bool} {s : State} (hs : Mid c z s) :
    (resetCard s).Meets (fun _ t => Answered c z t ∧ t.pgen = s.pgen ∧ t.pam = s.pam) (InitStop c z) := by
  unfold resetCard
  obtain ⟨-, h2, h3, h4, -, -⟩ := command_mid hs s.cfg.idxReset 0 false
  have hok := fun h => command_ok (index := s.cfg.idxReset) (arg := 0) (ext := false) hs (.inl h)
  generalize sendCommand s.cfg.idxReset 0 false true s = p at *
  dsimp only
  split
  · exact .inl (h2 ‹_›)
  have ha := hok (not_not.1 ‹_›)
  split
  · exact .inl (ha.badResponse)
  · exact ⟨ha.setFsm _, h3, h4⟩

theorem probe_meets {c : Config} {z : Bool} {s : State} (hs : Mid c z s) :
    (probe s).Meets (fun _ t => Answered c z t ∧ t.pam = s.pam ∧
      ((t.pgen = .sd1 ∧ t.fsm = .opCondPoll) ∨ (t.pgen = .sd2 ∧ t.fsm = .voltageCheck))) (InitStop c z) := by
  unfold probe
  obtain ⟨-, h2, h3, h4, -, -⟩ := command_mid hs s.cfg.idxIfcond s.cfg.ifcondArg true
  have hok := fun h => command_ok (index := s.cfg.idxIfcond) (arg := s.cfg.ifcondArg) (ext := true) hs h
  generalize sendCommand s.cfg.idxIfcond s.cfg.ifcondArg true true s = p at *
  dsimp only
  split
  · exact ⟨((hok (.inr ‹_›)).setPgen _).setFsm _, h4, .inl ⟨rfl, rfl⟩⟩
  split
  · exact .inl (h2 ‹_›)
  have ha := hok (.inl (not_not.1 ‹_›))
  split
  · exact ⟨(ha.setPgen _).setFsm _, h4, .inr ⟨rfl, rfl⟩⟩
  · exact .inl (ha.badResponse)

/-- Ticks and answers left before a polling loop must have ended: it falls with every command (log 6). -/
def pollsLeft (s : State) : Nat := s.port.script.length + (s.cfg.tInit - elapsed s.t0 s)

/-- A command brings a polling loop nearer its end. -/
theorem pollsLeft_lt {s t : State} (hm : Port.MovesOn s.port t.port) (hseq : s.port.seq < t.port.seq)
    (hc : t.cfg = s.cfg) (ht0 : t.t0 = s.t0) (hle : s.t0 ≤ s.port.tick) (htail : s.port.tail = .free)
    (hbudget : ¬ t.cfg.tInit ≤ elapsed t.t0 t) : pollsLeft t < pollsLeft s := by
  have h1 := hm.progress htail
  have h2 := hm.tick
  simp only [pollsLeft, elapsed, hc, ht0, hm.script, List.length_drop] at hbudget ⊢
  omega

/-- A command makes at least the six exchanges of its frame. -/
theorem sendCommand_seq_lt (index : BitVec 6) (arg : Word) (ext resel : Bool) (s : State) :
    s.port.seq < (sendCommand index arg ext resel s).2.port.seq := by
  obtain ⟨polls, status, e, -, -, -, -, h⟩ := sendCommand_cases index arg ext resel s
  have hm := sendCommand_movesOn index arg ext resel s
  have hq := hm.seq_of_sent h
  simp only [commandHead, List.countP_append, countP_frameOut] at hq
  omega

/-- The tail condition a polling loop must end under. -/
def LoopFuel (left : Nat) (s : State) : Prop := s.port.tail = .free → s.t0 ≤ s.port.tick ∧ pollsLeft s < left

theorem LoopFuel.next {left : Nat} {s t : State} (h : LoopFuel (left + 1) s) (hm : Port.MovesOn s.port t.port)
    (hseq : s.port.seq < t.port.seq) (hc : t.cfg = s.cfg) (ht0 : t.t0 = s.t0)
    (hbudget : ¬ t.cfg.tInit ≤ elapsed t.t0 t) : LoopFuel left t := fun htail => by
  rw [hm.tail] at htail
  obtain ⟨hle, hlt⟩ := h htail
  have := pollsLeft_lt hm hseq hc ht0 hle htail hbudget
  exact ⟨by rw [ht0]; exact hle.trans hm.tick, by omega⟩

theorem LoopFuel.hang {c : Config} {z : Bool} {s : State} (h : LoopFuel 0 s) (hs : Answered c z s) :
    InitStop c z (hang s) := .inr ⟨s, rfl, fun htail => by have := (h htail).2; omega, hs⟩

/-- What a polling round keeps, beside the progress it makes. -/
structure RoundKept (s t : State) : Prop where
  moves : Port.MovesOn s.port t.port
  seq : s.port.seq < t.port.seq
  cfg : t.cfg = s.cfg
  t0 : t.t0 = s.t0
  pam : t.pam = s.pam

theorem RoundKept.trans {s t u : State} (h : RoundKept s t) (h' : RoundKept t u) : RoundKept s u :=
  ⟨h.moves.trans h'.moves, h.seq.trans h'.seq, h'.cfg.trans h.cfg, h'.t0.trans h.t0, h'.pam.trans h.pam⟩

/-- What a command exchange of a polling round leaves: if it was answered the block is `Answered`; if its code is not
`Ok`, `Fail` with that code is an ending; the class is as before. -/
structure RoundReply (c : Config) (z : Bool) (s : State) (p : Reply × State) : Prop extends RoundKept s p.2 where
  answered : p.1.code = .ok ∨ p.1.code = .illegalCommand → Answered c z p.2
  fails : p.1.code ≠ .ok → Ended c z (fail p.1.code p.2)
  pgen : p.2.pgen = s.pgen

theorem roundReply {c : Config} {z : Bool} {s : State} (hs : Mid c z s) (index : BitVec 6) (arg : Word) :
    RoundReply c z s (sendCommand index arg false true s) := by
  obtain ⟨-, h2, h3, h4, h5, -⟩ := command_mid hs index arg false
  exact ⟨⟨sendCommand_movesOn _ _ _ _ _, sendCommand_seq_lt _ _ _ _ _, by simp, h5, h4⟩, command_ok hs, h2, h3⟩

theorem appPair_reply {c : Config} {z : Bool} {s : State} (hs : Mid c z s) (arg : Word) :
    RoundReply c z s (appPair arg s) := by
  unfold appPair
  have hp := roundReply hs s.cfg.idxApp 0
  generalize sendCommand s.cfg.idxApp 0 false true s = p at hp ⊢
  dsimp only
  split
  · have hq := roundReply (hp.answered (.inl ‹_›)).toMid s.cfg.idxOpcondApp arg
    exact ⟨hp.toRoundKept.trans hq.toRoundKept, hq.answered, hq.fails, hq.pgen.trans hp.pgen⟩
  · exact hp

theorem roundEnd_meets {c : Config} {z : Bool} {s : State} {p : Reply × State} (hp : RoundReply c z s p) :
    (roundEnd p).Meets (fun _ t => Answered c z t ∧ RoundKept s t ∧ t.pgen = s.pgen) (InitStop c z) := by
  unfold roundEnd
  split
  · exact .inl (hp.fails ‹_›)
  · exact ⟨hp.answered (.inl (not_not.1 ‹_›)), hp.toRoundKept, hp.pgen⟩

theorem v2Round_meets {c : Config} {z : Bool} {s : State} (hs : Mid c z s) (hg : s.pgen = .sd2) :
    (v2Round s).Meets (fun _ t => Answered c z t ∧ RoundKept s t ∧ t.pgen = .sd2) (InitStop c z) := by
  rw [← hg]; exact roundEnd_meets (appPair_reply hs _)

theorem legacyRound_meets {c : Config} {z : Bool} {s : State} (hs : Mid c z s) (hg : s.pgen = .sd1 ∨ s.pgen = .mmc) :
    (legacyRound s).Meets (fun _ t => Answered c z t ∧ RoundKept s t ∧ (t.pgen = .sd1 ∨ t.pgen = .mmc))
      (InitStop c z) := by
  have hend : ∀ p, RoundReply c z s p → (roundEnd p).Meets (fun _ t => Answered c z t ∧ RoundKept s t ∧
      (t.pgen = .sd1 ∨ t.pgen = .mmc)) (InitStop c z) := fun p hp =>
    (roundEnd_meets hp).mono (fun _ t ht => ⟨ht.1, ht.2.1, by rw [ht.2.2]; exact hg⟩) fun _ h => h
  unfold legacyRound
  split
  · have hp := appPair_reply hs s.cfg.opcondArgLegacy
    generalize appPair s.cfg.opcondArgLegacy s = p at hp ⊢
    dsimp only
    split
    · exact ⟨(hp.answered (.inr ‹_›)).setPgen _, ⟨hp.moves, hp.seq, hp.cfg, hp.t0, hp.pam⟩, .inr rfl⟩
    · exact hend _ hp
  · exact hend _ (roundReply hs s.cfg.idxOpcondMmc s.cfg.opcondArgLegacy)

/-- A polling loop whose rounds keep a condition on the class. -/
theorem pollRounds_meets {c : Config} {z : Bool} {round : State → Flow Bool} {P : Gen → Prop}
    (hround : ∀ s, Mid c z s → P s.pgen →
      (round s).Meets (fun _ t => Answered c z t ∧ RoundKept s t ∧ P t.pgen) (InitStop c z))
    {left : Nat} {s : State} (hs : Answered c z s) (hg : P s.pgen) (hfuel : LoopFuel left s) :
    (pollRounds round left s).Meets (fun _ t => Answered c z t ∧ t.pam = s.pam ∧ P t.pgen) (InitStop c z) := by
  induction left generalizing s with
  | zero => exact hfuel.hang hs
  | succ left ih =>
    rw [pollRounds]
    split
    · exact .inr ⟨s, rfl, neverEnds_tail ‹_›, hs⟩
    refine (hround s hs.toMid hg).andThen fun ready t ⟨ha, hk, hg'⟩ => ?_
    split
    · exact ⟨ha, hk.pam, hg'⟩
    split
    · exact .inl ha.timeout
    · exact (ih ha hg' (hfuel.next hk.moves hk.seq hk.cfg hk.t0 ‹_›)).mono
        (fun _ u hu => ⟨hu.1, hu.2.1.trans hk.pam, hu.2.2⟩) fun _ h => h

theorem pollOpCond_meets {c : Config} {z : Bool} {s : State} (hs : Answered c z s)
    (hg : (s.pgen = .sd1 ∧ s.fsm = .opCondPoll) ∨ (s.pgen = .sd2 ∧ s.fsm = .voltageCheck)) :
    (pollOpCond s).Meets (fun _ t => Answered c z t ∧ t.pam = s.pam ∧ t.pgen ≠ .unknown) (InitStop c z) := by
  have ht0 : Answered c z (setT0 (now s) s) :=
    ⟨⟨hs.cfg, hs.unresolved, hs.byteMode, hs.noCapacity, hs.clk, hs.going⟩, hs.settled, hs.ready, hs.noTimeout⟩
  have hfuel : LoopFuel (pollBound s.cfg.tInit (setT0 (now s) s)) (setT0 (now s) s) := fun _ =>
    ⟨Nat.le_refl _, by simp only [pollsLeft, pollBound, setT0_cfg]; omega⟩
  unfold pollOpCond
  dsimp only
  split
  · rename_i hf
    obtain ⟨-, hf'⟩ | ⟨hg', -⟩ := hg
    · rw [setT0_fsm, hf'] at hf; simp at hf
    refine (pollRounds_meets (P := (· = .sd2)) (fun _ => v2Round_meets) ht0 hg' hfuel).andThen fun _ t ht => ?_
    exact ⟨ht.1.setFsm _, ht.2.1, by rw [setFsm_pgen, ht.2.2]; simp⟩
  · rename_i hf
    obtain ⟨hg', -⟩ | ⟨-, hf'⟩ := hg
    · exact (pollRounds_meets (P := fun g => g = .sd1 ∨ g = .mmc) (fun _ => legacyRound_meets) ht0 (.inl hg')
        hfuel).mono (fun _ t ht => ⟨ht.1, ht.2.1, by
        rcases ht.2.2 with h | h <;> rw [h] <;> simp⟩) fun _ h => h
    · exact absurd hf' hf

theorem readMode_meets {c : Config} {z : Bool} {s : State} (hs : Answered c z s) (hg : s.pgen ≠ .unknown) (hp : s.pam = .byte) :
    (readMode s).Meets (fun _ t => Answered c z t ∧ t.pgen ≠ .unknown ∧ (t.pam = .block → t.pgen = .sd2))
      (InitStop c z) := by
  unfold readMode
  split
  · obtain ⟨-, h2, h3, -⟩ := command_mid hs.toMid s.cfg.idxOcr 0 true
    have hok := fun h => command_ok (index := s.cfg.idxOcr) (arg := 0) (ext := true) hs.toMid h
    generalize sendCommand s.cfg.idxOcr 0 true true s = p at *
    dsimp only
    split
    · exact .inl (h2 ‹_›)
    · have ha := hok (.inl (not_not.1 ‹_›))
      exact ⟨⟨⟨ha.cfg, ha.unresolved, ha.byteMode, ha.noCapacity, ha.clk, ha.going⟩, ha.settled, ha.ready, ha.noTimeout⟩, by
        rw [setPam_pgen, h3]; exact hg, fun _ => by rw [setPam_pgen, h3]; assumption⟩
  · exact ⟨hs, hg, fun h => by rw [hp] at h; simp at h⟩

theorem fixBlockLength_meets {c : Config} {z : Bool} {s : State} (hs : Answered c z s) (hg : s.pgen ≠ .unknown)
    (hp : s.pam = .block → s.pgen = .sd2) :
    (fixBlockLength s).Meets (fun _ t => Ended c z (commit t)) (InitStop c z) := by
  unfold fixBlockLength
  obtain ⟨-, h2, h3, h4, -, -⟩ := command_mid hs.toMid s.cfg.idxBlklen 512#32 false
  have hok := fun h => command_ok (index := s.cfg.idxBlklen) (arg := 512#32) (ext := false) hs.toMid h
  obtain ⟨polls, status, e, -, he, -, h, -⟩ := sendCommand_cases s.cfg.idxBlklen 512#32 false true s
  obtain rfl := he rfl
  have hst : (sendCommand s.cfg.idxBlklen 512#32 false true s).1.status = status := by rw [h]
  have hresp : (sendCommand s.cfg.idxBlklen 512#32 false true s).2.resp = (status ++ (0 : Word) : BitVec (8 + 32)) := by
    rw [h]; rfl
  have hcrc : (sendCommand s.cfg.idxBlklen 512#32 false true s).2.crc7 =
      crc7Of c.crc7Poly c.crc7Init (frameHead c.idxBlklen 512) := by rw [h, ← hs.cfg]; rfl
  have hframe : (sendCommand s.cfg.idxBlklen 512#32 false true s).2.frame =
      builtFrame c c.idxBlklen 512 := by rw [h, ← hs.cfg]; rfl
  clear h
  generalize sendCommand s.cfg.idxBlklen 512#32 false true s = p at *
  dsimp only
  split
  · exact .inl (h2 ‹_›)
  have ha := hok (.inl (not_not.1 ‹_›))
  split
  · exact .inl (ha.badResponse)
  rename_i hz
  have hz0 : status = 0 := by rw [← hst]; exact not_not.1 hz
  refine ⟨⟨rfl, rfl, ha.settled, rfl, .inl ⟨rfl, rfl, ?_, ?_, rfl, ha.ready, ha.noTimeout, ?_, hcrc, ?_⟩⟩, ha.going⟩
  · show p.2.pgen ≠ _; rw [h3]; exact hg
  · show p.2.pam = _ → p.2.pgen = _; rw [h3, h4]; exact hp
  · show p.2.resp = 0; rw [hresp, hz0]; rfl
  · show p.2.frame = frameWord _ _ p.2.crc7; rw [hframe, hcrc]; rfl

/-- How `INIT` can end (R151, R152; R258 for the last case). -/
theorem initRun_meets (s : State) : InitStop s.cfg s.stalled (initRun s).state := by
  have hstart : Mid s.cfg s.stalled (powerUp (initStart s)) := by
    constructor <;> simp [powerUp, initStart]
  refine Flow.Meets.of_stop ((resetCard_meets hstart).andThen fun _ t1 h1 => ?_)
  refine (probe_meets h1.1.toMid).andThen fun _ t2 h2 => ?_
  refine (pollOpCond_meets h2.1 h2.2.2).andThen fun _ t3 h3 => ?_
  have hpam : t3.pam = .byte := by
    rw [h3.2.1, h2.2.1, h1.2.2]; simp [powerUp, initStart]
  refine (readMode_meets h3.1 h3.2.2 hpam).andThen fun _ t4 h4 => ?_
  exact (fixBlockLength_meets h4.1 h4.2.1 h4.2.2).andThen fun _ t5 h5 => .inl h5

end Sys2Proof.Machine
end

