-- ==== Sys2Proof/Laws/InitScript.lean ====
section
/-!
SUPPORT. The steps of `INIT` against a script of the card's answers (spec/42_init.md R132 to R147).
-/
namespace Sys2Proof.Machine

/-- What a stretch of answered commands leaves: the answers are used up, their ticks have passed, the working registers
are as before. -/
structure Reached (l rest : List Answer) (s t : State) : Prop where
  script : t.port.script = rest
  tail : t.port.tail = s.port.tail
  tick : t.port.tick = s.port.tick + ticksOf l
  pgen : t.pgen = s.pgen
  pam : t.pam = s.pam
  t0 : t.t0 = s.t0
  fsm : t.fsm = s.fsm

theorem Reached.trans {l l' rest rest' : List Answer} {s t u : State} (h : Reached l rest' s t)
    (h' : Reached l' rest t u) : Reached (l ++ l') rest s u :=
  ⟨h'.script, h'.tail.trans h.tail, by rw [h'.tick, h.tick, ticksOf_append, Nat.add_assoc], h'.pgen.trans h.pgen, h'.pam.trans h.pam,
    h'.t0.trans h.t0, h'.fsm.trans h.fsm⟩

/-- A command of `INIT` whose answers stand in the script. -/
theorem command_at {c : Config} {z : Bool} {s : State} (hs : Mid c z s) {index : BitVec 6} (arg : Word) {ext : Bool}
    {l rest : List Answer} {status : Byte} {e : Word} (h : s.port.script = l ++ rest)
    (ha : CommandAnswer c index true ext status e l) :
    ∃ t, sendCommand index arg ext true s =
        ({ code := classify status, status := status, ext := if ext then e else 0 }, t) ∧
      Answered c z t ∧ Reached l rest s t := by
  rw [← hs.cfg] at ha
  obtain ⟨polls, port, he, -, -, hu⟩ := sendCommand_answered (arg := arg) (resel := true) h ha
  exact ⟨_, he, ⟨⟨hs.cfg, hs.unresolved, hs.byteMode, hs.noCapacity, hs.clk, hs.going⟩, rfl, rfl, rfl⟩, hu.after, hu.tail, hu.tick, rfl,
    rfl, rfl, rfl⟩

theorem CommandAnswer.ne_nil {c : Config} {index : BitVec 6} {settle ext : Bool} {status : Byte} {e : Word}
    {l : List Answer} (h : CommandAnswer c index settle ext status e l) : l ≠ [] := by
  obtain ⟨_, _, _, _, rfl, _⟩ := h
  simp

theorem resetCard_at {c : Config} {z : Bool} {s : State} (hs : Mid c z s) {l rest : List Answer} {status : Byte}
    (h : s.port.script = l ++ rest) (ha : CommandAnswer c c.idxReset true false status 0 l)
    (hc : classify status = .ok) (hidle : r1Idle status = true) :
    ∃ t, resetCard s = .go () (setFsm .idleProbe t) ∧ Answered c z t ∧ Reached l rest s t := by
  obtain ⟨t, he, hat, hr⟩ := command_at hs 0 h ha
  refine ⟨t, ?_, hat, hr⟩
  unfold resetCard
  rw [hs.cfg, he]
  simp [hc, hidle]

theorem probe_at {c : Config} {z : Bool} {s : State} (hs : Mid c z s) {l rest : List Answer} {status : Byte} {e : Word}
    (h : s.port.script = l ++ rest) (ha : CommandAnswer c c.idxIfcond true true status e l)
    (hc : classify status = .ok) (hecho : echoOk c e = true) :
    ∃ t, probe s = .go () (setFsm .voltageCheck (setPgen .sd2 t)) ∧ Answered c z t ∧ Reached l rest s t := by
  obtain ⟨t, he, hat, hr⟩ := command_at hs c.ifcondArg h ha
  refine ⟨t, ?_, hat, hr⟩
  unfold probe
  rw [hs.cfg, he]
  simp [hc, hecho]

theorem probe_illegal_at {c : Config} {z : Bool} {s : State} (hs : Mid c z s) {l rest : List Answer} {status : Byte} {e : Word}
    (h : s.port.script = l ++ rest) (ha : CommandAnswer c c.idxIfcond true true status e l)
    (hc : classify status = .illegalCommand) :
    ∃ t, probe s = .go () (setFsm .opCondPoll (setPgen .sd1 t)) ∧ Answered c z t ∧ Reached l rest s t := by
  obtain ⟨t, he, hat, hr⟩ := command_at hs c.ifcondArg h ha
  refine ⟨t, ?_, hat, hr⟩
  unfold probe
  rw [hs.cfg, he]
  simp [hc]

/-- One polling round against its answers, up to the class it leaves. -/
structure RoundReached (c : Config) (z : Bool) (l rest : List Answer) (g : Gen) (s t : State) : Prop extends Answered c z t where
  script : t.port.script = rest
  tail : t.port.tail = s.port.tail
  tick : t.port.tick = s.port.tick + ticksOf l
  pgen : t.pgen = g
  pam : t.pam = s.pam
  t0 : t.t0 = s.t0
  fsm : t.fsm = s.fsm

theorem RoundReached.of {c : Config} {z : Bool} {l rest : List Answer} {g : Gen} {s t : State} (ha : Answered c z t)
    (hr : Reached l rest s t) (hg : t.pgen = g) : RoundReached c z l rest g s t :=
  ⟨ha, hr.script, hr.tail, hr.tick, hg, hr.pam, hr.t0, hr.fsm⟩

theorem RoundReached.trans {c : Config} {z : Bool} {l l' rest rest' : List Answer} {g g' : Gen} {s t u : State}
    (h : RoundReached c z l rest' g s t) (h' : RoundReached c z l' rest g' t u) :
    RoundReached c z (l ++ l') rest g' s u :=
  ⟨h'.toAnswered, h'.script, h'.tail.trans h.tail, by rw [h'.tick, h.tick, ticksOf_append, Nat.add_assoc], h'.pgen, h'.pam.trans h.pam,
    h'.t0.trans h.t0, h'.fsm.trans h.fsm⟩

/-- The application pair, its pre-command accepted. -/
theorem appPair_at {c : Config} {z : Bool} {s : State} (hs : Mid c z s) (arg : Word) {sa sq : Byte}
    {app query rest : List Answer} (h : s.port.script = app ++ query ++ rest)
    (happ : CommandAnswer c c.idxApp true false sa 0 app) (hsa : classify sa = .ok)
    (hquery : CommandAnswer c c.idxOpcondApp true false sq 0 query) :
    ∃ t, appPair arg s = ({ code := classify sq, status := sq, ext := 0 }, t) ∧ Answered c z t ∧
      Reached (app ++ query) rest s t := by
  obtain ⟨t, he, hat, hr⟩ := command_at hs 0 (rest := query ++ rest) (by simpa using h) happ
  obtain ⟨u, he', hau, hr'⟩ := command_at hat.toMid arg hr.script hquery
  refine ⟨u, ?_, hau, hr.trans hr'⟩
  unfold appPair
  simp only [hs.cfg, he, hsa, if_true]
  exact he'

/-- The application pair, its pre-command not accepted: the query is not sent. -/
theorem appPair_refused {c : Config} {z : Bool} {s : State} (hs : Mid c z s) (arg : Word) {sa : Byte}
    {app rest : List Answer} (h : s.port.script = app ++ rest) (happ : CommandAnswer c c.idxApp true false sa 0 app)
    (hsa : classify sa ≠ .ok) :
    ∃ t, appPair arg s = ({ code := classify sa, status := sa, ext := 0 }, t) ∧ Answered c z t ∧
      Reached app rest s t := by
  obtain ⟨t, he, hat, hr⟩ := command_at hs 0 h happ
  refine ⟨t, ?_, hat, hr⟩
  unfold appPair
  simp only [hs.cfg, he, hsa, if_false]
  rfl

theorem roundEnd_ok {status : Byte} {t : State} (h : classify status = .ok) :
    roundEnd ({ code := classify status, status := status, ext := 0 }, t) = .go (!r1Idle status) t := by
  simp [roundEnd, h]

theorem v2Round_at {c : Config} {z : Bool} {s : State} (hs : Mid c z s) (hg : s.pgen = .sd2) {sa sq : Byte}
    {app query rest : List Answer} (h : s.port.script = app ++ query ++ rest)
    (happ : CommandAnswer c c.idxApp true false sa 0 app)
    (hquery : CommandAnswer c c.idxOpcondApp true false sq 0 query) (hsa : classify sa = .ok)
    (hsq : classify sq = .ok) :
    ∃ t, v2Round s = .go (!r1Idle sq) t ∧ RoundReached c z (app ++ query) rest .sd2 s t := by
  obtain ⟨t, he, hat, hr⟩ := appPair_at hs c.opcondArgV2 h happ hsa hquery
  exact ⟨t, by rw [v2Round, hs.cfg, he, roundEnd_ok hsq], .of hat hr (hr.pgen.trans hg)⟩

theorem pairRound_at {c : Config} {z : Bool} {s : State} (hs : Mid c z s) (hg : s.pgen = .sd1) {sa sq : Byte}
    {app query rest : List Answer} (h : s.port.script = app ++ query ++ rest)
    (happ : CommandAnswer c c.idxApp true false sa 0 app)
    (hquery : CommandAnswer c c.idxOpcondApp true false sq 0 query) (hsa : classify sa = .ok)
    (hsq : classify sq = .ok) :
    ∃ t, legacyRound s = .go (!r1Idle sq) t ∧ RoundReached c z (app ++ query) rest .sd1 s t := by
  obtain ⟨t, he, hat, hr⟩ := appPair_at hs c.opcondArgLegacy h happ hsa hquery
  refine ⟨t, ?_, .of hat hr (hr.pgen.trans hg)⟩
  rw [legacyRound, if_pos hg, hs.cfg, he]
  dsimp only
  rw [if_neg (by simp [hsq]), roundEnd_ok hsq]

theorem appIllegalRound_at {c : Config} {z : Bool} {s : State} (hs : Mid c z s) (hg : s.pgen = .sd1) {sa : Byte}
    {app rest : List Answer} (h : s.port.script = app ++ rest) (happ : CommandAnswer c c.idxApp true false sa 0 app)
    (hsa : classify sa = .illegalCommand) :
    ∃ t, legacyRound s = .go false t ∧ RoundReached c z app rest .mmc s t := by
  obtain ⟨t, he, hat, hr⟩ := appPair_refused hs c.opcondArgLegacy h happ (by simp [hsa])
  refine ⟨setPgen .mmc t, ?_, hat.setPgen _, hr.script, hr.tail, hr.tick, rfl, hr.pam, hr.t0, hr.fsm⟩
  rw [legacyRound, if_pos hg, hs.cfg, he]
  exact if_pos hsa

theorem queryIllegalRound_at {c : Config} {z : Bool} {s : State} (hs : Mid c z s) (hg : s.pgen = .sd1) {sa sq : Byte}
    {app query rest : List Answer} (h : s.port.script = app ++ query ++ rest)
    (happ : CommandAnswer c c.idxApp true false sa 0 app)
    (hquery : CommandAnswer c c.idxOpcondApp true false sq 0 query) (hsa : classify sa = .ok)
    (hsq : classify sq = .illegalCommand) :
    ∃ t, legacyRound s = .go false t ∧ RoundReached c z (app ++ query) rest .mmc s t := by
  obtain ⟨t, he, hat, hr⟩ := appPair_at hs c.opcondArgLegacy h happ hsa hquery
  refine ⟨setPgen .mmc t, ?_, hat.setPgen _, hr.script, hr.tail, hr.tick, rfl, hr.pam, hr.t0, hr.fsm⟩
  rw [legacyRound, if_pos hg, hs.cfg, he]
  exact if_pos hsq

theorem mmcRound_at {c : Config} {z : Bool} {s : State} (hs : Mid c z s) (hg : s.pgen = .mmc) {sq : Byte}
    {query rest : List Answer} (h : s.port.script = query ++ rest)
    (hquery : CommandAnswer c c.idxOpcondMmc true false sq 0 query) (hsq : classify sq = .ok) :
    ∃ t, legacyRound s = .go (!r1Idle sq) t ∧ RoundReached c z query rest .mmc s t := by
  obtain ⟨t, he, hat, hr⟩ := command_at hs c.opcondArgLegacy h hquery
  refine ⟨t, ?_, .of hat hr (hr.pgen.trans hg)⟩
  rw [legacyRound, if_neg (by simp [hg]), hs.cfg, he]
  exact roundEnd_ok hsq

theorem CommandAnswer.length_pos {c : Config} {index : BitVec 6} {settle ext : Bool} {status : Byte} {e : Word}
    {l : List Answer} (h : CommandAnswer c index settle ext status e l) : 0 < l.length := by
  obtain ⟨_, _, _, _, rfl, _⟩ := h
  simp only [List.length_append, List.length_cons]
  omega

/-! ## The polling loop -/

theorem pollRounds_last {round : State → Flow Bool} {left : Nat} {s t : State} (hne : s.port.script ≠ [])
    (he : round s = .go true t) : pollRounds round (left + 1) s = .go () t := by
  simp [pollRounds, neverEnds_script hne, he, Flow.andThen]

theorem pollRounds_again {c : Config} {z : Bool} {round : State → Flow Bool} {left : Nat} {s t : State}
    {l rest : List Answer} {g : Gen} {spent : Nat} (hne : s.port.script ≠ []) (he : round s = .go false t)
    (hr : RoundReached c z l rest g s t) (hspent : s.port.tick = s.t0 + spent) (hbudget : spent + ticksOf l < c.tInit) :
    pollRounds round (left + 1) s = pollRounds round left t := by
  have htick : elapsed t.t0 t = spent + ticksOf l := by
    simp only [elapsed, hr.tick, hr.t0, hspent]; omega
  simp only [pollRounds, neverEnds_script hne, he, Flow.andThen, Bool.false_eq_true, if_false]
  rw [if_neg (by rw [hr.cfg, htick]; omega)]

theorem pollV2_at {c : Config} {z : Bool} {spent : Nat} {l : List Answer} (hl : V2Rounds c spent l) {left : Nat} {s : State}
    {rest : List Answer} (hs : Mid c z s) (hg : s.pgen = .sd2) (h : s.port.script = l ++ rest)
    (hspent : s.port.tick = s.t0 + spent) (hleft : l.length < left) :
    ∃ t, pollRounds v2Round left s = .go () t ∧ RoundReached c z l rest .sd2 s t := by
  induction hl generalizing left s rest with
  | last happ hquery hsa hsq hidle =>
    obtain _ | left := left
    · simp at hleft
    obtain ⟨t, he, hr⟩ := v2Round_at hs hg h happ hquery hsa hsq
    rw [hidle] at he
    exact ⟨t, pollRounds_last (by simp [h, happ.ne_nil]) he, hr⟩
  | @again spent sa sq app query more happ hquery hsa hsq hidle hbudget hmore ih =>
    obtain _ | left := left
    · simp at hleft
    obtain ⟨t, he, hr⟩ := v2Round_at hs hg (rest := more ++ rest) (by simpa using h) happ hquery hsa hsq
    rw [hidle] at he
    have hpos := happ.length_pos
    obtain ⟨u, hu, hru⟩ := ih hr.toMid hr.pgen (left := left) hr.script
      (by rw [hr.tick, hr.t0, hspent]; omega) (by simp only [List.length_append] at hleft; omega)
    exact ⟨u, by rw [pollRounds_again (by simp [h, happ.ne_nil]) he hr hspent hbudget, hu], hr.trans hru⟩

theorem pollLegacy_at {c : Config} {z : Bool} {g final : Gen} {spent : Nat} {l : List Answer} (hl : LegacyRounds c g spent final l)
    {left : Nat} {s : State} {rest : List Answer} (hs : Mid c z s) (hg : s.pgen = g) (h : s.port.script = l ++ rest)
    (hspent : s.port.tick = s.t0 + spent) (hleft : l.length < left) :
    ∃ t, pollRounds legacyRound left s = .go () t ∧ RoundReached c z l rest final s t := by
  induction hl generalizing left s rest with
  | sd1Last happ hquery hsa hsq hidle =>
    obtain _ | left := left
    · simp at hleft
    obtain ⟨t, he, hr⟩ := pairRound_at hs hg h happ hquery hsa hsq
    rw [hidle] at he
    exact ⟨t, pollRounds_last (by simp [h, happ.ne_nil]) he, hr⟩
  | @sd1Again spent sa sq final app query more happ hquery hsa hsq hidle hbudget hmore ih =>
    obtain _ | left := left
    · simp at hleft
    obtain ⟨t, he, hr⟩ := pairRound_at hs hg (rest := more ++ rest) (by simpa using h) happ hquery hsa hsq
    rw [hidle] at he
    have hpos := happ.length_pos
    obtain ⟨u, hu, hru⟩ := ih hr.toMid hr.pgen (left := left) hr.script
      (by rw [hr.tick, hr.t0, hspent]; omega) (by simp only [List.length_append] at hleft; omega)
    exact ⟨u, by rw [pollRounds_again (by simp [h, happ.ne_nil]) he hr hspent hbudget, hu], hr.trans hru⟩
  | @appIllegal spent sa final app more happ hsa hbudget hmore ih =>
    obtain _ | left := left
    · simp at hleft
    obtain ⟨t, he, hr⟩ := appIllegalRound_at hs hg (rest := more ++ rest) (by simpa using h) happ hsa
    have hpos := happ.length_pos
    obtain ⟨u, hu, hru⟩ := ih hr.toMid hr.pgen (left := left) hr.script
      (by rw [hr.tick, hr.t0, hspent]; omega) (by simp only [List.length_append] at hleft; omega)
    exact ⟨u, by rw [pollRounds_again (by simp [h, happ.ne_nil]) he hr hspent hbudget, hu], hr.trans hru⟩
  | @queryIllegal spent sa sq final app query more happ hquery hsa hsq hbudget hmore ih =>
    obtain _ | left := left
    · simp at hleft
    obtain ⟨t, he, hr⟩ := queryIllegalRound_at hs hg (rest := more ++ rest) (by simpa using h) happ hquery hsa hsq
    have hpos := happ.length_pos
    obtain ⟨u, hu, hru⟩ := ih hr.toMid hr.pgen (left := left) hr.script
      (by rw [hr.tick, hr.t0, hspent]; omega) (by simp only [List.length_append] at hleft; omega)
    exact ⟨u, by rw [pollRounds_again (by simp [h, happ.ne_nil]) he hr hspent hbudget, hu], hr.trans hru⟩
  | mmcLast hquery hsq hidle =>
    obtain _ | left := left
    · simp at hleft
    obtain ⟨t, he, hr⟩ := mmcRound_at hs hg h hquery hsq
    rw [hidle] at he
    exact ⟨t, pollRounds_last (by simp [h, hquery.ne_nil]) he, hr⟩
  | @mmcAgain spent sq final query more hquery hsq hidle hbudget hmore ih =>
    obtain _ | left := left
    · simp at hleft
    obtain ⟨t, he, hr⟩ := mmcRound_at hs hg (rest := more ++ rest) (by simpa using h) hquery hsq
    rw [hidle] at he
    have hpos := hquery.length_pos
    obtain ⟨u, hu, hru⟩ := ih hr.toMid hr.pgen (left := left) hr.script
      (by rw [hr.tick, hr.t0, hspent]; omega) (by simp only [List.length_append] at hleft; omega)
    exact ⟨u, by rw [pollRounds_again (by simp [h, hquery.ne_nil]) he hr hspent hbudget, hu], hr.trans hru⟩

theorem readMode_at {c : Config} {z : Bool} {s : State} (hs : Answered c z s) (hg : s.pgen = .sd2) {l rest : List Answer}
    {status : Byte} {e : Word} (h : s.port.script = l ++ rest) (ha : CommandAnswer c c.idxOcr true true status e l)
    (hc : classify status = .ok) :
    ∃ t, readMode s = .go () (setPam (ocrMode c e) t) ∧ Answered c z t ∧ Reached l rest s t := by
  obtain ⟨t, he, hat, hr⟩ := command_at hs.toMid 0 h ha
  refine ⟨t, ?_, hat, hr⟩
  unfold readMode
  rw [if_pos hg, hs.cfg, he]
  simp [hc]

theorem fixBlockLength_at {c : Config} {z : Bool} {s : State} (hs : Mid c z s) {l rest : List Answer}
    (h : s.port.script = l ++ rest) (ha : CommandAnswer c c.idxBlklen true false 0 0 l) :
    ∃ t, fixBlockLength s = .go () t ∧ Answered c z t ∧ Reached l rest s t := by
  obtain ⟨t, he, hat, hr⟩ := command_at hs 512#32 h ha
  refine ⟨t, ?_, hat, hr⟩
  unfold fixBlockLength
  rw [hs.cfg, he]
  rfl

theorem powerUp_at {s : State} {l rest : List Answer} (h : s.port.script = l ++ rest)
    (hl : l.length = s.cfg.nPowerupBytes) :
    Mid s.cfg s.stalled (powerUp (initStart s)) ∧ (powerUp (initStart s)).port.script = rest ∧
      (powerUp (initStart s)).port.tail = s.port.tail ∧ (powerUp (initStart s)).pam = .byte := by
  have hs : (select false (initStart s)).port.script = l ++ rest := h
  have hc : (initStart s).cfg.nPowerupBytes = l.length := hl.symm
  refine ⟨by constructor <;> simp [powerUp, initStart], ?_⟩
  unfold powerUp
  rw [hc]
  exact ⟨(idleBytes_used hs).after, (idleBytes_used hs).tail, by simp [initStart]⟩

end Sys2Proof.Machine
end

