-- ==== Sys2Proof/Laws/InitFail.lean ====
section
/-!
SUPPORT. How `INIT` fails, and how it never ends, against a script of the card's answers (spec/42_init.md R133 to R152;
spec/70_reset_and_hazards.md R258).
-/
namespace Sys2Proof.Machine

/-- `INIT` has ended with this code, and `rest` is still to come. -/
structure EndedWith (c : Config) (z : Bool) (code : Code) (rest : List Answer) (t : State) : Prop where
  ended : Ended c z t
  result : t.result = code
  script : t.port.script = rest

/-- An `INIT` that has ended with a code other than `Ok` has failed. -/
theorem EndedWith.failed {c : Config} {z : Bool} {code : Code} {rest : List Answer} {t : State}
    (h : EndedWith c z code rest t) (hcode : code ≠ .ok) : InitFailed t := by
  rcases h.ended.1.outcome with h' | h'
  · exact absurd (h.result.symm.trans h'.result) hcode
  · exact h'

theorem Answered.ends_timeout {c : Config} {z : Bool} {s : State} (hs : Answered c z s) :
    EndedWith c z .timeout s.port.script (fail .timeout s) := ⟨hs.timeout, rfl, rfl⟩

theorem Answered.ends_badResponse {c : Config} {z : Bool} {s : State} (hs : Answered c z s) :
    EndedWith c z .badResponse s.port.script (failBadResponse s) := ⟨hs.badResponse, rfl, rfl⟩

/-- A flow that stops there. -/
abbrev StopsWith {α : Type} (c : Config) (z : Bool) (code : Code) (rest : List Answer) (f : Flow α) : Prop :=
  f.Meets (fun _ _ => False) (EndedWith c z code rest)

theorem StopsWith.andThen {α β : Type} {c : Config} {z : Bool} {code : Code} {rest : List Answer} {f : Flow α}
    (h : StopsWith c z code rest f) (k : α → State → Flow β) : StopsWith c z code rest (f.andThen k) :=
  Flow.Meets.andThen h fun _ _ hf => hf.elim

/-- A command of `INIT` that fails against its answers (R112, R152). -/
theorem command_fails {c : Config} {z : Bool} {s : State} (hs : Mid c z s) {index : BitVec 6} (arg : Word) {ext : Bool}
    {code : Code} {l rest : List Answer} (h : s.port.script = l ++ rest) (hf : CommandFails c index ext code l) :
    ∃ r t, sendCommand index arg ext true s = (r, t) ∧ r.code = code ∧ code ≠ .ok ∧
      EndedWith c z code rest (fail code t) := by
  have hm := (command_mid hs index arg ext).2.1
  rcases hf with ⟨rfl, head, polls, last, rfl, hhead, hn, hp, hlast⟩ | ⟨hcode, status, e, ha, rfl⟩
  · rw [← hs.cfg] at hhead hn
    obtain ⟨port, he, hu⟩ := sendCommand_silent (index := index) (arg := arg) (ext := ext) (resel := true) (s := s)
      (head := head) (polls := polls) (a := last) (rest := rest) (by simpa using h) hhead hn hp hlast
    rw [he] at hm
    exact ⟨_, _, he, rfl, by simp, hm (by simp), rfl, hu.after⟩
  · obtain ⟨t, he, -, hr⟩ := command_at hs arg h ha
    rw [he] at hm
    exact ⟨_, _, he, rfl, hcode, hm hcode, rfl, hr.script⟩

theorem CommandFails.ne_nil {c : Config} {index : BitVec 6} {ext : Bool} {code : Code} {l : List Answer}
    (h : CommandFails c index ext code l) : l ≠ [] := by
  rcases h with ⟨-, _, _, _, rfl, -⟩ | ⟨-, _, _, h, -⟩
  · simp
  · exact h.ne_nil

/-! ## The reset command and the probe -/

theorem resetCard_fails {c : Config} {z : Bool} {s : State} (hs : Mid c z s) {code : Code} {l rest : List Answer}
    (h : s.port.script = l ++ rest) (hf : CommandFails c c.idxReset false code l) :
    StopsWith c z code rest (resetCard s) := by
  obtain ⟨r, t, he, rfl, hne, ht⟩ := command_fails hs 0 h hf
  rw [resetCard, hs.cfg, he]
  simp only [if_pos hne]
  exact ht

theorem resetCard_notIdle {c : Config} {z : Bool} {s : State} (hs : Mid c z s) {sr : Byte} {l rest : List Answer}
    (h : s.port.script = l ++ rest) (ha : CommandAnswer c c.idxReset true false sr 0 l) (hsr : classify sr = .ok)
    (hidle : r1Idle sr = false) : StopsWith c z .badResponse rest (resetCard s) := by
  obtain ⟨t, he, hat, hr⟩ := command_at hs 0 h ha
  rw [resetCard, hs.cfg, he]
  simp only [hsr, hidle, ne_eq, not_true_eq_false, if_false, if_true]
  exact hr.script ▸ hat.ends_badResponse

theorem probe_fails {c : Config} {z : Bool} {s : State} (hs : Mid c z s) {code : Code} {l rest : List Answer}
    (h : s.port.script = l ++ rest) (hf : CommandFails c c.idxIfcond true code l) (hcode : code ≠ .illegalCommand) :
    StopsWith c z code rest (probe s) := by
  obtain ⟨r, t, he, rfl, hne, ht⟩ := command_fails hs c.ifcondArg h hf
  rw [probe, hs.cfg, he]
  simp only [if_neg hcode, if_pos hne]
  exact ht

theorem probe_echo {c : Config} {z : Bool} {s : State} (hs : Mid c z s) {sc : Byte} {e : Word} {l rest : List Answer}
    (h : s.port.script = l ++ rest) (ha : CommandAnswer c c.idxIfcond true true sc e l) (hsc : classify sc = .ok)
    (hecho : echoOk c e = false) : StopsWith c z .badResponse rest (probe s) := by
  obtain ⟨t, he, hat, hr⟩ := command_at hs c.ifcondArg h ha
  have hcfg : t.cfg = c := hat.cfg
  rw [probe, hs.cfg, he]
  simp only [hsc, hecho, ne_eq, not_true_eq_false, if_false, if_true, Bool.false_eq_true, reduceCtorEq]
  exact hr.script ▸ hat.ends_badResponse

/-- The state in which the polling of a card of this class begins (R134, R136). -/
structure Polling (c : Config) (z : Bool) (gen : Gen) (rest : List Answer) (s t : State) : Prop extends
    Answered c z t where
  script : t.port.script = rest
  tail : t.port.tail = s.port.tail
  pgen : t.pgen = gen
  fsm : t.fsm = if gen = .sd2 then .voltageCheck else .opCondPoll
  pam : t.pam = s.pam

theorem identified_at {c : Config} {z : Bool} {s : State} (hs : Mid c z s) {gen : Gen} {l rest : List Answer}
    (h : s.port.script = l ++ rest) (hl : Identified c gen l) :
    ∃ t u, resetCard s = .go () t ∧ probe t = .go () u ∧ Polling c z gen rest s u := by
  obtain ⟨reset, cond, sr, sc, e, rfl, hreset, hsr, hidle, hcond, hgen⟩ := hl
  obtain ⟨t, he, hat, hr⟩ := resetCard_at hs (rest := cond ++ rest) (by simpa using h) hreset hsr hidle
  have hat' := hat.setFsm .idleProbe
  rcases hgen with ⟨rfl, hsc, hecho⟩ | ⟨rfl, hsc⟩
  · obtain ⟨u, he', hau, hr'⟩ := probe_at hat'.toMid (rest := rest) hr.script hcond hsc hecho
    exact ⟨_, _, he, he', (hau.setPgen .sd2).setFsm .voltageCheck, hr'.script, hr'.tail.trans hr.tail, rfl, rfl,
      hr'.pam.trans hr.pam⟩
  · obtain ⟨u, he', hau, hr'⟩ := probe_illegal_at hat'.toMid (rest := rest) hr.script hcond hsc
    exact ⟨_, _, he, he', (hau.setPgen .sd1).setFsm .opCondPoll, hr'.script, hr'.tail.trans hr.tail, rfl, rfl,
      hr'.pam.trans hr.pam⟩

/-! ## The polling rounds -/

/-- The round the polling of a card of this class begins with (R140, R144). -/
def roundOf (g : Gen) : State → Flow Bool := if g = .sd2 then v2Round else legacyRound

theorem roundOf_sd2 : roundOf .sd2 = v2Round := if_pos rfl
theorem roundOf_sd1 : roundOf .sd1 = legacyRound := if_neg (by simp)
theorem roundOf_mmc : roundOf .mmc = legacyRound := if_neg (by simp)

theorem IdleRound.roundOf_eq {c : Config} {g g' : Gen} {l : List Answer} (h : IdleRound c g g' l) :
    roundOf g' = roundOf g := by
  cases h
  case pair => rfl
  all_goals simp only [roundOf_sd1, roundOf_mmc]

theorem IdleRound.ne_nil {c : Config} {g g' : Gen} {l : List Answer} (h : IdleRound c g g' l) : l ≠ [] := by
  cases h with
  | pair _ happ => simp [happ.ne_nil]
  | appIllegal happ => exact happ.ne_nil
  | queryIllegal happ => simp [happ.ne_nil]
  | mmc hquery => exact hquery.ne_nil

/-- A round that finds the card still idle. -/
theorem idleRound_at {c : Config} {z : Bool} {g g' : Gen} {l rest : List Answer} (hl : IdleRound c g g' l) {s : State}
    (hs : Mid c z s) (hg : s.pgen = g) (h : s.port.script = l ++ rest) :
    ∃ t, roundOf g s = .go false t ∧ RoundReached c z l rest g' s t := by
  cases hl with
  | pair hgen happ hquery hsa hsq hidle =>
    rcases hgen with rfl | rfl
    · rw [roundOf_sd2, ← show (!true) = false from rfl, ← hidle]
      exact v2Round_at hs hg h happ hquery hsa hsq
    · rw [roundOf_sd1, ← show (!true) = false from rfl, ← hidle]
      exact pairRound_at hs hg h happ hquery hsa hsq
  | appIllegal happ hsa => rw [roundOf_sd1]; exact appIllegalRound_at hs hg h happ hsa
  | queryIllegal happ hquery hsa hsq => rw [roundOf_sd1]; exact queryIllegalRound_at hs hg h happ hquery hsa hsq
  | mmc hquery hsq hidle =>
    rw [roundOf_mmc, ← show (!true) = false from rfl, ← hidle]
    exact mmcRound_at hs hg h hquery hsq

/-- Rounds that find the card still idle before `T_INIT` is spent: the loop goes on with what is left of its bound. -/
theorem idleRounds_at {c : Config} {z : Bool} {g g' : Gen} {l : List Answer} (hl : IdleRounds c g g' l) {left spent : Nat}
    {s : State} {rest : List Answer} (hs : Answered c z s) (hg : s.pgen = g) (h : s.port.script = l ++ rest)
    (hspent : s.port.tick = s.t0 + spent) (hbudget : l = [] ∨ spent + ticksOf l < c.tInit) (hleft : l.length ≤ left) :
    ∃ left' t, pollRounds (roundOf g) left s = pollRounds (roundOf g) left' t ∧ left ≤ left' + l.length ∧
      roundOf g' = roundOf g ∧ RoundReached c z l rest g' s t := by
  induction hl generalizing left spent s with
  | nil => exact ⟨left, s, rfl, by simp, rfl, hs, h, rfl, by simp, hg, rfl, rfl, rfl⟩
  | @cons g g' final l more hround hmore ih =>
    have hpos := List.length_pos_iff.2 hround.ne_nil
    simp only [List.length_append] at hleft ⊢
    obtain ⟨left, rfl⟩ : ∃ m, left = m + 1 := ⟨left - 1, by omega⟩
    have hb : spent + (ticksOf l + ticksOf more) < c.tInit := by
      rw [← ticksOf_append]
      exact hbudget.resolve_left (by simp [hround.ne_nil])
    obtain ⟨t, he, hr⟩ := idleRound_at hround hs.toMid hg (rest := more ++ rest) (by simpa using h)
    obtain ⟨left', u, hu, hle, hgen, hru⟩ := ih (left := left) (spent := spent + ticksOf l) hr.toAnswered hr.pgen
      hr.script (by rw [hr.tick, hr.t0, hspent]; omega) (.inr (by omega)) (by omega)
    refine ⟨left', u, ?_, by omega, by rw [hgen, hround.roundOf_eq], hr.trans hru⟩
    rw [pollRounds_again (by simp [h, hround.ne_nil]) he hr hspent (by omega), ← hround.roundOf_eq, hu]

/-- A round in which a command fails. -/
theorem roundFails_at {c : Config} {z : Bool} {g : Gen} {code : Code} {l rest : List Answer} (hl : RoundFails c g code l)
    {s : State} (hs : Mid c z s) (hg : s.pgen = g) (h : s.port.script = l ++ rest) :
    StopsWith c z code rest (roundOf g s) := by
  have hend : ∀ (r : Reply) (t : State), r.code = code → code ≠ .ok → EndedWith c z code rest (fail code t) →
      StopsWith c z code rest (roundEnd (r, t)) := by
    intro r t hr hne ht
    rw [roundEnd, if_pos (by rw [hr]; exact hne), hr]
    exact ht
  have hround : (∀ arg, ∃ r t, appPair arg s = (r, t) ∧ r.code = code ∧ code ≠ .ok ∧
      EndedWith c z code rest (fail code t)) → (g = .sd2 ∨ (g = .sd1 ∧ code ≠ .illegalCommand)) →
      StopsWith c z code rest (roundOf g s) := by
    intro hp hgen
    obtain ⟨r, t, he, hr, hne, ht⟩ := hp (if g = .sd2 then s.cfg.opcondArgV2 else s.cfg.opcondArgLegacy)
    rcases hgen with rfl | ⟨rfl, hcode⟩
    · rw [if_pos rfl] at he
      rw [roundOf_sd2, v2Round, he]
      exact hend r t hr hne ht
    · rw [if_neg (by simp)] at he
      rw [roundOf_sd1, legacyRound, if_pos hg, he]
      dsimp only
      rw [if_neg (by rw [hr]; exact hcode)]
      exact hend r t hr hne ht
  cases hl with
  | app hgen happ =>
    refine hround (fun arg => ?_) hgen
    obtain ⟨r, t, he, hr, hne, ht⟩ := command_fails hs 0 h happ
    refine ⟨r, t, ?_, hr, hne, ht⟩
    rw [appPair, hs.cfg, he]
    exact if_neg (by rw [hr]; exact hne)
  | @query _ _ sa app query hgen happ hsa hquery =>
    refine hround (fun arg => ?_) hgen
    obtain ⟨t, he, hat, hr⟩ := command_at hs 0 (rest := query ++ rest) (by simpa using h) happ
    obtain ⟨r, u, he', hr', hne, hu⟩ := command_fails hat.toMid arg hr.script hquery
    refine ⟨r, u, ?_, hr', hne, hu⟩
    unfold appPair
    simp only [hs.cfg, he, hsa, if_true]
    exact he'
  | mmc hquery =>
    obtain ⟨r, t, he, hr, hne, ht⟩ := command_fails hs c.opcondArgLegacy h hquery
    rw [roundOf_mmc, legacyRound, if_neg (by simp [hg]), hs.cfg, he]
    exact hend r t hr hne ht

theorem RoundFails.ne_nil {c : Config} {g : Gen} {code : Code} {l : List Answer} (h : RoundFails c g code l) : l ≠ [] := by
  cases h with
  | app _ happ => exact happ.ne_nil
  | query _ happ => simp [happ.ne_nil]
  | mmc hquery => exact hquery.ne_nil

theorem pollRounds_fails {c : Config} {z : Bool} {round : State → Flow Bool} {left : Nat} {s : State} {code : Code}
    {rest : List Answer} (hne : s.port.script ≠ []) (h : StopsWith c z code rest (round s)) :
    StopsWith c z code rest (pollRounds round (left + 1) s) := by
  rw [pollRounds, neverEnds_script hne, if_neg Bool.false_ne_true]
  exact h.andThen _

theorem pollRounds_timeout {c : Config} {z : Bool} {round : State → Flow Bool} {left : Nat} {s t : State}
    {l rest : List Answer} {g : Gen} (hne : s.port.script ≠ []) (he : round s = .go false t)
    (hr : RoundReached c z l rest g s t) (hover : s.t0 + c.tInit ≤ s.port.tick + ticksOf l) :
    StopsWith c z .timeout rest (pollRounds round (left + 1) s) := by
  rw [pollRounds, neverEnds_script hne, if_neg Bool.false_ne_true, he]
  simp only [Flow.andThen, Bool.false_eq_true, if_false]
  rw [if_pos (by rw [hr.cfg, elapsed, hr.tick, hr.t0]; omega)]
  exact hr.script ▸ hr.toAnswered.ends_timeout

theorem pollOpCond_eq {c : Config} {z : Bool} {gen : Gen} {rest : List Answer} {s t : State}
    (h : Polling c z gen rest s t) :
    pollOpCond t = (pollRounds (roundOf gen) (pollBound c.tInit (setT0 (now t) t)) (setT0 (now t) t)).andThen
      fun _ u => .go () (if gen = .sd2 then setFsm .opCondPoll u else u) := by
  have hf := h.fsm
  unfold pollOpCond roundOf
  dsimp only
  rw [setT0_fsm, hf]
  by_cases hg : gen = .sd2
  · simp only [if_pos hg, if_true, pollV2, setT0_cfg, h.cfg]
  · simp only [if_neg hg, reduceCtorEq, if_false, pollLegacy, setT0_cfg, h.cfg]
    cases pollRounds legacyRound (pollBound c.tInit (setT0 (now t) t)) (setT0 (now t) t) <;> rfl

/-- The polling up to a round that is not the last of the idle ones. -/
theorem pollOpCond_rounds {c : Config} {z : Bool} {g g' : Gen} {l rest : List Answer} (hl : IdleRounds c g g' l)
    {s t : State} (h : Polling c z g (l ++ rest) s t) (hbudget : l = [] ∨ ticksOf l < c.tInit) :
    ∃ left u, pollOpCond t = (pollRounds (roundOf g) (left + 1) u).andThen
        (fun _ v => .go () (if g = .sd2 then setFsm .opCondPoll v else v)) ∧
      roundOf g' = roundOf g ∧ RoundReached c z l rest g' (setT0 (now t) t) u := by
  have ht : Answered c z (setT0 (now t) t) :=
    ⟨⟨h.cfg, h.unresolved, h.byteMode, h.noCapacity, h.clk, h.going⟩, h.settled, h.ready, h.noTimeout⟩
  have hlen : l.length ≤ t.port.script.length := by rw [h.script]; simp
  obtain ⟨left, u, he, hle, hgen, hr⟩ := idleRounds_at hl (left := pollBound c.tInit (setT0 (now t) t)) (spent := 0) ht
    h.pgen h.script rfl (hbudget.imp id fun h => by simpa using h) (by simp only [pollBound, setT0_port]; omega)
  obtain ⟨left, rfl⟩ : ∃ m, left = m + 1 := ⟨left - 1, by simp only [pollBound, setT0_port] at hle; omega⟩
  exact ⟨left, u, by rw [pollOpCond_eq h, he], hgen, hr⟩

theorem pollOpCond_fails {c : Config} {z : Bool} {g g' : Gen} {code : Code} {rounds last rest : List Answer}
    (hrounds : IdleRounds c g g' rounds) (hbudget : rounds = [] ∨ ticksOf rounds < c.tInit)
    (hlast : RoundFails c g' code last) {s t : State} (h : Polling c z g (rounds ++ (last ++ rest)) s t) :
    StopsWith c z code rest (pollOpCond t) := by
  obtain ⟨left, u, he, hgen, hr⟩ := pollOpCond_rounds hrounds h hbudget
  rw [he]
  refine (pollRounds_fails (by simp [hr.script, hlast.ne_nil]) ?_).andThen _
  rw [← hgen]
  exact roundFails_at hlast hr.toMid hr.pgen hr.script

theorem pollOpCond_timeout {c : Config} {z : Bool} {g g' g'' : Gen} {rounds last rest : List Answer}
    (hrounds : IdleRounds c g g' rounds) (hbudget : rounds = [] ∨ ticksOf rounds < c.tInit)
    (hlast : IdleRound c g' g'' last) (hover : c.tInit ≤ ticksOf (rounds ++ last)) {s t : State}
    (h : Polling c z g (rounds ++ (last ++ rest)) s t) : StopsWith c z .timeout rest (pollOpCond t) := by
  obtain ⟨left, u, he, hgen, hr⟩ := pollOpCond_rounds hrounds h hbudget
  obtain ⟨v, hv, hrv⟩ := idleRound_at hlast hr.toMid hr.pgen hr.script
  rw [he]
  rw [hgen] at hv
  refine (pollRounds_timeout (by simp [hr.script, hlast.ne_nil]) hv hrv ?_).andThen _
  rw [ticksOf_append] at hover
  have h1 := hr.tick
  have h2 := hr.t0
  simp only [setT0_port, setT0_t0, now] at h1 h2
  omega

/-- A card that stays idle while the tick source stands still (R258). -/
theorem pollOpCond_stalls {c : Config} {z : Bool} {g g' : Gen} {rounds : List Answer} (hrounds : IdleRounds c g g' rounds)
    (hbudget : ticksOf rounds < c.tInit) {s t : State} (h : Polling c z g rounds s t)
    (htail : s.port.tail = .stalled) :
    ∃ u, pollOpCond t = .stop (hang u) ∧ Answered c z u ∧ u.fsm = t.fsm := by
  obtain ⟨left, u, he, hgen, hr⟩ := pollOpCond_rounds (rest := []) hrounds (by simpa using h) (.inr hbudget)
  refine ⟨u, ?_, hr.toAnswered, hr.fsm⟩
  have h1 := hr.tick
  have h2 := hr.t0
  simp only [setT0_port, setT0_t0, now] at h1 h2
  rw [he, pollRounds, neverEnds_stalled (hr.tail.trans (h.tail.trans htail)) hr.script (by
    rw [hr.cfg, elapsed]; omega), if_pos rfl]
  rfl

/-! ## The register read and the block length -/

theorem readMode_fails {c : Config} {z : Bool} {s : State} (hs : Mid c z s) (hg : s.pgen = .sd2) {code : Code}
    {l rest : List Answer} (h : s.port.script = l ++ rest) (hf : CommandFails c c.idxOcr true code l) :
    StopsWith c z code rest (readMode s) := by
  obtain ⟨r, t, he, rfl, hne, ht⟩ := command_fails hs 0 h hf
  rw [readMode, if_pos hg, hs.cfg, he]
  simp only [if_pos hne]
  exact ht

theorem fixBlockLength_fails {c : Config} {z : Bool} {s : State} (hs : Mid c z s) {code : Code} {l rest : List Answer}
    (h : s.port.script = l ++ rest) (hf : CommandFails c c.idxBlklen false code l) :
    StopsWith c z code rest (fixBlockLength s) := by
  obtain ⟨r, t, he, rfl, hne, ht⟩ := command_fails hs 512#32 h hf
  rw [fixBlockLength, hs.cfg, he]
  simp only [if_pos hne]
  exact ht

theorem fixBlockLength_status {c : Config} {z : Bool} {s : State} (hs : Mid c z s) {sb : Byte} {l rest : List Answer}
    (h : s.port.script = l ++ rest) (ha : CommandAnswer c c.idxBlklen true false sb 0 l) (hsb : classify sb = .ok)
    (hne : sb ≠ 0) : StopsWith c z .badResponse rest (fixBlockLength s) := by
  obtain ⟨t, he, hat, hr⟩ := command_at hs 512#32 h ha
  rw [fixBlockLength, hs.cfg, he]
  simp only [hsb, hne, ne_eq, not_true_eq_false, not_false_eq_true, if_false, if_true]
  exact hr.script ▸ hat.ends_badResponse

/-- The polling of a version-2 card that becomes ready (R140, R141). -/
theorem pollOpCond_v2 {c : Config} {z : Bool} {rounds rest : List Answer} (hrounds : V2Rounds c 0 rounds) {s t : State}
    (h : Polling c z .sd2 (rounds ++ rest) s t) :
    ∃ u, pollOpCond t = .go () u ∧ Answered c z u ∧ u.port.script = rest ∧ u.pgen = .sd2 ∧ u.pam = t.pam := by
  have ht : Answered c z (setT0 (now t) t) :=
    ⟨⟨h.cfg, h.unresolved, h.byteMode, h.noCapacity, h.clk, h.going⟩, h.settled, h.ready, h.noTimeout⟩
  obtain ⟨u, he, hr⟩ := pollV2_at hrounds (left := pollBound c.tInit (setT0 (now t) t)) ht.toMid h.pgen h.script rfl
    (by simp only [pollBound, setT0_port, h.script, List.length_append]; omega)
  refine ⟨setFsm .opCondPoll u, ?_, hr.toAnswered.setFsm _, hr.script, hr.pgen, hr.pam⟩
  rw [pollOpCond_eq h]
  simp only [roundOf_sd2, if_true]
  rw [he]; rfl

/-- The polling of a legacy card that becomes ready (R143, R144). -/
theorem pollOpCond_legacy {c : Config} {z : Bool} {final : Gen} {rounds rest : List Answer}
    (hrounds : LegacyRounds c .sd1 0 final rounds) {s t : State} (h : Polling c z .sd1 (rounds ++ rest) s t) :
    ∃ u, pollOpCond t = .go () u ∧ Answered c z u ∧ u.port.script = rest ∧ u.pgen = final ∧ u.pam = t.pam := by
  have ht : Answered c z (setT0 (now t) t) :=
    ⟨⟨h.cfg, h.unresolved, h.byteMode, h.noCapacity, h.clk, h.going⟩, h.settled, h.ready, h.noTimeout⟩
  obtain ⟨u, he, hr⟩ := pollLegacy_at hrounds (left := pollBound c.tInit (setT0 (now t) t)) ht.toMid h.pgen h.script rfl
    (by simp only [pollBound, setT0_port, h.script, List.length_append]; omega)
  refine ⟨u, ?_, hr.toAnswered, hr.script, hr.pgen, hr.pam⟩
  rw [pollOpCond_eq h]
  simp only [roundOf_sd1, reduceCtorEq, if_false]
  rw [he]; rfl

/-- A legacy card's class does not come out as version 2. -/
theorem LegacyRounds.final_legacy {c : Config} {g final : Gen} {spent : Nat} {l : List Answer}
    (h : LegacyRounds c g spent final l) : final = .sd1 ∨ final = .mmc := by
  induction h <;> simp_all

/-- Everything up to the block-length command (R134 to R145). -/
theorem cardReady_at {c : Config} {z : Bool} {s : State} (hs : Mid c z s) {l rest : List Answer}
    (h : s.port.script = l ++ rest) (hl : CardReady c l) :
    ∃ t1 t2 t3 t4, resetCard s = .go () t1 ∧ probe t1 = .go () t2 ∧ pollOpCond t2 = .go () t3 ∧
      readMode t3 = .go () t4 ∧ Answered c z t4 ∧ t4.port.script = rest := by
  rcases hl with ⟨ident, rounds, ocr, so, r, rfl, hident, hrounds, hocr, hso⟩ | ⟨ident, rounds, final, rfl, hident, hrounds⟩
  · obtain ⟨t1, t2, h1, h2, hp⟩ := identified_at hs (rest := rounds ++ (ocr ++ rest)) (by simpa using h) hident
    obtain ⟨t3, h3, ha3, hs3, hg3, -⟩ := pollOpCond_v2 hrounds hp
    obtain ⟨t4, h4, ha4, hr4⟩ := readMode_at ha3 hg3 hs3 hocr hso
    exact ⟨t1, t2, t3, _, h1, h2, h3, h4, ⟨⟨ha4.cfg, ha4.unresolved, ha4.byteMode, ha4.noCapacity, ha4.clk, ha4.going⟩,
      ha4.settled, ha4.ready, ha4.noTimeout⟩, hr4.script⟩
  · obtain ⟨t1, t2, h1, h2, hp⟩ := identified_at hs (rest := rounds ++ rest) (by simpa using h) hident
    obtain ⟨t3, h3, ha3, hs3, hg3, -⟩ := pollOpCond_legacy hrounds hp
    refine ⟨t1, t2, t3, t3, h1, h2, h3, ?_, ha3, hs3⟩
    rw [readMode, if_neg]
    rcases hrounds.final_legacy with hf | hf <;> rw [hg3, hf] <;> simp

end Sys2Proof.Machine
end

