-- ==== Sys2Proof/Laws/PerInstr.lean ====
section
/-!
SUPPORT. Statements about every instruction as syntax, one lemma per constructor: the encoding has the bits of the
instruction's row of spec/opcode_table.json.
-/
namespace Sys2Proof.Laws.RowMatch

open Machine (frameWord)

/-- The `match` of the instruction's row: the op code above two zero operands, or the first byte and the end bit of a
frame. -/
def rowMatch : Instr → Nat
  | .crc7Clear => 0x010000000000000000
  | .crc7Byte .. => 0x020000000000000000
  | .crc7Bit .. => 0x030000000000000000
  | .crc7Read => 0x040000000000000000
  | .frameBuild .. => 0x050000000000000000
  | .crc16Clear => 0x080000000000000000
  | .crc16Byte .. => 0x090000000000000000
  | .crc16Read => 0x0A0000000000000000
  | .sendCommand .. => 0x100000000000000000
  | .init => 0x200000000000000000
  | .readBlock .. => 0x300000000000000000
  | .writeBlock .. => 0x310000000000000000
  | .readMulti .. => 0x320000000000000000
  | .writeMulti .. => 0x330000000000000000
  | .ready => 0x400000000000000000
  | .present => 0x410000000000000000
  | .cardType => 0x420000000000000000
  | .cReset .. => 0x400000000001
  | .cOpcondMmc .. => 0x410000000001
  | .cIfcond .. => 0x480000000001
  | .cStop .. => 0x4C0000000001
  | .cBlklen .. => 0x500000000001
  | .cRd1 .. => 0x510000000001
  | .cRdm .. => 0x520000000001
  | .cWr1 .. => 0x580000000001
  | .cWrm .. => 0x590000000001
  | .cOpcondApp .. => 0x690000000001
  | .cApp .. => 0x770000000001
  | .cOcr .. => 0x7A0000000001

/-- The encoding, under the row's mask, is the row's match. -/
def Statement (i : Instr) : Prop :=
  match encode Config.default i with
  | .request w => w &&& 0xFF0000000000000000#72 = BitVec.ofNat 72 (rowMatch i)
  | .frame f => f &&& 0xFF0000000001#48 = BitVec.ofNat 48 (rowMatch i)

theorem request_masked (op : Byte) (a b : Word) : reqWord op a b &&& 0xFF0000000000000000#72 = reqWord op 0 0 := by
  have hm : ∀ i : Fin 72, (0xFF0000000000000000#72).getLsbD i = decide (64 ≤ i.val) := by decide
  apply BitVec.eq_of_getLsbD_eq
  intro i hi
  rw [BitVec.getLsbD_and, hm ⟨i, hi⟩, reqWord_getLsbD, reqWord_getLsbD]
  by_cases h : 64 ≤ i
  · rw [if_neg (by omega), if_neg (by omega), if_neg (by omega), if_neg (by omega), decide_eq_true h, Bool.and_true]
  · rw [decide_eq_false h, Bool.and_false]
    split_ifs
    · exact BitVec.getLsbD_zero.symm
    · exact BitVec.getLsbD_zero.symm
    · omega

theorem frame_masked (index : BitVec 6) (arg : Word) (crc : BitVec 7) :
    frameWord index arg crc &&& 0xFF0000000001#48 = frameWord index 0 0 := by
  have hm : ∀ i : Fin 48, (0xFF0000000001#48).getLsbD i = decide (i.val = 0 ∨ 40 ≤ i.val) := by decide
  apply BitVec.eq_of_getLsbD_eq
  intro i hi
  have hmi : (0xFF0000000001#48).getLsbD i = decide (i = 0 ∨ 40 ≤ i) := hm ⟨i, hi⟩
  rw [BitVec.getLsbD_and, hmi, frameWord_getLsbD, frameWord_getLsbD]
  by_cases h0 : i = 0
  · subst h0; rfl
  by_cases h : 40 ≤ i
  · rw [decide_eq_true (p := i = 0 ∨ 40 ≤ i) (.inr h), Bool.and_true]
    simp only [if_neg h0, show ¬ i < 8 by omega, show ¬ i < 40 by omega, if_false]
  · rw [decide_eq_false (p := i = 0 ∨ 40 ≤ i) (by omega), Bool.and_false]
    simp only [if_neg h0, show i < 40 by omega, if_true]
    split_ifs
    · exact BitVec.getLsbD_zero.symm
    · exact BitVec.getLsbD_zero.symm

/-- A host operation's encoding under the mask. -/
theorem of_request {i : Instr} {op : Byte} {a b : Word} (m : Nat)
    (hi : encode Config.default i = .request (reqWord op a b))
    (hm : rowMatch i = m) (h : reqWord op 0 0 = BitVec.ofNat 72 m) : Statement i := by
  unfold Statement
  rw [hi, hm, ← h]
  exact request_masked op a b

/-- A wire command's encoding under the mask. -/
theorem of_frame {i : Instr} {index : BitVec 6} {arg : Word} {crc : BitVec 7} (m : Nat)
    (hi : encode Config.default i = .frame (frameWord index arg crc)) (hm : rowMatch i = m)
    (h : frameWord index 0 0 = BitVec.ofNat 48 m) : Statement i := by
  unfold Statement
  rw [hi, hm, ← h]
  exact frame_masked index arg crc

theorem crc7Clear : Statement .crc7Clear :=
  of_request 0x010000000000000000 rfl rfl (by decide)
theorem crc7Byte (b : Byte) : Statement (.crc7Byte b) :=
  of_request 0x020000000000000000 rfl rfl (by decide)
theorem crc7Bit (d : Bool) : Statement (.crc7Bit d) :=
  of_request 0x030000000000000000 rfl rfl (by decide)
theorem crc7Read : Statement .crc7Read :=
  of_request 0x040000000000000000 rfl rfl (by decide)
theorem frameBuild (index : BitVec 6) (arg : Word) : Statement (.frameBuild index arg) :=
  of_request 0x050000000000000000 rfl rfl (by decide)
theorem crc16Clear : Statement .crc16Clear :=
  of_request 0x080000000000000000 rfl rfl (by decide)
theorem crc16Byte (b : Byte) : Statement (.crc16Byte b) :=
  of_request 0x090000000000000000 rfl rfl (by decide)
theorem crc16Read : Statement .crc16Read :=
  of_request 0x0A0000000000000000 rfl rfl (by decide)
theorem sendCommand (index : BitVec 6) (arg : Word) (ext keep : Bool) : Statement (.sendCommand index arg ext keep) :=
  of_request 0x100000000000000000 rfl rfl (by decide)
theorem init : Statement .init :=
  of_request 0x200000000000000000 rfl rfl (by decide)
theorem readBlock (sector : Word) : Statement (.readBlock sector) :=
  of_request 0x300000000000000000 rfl rfl (by decide)
theorem writeBlock (sector : Word) : Statement (.writeBlock sector) :=
  of_request 0x310000000000000000 rfl rfl (by decide)
theorem readMulti (sector count : Word) : Statement (.readMulti sector count) :=
  of_request 0x320000000000000000 rfl rfl (by decide)
theorem writeMulti (sector count : Word) : Statement (.writeMulti sector count) :=
  of_request 0x330000000000000000 rfl rfl (by decide)
theorem ready : Statement .ready :=
  of_request 0x400000000000000000 rfl rfl (by decide)
theorem present : Statement .present :=
  of_request 0x410000000000000000 rfl rfl (by decide)
theorem cardType : Statement .cardType :=
  of_request 0x420000000000000000 rfl rfl (by decide)
theorem cReset (arg : Word) (crc : BitVec 7) : Statement (.cReset arg crc) :=
  of_frame 0x400000000001 rfl rfl (by decide)
theorem cOpcondMmc (arg : Word) (crc : BitVec 7) : Statement (.cOpcondMmc arg crc) :=
  of_frame 0x410000000001 rfl rfl (by decide)
theorem cIfcond (arg : Word) (crc : BitVec 7) : Statement (.cIfcond arg crc) :=
  of_frame 0x480000000001 rfl rfl (by decide)
theorem cStop (arg : Word) (crc : BitVec 7) : Statement (.cStop arg crc) :=
  of_frame 0x4C0000000001 rfl rfl (by decide)
theorem cBlklen (arg : Word) (crc : BitVec 7) : Statement (.cBlklen arg crc) :=
  of_frame 0x500000000001 rfl rfl (by decide)
theorem cRd1 (arg : Word) (crc : BitVec 7) : Statement (.cRd1 arg crc) :=
  of_frame 0x510000000001 rfl rfl (by decide)
theorem cRdm (arg : Word) (crc : BitVec 7) : Statement (.cRdm arg crc) :=
  of_frame 0x520000000001 rfl rfl (by decide)
theorem cWr1 (arg : Word) (crc : BitVec 7) : Statement (.cWr1 arg crc) :=
  of_frame 0x580000000001 rfl rfl (by decide)
theorem cWrm (arg : Word) (crc : BitVec 7) : Statement (.cWrm arg crc) :=
  of_frame 0x590000000001 rfl rfl (by decide)
theorem cOpcondApp (arg : Word) (crc : BitVec 7) : Statement (.cOpcondApp arg crc) :=
  of_frame 0x690000000001 rfl rfl (by decide)
theorem cApp (arg : Word) (crc : BitVec 7) : Statement (.cApp arg crc) :=
  of_frame 0x770000000001 rfl rfl (by decide)
theorem cOcr (arg : Word) (crc : BitVec 7) : Statement (.cOcr arg crc) :=
  of_frame 0x7A0000000001 rfl rfl (by decide)

end Sys2Proof.Laws.RowMatch
end

