-- ==== Sys2Proof/Laws/Transfer.lean ====
section
/-!
SUPPORT. What the transfer helpers do, for every state and against a script (spec/43_transfer.md R160 to R163, R181).
-/
namespace Sys2Proof.Machine

/-! ## Payload -/

/-- Receiving a payload stores the bytes received and feeds them to `crc16`. -/
theorem recvPayload_spec (count a : Nat) (s : State) :
    ∃ data port, data.length = count ∧ recvPayload count a s =
        { s with
          crc16 := data.foldl (crc16Byte s.cfg.crc16Poly) s.crc16
          buf := Memory.writeAll s.buf a data
          port := port } ∧ Port.Sent (idleOut count) s.port port := by
  induction count generalizing a s with
  | zero => exact ⟨[], s.port, rfl, rfl, .refl _⟩
  | succ count ih =>
    simp only [recvPayload]
    have hx := xchg_sent Config.idleByte s
    obtain ⟨data, port, hl, he, hs⟩ := ih (a + 1) (storeBuf a (xchg Config.idleByte s).1 (setCrc16 (crc16Byte
      (xchg Config.idleByte s).2.cfg.crc16Poly (xchg Config.idleByte s).2.crc16 (xchg Config.idleByte s).1)
      (xchg Config.idleByte s).2))
    refine ⟨(xchg Config.idleByte s).1 :: data, port, by simp [hl], ?_, ?_⟩
    · rw [he]; rfl
    · rw [Nat.add_comm, idleOut_add]; exact hx.trans hs

theorem recvPayload_at {l rest : List Answer} (a : Nat) {s : State} (h : s.port.script = l ++ rest) :
    ∃ port, recvPayload l.length a s =
        { s with
          crc16 := (rxOf l).foldl (crc16Byte s.cfg.crc16Poly) s.crc16
          buf := Memory.writeAll s.buf a (rxOf l)
          port := port } ∧ Port.Used l rest (idleOut l.length) s.port port := by
  induction l generalizing a s with
  | nil => exact ⟨s.port, rfl, h, h, rfl, rfl, .refl _⟩
  | cons b l ih =>
    simp only [recvPayload, List.length_cons]
    have hx := xchg_used Config.idleByte h
    obtain ⟨port, he, hu⟩ := ih (a + 1) (s := storeBuf a (xchg Config.idleByte s).1 (setCrc16 (crc16Byte
      (xchg Config.idleByte s).2.cfg.crc16Poly (xchg Config.idleByte s).2.crc16 (xchg Config.idleByte s).1)
      (xchg Config.idleByte s).2)) hx.after
    refine ⟨port, ?_, Port.Used.trans (l := [b]) (os := [.tx Config.idleByte]) hx hu⟩
    rw [he, xchg_rx_script _ h]; rfl

/-- Sending a payload puts the bytes of `buf` on the bus and feeds them to `crc16`. -/
theorem sendPayload_spec (count a : Nat) (s : State) :
    ∃ port, sendPayload count a s =
        { s with
          crc16 := (Memory.slice s.buf a count).foldl (crc16Byte s.cfg.crc16Poly) s.crc16
          port := port } ∧ Port.Sent ((Memory.slice s.buf a count).map .tx) s.port port := by
  induction count generalizing a s with
  | zero => exact ⟨s.port, rfl, .refl _⟩
  | succ count ih =>
    simp only [sendPayload]
    have hx := xchg_sent (loadBuf a s) s
    obtain ⟨port, he, hs⟩ := ih (a + 1) (setCrc16 (crc16Byte (send (loadBuf a s) s).cfg.crc16Poly
      (send (loadBuf a s) s).crc16 (loadBuf a s)) (send (loadBuf a s) s))
    exact ⟨port, by rw [he]; rfl, hx.trans hs⟩

theorem sendPayload_at {l rest : List Answer} (a : Nat) {s : State} (h : s.port.script = l ++ rest) :
    ∃ port, sendPayload l.length a s =
        { s with
          crc16 := (Memory.slice s.buf a l.length).foldl (crc16Byte s.cfg.crc16Poly) s.crc16
          port := port } ∧ Port.Used l rest ((Memory.slice s.buf a l.length).map .tx) s.port port := by
  induction l generalizing a s with
  | nil => exact ⟨s.port, rfl, h, h, rfl, rfl, .refl _⟩
  | cons b l ih =>
    simp only [sendPayload, List.length_cons]
    have hx := xchg_used (loadBuf a s) h
    obtain ⟨port, he, hu⟩ := ih (a + 1) (s := setCrc16 (crc16Byte (send (loadBuf a s) s).cfg.crc16Poly
      (send (loadBuf a s) s).crc16 (loadBuf a s)) (send (loadBuf a s) s)) hx.after
    exact ⟨port, by rw [he]; rfl, Port.Used.trans (l := [b]) (os := [.tx (loadBuf a s)]) hx hu⟩

/-! ## Waits of a transfer -/

theorem waitReady_at {budget : Nat} {s : State} {l rest : List Answer} (h : s.port.script = l ++ rest)
    (hl : IdleAnswer budget l) :
    ∃ port, waitReady budget s = .go true { s with t0 := s.port.tick, linkReady := true, port := port } ∧
      Port.Used l rest (idleOut l.length) s.port port := by
  obtain ⟨gap, a, rfl, hgap, ha⟩ := hl
  obtain ⟨port, he, hu⟩ := waitFor_hit (hit := fun r => r == Config.idleByte) (budget := budget) (s := s) (gap := gap)
    (a := a) (rest := rest) (by simpa using h) hgap (by simpa using ha)
  refine ⟨port, ?_, by simpa using hu⟩
  unfold waitReady
  rw [he]; rfl

theorem waitReady_expired {budget : Nat} {s : State} {l rest : List Answer} (h : s.port.script = l ++ rest)
    (hl : Expires (fun r => r == Config.idleByte) budget l) :
    ∃ port, waitReady budget s = .go false { s with t0 := s.port.tick, linkReady := false, port := port } ∧
      Port.Used l rest (idleOut l.length) s.port port := by
  obtain ⟨port, he, hu⟩ := waitFor_expired (budget := budget) (s := s) h hl
  refine ⟨port, ?_, hu⟩
  unfold waitReady
  rw [he]; rfl

theorem busyPoll_at {s : State} {l rest : List Answer} (h : s.port.script = l ++ rest)
    (hl : IdleAnswer s.cfg.tProgram l) :
    ∃ port, busyPoll s = .go .ok { s with t0 := s.port.tick, linkReady := true, port := port } ∧
      Port.Used l rest (idleOut l.length) s.port port := by
  obtain ⟨gap, a, rfl, hgap, ha⟩ := hl
  obtain ⟨port, he, hu⟩ := waitFor_hit (hit := fun r => r == Config.idleByte) (budget := s.cfg.tProgram) (s := s)
    (gap := gap) (a := a) (rest := rest) (by simpa using h) hgap (by simpa using ha)
  refine ⟨port, ?_, by simpa using hu⟩
  unfold busyPoll
  rw [he]; rfl

theorem busyPoll_expired {s : State} {l rest : List Answer} (h : s.port.script = l ++ rest)
    (hl : Expires (fun r => r == Config.idleByte) s.cfg.tProgram l) :
    ∃ port, busyPoll s = .go .programTimeout
        { s with t0 := s.port.tick, linkReady := false, lastTimeout := true, port := port } ∧
      Port.Used l rest (idleOut l.length) s.port port := by
  obtain ⟨port, he, hu⟩ := waitFor_expired (budget := s.cfg.tProgram) (s := s) h hl
  refine ⟨port, ?_, hu⟩
  unfold busyPoll
  rw [he]; rfl

/-! ## One block received -/

theorem extract_crc (crc : BitVec 16) : (crc.extractLsb' 8 8 ++ crc.extractLsb' 0 8 : BitVec (8 + 8)) = crc := by
  apply BitVec.eq_of_getLsbD_eq
  intro i hi
  simp only [BitVec.getLsbD_append, BitVec.getLsbD_extractLsb']
  split_ifs <;> rw [decide_eq_true (by omega), Bool.true_and] <;> congr 1 <;> omega

theorem checkCrc16_at {s : State} {hi lo : Answer} {rest : List Answer} {crc : BitVec 16}
    (h : s.port.script = hi :: lo :: rest) (hhi : hi.rx = crc.extractLsb' 8 8) (hlo : lo.rx = crc.extractLsb' 0 8) :
    ∃ port, checkCrc16 s = (if crc = s.crc16 then .ok else .dataCrcError, { s with linkReady := true, port := port }) ∧
      Port.Used [hi, lo] rest (idleOut 2) s.port port := by
  have h1 := xchg_used Config.idleByte h
  have h2 := xchg_used Config.idleByte h1.after
  refine ⟨_, ?_, h1.trans h2⟩
  unfold checkCrc16
  dsimp only
  rw [xchg_rx_script _ h, xchg_rx_script _ h1.after, hhi, hlo, extract_crc]
  simp only [ne_eq, ite_not]
  rfl

/-- A block received against its answers (R161). -/
theorem recvBlock_at {k : Nat} {tok : Byte} {s : State} {payload : List Byte} {crc : BitVec 16}
    {l rest : List Answer} (h : s.port.script = l ++ rest) (hl : BlockAnswer s.cfg tok payload crc l) :
    ∃ port, recvBlock k tok s =
        .go (if crc = crc16Of s.cfg.crc16Poly s.cfg.crc16Init payload then .ok else .dataCrcError)
          { s with
            t0 := s.port.tick
            linkReady := true
            crc16 := crc16Of s.cfg.crc16Poly s.cfg.crc16Init payload
            buf := Memory.writeAll s.buf (512 * k) payload
            port := port } ∧
      Port.Used l rest (idleOut l.length) s.port port := by
  obtain ⟨gap, a, data, hi, lo, rfl, hgap, ha, hdata, hlen, hhi, hlo⟩ := hl
  unfold recvBlock
  generalize Config.blockLen = count at hlen ⊢
  obtain ⟨p1, he1, hu1⟩ := waitFor_hit (hit := fun r => r == tok) (budget := s.cfg.tToken) (s := s) (gap := gap)
    (a := a) (rest := data ++ ([hi, lo] ++ rest)) (by simpa using h) hgap (by simpa using ha)
  obtain ⟨p2, he2, hu2⟩ := recvPayload_at (l := data) (rest := [hi, lo] ++ rest) (512 * k)
    (s := setCrc16 s.cfg.crc16Init { s with t0 := s.port.tick, port := p1 }) hu1.after
  have hn : data.length = count := by rw [← hlen, ← hdata, rxOf, List.length_map]
  rw [hn] at he2
  obtain ⟨p3, he3, hu3⟩ := checkCrc16_at (crc := crc) (hi := hi) (lo := lo) (rest := rest)
    (s := recvPayload count (512 * k) (setCrc16 s.cfg.crc16Init { s with t0 := s.port.tick, port := p1 }))
    (by rw [he2]; exact hu2.after) hhi hlo
  have hu := (Port.Used.trans (l := gap ++ [a]) (l' := data) hu1 hu2).trans (by rw [he2] at hu3; exact hu3)
  refine ⟨p3, ?_, ?_⟩
  · rw [he1]
    simp only [Flow.andThen, if_true]
    rw [he3, he2, ← hdata]
    rfl
  · have e : idleOut (gap ++ a :: (data ++ [hi, lo])).length =
        idleOut (gap.length + 1) ++ idleOut data.length ++ idleOut 2 := by
      rw [← idleOut_add, ← idleOut_add]; congr 1; simp; omega
    rw [e]
    simpa using hu

/-- The token wait runs out (R161). -/
theorem recvBlock_expired {k : Nat} {tok : Byte} {s : State} {l rest : List Answer} (h : s.port.script = l ++ rest)
    (hl : Expires (fun r => r == tok) s.cfg.tToken l) :
    ∃ port, recvBlock k tok s = .go .timeout
        { s with t0 := s.port.tick, linkReady := false, lastTimeout := true, port := port } ∧
      Port.Used l rest (idleOut l.length) s.port port := by
  obtain ⟨port, he, hu⟩ := waitFor_expired (budget := s.cfg.tToken) (s := s) h hl
  refine ⟨port, ?_, hu⟩
  unfold recvBlock
  rw [he]; rfl

/-! ## One block sent -/

/-- Token, payload, CRC-16 and the exchange of the data response, for every state (R162). -/
theorem sendData_spec (k : Nat) (tok : Byte) (s : State) :
    ∃ d port, sendData k tok s = (dataResponse s.cfg d,
        { s with
          linkReady := false
          crc16 := crc16Of s.cfg.crc16Poly s.cfg.crc16Init (Memory.slice s.buf (512 * k) Config.blockLen)
          port := port }) ∧
      Port.Sent (blockOut s.cfg tok (Memory.slice s.buf (512 * k) Config.blockLen)) s.port port := by
  unfold sendData
  generalize Config.blockLen = count
  extract_lets s1 s2 s3 s4 x
  have h1 : Port.Sent [.tx tok] s.port s1.port := xchg_sent tok (lineBusy s)
  have e1 : s1 = { s with linkReady := false, port := s1.port } := rfl
  clear_value s1
  obtain ⟨p2, e2, h2⟩ := sendPayload_spec count (512 * k) (setCrc16 s1.cfg.crc16Init s1)
  have e2' : s2 = { s with
      linkReady := false
      crc16 := crc16Of s.cfg.crc16Poly s.cfg.crc16Init (Memory.slice s.buf (512 * k) count)
      port := p2 } := by rw [show s2 = _ from e2, e1]; rfl
  clear_value s2
  have h12 : Port.Sent ([.tx tok] ++ (Memory.slice s.buf (512 * k) count).map .tx) s.port s2.port := by
    rw [e2']
    refine h1.trans ?_
    have : (setCrc16 s1.cfg.crc16Init s1).buf = s.buf := by rw [e1]; rfl
    rw [← this]; exact h2
  have hc2 : s2.crc16 = crc16Of s.cfg.crc16Poly s.cfg.crc16Init (Memory.slice s.buf (512 * k) count) := by rw [e2']
  have h3 : Port.Sent _ s2.port s3.port := xchg_sent (s2.crc16.extractLsb' 8 8) s2
  have e3 : s3 = { s2 with port := s3.port } := rfl
  clear_value s3
  have h4 : Port.Sent _ s3.port s4.port := xchg_sent (s3.crc16.extractLsb' 0 8) s3
  have e4 : s4 = { s3 with port := s4.port } := rfl
  clear_value s4
  have h5 : Port.Sent _ s4.port x.2.port := xchg_sent Config.idleByte s4
  have e5 : x = (x.1, { s4 with port := x.2.port }) := rfl
  clear_value x
  have hc3 : s3.crc16 = s2.crc16 := by rw [e3]
  have hcfg : s4.cfg = s.cfg := by rw [e4, e3, e2']
  refine ⟨x.1, x.2.port, ?_, ?_⟩
  · rw [hcfg]
    generalize x.2.port = y at e5 ⊢
    generalize x.1 = z at e5 ⊢
    rw [e5, e4, e3, e2']
  · rw [hc3] at h4
    have hu := h12.trans (h3.trans (h4.trans h5))
    rw [hc2] at hu
    simpa [blockOut, idleOut] using hu

theorem sendData_at {k : Nat} {tok : Byte} {s : State} {head : List Answer} {d : Answer} {rest : List Answer}
    (h : s.port.script = head ++ d :: rest) (hl : head.length = Config.blockLen + 3) :
    ∃ port, sendData k tok s = (dataResponse s.cfg d.rx,
        { s with
          linkReady := false
          crc16 := crc16Of s.cfg.crc16Poly s.cfg.crc16Init (Memory.slice s.buf (512 * k) Config.blockLen)
          port := port }) ∧
      Port.Used (head ++ [d]) rest (blockOut s.cfg tok (Memory.slice s.buf (512 * k) Config.blockLen)) s.port port := by
  unfold sendData
  generalize Config.blockLen = count at hl ⊢
  obtain ⟨a, head, rfl⟩ : ∃ a l, head = a :: l := by
    cases head with
    | nil => simp at hl
    | cons a l => exact ⟨a, l, rfl⟩
  have hl' : head.length = count + 2 := by simpa using hl
  obtain ⟨hi, lo, hpair⟩ : ∃ hi lo, head.drop count = [hi, lo] := by
    have : (head.drop count).length = 2 := by rw [List.length_drop, hl']; omega
    match hd : head.drop count, this with
    | [x, y], _ => exact ⟨x, y, rfl⟩
  have hdata : (head.take count).length = count := by rw [List.length_take, hl']; omega
  have hsplit : head = head.take count ++ [hi, lo] := by rw [← hpair, List.take_append_drop]
  revert hdata hsplit
  generalize head.take count = data
  intro hdata hsplit
  subst hsplit
  extract_lets s1 s2 s3 s4 x
  have h1 : Port.Used [a] (data ++ (hi :: lo :: d :: rest)) [.tx tok] s.port s1.port :=
    xchg_used (s := lineBusy s) tok (by simpa using h)
  have e1 : s1 = { s with linkReady := false, port := s1.port } := rfl
  clear_value s1
  obtain ⟨p2, e2, h2⟩ := sendPayload_at (l := data) (rest := hi :: lo :: d :: rest) (512 * k)
    (s := setCrc16 s1.cfg.crc16Init s1) h1.after
  rw [hdata] at e2 h2
  have e2' : s2 = { s with
      linkReady := false
      crc16 := crc16Of s.cfg.crc16Poly s.cfg.crc16Init (Memory.slice s.buf (512 * k) count)
      port := p2 } := by rw [show s2 = _ from e2, e1]; rfl
  clear_value s2
  have h12 : Port.Used ([a] ++ data) (hi :: lo :: d :: rest) ([.tx tok] ++ (Memory.slice s.buf (512 * k) count).map .tx)
      s.port s2.port := by
    rw [e2']
    refine h1.trans ?_
    have : (setCrc16 s1.cfg.crc16Init s1).buf = s.buf := by rw [e1]; rfl
    rw [← this]; exact h2
  have hc2 : s2.crc16 = crc16Of s.cfg.crc16Poly s.cfg.crc16Init (Memory.slice s.buf (512 * k) count) := by rw [e2']
  have h3 : Port.Used [hi] (lo :: d :: rest) _ s2.port s3.port := xchg_used (s2.crc16.extractLsb' 8 8) h12.after
  have e3 : s3 = { s2 with port := s3.port } := rfl
  clear_value s3
  have h4 : Port.Used [lo] (d :: rest) _ s3.port s4.port := xchg_used (s3.crc16.extractLsb' 0 8) h3.after
  have e4 : s4 = { s3 with port := s4.port } := rfl
  clear_value s4
  have h5 : Port.Used [d] rest _ s4.port x.2.port := xchg_used Config.idleByte h4.after
  have e5 : x = (d.rx, { s4 with port := x.2.port }) := Prod.ext (xchg_rx_script _ h4.after) rfl
  clear_value x
  have hc3 : s3.crc16 = s2.crc16 := by rw [e3]
  have hcfg : s4.cfg = s.cfg := by rw [e4, e3, e2']
  refine ⟨x.2.port, ?_, ?_⟩
  · rw [hcfg]
    generalize x.2.port = y at e5 ⊢
    rw [e5, e4, e3, e2']
  · rw [hc3] at h4
    have hu := h12.trans (l' := [hi, lo, d]) (rest := rest) (h3.trans (h4.trans h5))
    rw [hc2] at hu
    simpa [blockOut, idleOut] using hu

/-- A block sent against its answers (R162). -/
theorem sendBlock_at {k : Nat} {tok : Byte} {s : State} {response : Byte} {l rest : List Answer}
    (h : s.port.script = l ++ rest) (hl : SendAnswer s.cfg response l) :
    ∃ waits polls t0 port, sendBlock k tok s = .go (dataResponse s.cfg response)
        { s with
          t0 := t0
          linkReady := decide (dataResponse s.cfg response = .ok)
          crc16 := crc16Of s.cfg.crc16Poly s.cfg.crc16Init (Memory.slice s.buf (512 * k) Config.blockLen)
          port := port } ∧
      Port.Used l rest (idleOut waits ++ blockOut s.cfg tok (Memory.slice s.buf (512 * k) Config.blockLen) ++
        idleOut polls) s.port port := by
  obtain ⟨wait, head, d, busy, rfl, hwait, hhead, hd, hbusy⟩ := hl
  obtain ⟨p1, he1, hu1⟩ := waitReady_at (s := s) (l := wait) (rest := head ++ d :: (busy ++ rest)) (by simpa using h)
    hwait
  obtain ⟨p2, he2, hu2⟩ := sendData_at (k := k) (tok := tok) (s := { s with t0 := s.port.tick, linkReady := true, port := p1 })
    hu1.after hhead
  rw [hd] at he2
  have hu12 := Port.Used.trans (l := wait) (l' := head ++ [d]) (rest := busy ++ rest) (by simpa using hu1) hu2
  clear hhead
  generalize Memory.slice s.buf (512 * k) Config.blockLen = payload at *
  unfold sendBlock
  rw [he1]
  simp only [Flow.andThen, if_true]
  rw [he2]
  by_cases hok : dataResponse s.cfg response = .ok
  · rw [if_pos hok] at hbusy
    obtain ⟨p3, he3, hu3⟩ := busyPoll_at (l := busy) (rest := rest)
      (s := { s with
        t0 := s.port.tick
        linkReady := false
        crc16 := crc16Of s.cfg.crc16Poly s.cfg.crc16Init payload
        port := p2 }) hu2.after hbusy
    refine ⟨wait.length, busy.length, p2.tick, p3, ?_, by simpa using hu12.trans hu3⟩
    rw [if_neg (by simpa using hok), he3, hok]; rfl
  · rw [if_neg hok] at hbusy
    subst hbusy
    refine ⟨wait.length, 0, s.port.tick, p2, ?_, by simpa using hu12⟩
    rw [if_pos hok]
    simp [hok]

end Sys2Proof.Machine
end

