-- ==== Sys2Proof/Laws/TransferScript.lean ====
section
/-!
SUPPORT. The phases of a transfer against a script: the gate, the command phase, runs of blocks, the end of a multi-block
operation (spec/43_transfer.md R160, R172, R176; spec/60_exceptions.md R221).
-/
namespace Sys2Proof.Machine

theorem gate_pass {s : State} {sector : Word} {count : Nat} (h : gateCode s sector count = none) :
    gate sector count s = .go () s := by simp only [gate, h]

theorem gate_stop {s : State} {sector : Word} {count : Nat} {code : Code} (h : gateCode s sector count = some code) :
    gate sector count s = .stop (complete code s) := by simp only [gate, h]

/-- The command phase, answered with a status byte of 0 (R160). -/
theorem startTransfer_at {s : State} (index : BitVec 6) (sector : Word) {l rest : List Answer}
    (h : s.port.script = l ++ rest) (hl : CommandAnswer s.cfg index true false 0 0 l) :
    ∃ polls port, startTransfer index sector s = .go ()
        (lineBusy (afterCommand index (addrOf s.idAmode sector) true true polls 0 port s)) ∧
      Port.Used l rest (commandHead s.cfg index (addrOf s.idAmode sector) true s.settle ++ idleOut polls) s.port
        port := by
  obtain ⟨polls, port, he, -, -, hu⟩ := sendCommand_answered (arg := addrOf s.idAmode sector) (resel := true) h hl
  refine ⟨polls, port, ?_, by simpa using hu⟩
  unfold startTransfer checkR1
  rw [he]; rfl

/-- The command phase, answered with a status byte that is not 0 (R160). -/
theorem startTransfer_refused {s : State} (index : BitVec 6) (sector : Word) {l rest : List Answer} {status : Byte}
    (h : s.port.script = l ++ rest) (hl : CommandAnswer s.cfg index true false status 0 l) (hst : status ≠ 0) :
    ∃ polls port, startTransfer index sector s = .stop (finish
        (if classify status = .ok then .badResponse else classify status)
        { afterCommand index (addrOf s.idAmode sector) true true polls (status ++ (0 : Word) : BitVec (8 + 32)) port s
          with linkReady := decide (classify status ≠ .ok) }) ∧
      Port.Used l rest (commandHead s.cfg index (addrOf s.idAmode sector) true s.settle ++ idleOut polls) s.port
        port := by
  obtain ⟨polls, port, he, -, -, hu⟩ := sendCommand_answered (arg := addrOf s.idAmode sector) (resel := true) h hl
  refine ⟨polls, port, ?_, by simpa using hu⟩
  unfold startTransfer checkR1
  rw [he]
  simp only [Bool.false_eq_true, if_false]
  by_cases hc : classify status = .ok
  · rw [if_neg (by simpa using hc), if_pos hst, if_pos hc, decide_eq_false (by simpa using hc)]; rfl
  · rw [if_pos hc, if_neg hc, decide_eq_true hc]; rfl

/-! ## Runs of blocks -/

/-- Leading blocks whose CRC matches (R172): the loop comes to the block after them, each payload stands in `buf` in
order and is counted in `done`. -/
theorem recvBlocks_prefix {c : Config} {payloads : List (List Byte)} {l : List Answer}
    (hl : BlocksAnswer c c.tokStartMr payloads l) (m : Nat) {k : Nat} {s : State} {rest : List Answer} (hc : s.cfg = c)
    (h : s.port.script = l ++ rest) :
    ∃ t, recvBlocks (payloads.length + m) k s = recvBlocks m (k + payloads.length) t ∧
      t = { s with
        t0 := t.t0
        k := t.k
        code := t.code
        linkReady := t.linkReady
        crc16 := t.crc16
        buf := t.buf
        done := s.done + BitVec.ofNat 32 payloads.length
        port := t.port } ∧
      (payloads = [] → t = s) ∧
      (∀ hne : payloads ≠ [], t.crc16 = crc16Of c.crc16Poly c.crc16Init (payloads.getLast hne)) ∧
      Port.Used l rest (idleOut l.length) s.port t.port ∧
      (Memory.wf s.buf = true → Memory.wf t.buf = true ∧
        (∀ i (hi : i < payloads.length), Memory.slice t.buf (512 * (k + i)) Config.blockLen = payloads[i]) ∧
        ∀ a, a < 512 * k ∨ 512 * (k + payloads.length) ≤ a → Memory.read t.buf a = Memory.read s.buf a) := by
  induction hl generalizing k s rest with
  | nil =>
    refine ⟨s, by simp, ?_, fun _ => rfl, fun hne => absurd rfl hne, ⟨h, h, rfl, rfl, .refl _⟩,
      fun hw => ⟨hw, by simp, fun _ _ => rfl⟩⟩
    simp
  | @cons payload more l ls hblock hmore ih =>
    subst hc
    obtain ⟨p1, he, hu⟩ := recvBlock_at (k := k) (s := setK k s) (rest := ls ++ rest)
      (by rw [setK_port, h, List.append_assoc]) hblock
    rw [setK_cfg, if_pos rfl] at he
    obtain ⟨t, ht, hteq, hnil, hcrc, hut, hbuf⟩ := ih (k := k + 1) (s := setDone (s.done + 1) (setCode .ok
      { setK k s with
        t0 := s.port.tick
        linkReady := true
        crc16 := crc16Of s.cfg.crc16Poly s.cfg.crc16Init payload
        buf := Memory.writeAll s.buf (512 * k) payload
        port := p1 })) (rest := rest) rfl hu.after
    have hplen : payload.length = Config.blockLen := by obtain ⟨_, _, _, _, _, _, _, _, _, hp, _⟩ := hblock; exact hp
    refine ⟨t, ?_, ?_, fun h => (by simp at h), fun _ => ?_, ?_, fun hw => ?_⟩
    · rw [List.length_cons, show more.length + 1 + m = more.length + m + 1 by omega,
        show k + (more.length + 1) = k + 1 + more.length by omega]
      simp only [recvBlocks]
      rw [he]
      simp only [Flow.andThen, ne_eq, not_true_eq_false, if_false]
      exact ht
    · rw [hteq, List.length_cons]
      have : s.done + 1 + BitVec.ofNat 32 more.length = s.done + BitVec.ofNat 32 (more.length + 1) := by
        rw [Nat.add_comm, BitVec.ofNat_add]
        exact (BitVec.add_assoc _ _ _)
      simp only [setDone, setCode, setK, this]
    · cases more with
      | nil => rw [hnil rfl]; rfl
      | cons a more => exact (hcrc (List.cons_ne_nil _ _)).trans (by rw [List.getLast_cons (List.cons_ne_nil a more)])
    · have := hu.trans hut
      rwa [← idleOut_add, ← List.length_append] at this
    · obtain ⟨hw', hslice, hother⟩ := hbuf (Memory.wf_writeAll hw)
      refine ⟨hw', fun i hi => ?_, fun a ha => ?_⟩
      · obtain _ | i := i
        · simp only [Nat.add_zero, List.getElem_cons_zero]
          rw [Memory.slice_congr (m' := Memory.writeAll s.buf (512 * k) payload), ← hplen, Memory.slice_writeAll hw]
          intro j h1 h2
          exact hother j (.inl (by simp only [Config.blockLen] at h2; omega))
        · simp only [List.getElem_cons_succ]
          rw [← hslice i (by simpa using hi)]
          congr 1; omega
      · simp only [List.length_cons] at ha
        rw [hother a (by omega)]
        refine Memory.read_writeAll_other ?_
        have : payload.length = 512 := hplen
        omega

/-- Every block's CRC matches (R172). -/
theorem recvBlocks_at {c : Config} {payloads : List (List Byte)} {l : List Answer}
    (hl : BlocksAnswer c c.tokStartMr payloads l) {k : Nat} {s : State} {rest : List Answer} (hc : s.cfg = c)
    (h : s.port.script = l ++ rest) :
    ∃ t, recvBlocks payloads.length k s = .go .ok t ∧
      t = { s with
        t0 := t.t0
        k := t.k
        code := t.code
        linkReady := t.linkReady
        crc16 := t.crc16
        buf := t.buf
        done := s.done + BitVec.ofNat 32 payloads.length
        port := t.port } ∧
      (∀ hne : payloads ≠ [], t.crc16 = crc16Of c.crc16Poly c.crc16Init (payloads.getLast hne)) ∧
      Port.Used l rest (idleOut l.length) s.port t.port ∧
      (Memory.wf s.buf = true → Memory.wf t.buf = true ∧
        (∀ i (hi : i < payloads.length), Memory.slice t.buf (512 * (k + i)) Config.blockLen = payloads[i]) ∧
        ∀ a, a < 512 * k ∨ 512 * (k + payloads.length) ≤ a → Memory.read t.buf a = Memory.read s.buf a) := by
  obtain ⟨t, he, heq, -, hrest⟩ := recvBlocks_prefix hl 0 (k := k) hc h
  exact ⟨t, he, heq, hrest⟩

/-- The block loop of a `READ_MULTI`, up to its end or its first failure (R172). -/
theorem recvBlocks_stream {c : Config} {n : Nat} {payloads : List (List Byte)} {bad : Option (List Byte)} {code : Code}
    {l : List Answer} (hl : StreamBlocks c n payloads bad code l) {k : Nat} {s : State} {rest : List Answer}
    (hc : s.cfg = c) (h : s.port.script = l ++ rest) :
    ∃ t, recvBlocks n k s = .go code t ∧
      t = { s with
        t0 := t.t0
        k := t.k
        code := t.code
        linkReady := t.linkReady
        lastTimeout := t.lastTimeout
        crc16 := t.crc16
        buf := t.buf
        done := s.done + BitVec.ofNat 32 payloads.length
        port := t.port } ∧
      Port.Used l rest (idleOut l.length) s.port t.port ∧
      (Memory.wf s.buf = true → Memory.wf t.buf = true ∧
        (∀ i (hi : i < payloads.length), Memory.slice t.buf (512 * (k + i)) Config.blockLen = payloads[i]) ∧
        (∀ p, bad = some p → Memory.slice t.buf (512 * (k + payloads.length)) Config.blockLen = p) ∧
        ∀ a, a < 512 * k ∨ 512 * (k + (payloads.length + bad.toList.length)) ≤ a →
          Memory.read t.buf a = Memory.read s.buf a) := by
  cases hl with
  | all hblocks hn =>
    subst hn
    obtain ⟨t, he, heq, -, hu, hbuf⟩ := recvBlocks_at hblocks (k := k) hc h
    refine ⟨t, he, by rw [heq], hu, fun hw => ?_⟩
    obtain ⟨h1, h2, h3⟩ := hbuf hw
    exact ⟨h1, h2, fun p hp => (by simp at hp), by simpa using h3⟩
  | @badCrc payload crc l m hblocks hn hbad hcrc =>
    subst hc
    obtain ⟨r, rfl⟩ : ∃ r, n = payloads.length + (r + 1) := ⟨n - payloads.length - 1, by omega⟩
    obtain ⟨t, he, heq, -, -, hu, hbuf⟩ := recvBlocks_prefix hblocks (r + 1) (k := k) (rest := m ++ rest) rfl
      (by simpa using h)
    have hcfg : t.cfg = s.cfg := by rw [heq]
    obtain ⟨p, he2, hu2⟩ := recvBlock_at (k := k + payloads.length) (s := setK (k + payloads.length) t) (rest := rest)
      (by rw [setK_port]; exact hu.after) (by rw [setK_cfg, hcfg]; exact hbad)
    rw [setK_cfg, hcfg, if_neg hcrc] at he2
    have hplen : payload.length = 512 := by obtain ⟨_, _, _, _, _, _, _, _, _, hp, _⟩ := hbad; exact hp
    refine ⟨setCode .dataCrcError { setK (k + payloads.length) t with
      cfg := s.cfg
      t0 := t.port.tick
      linkReady := true
      crc16 := crc16Of s.cfg.crc16Poly s.cfg.crc16Init payload
      buf := Memory.writeAll t.buf (512 * (k + payloads.length)) payload
      port := p }, ?_, ?_, ?_, fun hw => ?_⟩
    · rw [he]
      simp only [recvBlocks]
      rw [hcfg, he2]
      simp only [Flow.andThen]
      rw [if_pos (by simp)]
      rfl
    · rw [heq]; rfl
    · have := hu.trans hu2
      rwa [← idleOut_add, ← List.length_append] at this
    · obtain ⟨hw', hslice, hother⟩ := hbuf hw
      refine ⟨Memory.wf_writeAll hw', fun i hi => ?_, fun q hq => ?_, fun a ha => ?_⟩
      · rw [← hslice i hi]
        refine Memory.slice_congr fun j h1 h2 => Memory.read_writeAll_other ?_
        simp only [Config.blockLen] at h2
        omega
      · obtain rfl : payload = q := by simpa using hq
        show Memory.slice (Memory.writeAll t.buf _ payload) _ _ = payload
        rw [show Config.blockLen = payload.length from hplen.symm, Memory.slice_writeAll hw']
      · simp only [Option.toList, List.length_singleton] at ha
        rw [← hother a (by omega)]
        exact Memory.read_writeAll_other (by omega)
  | @noToken l m hblocks hn hwait =>
    subst hc
    obtain ⟨r, rfl⟩ : ∃ r, n = payloads.length + (r + 1) := ⟨n - payloads.length - 1, by omega⟩
    obtain ⟨t, he, heq, -, -, hu, hbuf⟩ := recvBlocks_prefix hblocks (r + 1) (k := k) (rest := m ++ rest) rfl
      (by simpa using h)
    have hcfg : t.cfg = s.cfg := by rw [heq]
    obtain ⟨p, he2, hu2⟩ := recvBlock_expired (k := k + payloads.length) (tok := s.cfg.tokStartMr)
      (s := setK (k + payloads.length) t) (rest := rest)
      (by rw [setK_port]; exact hu.after) (by rw [setK_cfg, hcfg]; exact hwait)
    refine ⟨setCode .timeout { setK (k + payloads.length) t with
      t0 := t.port.tick
      linkReady := false
      lastTimeout := true
      port := p }, ?_, ?_, ?_, fun hw => ?_⟩
    · rw [he]
      simp only [recvBlocks]
      rw [hcfg, he2]
      simp only [Flow.andThen]
      rw [if_pos (by simp)]
      rfl
    · rw [heq]; rfl
    · have := hu.trans hu2
      rwa [← idleOut_add, ← List.length_append] at this
    · obtain ⟨h1, h2, h3⟩ := hbuf hw
      exact ⟨h1, h2, fun p hp => (by simp at hp), by simpa using h3⟩

theorem sendBlocks_at {c : Config} {n : Nat} {l : List Answer} (hl : SendsAnswer c n l) {k : Nat} {s : State}
    {rest : List Answer} (hc : s.cfg = c) (h : s.port.script = l ++ rest) :
    ∃ t os, sendBlocks n k s = .go () t ∧
      t = { s with
        t0 := t.t0
        k := t.k
        code := t.code
        linkReady := t.linkReady
        crc16 := t.crc16
        done := s.done + BitVec.ofNat 32 n
        port := t.port } ∧
      (0 < n → t.crc16 = crc16Of c.crc16Poly c.crc16Init (Memory.slice s.buf (512 * (k + (n - 1))) Config.blockLen)) ∧
      SendsOut c c.tokStartMw s.buf k n os ∧ Port.Used l rest os s.port t.port := by
  induction hl generalizing k s rest with
  | nil => exact ⟨s, [], rfl, by simp, by simp, .nil, ⟨h, h, rfl, rfl, .refl _⟩⟩
  | @cons n d l ls hblock hok hmore ih =>
    subst hc
    obtain ⟨waits, polls, t0, p1, he, hu⟩ := sendBlock_at (k := k) (tok := s.cfg.tokStartMw) (s := setK k s)
      (rest := ls ++ rest) (by rw [setK_port, h, List.append_assoc]) hblock
    rw [setK_cfg, hok] at he
    obtain ⟨t, os, ht, hteq, hcrc, hos, hut⟩ := ih (k := k + 1) (s := setDone (s.done + 1) (setCode .ok
      { setK k s with
        t0 := t0
        linkReady := true
        crc16 := crc16Of s.cfg.crc16Poly s.cfg.crc16Init (Memory.slice s.buf (512 * k) Config.blockLen)
        port := p1 })) (rest := rest) rfl hu.after
    refine ⟨t, _, ?_, ?_, fun _ => ?_, .cons hos, hu.trans hut⟩
    · simp only [sendBlocks]
      rw [he]
      simp only [Flow.andThen, ne_eq, not_true_eq_false, if_false]
      exact ht
    · rw [hteq]
      have : s.done + 1 + BitVec.ofNat 32 n = s.done + BitVec.ofNat 32 (n + 1) := by
        rw [Nat.add_comm, BitVec.ofNat_add]
        exact (BitVec.add_assoc _ _ _)
      simp only [setDone, setCode, setK, this]
    · cases hmore with
      | nil =>
        simp only [sendBlocks, Flow.go.injEq, true_and] at ht
        rw [← ht]
        simp only [setDone_crc16, setCode_crc16, Nat.zero_add, Nat.sub_self, Nat.add_zero]
      | @cons m =>
        have e : k + 1 + (m + 1 - 1) = k + (m + 1 + 1 - 1) := by omega
        simp only [setDone_buf, setCode_buf, setK_buf, e] at hcrc
        exact hcrc (Nat.succ_pos m)

/-! ## The end of a multi-block operation -/

/-- The stop command and the wait after it, both answered (R172). -/
theorem stopRead_at {s : State} {code : Code} {status : Byte} {stop idle rest : List Answer}
    (h : s.port.script = stop ++ idle ++ rest) (hstop : CommandAnswer s.cfg s.cfg.idxStop s.settle false status 0 stop)
    (hidle : IdleAnswer s.cfg.tReady idle) :
    ∃ polls port t0, stopRead code s = .go (if code = .ok then classify status else code)
        { afterCommand s.cfg.idxStop 0 false true polls (status ++ (0 : Word) : BitVec (8 + 32)) port s with
          t0 := t0 } ∧
      Port.Used (stop ++ idle) rest (commandHead s.cfg s.cfg.idxStop 0 false s.settle ++ idleOut polls ++
        idleOut idle.length) s.port port := by
  obtain ⟨polls, p1, he, -, -, hu⟩ := sendCommand_answered (arg := 0) (resel := false) (rest := idle ++ rest)
    (by simpa using h) hstop
  obtain ⟨p2, he2, hu2⟩ := waitReady_at (budget := s.cfg.tReady) (l := idle) (rest := rest)
    (s := lineBusy (afterCommand s.cfg.idxStop 0 false true polls (status ++ (0 : Word) : BitVec (8 + 32)) p1 s)) hu.after
    hidle
  have hno : classify status ≠ .noResponse := by simp only [classify]; split_ifs <;> simp
  refine ⟨polls, p2, p1.tick, ?_, ?_⟩
  · unfold stopRead
    rw [he]
    simp only [hno, if_false, Bool.false_eq_true]
    rw [show (afterCommand s.cfg.idxStop 0 false true polls (status ++ (0 : Word) : BitVec (8 + 32)) p1 s).cfg = s.cfg
      from rfl, he2]
    rfl
  · simpa using hu.trans hu2

/-- How the end of a `READ_MULTI` goes against every kind of answer to the stop command (R172, R173). -/
theorem stopRead_stream {s : State} {code stopCode : Code} {idle : Bool} {stop wait rest : List Answer}
    (hs : s.settle = false) (h : s.port.script = stop ++ wait ++ rest) (hl : StreamStop s.cfg stopCode idle stop wait) :
    ∃ polls port token t0, stopRead code s = .go (if code = .ok then stopCode else code)
        { afterCommand s.cfg.idxStop 0 false idle polls token port s with t0 := t0 } ∧
      Port.Used (stop ++ wait) rest (commandHead s.cfg s.cfg.idxStop 0 false false ++ idleOut polls ++
        idleOut wait.length) s.port port := by
  cases hl with
  | idle hstop hwait =>
    obtain ⟨polls, port, t0, he, hu⟩ := stopRead_at (code := code) h (by rw [hs]; exact hstop) hwait
    exact ⟨polls, port, _, t0, he, by rw [hs] at hu; exact hu⟩
  | @busy status _ _ hstop hwait =>
    obtain ⟨polls, p1, he, -, -, hu⟩ := sendCommand_answered (arg := 0) (resel := false) (rest := wait ++ rest)
      (by simpa using h) (by rw [hs]; exact hstop)
    obtain ⟨p2, he2, hu2⟩ := waitReady_expired (budget := s.cfg.tReady) (l := wait) (rest := rest)
      (s := lineBusy (afterCommand s.cfg.idxStop 0 false true polls (status ++ (0 : Word) : BitVec (8 + 32)) p1 s))
      hu.after hwait
    have hno : classify status ≠ .noResponse := by simp only [classify]; split_ifs <;> simp
    refine ⟨polls, p2, (status ++ (0 : Word) : BitVec (8 + 32)), p1.tick, ?_, ?_⟩
    · unfold stopRead
      rw [he]
      simp only [hno, if_false, Bool.false_eq_true]
      rw [show (afterCommand s.cfg.idxStop 0 false true polls (status ++ (0 : Word) : BitVec (8 + 32)) p1 s).cfg = s.cfg
        from rfl, he2]
      simp only [Flow.andThen, Bool.false_eq_true, if_false]
      by_cases hc : code = .ok
      · simp only [if_pos hc]; rfl
      · simp only [if_neg hc]; rfl
    · rw [hs] at hu
      simpa using hu.trans hu2
  | silent hstop =>
    obtain ⟨head, polls, last, rfl, hhead, hn, hp, hlast⟩ := hstop
    obtain ⟨port, he, hu⟩ := sendCommand_silent (index := s.cfg.idxStop) (arg := 0) (ext := false) (resel := false)
      (s := s) (head := head) (polls := polls) (a := last) (rest := rest) (by simpa using h) (by rw [hs]; exact hhead) hn
      hp hlast
    refine ⟨s.cfg.nRespPoll, port, (last.rx ++ (0 : Word) : BitVec (8 + 32)), s.t0, ?_, ?_⟩
    · unfold stopRead
      rw [he]
      rfl
    · rw [hs] at hu
      simpa [idleOut] using hu

/-- The stop token and the busy poll after it (R176). -/
theorem stopWrite_at {s : State} {a : Answer} {stuff busy rest : List Answer}
    (h : s.port.script = a :: stuff ++ busy ++ rest) (hstuff : stuff.length = s.cfg.nStuffStopTok)
    (hbusy : IdleAnswer s.cfg.tProgram busy) :
    ∃ port t0, stopWrite s = .go .ok { s with t0 := t0, linkReady := true, port := port } ∧
      Port.Used (a :: stuff ++ busy) rest (.tx s.cfg.tokStop :: idleOut stuff.length ++ idleOut busy.length) s.port
        port := by
  have h1 := xchg_used (s := lineBusy s) (rest := stuff ++ (busy ++ rest)) s.cfg.tokStop (by simpa using h)
  have h2 := idleBytes_used h1.after
  have e2 := idleBytes_eq stuff.length (xchg s.cfg.tokStop (lineBusy s)).2
  have hs : stopWrite s = busyPoll (idleBytes stuff.length (xchg s.cfg.tokStop (lineBusy s)).2) := by
    rw [hstuff]; rfl
  rw [hs]
  revert h2 e2
  generalize idleBytes stuff.length (xchg s.cfg.tokStop (lineBusy s)).2 = t
  intro h2 e2
  have e2' : t = { s with linkReady := false, port := t.port } := by rw [e2]; rfl
  have hcfg : t.cfg = s.cfg := by rw [e2']
  obtain ⟨p3, he3, hu3⟩ := busyPoll_at (s := t) (l := busy) (rest := rest) h2.after (by rw [hcfg]; exact hbusy)
  refine ⟨p3, t.port.tick, ?_, ?_⟩
  · rw [he3]
    generalize t.port.tick = x
    rw [e2']
  · have := Port.Used.trans (l := [a]) (l' := stuff ++ busy) (by simpa using h1) (h2.trans hu3)
    simpa using this

end Sys2Proof.Machine
end

