-- ==== Sys2Proof/Laws/TransferEnd.lean ====
section
/-!
SUPPORT. How a transfer can end, for every state (spec/43_transfer.md R164, R168, R172, R176, R183; R258): with a code
and its flags, or, with a tick source that stands still, never.
-/
namespace Sys2Proof.Machine

/-- A transfer goes on: the tick source and the mark of a hung operation are as at its start, the settle bytes are
paid. -/
structure Going (s t : State) : Prop where
  tail : t.port.tail = s.port.tail
  stalled : t.stalled = s.stalled
  cfg : t.cfg = s.cfg
  settled : t.settle = false

/-- A transfer has ended with `Finish`. -/
structure Over (s t : State) : Prop where
  busy : t.busy = false
  deselected : t.linkSel = false
  settled : t.settle = false
  stalled : t.stalled = s.stalled

/-- A transfer never ends: its tick source stands still. -/
def Hung (s t : State) : Prop :=
  ∃ u, t = hang u ∧ s.port.tail ≠ .free ∧ (u.lastTimeout = true → u.linkReady = false)

theorem Going.refl {s : State} (h : s.settle = false) : Going s s := ⟨rfl, rfl, rfl, h⟩
theorem Going.trans {s t u : State} (h : Going s t) (h' : Going t u) : Going s u :=
  ⟨h'.tail.trans h.tail, h'.stalled.trans h.stalled, h'.cfg.trans h.cfg, h'.settled⟩
theorem Hung.of_going {s t u : State} (h : Going s t) (h' : Hung t u) : Hung s u := by
  obtain ⟨v, hv, ht, hf⟩ := h'
  exact ⟨v, hv, by rw [← h.tail]; exact ht, hf⟩
theorem Over.of_going {s t u : State} (h : Going s t) (h' : Over t u) : Over s u :=
  ⟨h'.busy, h'.deselected, h'.settled, h'.stalled.trans h.stalled⟩

/-- The helpers of a block leave a register alone that no update of theirs writes. -/
theorem blockRel_of {α : Type} {f : State → α} (hx : ∀ tx s, f (xchg tx s).2 = f s) (hsel : ∀ on s, f (select on s) = f s)
    (hset : ∀ s, f (setSettled s) = f s) (hbusy : ∀ s, f (lineBusy s) = f s) (hidle : ∀ s, f (lineIdle s) = f s)
    (htime : ∀ s, f (markTimeout s) = f s) (hans : ∀ s, f (clearTimeout s) = f s)
    (hbuild : ∀ i a s, f (buildFrame i a s) = f s) (hn : ∀ v s, f (setN v s) = f s)
    (hresp : ∀ v s, f (setResp v s) = f s) (ht0 : ∀ v s, f (setT0 v s) = f s) (hhang : ∀ s, f (hang s) = f s)
    (hstore : ∀ a b s, f (storeBuf a b s) = f s) (hcrc : ∀ v s, f (setCrc16 v s) = f s) :
    BlockRel (fun _ => True) fun s t => f t = f s :=
  ⟨⟨⟨fun _ => rfl, fun h1 h2 => h2.trans h1, hx⟩, hsel, hset, hbusy, hidle, htime, hans, hbuild, hn, hresp⟩, ht0, hhang,
    fun a b s _ => hstore a b s, hcrc⟩

theorem done_block : BlockRel (fun _ => True) fun s t => t.done = s.done :=
  blockRel_of (f := State.done) (fun _ _ => rfl) (fun _ _ => rfl) (fun _ => rfl) (fun _ => rfl) (fun _ => rfl)
    (fun _ => rfl) (fun _ => rfl) (fun _ _ _ => rfl) (fun _ _ => rfl) (fun _ _ => rfl) (fun _ _ => rfl) (fun _ => rfl)
    (fun _ _ _ => rfl) fun _ _ => rfl
theorem recvBlock_done (k : Nat) (tok : Byte) (s : State) : (recvBlock k tok s).state.done = s.done :=
  recvBlock_rel done_block k tok s fun _ _ _ => trivial
theorem sendBlock_done (k : Nat) (tok : Byte) (s : State) : (sendBlock k tok s).state.done = s.done :=
  sendBlock_rel done_block k tok s
theorem stopRead_done (code : Code) (s : State) : (stopRead code s).state.done = s.done :=
  stopRead_rel done_block code s
theorem stopWrite_done (s : State) : (stopWrite s).state.done = s.done := stopWrite_rel done_block s

/-! ## The phases -/

theorem sendCommand_going (index : BitVec 6) (arg : Word) (ext resel : Bool) (s : State) :
    let p := sendCommand index arg ext resel s
    Going s p.2 ∧ ((p.1.code = .noResponse ∧ p.2.linkReady = false ∧ p.2.lastTimeout = true) ∨
      (p.1.code ∈ [Code.ok, .illegalCommand, .crcError, .addressError] ∧ p.2.linkReady = true ∧
        p.2.lastTimeout = false)) := by
  have htail := (sendCommand_movesOn index arg ext resel s).tail
  obtain ⟨polls, status, e, -, -, -, h, -⟩ := sendCommand_cases index arg ext resel s
  dsimp only
  refine ⟨⟨htail, by simp, by simp, by rw [h]; rfl⟩, ?_⟩
  rw [h]
  cases hr : isResponse status
  · exact .inl ⟨rfl, rfl, rfl⟩
  · refine .inr ⟨?_, rfl, rfl⟩
    simp only [if_true, classify]
    split_ifs <;> simp

theorem finish_over {s t : State} (h : Going s t) (code : Code) : Over s (finish code t) :=
  ⟨rfl, rfl, h.settled, h.stalled⟩

/-- The command phase goes on with the line busy and no timeout, or ends the transfer (R160). -/
theorem startTransfer_meets (index : BitVec 6) (sector : Word) (s : State) :
    (startTransfer index sector s).Meets
      (fun _ t => Going s t ∧ t.linkReady = false ∧ t.lastTimeout = false)
      (fun t => Over s t ∧ readFlags t.result = some (t.linkReady, t.lastTimeout) ∧
        writeFlags t.result = some (t.linkReady, t.lastTimeout) ∧ t.result ≠ .ok) := by
  unfold startTransfer checkR1
  obtain ⟨hg, hc⟩ := sendCommand_going index (addrOf s.idAmode sector) false true s
  generalize sendCommand index (addrOf s.idAmode sector) false true s = p at hg hc ⊢
  split
  · rename_i hok
    refine ⟨finish_over hg _, ?_⟩
    show readFlags p.1.code = some (p.2.linkReady, p.2.lastTimeout) ∧
      writeFlags p.1.code = some (p.2.linkReady, p.2.lastTimeout) ∧ p.1.code ≠ .ok
    rcases hc with ⟨h1, h2, h3⟩ | ⟨h1, h2, h3⟩ <;> rw [h2, h3]
    · rw [h1]; exact ⟨rfl, rfl, by simp⟩
    · simp only [List.mem_cons, List.not_mem_nil, or_false] at h1
      rcases h1 with h1 | h1 | h1 | h1 <;> rw [h1] at hok ⊢
      · exact absurd rfl hok
      all_goals exact ⟨rfl, rfl, by simp⟩
  rename_i hok
  have hf : p.2.lastTimeout = false := by
    rcases hc with ⟨h1, -, -⟩ | ⟨-, -, h3⟩
    · exact absurd (fun h => by rw [h1] at h; simp at h) hok
    · exact h3
  have hg' : Going s (lineBusy p.2) := ⟨hg.tail, hg.stalled, hg.cfg, hg.settled⟩
  split
  · refine ⟨finish_over hg' _, ?_, ?_, ?_⟩
    · show some (false, false) = some (false, p.2.lastTimeout); rw [hf]
    · show some (false, false) = some (false, p.2.lastTimeout); rw [hf]
    · show Code.badResponse ≠ .ok; simp
  · exact ⟨hg', rfl, hf⟩

theorem waitFor_meets (hit : Byte → Bool) (budget : Nat) {s : State} (hset : s.settle = false)
    (hflags : s.lastTimeout = true → s.linkReady = false) :
    (waitFor hit budget s).Meets
      (fun _ t => Going s t ∧ t.linkReady = s.linkReady ∧ t.lastTimeout = s.lastTimeout) (Hung s) := by
  have hm : Port.MovesOn s.port (waitFor hit budget s).state.port := waitFor_rel movesOn_block hit budget s
  obtain ⟨polls, port, -, ⟨ok, h⟩ | ⟨h, htail⟩⟩ := waitFor_cases hit budget s <;> rw [h] at hm ⊢
  · exact ⟨⟨hm.tail, rfl, rfl, hset⟩, rfl, rfl⟩
  · exact ⟨_, rfl, htail, hflags⟩

theorem waitReady_meets (budget : Nat) {s : State} (hset : s.settle = false) (hflags : s.lastTimeout = false) :
    (waitReady budget s).Meets (fun ok t => Going s t ∧ t.linkReady = ok ∧ t.lastTimeout = false) (Hung s) := by
  refine (waitFor_meets _ budget hset (fun h => by rw [hflags] at h; simp at h)).andThen fun ok t ⟨hg, _, hl⟩ => ?_
  have hl' := hl.trans hflags
  cases ok
  · exact ⟨⟨hg.tail, hg.stalled, hg.cfg, hg.settled⟩, rfl, hl'⟩
  · exact ⟨⟨hg.tail, hg.stalled, hg.cfg, hg.settled⟩, rfl, hl'⟩

/-- A received block (R161): its code and the flags that go with it. -/
theorem recvBlock_meets (k : Nat) (tok : Byte) {s : State} (hset : s.settle = false) (hflags : s.lastTimeout = false) :
    (recvBlock k tok s).Meets
      (fun code t => Going s t ∧ readFlags code = some (t.linkReady, t.lastTimeout) ∧
        code ∈ [Code.ok, .dataCrcError, .timeout]) (Hung s) := by
  refine (waitFor_meets _ s.cfg.tToken hset (fun h => by rw [hflags] at h; simp at h)).andThen fun ok t ⟨hg, hr, hl⟩ => ?_
  have hl' := hl.trans hflags
  cases ok
  · exact ⟨⟨hg.tail, hg.stalled, hg.cfg, hg.settled⟩, rfl, by simp⟩
  · simp only [if_true]
    generalize Config.blockLen = count
    obtain ⟨data, port, -, he, -⟩ := recvPayload_spec count (512 * k) (setCrc16 t.cfg.crc16Init t)
    have hm : Port.MovesOn t.port (recvPayload count (512 * k) (setCrc16 t.cfg.crc16Init t)).port :=
      recvPayload_rel movesOn_block count (512 * k) (setCrc16 t.cfg.crc16Init t) fun _ _ _ => trivial
    rw [he] at hm ⊢
    generalize hu : ({ setCrc16 t.cfg.crc16Init t with
      crc16 := data.foldl (crc16Byte (setCrc16 t.cfg.crc16Init t).cfg.crc16Poly) (setCrc16 t.cfg.crc16Init t).crc16
      buf := Memory.writeAll (setCrc16 t.cfg.crc16Init t).buf (512 * k) data
      port := port } : State) = u
    have hug : Going s u := by
      rw [← hu]; exact ⟨hm.tail.trans hg.tail, hg.stalled, hg.cfg, hg.settled⟩
    have hul : u.lastTimeout = false := by rw [← hu]; exact hl'
    refine ⟨⟨hug.tail, hug.stalled, hug.cfg, hug.settled⟩, ?_, ?_⟩
    · show readFlags (checkCrc16 u).1 = some (true, u.lastTimeout)
      rw [hul]; simp only [checkCrc16]; split_ifs <;> rfl
    · show (checkCrc16 u).1 ∈ _
      simp only [checkCrc16]; split_ifs <;> simp

theorem busyPoll_meets {s : State} (hset : s.settle = false) (hflags : s.lastTimeout = false) :
    (busyPoll s).Meets
      (fun code t => Going s t ∧ writeFlags code = some (t.linkReady, t.lastTimeout) ∧
        code ∈ [Code.ok, .programTimeout]) (Hung s) := by
  refine (waitFor_meets _ s.cfg.tProgram hset (fun h => by rw [hflags] at h; simp at h)).andThen
    fun ok t ⟨hg, hr, hl⟩ => ?_
  have hl' := hl.trans hflags
  cases ok
  · exact ⟨⟨hg.tail, hg.stalled, hg.cfg, hg.settled⟩, rfl, by simp⟩
  · refine ⟨⟨hg.tail, hg.stalled, hg.cfg, hg.settled⟩, ?_, by simp⟩
    show some (true, false) = some (true, t.lastTimeout); rw [hl']

theorem sendData_going (k : Nat) (tok : Byte) {s : State} (hset : s.settle = false) :
    Going s (sendData k tok s).2 ∧ (sendData k tok s).2.linkReady = false ∧
      (sendData k tok s).2.lastTimeout = s.lastTimeout := by
  have hm : Port.MovesOn s.port (sendData k tok s).2.port := sendData_rel movesOn_block k tok s
  obtain ⟨d, port, h, -⟩ := sendData_spec k tok s
  rw [h] at hm ⊢
  exact ⟨⟨hm.tail, rfl, rfl, hset⟩, rfl, rfl⟩

/-- A sent block (R162): its code and the flags that go with it. -/
theorem sendBlock_meets (k : Nat) (tok : Byte) {s : State} (hset : s.settle = false) (hflags : s.lastTimeout = false) :
    (sendBlock k tok s).Meets
      (fun code t => Going s t ∧ writeFlags code = some (t.linkReady, t.lastTimeout)) (Hung s) := by
  refine (waitReady_meets s.cfg.tReady hset hflags).andThen fun ok t ⟨hg, hr, hl⟩ => ?_
  cases ok
  · refine ⟨⟨hg.tail, hg.stalled, hg.cfg, hg.settled⟩, ?_⟩
    show some (false, true) = some (t.linkReady, true); rw [hr]
  · simp only [if_true]
    have hsent := sendData_going k tok hg.settled
    have hcode : (sendData k tok t).1 = .ok ∨ writeFlags (sendData k tok t).1 = some (false, false) := by
      obtain ⟨d, port, h, -⟩ := sendData_spec k tok t
      rw [h]
      dsimp only [dataResponse]
      split_ifs <;> simp [writeFlags]
    generalize sendData k tok t = p at hsent hcode ⊢
    obtain ⟨hg', hr', hl'⟩ := hsent
    split_ifs with hok
    · refine ⟨hg.trans hg', ?_⟩
      rw [hr', hl', hl]
      exact hcode.resolve_left hok
    · exact (busyPoll_meets hg'.settled (hl'.trans hl)).mono
        (fun code u hu => ⟨(hg.trans hg').trans hu.1, hu.2.1⟩) fun u hu => hu.of_going (hg.trans hg')

theorem done_succ_le (d : Word) : (d + 1).toNat ≤ d.toNat + 1 := by
  rw [BitVec.toNat_add]; exact (Nat.mod_le _ _).trans (by simp)

/-! ## Runs of blocks and the end of a multi-block operation -/

theorem recvBlocks_meets (left k : Nat) {s : State} (hset : s.settle = false) (hflags : s.lastTimeout = false) :
    (recvBlocks left k s).Meets
      (fun code t => Going s t ∧ t.done.toNat ≤ s.done.toNat + left ∧
        (code = .ok → t.done = s.done + BitVec.ofNat 32 left) ∧ code ∈ [Code.ok, .dataCrcError, .timeout]) (Hung s) := by
  induction left generalizing k s with
  | zero => exact ⟨.refl hset, by simp, fun _ => by simp, by simp⟩
  | succ left ih =>
    have hb := recvBlock_meets k s.cfg.tokStartMr (s := setK k s) hset hflags
    have hd : (recvBlock k s.cfg.tokStartMr (setK k s)).state.done = s.done :=
      recvBlock_done k _ (setK k s)
    simp only [recvBlocks]
    generalize recvBlock k s.cfg.tokStartMr (setK k s) = f at hb hd ⊢
    cases f with
    | stop t => exact hb
    | go code t =>
      obtain ⟨hg, hr, hmem⟩ := hb
      have hg' : Going s t := ⟨hg.tail, hg.stalled, hg.cfg, hg.settled⟩
      simp only [Flow.andThen]
      split_ifs with hok
      · refine ⟨⟨hg.tail, hg.stalled, hg.cfg, hg.settled⟩, ?_, fun h => absurd h hok, hmem⟩
        show t.done.toNat ≤ _
        have : t.done = s.done := hd
        rw [this]; omega
      · have hok' : code = .ok := not_not.1 hok
        subst hok'
        have hl : t.lastTimeout = false := by
          have := hr; simp only [readFlags, Option.some.injEq, Prod.mk.injEq] at this; exact this.2.symm
        have hdt : t.done = s.done := hd
        refine (ih (k + 1) (s := setDone (t.done + 1) (setCode .ok t)) hg.settled hl).mono (fun c u hu => ?_) fun u hu => ?_
        · refine ⟨hg'.trans ⟨hu.1.tail, hu.1.stalled, hu.1.cfg, hu.1.settled⟩, ?_, fun hc => ?_, hu.2.2.2⟩
          · have h1 := hu.2.1
            rw [setDone_done, hdt] at h1
            have h2 := done_succ_le s.done
            omega
          · rw [hu.2.2.1 hc, setDone_done, hdt, Nat.add_comm left 1, BitVec.ofNat_add, BitVec.add_assoc]
            rfl
        · exact Hung.of_going (t := setDone (t.done + 1) (setCode .ok t))
            ⟨hg.tail, hg.stalled, hg.cfg, hg.settled⟩ hu

/-- The end of a `READ_MULTI` (R172, R173): its code, and the flags of its last step. -/
theorem stopRead_meets {code : Code} (hcode : code ∈ [Code.ok, .dataCrcError, .timeout]) (s : State) :
    (stopRead code s).Meets
      (fun r t => Going s t ∧ (t.lastTimeout = true → t.linkReady = false) ∧ (readFlags r).isSome = true ∧
        t.done = s.done ∧ (r = .ok → code = .ok ∧ t.linkReady = true ∧ t.lastTimeout = false)) (Hung s) := by
  have hd : (stopRead code s).state.done = s.done := stopRead_done code s
  suffices h : (stopRead code s).Meets (fun r t => Going s t ∧ (t.lastTimeout = true → t.linkReady = false) ∧
      (readFlags r).isSome = true ∧ (r = .ok → code = .ok ∧ t.linkReady = true ∧ t.lastTimeout = false)) (Hung s) by
    revert hd h
    generalize stopRead code s = f
    intro hd h
    cases f with
    | go r t => exact ⟨h.1, h.2.1, h.2.2.1, hd, h.2.2.2⟩
    | stop t => exact h
  clear hd
  unfold stopRead
  obtain ⟨hg, hc⟩ := sendCommand_going s.cfg.idxStop 0 false false s
  generalize sendCommand s.cfg.idxStop 0 false false s = p at hg hc ⊢
  dsimp only
  have hr : (readFlags (if code = .ok then p.1.code else code)).isSome = true := by
    simp only [List.mem_cons, List.not_mem_nil, or_false] at hc hcode
    rcases hcode with rfl | rfl | rfl
    · rw [if_pos rfl]
      rcases hc with ⟨h, -⟩ | ⟨h | h | h | h, -⟩ <;> rw [h] <;> rfl
    · rfl
    · rfl
  have hok : (if code = .ok then p.1.code else code) = .ok → code = .ok := by
    split_ifs with h
    · exact fun _ => h
    · exact fun h' => absurd h' h
  by_cases hno : p.1.code = .noResponse
  · rw [if_pos hno]
    refine ⟨hg, ?_, hr, fun h => ?_⟩
    · rcases hc with ⟨-, h2, -⟩ | ⟨-, -, h3⟩
      · exact fun _ => h2
      · intro h; rw [h3] at h; simp at h
    · have := hok h
      rw [if_pos this, hno] at h
      simp at h
  rw [if_neg hno]
  revert hr hok
  generalize (if code = .ok then p.1.code else code) = c
  intro hr hok
  have hl : p.2.lastTimeout = false := by
    rcases hc with ⟨h1, -, -⟩ | ⟨-, -, h3⟩
    · exact absurd h1 hno
    · exact h3
  have hg' : Going s (lineBusy p.2) := ⟨hg.tail, hg.stalled, hg.cfg, hg.settled⟩
  refine Flow.Meets.andThen ((waitReady_meets p.2.cfg.tReady (s := lineBusy p.2) hg.settled hl).mono
    (fun ok t ht => ht) fun t ht => ht.of_going hg') fun ok t ⟨hgt, hr', hlt⟩ => ?_
  cases ok
  · refine ⟨⟨hgt.tail.trans hg'.tail, hgt.stalled.trans hg'.stalled, hgt.cfg.trans hg'.cfg, hgt.settled⟩, fun _ => hr',
      ?_, fun h => ?_⟩
    · split_ifs
      · rfl
      · exact hr
    · split_ifs at h with hc'
      exact absurd h hc'
  · exact ⟨hg'.trans hgt, fun h => by rw [hlt] at h; simp at h, hr, fun h => ⟨hok h, hr', hlt⟩⟩

theorem sendBlocks_meets (left k : Nat) {s : State} (hset : s.settle = false) (hflags : s.lastTimeout = false) :
    (sendBlocks left k s).Meets
      (fun _ t => Going s t ∧ t.lastTimeout = false ∧ t.done = s.done + BitVec.ofNat 32 left)
      (fun t => (Over s t ∧ writeFlags t.result = some (t.linkReady, t.lastTimeout) ∧ t.result ≠ .ok ∧
        t.done.toNat ≤ s.done.toNat + left) ∨ Hung s t) := by
  induction left generalizing k s with
  | zero => exact ⟨.refl hset, hflags, by simp⟩
  | succ left ih =>
    have hb := sendBlock_meets k s.cfg.tokStartMw (s := setK k s) hset hflags
    have hd : (sendBlock k s.cfg.tokStartMw (setK k s)).state.done = s.done := sendBlock_done k _ (setK k s)
    simp only [sendBlocks]
    generalize sendBlock k s.cfg.tokStartMw (setK k s) = f at hb hd ⊢
    cases f with
    | stop t => exact .inr hb
    | go code t =>
      obtain ⟨hg, hr⟩ := hb
      have hg' : Going s t := ⟨hg.tail, hg.stalled, hg.cfg, hg.settled⟩
      have hdt : t.done = s.done := hd
      simp only [Flow.andThen]
      split_ifs with hok
      · refine .inl ⟨⟨rfl, rfl, hg.settled, hg.stalled⟩, hr, hok, ?_⟩
        show t.done.toNat ≤ _
        rw [hdt]; omega
      · have hok' : code = .ok := not_not.1 hok
        subst hok'
        have hl : t.lastTimeout = false := by
          have := hr; simp only [writeFlags, Option.some.injEq, Prod.mk.injEq] at this; exact this.2.symm
        have hgu : Going s (setDone (t.done + 1) (setCode .ok t)) := ⟨hg.tail, hg.stalled, hg.cfg, hg.settled⟩
        refine (ih (k + 1) (s := setDone (t.done + 1) (setCode .ok t)) hg.settled hl).mono (fun c u hu => ?_)
          fun u hu => ?_
        · refine ⟨hgu.trans hu.1, hu.2.1, ?_⟩
          rw [hu.2.2, setDone_done, hdt, Nat.add_comm left 1, BitVec.ofNat_add, BitVec.add_assoc]
          rfl
        · rcases hu with ⟨h1, h2, h3, h4⟩ | hu
          · refine .inl ⟨h1.of_going hgu, h2, h3, ?_⟩
            rw [setDone_done, hdt] at h4
            have h2 := done_succ_le s.done
            omega
          · exact .inr (hu.of_going hgu)

theorem stopWrite_meets {s : State} (hset : s.settle = false) (hflags : s.lastTimeout = false) :
    (stopWrite s).Meets
      (fun code t => Going s t ∧ writeFlags code = some (t.linkReady, t.lastTimeout) ∧
        code ∈ [Code.ok, .programTimeout] ∧ t.done = s.done) (Hung s) := by
  have hd : (stopWrite s).state.done = s.done := stopWrite_done s
  unfold stopWrite at hd ⊢
  dsimp only at hd ⊢
  generalize hu : idleBytes (send s.cfg.tokStop (lineBusy s)).cfg.nStuffStopTok (send s.cfg.tokStop (lineBusy s)) = u
    at hd ⊢
  have hmu : Port.MovesOn s.port u.port := by
    rw [← hu]
    exact (xchg_movesOn s.cfg.tokStop (lineBusy s)).trans (idleBytes_rel movesOn_exchange _ _)
  have hg : Going s u := ⟨hmu.tail, by rw [← hu]; simp [send_eq], by rw [← hu]; simp [send_eq],
    by rw [← hu]; simpa [send_eq] using hset⟩
  have hl : u.lastTimeout = false := by rw [← hu]; simpa [send_eq] using hflags
  have hb := busyPoll_meets hg.settled hl
  generalize busyPoll u = f at hb hd ⊢
  cases f with
  | go code t => exact ⟨hg.trans hb.1, hb.2.1, hb.2.2, hd⟩
  | stop t => exact hb.of_going hg

/-! ## The block count -/

theorem recvBlocks_done_le (left k : Nat) (s : State) :
    (recvBlocks left k s).state.done.toNat ≤ s.done.toNat + left := by
  induction left generalizing k s with
  | zero => exact Nat.le_refl _
  | succ left ih =>
    have hd : (recvBlock k s.cfg.tokStartMr (setK k s)).state.done = s.done := recvBlock_done k _ (setK k s)
    simp only [recvBlocks]
    generalize recvBlock k s.cfg.tokStartMr (setK k s) = f at hd ⊢
    cases f with
    | stop t => simp only [Flow.state] at hd; simp only [Flow.andThen, Flow.state, hd]; omega
    | go code t =>
      simp only [Flow.state] at hd
      simp only [Flow.andThen]
      split_ifs
      · simp only [Flow.state, setCode_done, hd]; omega
      · have h1 := ih (k + 1) (setDone (t.done + 1) (setCode code t))
        have h2 := done_succ_le s.done
        rw [setDone_done, hd] at h1
        rw [← hd] at h1 ⊢
        rw [← hd] at h2
        omega

theorem sendBlocks_done_le (left k : Nat) (s : State) :
    (sendBlocks left k s).state.done.toNat ≤ s.done.toNat + left := by
  induction left generalizing k s with
  | zero => exact Nat.le_refl _
  | succ left ih =>
    have hd : (sendBlock k s.cfg.tokStartMw (setK k s)).state.done = s.done := sendBlock_done k _ (setK k s)
    simp only [sendBlocks]
    generalize sendBlock k s.cfg.tokStartMw (setK k s) = f at hd ⊢
    cases f with
    | stop t => simp only [Flow.state] at hd; simp only [Flow.andThen, Flow.state, hd]; omega
    | go code t =>
      simp only [Flow.state] at hd
      simp only [Flow.andThen]
      split_ifs
      · show t.done.toNat ≤ _
        rw [hd]; omega
      · have h1 := ih (k + 1) (setDone (t.done + 1) (setCode code t))
        have h2 := done_succ_le s.done
        rw [setDone_done, hd] at h1
        rw [← hd] at h1 ⊢
        rw [← hd] at h2
        omega

theorem startTransfer_done (index : BitVec 6) (sector : Word) (s : State) :
    (startTransfer index sector s).state.done = s.done := by
  unfold startTransfer checkR1
  split_ifs <;> simp [Flow.state]

/-- A single-block transfer does not touch `done`. -/
theorem done_single : SingleRel (fun _ => True) fun s t => t.done = s.done := ⟨done_block, fun _ _ => rfl, fun _ _ => rfl⟩
theorem readBlockRun_done (sector : Word) (s : State) : (readBlockRun sector s).state.done = s.done :=
  readBlockRun_rel done_single sector s fun _ _ => trivial
theorem writeBlockRun_done (sector : Word) (s : State) : (writeBlockRun sector s).state.done = s.done :=
  writeBlockRun_rel done_single sector s

theorem readMultiRun_done_le {sector count : Word} {s : State} (hg : gateCode s sector count.toNat = none) :
    (readMultiRun sector count s).state.done.toNat ≤ count.toNat := by
  unfold readMultiRun
  rw [gate_pass hg]
  simp only [Flow.andThen]
  split_ifs
  · exact Nat.zero_le _
  show (Flow.andThen (startTransfer s.cfg.idxRdm sector (setDone 0 s)) _).state.done.toNat ≤ _
  have hd := startTransfer_done s.cfg.idxRdm sector (setDone 0 s)
  generalize startTransfer s.cfg.idxRdm sector (setDone 0 s) = f at hd ⊢
  cases f with
  | stop t => have hdt : t.done = 0 := hd; show t.done.toNat ≤ _; rw [hdt]; exact Nat.zero_le _
  | go _ t =>
    have hdt : t.done = 0 := hd
    have hb := recvBlocks_done_le count.toNat 0 (setCode .ok t)
    rw [setCode_done, hdt] at hb
    show (Flow.andThen (recvBlocks count.toNat 0 (setCode .ok t)) _).state.done.toNat ≤ _
    generalize recvBlocks count.toNat 0 (setCode .ok t) = f at hb ⊢
    cases f with
    | stop u => show u.done.toNat ≤ _; simpa [Flow.state] using hb
    | go code u =>
      have hs := stopRead_done code u
      show (Flow.andThen (stopRead code u) _).state.done.toNat ≤ _
      generalize stopRead code u = f at hs ⊢
      cases f with
      | stop v => have hdv : v.done = u.done := hs; show v.done.toNat ≤ _; rw [hdv]; simpa [Flow.state] using hb
      | go c v => have hdv : v.done = u.done := hs; show v.done.toNat ≤ _; rw [hdv]; simpa [Flow.state] using hb

theorem writeMultiRun_done_le {sector count : Word} {s : State} (hg : gateCode s sector count.toNat = none) :
    (writeMultiRun sector count s).state.done.toNat ≤ count.toNat := by
  unfold writeMultiRun
  rw [gate_pass hg]
  simp only [Flow.andThen]
  split_ifs
  · exact Nat.zero_le _
  show (Flow.andThen (startTransfer s.cfg.idxWrm sector (setDone 0 s)) _).state.done.toNat ≤ _
  have hd := startTransfer_done s.cfg.idxWrm sector (setDone 0 s)
  generalize startTransfer s.cfg.idxWrm sector (setDone 0 s) = f at hd ⊢
  cases f with
  | stop t => have hdt : t.done = 0 := hd; show t.done.toNat ≤ _; rw [hdt]; exact Nat.zero_le _
  | go _ t =>
    have hdt : t.done = 0 := hd
    have hb := sendBlocks_done_le count.toNat 0 t
    rw [hdt] at hb
    show (Flow.andThen (sendBlocks count.toNat 0 t) _).state.done.toNat ≤ _
    generalize sendBlocks count.toNat 0 t = f at hb ⊢
    cases f with
    | stop u => show u.done.toNat ≤ _; simpa [Flow.state] using hb
    | go code u =>
      have hs := stopWrite_done u
      show (Flow.andThen (stopWrite u) _).state.done.toNat ≤ _
      generalize stopWrite u = f at hs ⊢
      cases f with
      | stop v => have hdv : v.done = u.done := hs; show v.done.toNat ≤ _; rw [hdv]; simpa [Flow.state] using hb
      | go c v => have hdv : v.done = u.done := hs; show v.done.toNat ≤ _; rw [hdv]; simpa [Flow.state] using hb

/-! ## The four operations -/

/-- How a transfer that passed the gate stops: over, with the flags its code asks for (`P`), or hung. -/
def TransferStop (P : State → Prop) (s t : State) : Prop := (Over s t ∧ P t) ∨ Hung s t

/-- `READ_BLOCK` past the gate. -/
theorem readBlockRun_meets {sector : Word} {s : State} (hg : gateCode s sector 1 = none) :
    TransferStop (fun t => readFlags t.result = some (t.linkReady, t.lastTimeout)) s (readBlockRun sector s).state := by
  refine Flow.Meets.of_stop (S := TransferStop _ s) ?_
  unfold readBlockRun
  rw [gate_pass hg]
  refine (startTransfer_meets _ sector s).andThen_stop (fun t h => .inl ⟨h.1, h.2.1⟩) fun _ t ⟨hgo, _, hl⟩ => ?_
  refine (recvBlock_meets 0 t.cfg.tokStart hgo.settled hl).andThen_stop (fun u h => .inr (h.of_going hgo))
    fun code u ⟨hgo', hf, _⟩ => ?_
  have hgu := hgo.trans hgo'
  exact .inl ⟨⟨rfl, rfl, hgu.settled, hgu.stalled⟩, hf⟩

/-- `WRITE_BLOCK` past the gate. -/
theorem writeBlockRun_meets {sector : Word} {s : State} (hg : gateCode s sector 1 = none) :
    TransferStop (fun t => writeFlags t.result = some (t.linkReady, t.lastTimeout)) s
      (writeBlockRun sector s).state := by
  refine Flow.Meets.of_stop (S := TransferStop _ s) ?_
  unfold writeBlockRun
  rw [gate_pass hg]
  refine (startTransfer_meets _ sector s).andThen_stop (fun t h => .inl ⟨h.1, h.2.2.1⟩) fun _ t ⟨hgo, _, hl⟩ => ?_
  refine (sendBlock_meets 0 t.cfg.tokStart hgo.settled hl).andThen_stop (fun u h => .inr (h.of_going hgo))
    fun code u ⟨hgo', hf⟩ => ?_
  have hgu := hgo.trans hgo'
  exact .inl ⟨⟨rfl, rfl, hgu.settled, hgu.stalled⟩, hf⟩

/-- `READ_MULTI` of at least one block past the gate. -/
theorem readMultiRun_meets {sector count : Word} {s : State} (hg : gateCode s sector count.toNat = none)
    (hc : count ≠ 0) :
    TransferStop (fun t => (readFlags t.result).isSome = true ∧ (t.lastTimeout = true → t.linkReady = false) ∧
      t.done.toNat ≤ count.toNat ∧ (t.result = .ok → t.linkReady = true ∧ t.lastTimeout = false ∧ t.done = count)) s
      (readMultiRun sector count s).state := by
  refine Flow.Meets.of_stop (S := TransferStop _ s) ?_
  unfold readMultiRun
  rw [gate_pass hg]
  simp only [Flow.andThen, if_neg hc]
  have hd := startTransfer_done s.cfg.idxRdm sector (setDone 0 s)
  have hm := startTransfer_meets s.cfg.idxRdm sector (setDone 0 s)
  show Flow.Meets _ _ (Flow.andThen (startTransfer s.cfg.idxRdm sector (setDone 0 s)) _)
  generalize startTransfer s.cfg.idxRdm sector (setDone 0 s) = f at hd hm ⊢
  cases f with
  | stop t =>
    have hdt : t.done = 0 := hd
    refine .inl ⟨⟨hm.1.busy, hm.1.deselected, hm.1.settled, hm.1.stalled⟩, by rw [hm.2.1]; rfl, fun hl => ?_,
      by rw [hdt]; exact Nat.zero_le _, fun h => absurd h hm.2.2.2⟩
    have := hm.2.1
    rw [hl] at this
    revert this
    cases t.result <;> cases t.linkReady <;> simp [readFlags]
  | go _ t =>
    have hdt : t.done = 0 := hd
    obtain ⟨hgo, _, hl⟩ := hm
    have hgt : Going s (setCode .ok t) := ⟨hgo.tail, hgo.stalled, hgo.cfg, hgo.settled⟩
    refine (recvBlocks_meets count.toNat 0 (s := setCode .ok t) hgo.settled hl).andThen_stop
      (fun u h => .inr (h.of_going hgt)) fun code u ⟨hgo', hle, hcount, hmem⟩ => ?_
    have hgu := hgt.trans hgo'
    refine (stopRead_meets hmem u).andThen_stop (fun v h => .inr (h.of_going hgu))
      fun r v ⟨hgo'', hf, hs, hdv, hok⟩ => ?_
    have hgv := hgu.trans hgo''
    rw [setCode_done, hdt] at hle hcount
    refine .inl ⟨⟨rfl, rfl, hgv.settled, hgv.stalled⟩, hs, hf, ?_, fun h => ⟨(hok h).2.1, (hok h).2.2, ?_⟩⟩
    · show v.done.toNat ≤ _
      rw [hdv]; simpa using hle
    · show v.done = count
      rw [hdv, hcount (hok h).1]; simp

/-- `WRITE_MULTI` of at least one block past the gate. -/
theorem writeMultiRun_meets {sector count : Word} {s : State} (hg : gateCode s sector count.toNat = none)
    (hc : count ≠ 0) :
    TransferStop (fun t => writeFlags t.result = some (t.linkReady, t.lastTimeout) ∧ t.done.toNat ≤ count.toNat ∧
      (t.result = .ok → t.done = count)) s (writeMultiRun sector count s).state := by
  refine Flow.Meets.of_stop (S := TransferStop _ s) ?_
  unfold writeMultiRun
  rw [gate_pass hg]
  simp only [Flow.andThen, if_neg hc]
  have hd := startTransfer_done s.cfg.idxWrm sector (setDone 0 s)
  have hm := startTransfer_meets s.cfg.idxWrm sector (setDone 0 s)
  show Flow.Meets _ _ (Flow.andThen (startTransfer s.cfg.idxWrm sector (setDone 0 s)) _)
  generalize startTransfer s.cfg.idxWrm sector (setDone 0 s) = f at hd hm ⊢
  cases f with
  | stop t =>
    have hdt : t.done = 0 := hd
    exact .inl ⟨⟨hm.1.busy, hm.1.deselected, hm.1.settled, hm.1.stalled⟩, hm.2.2.1, by rw [hdt]; exact Nat.zero_le _,
      fun h => absurd h hm.2.2.2⟩
  | go _ t =>
    have hdt : t.done = 0 := hd
    obtain ⟨hgo, _, hl⟩ := hm
    have hgt : Going s t := ⟨hgo.tail, hgo.stalled, hgo.cfg, hgo.settled⟩
    refine (sendBlocks_meets count.toNat 0 (s := t) hgo.settled hl).andThen_stop (fun u h => ?_)
      fun _ u ⟨hgo', hlu, hdu⟩ => ?_
    · rcases h with ⟨h1, h2, h3, h4⟩ | h
      · refine .inl ⟨h1.of_going hgt, h2, ?_, fun h => absurd h h3⟩
        rw [hdt] at h4; simpa using h4
      · exact .inr (h.of_going hgt)
    have hgu := hgt.trans hgo'
    refine (stopWrite_meets hgo'.settled hlu).andThen_stop (fun v h => .inr (h.of_going hgu))
      fun code v ⟨hgo'', hf, _, hdv⟩ => ?_
    have hgv := hgu.trans hgo''
    have hdone : v.done = count := by rw [hdv, hdu, hdt]; simp
    exact .inl ⟨⟨rfl, rfl, hgv.settled, hgv.stalled⟩, hf, by show v.done.toNat ≤ _; rw [hdone], fun _ => hdone⟩

end Sys2Proof.Machine
end

