-- ==== Sys2Proof/Tests/Slice0.lean ====
section
/-!
SUPPORT. Tests of the model: ill-formed terms refused, words of the spec decoded, one step on small states with the
expected values of spec/95_test_vectors.md (named by vector), and for every obligation with hypotheses a concrete
state and operands that meet them.
-/
namespace Sys2Proof.Tests

open Sys2Proof.Machine

set_option Elab.async false

/-! ## Helpers -/

/-- The parameters of spec/95_test_vectors.md section 0. -/
def testCfg : Config :=
  { Config.default with
    tickHz := 1000
    tInit := 1000
    tToken := 100
    tReady := 50
    tProgram := 200
    bufBlocks := 4 }

/-- A byte received after one tick. -/
def ans (b : Byte) : Answer := { rx := b, ticks := 1 }

/-- `n` idle bytes received. -/
def idles (n : Nat) : List Answer := List.replicate n (ans 0xFF#8)

/-- What a card sends during one command that selects it anew: eight settle bytes, the frame, one more idle byte, the
status byte, the bytes after it. -/
def reply (status : Byte) (more : List Byte) : List Answer := idles 15 ++ ans status :: more.map ans

/-- After reset, with a card that is going to send these answers. -/
def fresh (script : List Answer) : State :=
  .resetWith testCfg { script := script, tail := .free, seq := 0, tick := 0, hist := [] }
    { moves := [], rdata := 0, seq := 0 }

/-- The start state of section 2.8: a resolved version-2 card. -/
def resolved (mode : AddrMode) (script : List Answer) : State :=
  { fresh script with
    idGen := .sd2
    idAmode := mode
    fsm := .ready
    linkClk := .fast
    linkReady := true }

/-- The outcome is a next state with this property. -/
def after (o : Host.Outcome State Fault Refusal) (p : State → Bool) : Bool :=
  match o with
  | .next t => p t
  | .fault _ => false
  | .refused _ => false

/-- What was put on the bus from reset on. -/
def sent (t : State) : List BusOut := outputs t.port.hist

/-- `H8` (section 0). -/
def h8 : List BusOut := [.sel false, .sel true] ++ idleOut 8

/-- The frame, code and token a wire command leaves. -/
def wire (i : Instr) (answers : List Answer) (frame : FrameWord) (code : Code) (resp : BitVec 40) : Bool :=
  after (exec i (fresh answers)) fun t => t.frame == frame && t.code == code && t.resp == resp && t.result == .ok

/-! ## Well-formedness -/

theorem test_wellFormed_accepts : [Instr.cReset 0 0x4A, .cOpcondMmc 0 0x7C, .cIfcond 0x1AA 0x43, .cStop 0 0x30,
    .cBlklen 0x200 0x0A, .cRd1 0x12345678 0x2E, .cRdm 2 0x62, .cWr1 3 0x2C, .cWrm 4 0x25, .cOpcondApp 0x40000000 0x3B,
    .cOpcondApp 0 0x72, .cApp 0 0x32, .cOcr 0 0x7E, .readBlock 0xFFFFFFFF, .init].all (·.wellFormed testCfg) = true := by
  decide +kernel

/-- The argument check, each with the checksum its frame has. -/
theorem test_wellFormed_refuses_argument : [Instr.cReset 1 0x43, .cOpcondMmc 1 (crc7Of 9 0 (frameHead 1 1)),
    .cIfcond 0x1AB (crc7Of 9 0 (frameHead 8 0x1AB)), .cStop 1 (crc7Of 9 0 (frameHead 12 1)),
    .cBlklen 0x201 (crc7Of 9 0 (frameHead 16 0x201)), .cOpcondApp 1 (crc7Of 9 0 (frameHead 41 1)),
    .cApp 1 (crc7Of 9 0 (frameHead 55 1)), .cOcr 1 (crc7Of 9 0 (frameHead 58 1))].all
      (fun i => !i.wellFormed testCfg && !i.argumentOk testCfg) = true := by
  decide +kernel

/-- The checksum check. -/
theorem test_wellFormed_refuses_checksum : [Instr.cReset 0 0x4B, .cOpcondMmc 0 0x7D, .cIfcond 0x1AA 0x42,
    .cStop 0 0x31, .cBlklen 0x200 0x0B, .cRd1 0x12345678 0x2F, .cRdm 2 0x63, .cWr1 3 0x2D, .cWrm 4 0x24,
    .cOpcondApp 0 0x73, .cApp 0 0x33, .cOcr 0 0x7F].all
      (fun i => !i.wellFormed testCfg && i.argumentOk testCfg) = true := by
  decide +kernel

/-! ## Decoding: words written from R73, R75, R81 and R60, R72 -/

theorem test_decode_crc7Clear : decodeTableWord 72 0x01_00000000_00000000 = some .crc7Clear := by decide +kernel
/-- V1.7: `b[31:8]` is ignored -/
theorem test_decode_crc7Byte : decodeTableWord 72 0x02_00000000_FFFFFF40 = some (.crc7Byte 0x40) := by decide +kernel
/-- V1.7: `b[31:1]` is ignored -/
theorem test_decode_crc7Bit : decodeTableWord 72 0x03_00000000_FFFFFFFE = some (.crc7Bit false) := by decide +kernel
theorem test_decode_crc7Read : decodeTableWord 72 0x04_00000000_00000000 = some .crc7Read := by decide +kernel
/-- V3.1: `b[31:6]` is ignored -/
theorem test_decode_frameBuild : decodeTableWord 72 0x05_000001AA_FFFFFFC8 = some (.frameBuild 8 0x1AA) := by
  decide +kernel
theorem test_decode_crc16Clear : decodeTableWord 72 0x08_00000000_00000000 = some .crc16Clear := by decide +kernel
theorem test_decode_crc16Byte : decodeTableWord 72 0x09_00000000_00000031 = some (.crc16Byte 0x31) := by decide +kernel
theorem test_decode_crc16Read : decodeTableWord 72 0x0A_00000000_00000000 = some .crc16Read := by decide +kernel
/-- V6.1, V6.2 and V6.7 -/
theorem test_decode_sendCommand :
    decodeTableWord 72 0x10_000001AA_00000108 = some (.sendCommand 8 0x1AA true false) ∧
    decodeTableWord 72 0x10_00000000_00000237 = some (.sendCommand 55 0 false true) ∧
    decodeTableWord 72 0x10_00000000_FFFFFCC0 = some (.sendCommand 0 0 false false) := by decide +kernel
theorem test_decode_init : decodeTableWord 72 0x20_00000000_00000000 = some .init := by decide +kernel
theorem test_decode_readBlock : decodeTableWord 72 0x30_00000001_00000000 = some (.readBlock 1) := by decide +kernel
theorem test_decode_writeBlock : decodeTableWord 72 0x31_00000001_00000000 = some (.writeBlock 1) := by decide +kernel
theorem test_decode_readMulti : decodeTableWord 72 0x32_00000004_00000002 = some (.readMulti 4 2) := by decide +kernel
theorem test_decode_writeMulti : decodeTableWord 72 0x33_00000004_00000002 = some (.writeMulti 4 2) := by
  decide +kernel
theorem test_decode_ready : decodeTableWord 72 0x40_00000000_00000000 = some .ready := by decide +kernel
theorem test_decode_present : decodeTableWord 72 0x41_00000000_00000000 = some .present := by decide +kernel
theorem test_decode_cardType : decodeTableWord 72 0x42_00000000_00000000 = some .cardType := by decide +kernel

/-- The frames of section 2.3. -/
theorem test_decode_cReset : decodeTableWord 48 0x400000000095 = some (.cReset 0 0x4A) := by decide +kernel
theorem test_decode_cOpcondMmc : decodeTableWord 48 0x4100000000F9 = some (.cOpcondMmc 0 0x7C) := by decide +kernel
theorem test_decode_cIfcond : decodeTableWord 48 0x48000001AA87 = some (.cIfcond 0x1AA 0x43) := by decide +kernel
theorem test_decode_cStop : decodeTableWord 48 0x4C0000000061 = some (.cStop 0 0x30) := by decide +kernel
theorem test_decode_cBlklen : decodeTableWord 48 0x500000020015 = some (.cBlklen 0x200 0x0A) := by decide +kernel
theorem test_decode_cRd1 : decodeTableWord 48 0x51123456785D = some (.cRd1 0x12345678 0x2E) := by decide +kernel
theorem test_decode_cRdm : decodeTableWord 48 0x5200000002C5 = some (.cRdm 2 0x62) := by decide +kernel
theorem test_decode_cWr1 : decodeTableWord 48 0x580000020043 = some (.cWr1 0x200 0x21) := by decide +kernel
theorem test_decode_cWrm : decodeTableWord 48 0x59000000044B = some (.cWrm 4 0x25) := by decide +kernel
theorem test_decode_cOpcondApp : decodeTableWord 48 0x694000000077 = some (.cOpcondApp 0x40000000 0x3B) := by
  decide +kernel
theorem test_decode_cApp : decodeTableWord 48 0x770000000065 = some (.cApp 0 0x32) := by decide +kernel
theorem test_decode_cOcr : decodeTableWord 48 0x7A00000000FD = some (.cOcr 0 0x7E) := by decide +kernel

/-- V9.4: reserved op codes; frames of no command of R72, with a wrong start, transmission or end bit. -/
theorem test_decode_rejects :
    [0x00_00000000_00000000, 0x06_00000000_00000000, 0x11_00000000_00000000, 0x34_00000000_00000000,
      0xFF_FFFFFFFF_FFFFFFFF].all (fun w => decodeTableWord 72 w == none) = true ∧
    [0x7F0000000033, 0xC00000000095, 0x000000000095, 0x400000000094].all (fun w => decodeTableWord 48 w == none) =
      true := by decide +kernel

/-- The encoder writes the words of sections 2.3 and 2.6. -/
theorem test_encode : encode testCfg (.sendCommand 8 0x1AA true false) = .request 0x10_000001AA_00000108 ∧
    encode testCfg (.sendCommand 55 0 false true) = .request 0x10_00000000_00000237 ∧
    encode testCfg (.crc7Byte 0x40) = .request 0x02_00000000_00000040 ∧
    encode testCfg (.cIfcond 0x1AA 0x43) = .frame 0x48000001AA87 := by decide +kernel

/-! ## Checksum operations -/

theorem test_crc7Clear : after (exec .crc7Clear { fresh [] with crc7 := 0x4A }) (fun t => t.crc7 == 0x00#7) = true := by
  decide +kernel
/-- V1.2 -/
theorem test_crc7Byte : after (exec (.crc7Byte 0x40) (fresh [])) (fun t => t.crc7 == 0x64#7) = true := by decide +kernel
/-- V1.3 -/
theorem test_crc7Byte_from : after (exec (.crc7Byte 0x00) { fresh [] with crc7 := 0x7F })
    (fun t => t.crc7 == 0x70#7) = true := by decide +kernel
/-- V1.1, the sixth step -/
theorem test_crc7Bit : after (exec (.crc7Bit false) { fresh [] with crc7 := 0x48 })
    (fun t => t.crc7 == 0x19#7) = true := by decide +kernel
/-- V1.6 -/
theorem test_crc7Read : after (exec .crc7Read { fresh [] with crc7 := 0x4A })
    (fun t => t.val == 0x95#48 && t.crc7 == 0x4A#7) = true := by decide +kernel
/-- Section 2.3 -/
theorem test_frameBuild : after (exec (.frameBuild 17 0x12345678) { fresh [] with crc7 := 0x7F }) (fun t =>
    t.val == 0x51123456785D#48 && t.frame == 0x51123456785D#48 && t.crc7 == 0x2E#7 && t.port.hist == []) = true := by
  decide +kernel
theorem test_crc16Clear : after (exec .crc16Clear { fresh [] with crc16 := 0x31C3 })
    (fun t => t.crc16 == 0x0000#16) = true := by decide +kernel
/-- V2.1 -/
theorem test_crc16Byte : after (exec (.crc16Byte 0x31) (fresh [])) (fun t => t.crc16 == 0x2672#16) = true := by
  decide +kernel
/-- V2.2 -/
theorem test_crc16Byte_from : after (exec (.crc16Byte 0x00) { fresh [] with crc16 := 0x8000 })
    (fun t => t.crc16 == 0x9188#16) = true := by decide +kernel
/-- P5, step 19 -/
theorem test_crc16Read : after (exec .crc16Read { fresh [] with crc16 := 0x31C3 })
    (fun t => t.val == 0x31C3#48) = true := by decide +kernel

/-! ## Queries, requests and the host -/

/-- V9.5 after `Timeout`: 0; after `Ok`: 1. -/
theorem test_ready :
    after (exec .ready { resolved .block [] with linkReady := false }) (fun t => t.val == 0#48) = true ∧
    after (exec .ready (resolved .block [])) (fun t => t.val == 1#48 && t.port.hist == []) = true := by decide +kernel
theorem test_present :
    after (exec .present { resolved .block [] with linkReady := false, lastTimeout := true })
      (fun t => t.val == 0#48) = true ∧
    after (exec .present (resolved .block [])) (fun t => t.val == 1#48) = true := by decide +kernel
/-- V7.1 to V7.4 -/
theorem test_cardType : after (exec .cardType (resolved .block [])) (fun t => t.val == 0x7#48) = true ∧
    after (exec .cardType { resolved .byte [] with idGen := .sd1 }) (fun t => t.val == 0x2#48) = true := by
  decide +kernel
/-- V9.4 -/
theorem test_reserved_request : after (step { fresh [] with req := 0x34_00000000_00000000#72, busy := true })
    (fun t => t.result == .badRequest && !t.busy && t.port.hist == []) = true := by decide +kernel
/-- V9.6 -/
theorem test_req_ignored_while_busy : after (hostApply (.writeReq 1) { fresh [] with busy := true })
    (fun t => t.req == 0#72) = true := by decide +kernel
/-- A frame of no command of R72 in the wire-command latch (log 15). -/
theorem test_no_such_command : (match step { fresh [] with cmd := some 0x7F0000000033#48 } with
    | .refused .noSuchCommand => true
    | _ => false) = true := by decide +kernel
/-- R47: the buffer has `512 x BUF_BLOCKS` bytes (log 11). -/
theorem test_buf_bounds : after (hostApply (.writeBuf 2047 0xA5) (fresh [])) (fun t => t.buf == [(2047, 0xA5#8)]) =
      true ∧ (match hostApply (.writeBuf 2048 0xA5) (fresh []) with
        | .fault .noSuchBufAddress => true
        | _ => false) = true := by decide +kernel

/-! ## Commands -/

/-- V6.1 -/
theorem test_sendCommand : after (exec (.sendCommand 8 0x1AA true false) (fresh (reply 0x01 [0, 0, 0x01, 0xAA])))
    (fun t => sent t == h8 ++ [0x48#8, 0x00#8, 0x00#8, 0x01#8, 0xAA#8, 0x87#8].map .tx ++ idleOut 6 &&
      t.result == .ok && t.resp == 0x01000001AA#40 && t.crc7 == 0x43#7 && t.linkSel && !t.settle && t.linkReady &&
      !t.lastTimeout && t.fsm == .reset) = true := by decide +kernel
/-- V6.4 -/
theorem test_sendCommand_silent : after (exec (.sendCommand 0 0 false false) (fresh (idles 22)))
    (fun t => sent t == h8 ++ [0x40#8, 0x00#8, 0x00#8, 0x00#8, 0x00#8, 0x95#8].map .tx ++ idleOut 8 &&
      t.result == .noResponse && t.resp == 0xFF00000000#40 && t.lastTimeout && !t.linkReady && t.linkSel) = true := by
  decide +kernel

theorem test_cReset : wire (.cReset 0 0x4A) (reply 0x01 []) 0x400000000095 .ok 0x0100000000 = true := by decide +kernel
theorem test_cOpcondMmc : wire (.cOpcondMmc 0 0x7C) (reply 0x00 []) 0x4100000000F9 .ok 0 = true := by decide +kernel
/-- V6.6: the extension bytes are read after an error too -/
theorem test_cIfcond : wire (.cIfcond 0x1AA 0x43) (reply 0x09 [0, 0, 0x01, 0xAA]) 0x48000001AA87 .crcError
    0x09000001AA = true := by decide +kernel
/-- No reselection and, with `settle = 0`, no settle byte; V8.12's answer. -/
theorem test_cStop : wire (.cStop 0 0x30) (idles 6 ++ [ans 0x04]) 0x4C0000000061 .illegalCommand 0x0400000000 =
    true := by decide +kernel
theorem test_cBlklen : wire (.cBlklen 0x200 0x0A) (reply 0x00 []) 0x500000020015 .ok 0 = true := by decide +kernel
theorem test_cRd1 : wire (.cRd1 0x200 0x3C) (reply 0x20 []) 0x510000020079 .addressError 0x2000000000 = true := by
  decide +kernel
theorem test_cRdm : wire (.cRdm 2 0x62) (reply 0x2C []) 0x5200000002C5 .illegalCommand 0x2C00000000 = true := by
  decide +kernel
theorem test_cWr1 : wire (.cWr1 3 0x2C) (reply 0x40 []) 0x580000000359 .ok 0x4000000000 = true := by decide +kernel
theorem test_cWrm : wire (.cWrm 4 0x25) (reply 0x10 []) 0x59000000044B .ok 0x1000000000 = true := by decide +kernel
theorem test_cOpcondApp : wire (.cOpcondApp 0x40000000 0x3B) (reply 0x01 []) 0x694000000077 .ok 0x0100000000 =
    true := by decide +kernel
theorem test_cApp : wire (.cApp 0 0x32) (reply 0x05 []) 0x770000000065 .illegalCommand 0x0500000000 = true := by
  decide +kernel
theorem test_cOcr : wire (.cOcr 0 0x7E) (reply 0x00 [0xC0, 0xFF, 0x80, 0]) 0x7A00000000FD .ok 0x00C0FF8000 = true := by
  decide +kernel

/-! ## Initialisation -/

/-- What the card of V7.1 sends. -/
def version2Card : List Answer :=
  let pair := fun last => reply 0x01 [] ++ reply last []
  idles 10 ++ reply 0x01 [] ++ reply 0x01 [0, 0, 0x01, 0xAA] ++ pair 0x01 ++ pair 0x01 ++ pair 0x00 ++
    reply 0x00 [0xC0, 0xFF, 0x80, 0] ++ reply 0x00 []

/-- V7.1 -/
theorem test_init_version2 : after (exec .init (fresh version2Card))
    (fun t => t.result == .ok && t.port.hist.length == 200 && t.idGen == .sd2 && t.idAmode == .block && t.fsm == .ready &&
      t.linkClk == .fast && t.linkReady && !t.lastTimeout && t.crc7 == 0x0A#7 && t.frame == 0x500000020015#48 &&
      t.resp == 0#40 && !t.busy) = true := by decide +kernel
/-- V7.7 -/
theorem test_init_absent : after (exec .init (fresh (idles 32)))
    (fun t => sent t == .sel false :: idleOut 10 ++ h8 ++ [0x40#8, 0x00#8, 0x00#8, 0x00#8, 0x00#8, 0x95#8].map .tx ++
        idleOut 8 ++ [.sel false] &&
      t.result == .noResponse && t.fsm == .failed && t.idGen == .unknown && t.linkClk == .slow && !t.linkReady &&
      t.lastTimeout && t.resp == 0xFF00000000#40) = true := by decide +kernel

/-! ## Transfers -/

set_option maxRecDepth 100000

/-- V2.4 -/
theorem test_crc16_payload : crc16Of 0x1021 0x0000 (List.replicate 512 0xA5#8) = 0x42BE#16 := by decide +kernel

/-- V8.3 -/
theorem test_readBlock_timeout : after (exec (.readBlock 0)
      { resolved .block (reply 0x00 [] ++ idles 5) with cfg := { testCfg with tToken := 5 } })
    (fun t => sent t == h8 ++ [0x51#8, 0x00#8, 0x00#8, 0x00#8, 0x00#8, 0x55#8].map .tx ++ idleOut 7 ++ [.sel false] &&
      t.result == .timeout && !t.linkReady && t.lastTimeout && !t.busy) = true := by decide +kernel
/-- V8.8 -/
theorem test_writeBlock_notReady : after (exec (.writeBlock 0)
      { resolved .block (reply 0x00 [] ++ List.replicate 4 (ans 0)) with cfg := { testCfg with tReady := 4 } })
    (fun t => sent t == h8 ++ [0x58#8, 0x00#8, 0x00#8, 0x00#8, 0x00#8, 0x6F#8].map .tx ++ idleOut 6 ++ [.sel false] &&
      t.result == .timeout && !t.linkReady && t.lastTimeout) = true := by decide +kernel
/-- A block of zeros, whose CRC-16 is `0x0000` (V2.4), received with the CRC bytes `42 BE`: `DataCrcError`, the payload
stored as received (V8.4). -/
theorem test_readBlock_badCrc : after (exec (.readBlock 0) { resolved .block
      (reply 0x00 [] ++ idles 2 ++ ans 0xFE :: List.replicate 512 (ans 0x00) ++ [ans 0x42, ans 0xBE]) with
        buf := [(0, 0xA5#8), (511, 0xA5#8), (512, 0xA5#8)] })
    (fun t => t.result == .dataCrcError && t.crc16 == 0#16 && t.buf == [(512, 0xA5#8)] && t.linkReady &&
      !t.linkSel && !t.lastTimeout) = true := by decide +kernel
/-- V8.7 with `T_PROGRAM = 6` -/
theorem test_writeBlock_programTimeout : after (exec (.writeBlock 0)
      { resolved .block (reply 0x00 [] ++ idles 516 ++ ans 0xE5 :: List.replicate 6 (ans 0)) with
        cfg := { testCfg with tProgram := 6 } })
    (fun t => t.result == .programTimeout && !t.linkReady && t.lastTimeout && t.crc16 == 0#16 &&
      sent t == h8 ++ [0x58#8, 0x00#8, 0x00#8, 0x00#8, 0x00#8, 0x6F#8].map .tx ++ idleOut 3 ++
        .tx 0xFE#8 :: List.replicate 514 (.tx 0x00#8) ++ idleOut 7 ++ [.sel false]) = true := by decide +kernel
/-- V8.12, with a payload of zeros -/
theorem test_readMulti : after (exec (.readMulti 2 1) (resolved .block
      (reply 0x00 [] ++ ans 0xFE :: List.replicate 514 (ans 0) ++ idles 6 ++ [ans 0x04, ans 0xFF])))
    (fun t => t.result == .illegalCommand && t.done == 1#32 && t.resp == 0x0400000000#40 && t.linkReady) = true := by
  decide +kernel
/-- V9.2 -/
theorem test_readMulti_gate : after (exec (.readMulti 0 5) (resolved .block []))
    (fun t => t.result == .badRequest && t.port.hist == []) = true ∧
    after (exec (.readMulti 0 0) { resolved .block [] with done := 3 })
      (fun t => t.result == .ok && t.done == 0#32 && t.port.hist == []) = true := by decide +kernel
/-- V8.14: the second block's data response is `EB` -/
theorem test_writeMulti : after (exec (.writeMulti 4 2) (resolved .block
      (reply 0x00 [] ++ idles 516 ++ [ans 0xE5, ans 0x00, ans 0xFF] ++ idles 516 ++ [ans 0xEB])))
    (fun t => t.result == .dataCrcError && t.done == 1#32 && !t.linkReady && !t.lastTimeout &&
      sent t == h8 ++ [0x59#8, 0x00#8, 0x00#8, 0x00#8, 0x04#8, 0x4B#8].map .tx ++ idleOut 3 ++
        .tx 0xFC#8 :: List.replicate 514 (.tx 0x00#8) ++ idleOut 4 ++
        .tx 0xFC#8 :: List.replicate 514 (.tx 0x00#8) ++ idleOut 1 ++ [.sel false]) = true := by decide +kernel
/-- V9.1: before the range test, nothing but `result` and `busy` changes. -/
theorem test_writeMulti_gate : after (exec (.writeMulti 0 0) { fresh [] with done := 3 })
    (fun t => t.result == .notReady && t.done == 3#32 && t.port.hist == []) = true := by decide +kernel

/-! ## Witnesses: the hypotheses of each obligation met by one state and operands -/

section Scripts

theorem reply_answer (index : BitVec 6) (status : Byte) (hlead : leadLen testCfg index true = 14)
    (hstatus : isResponse status = true) : CommandAnswer testCfg index true false status 0 (reply status []) :=
  ⟨idles 14, idles 1, ans status, [], rfl, hlead.symm, by decide, by decide, rfl, hstatus, rfl⟩

theorem reply_answer_ext (index : BitVec 6) (status : Byte) (e : Word) (hlead : leadLen testCfg index true = 14)
    (hstatus : isResponse status = true) : CommandAnswer testCfg index true true status e (reply status
      [e.extractLsb' 24 8, e.extractLsb' 16 8, e.extractLsb' 8 8, e.extractLsb' 0 8]) :=
  ⟨idles 14, idles 1, ans status, _, rfl, hlead.symm, by decide, by decide, rfl, hstatus, rfl⟩

/-- What a card sends during a stop-transmission command without reselection. -/
def stopReply (status : Byte) : List Answer := idles 6 ++ [ans status]

theorem stop_answer (status : Byte) (hstatus : isResponse status = true) :
    CommandAnswer testCfg testCfg.idxStop false false status 0 (stopReply status) :=
  ⟨idles 6, [], ans status, [], rfl, rfl, by simp, by decide, rfl, hstatus, rfl⟩

/-- A data block the card sends: one idle byte, the token, 512 equal bytes, the CRC bytes. -/
def cardBlock (b : Byte) (crc : BitVec 16) : List Answer :=
  [ans 0xFF#8] ++ ans 0xFE#8 :: (List.replicate 512 (ans b) ++ [ans (crc.extractLsb' 8 8), ans (crc.extractLsb' 0 8)])

theorem cardBlock_answer (b : Byte) (crc : BitVec 16) :
    BlockAnswer testCfg 0xFE#8 (List.replicate 512 b) crc (cardBlock b crc) :=
  ⟨[ans 0xFF#8], ans 0xFE#8, List.replicate 512 (ans b), _, _, rfl, ⟨by decide, .inr (by decide)⟩, rfl,
    List.map_replicate, by rw [List.length_replicate, Config.blockLen], rfl, rfl⟩

theorem idle_answer (budget : Nat) : IdleAnswer budget [ans 0xFF#8] :=
  ⟨[], ans 0xFF#8, rfl, ⟨by simp, .inl rfl⟩, rfl⟩

/-- What the card sends while it takes a data block: ready at once, then the data response, one busy byte, ready. -/
def cardTakes (response : Byte) : List Answer :=
  [ans 0xFF#8] ++ List.replicate 515 (ans 0xFF#8) ++ ans response :: [ans 0x00#8, ans 0xFF#8]

theorem cardTakes_answer (response : Byte) (hok : dataResponse testCfg response = .ok) :
    SendAnswer testCfg response (cardTakes response) := by
  refine ⟨[ans 0xFF#8], List.replicate 515 (ans 0xFF#8), ans response, [ans 0x00#8, ans 0xFF#8], rfl,
    idle_answer _, by rw [List.length_replicate, Config.blockLen], rfl, ?_⟩
  rw [if_pos hok]
  exact ⟨[ans 0x00#8], ans 0xFF#8, rfl, ⟨by decide, .inr (by decide)⟩, rfl⟩

theorem blocks_answer : BlocksAnswer testCfg testCfg.tokStartMr [List.replicate 512 0xA5#8, List.replicate 512 0x5A#8]
    (cardBlock 0xA5 (crc16Of testCfg.crc16Poly testCfg.crc16Init (List.replicate 512 0xA5#8)) ++
      (cardBlock 0x5A (crc16Of testCfg.crc16Poly testCfg.crc16Init (List.replicate 512 0x5A#8)) ++ [])) :=
  .cons (cardBlock_answer _ _) (.cons (cardBlock_answer _ _) .nil)

theorem sends_answer : SendsAnswer testCfg 2 (cardTakes 0x05 ++ (cardTakes 0xE5 ++ [])) :=
  .cons (cardTakes_answer _ (by decide)) (by decide) (.cons (cardTakes_answer _ (by decide)) (by decide) .nil)

theorem expires_idle : Expires (fun r => r == testCfg.tokStart) testCfg.tToken (idles 100) :=
  ⟨by decide +kernel, by decide +kernel, by decide +kernel, .inr (by decide +kernel)⟩

theorem expires_busy (budget : Nat) (hb : budget = 50 ∨ budget = 200) :
    Expires (fun r => r == Config.idleByte) budget (List.replicate budget (ans 0x00#8)) := by
  obtain rfl | rfl := hb <;> exact ⟨by decide +kernel, by decide +kernel, by decide +kernel, .inr (by decide +kernel)⟩

end Scripts

/-- A card that answers a transfer command with status 0 and then sends `more`. -/
def accepted (mode : AddrMode) (more : List Answer) : State := resolved mode (reply 0x00 [] ++ more)

theorem fresh_inv (script : List Answer) : (fresh script).Inv := by
  refine ⟨by simp [fresh, State.resetWith], by simp [fresh, State.resetWith], fun h => ?_, rfl, fun h => ?_,
    fun _ => .inl rfl, fun h => ?_, Nat.zero_le _, rfl, rfl, rfl⟩ <;> cases h

theorem slice_nil (n a b : Nat) : Memory.slice [] a n = Memory.slice [] b n := by
  induction n generalizing a b with
  | zero => rfl
  | succ n ih => rw [Memory.slice, Memory.slice, ih (a + 1) (b + 1)]; rfl

theorem resolved_inv (mode : AddrMode) (script : List Answer) : (resolved mode script).Inv := by
  refine ⟨by simp [resolved, fresh, State.resetWith], by simp [resolved, fresh, State.resetWith], fun _ => rfl, rfl,
    fun h => ?_, fun _ => .inr (.inl rfl), fun h => ?_,
    Nat.zero_le _, rfl, rfl, rfl⟩ <;> cases h

/-- A started request, and a move of the host that comes after it. -/
def started (w : ReqWord) : State :=
  { fresh [] with
    req := w
    busy := true
    host := { moves := [{ act := .readReg .val, duringOp := false }], rdata := 0, seq := 0 } }

theorem witness_StepRunsDecodedInstruction :
    ((started 0x02_00000000_00000040#72).stalled = false ∧ (started 0x02_00000000_00000040#72).cmd = none ∧
      (started 0x02_00000000_00000040#72).busy = true ∧ hostIntrudes (started 0x02_00000000_00000040#72) = false ∧
      decode testCfg (.request (started 0x02_00000000_00000040#72).req) = some (.crc7Byte 0x40)) ∧
    (({ fresh [] with cmd := some 0x770000000065#48 } : State).stalled = false ∧
      decode testCfg (.frame 0x770000000065#48) = some (.cApp 0 0x32)) := by decide +kernel

theorem witness_AcceptedRequestIsRun :
    let s := { fresh [] with
      host := { moves := [{ act := .writeReq 0x30_00000007_00000000#72, duringOp := true },
        { act := .readReg .result, duringOp := false }], rdata := 0, seq := 0 } }
    s.stalled = false ∧ s.cmd = none ∧ s.busy = false ∧
      s.host.moves = { act := .writeReq 0x30_00000007_00000000#72, duringOp := true } ::
        [{ act := .readReg .result, duringOp := false }] ∧
      (∀ m, [({ act := .readReg .result, duringOp := false } : HostMove)].head? = some m → m.duringOp = false) ∧
      decode s.cfg (.request 0x30_00000007_00000000#72) = some (.readBlock 7) := by
  refine ⟨rfl, rfl, rfl, rfl, fun m h => ?_, by decide +kernel⟩
  cases h
  rfl

theorem witness_ReservedOpcodesAreRejected : let s := started 0x34_00000000_00000000#72
    s.stalled = false ∧ s.cmd = none ∧ s.busy = true ∧ hostIntrudes s = false ∧ reservedOp (reqOp s.req) = true := by
  decide +kernel

/-- The lowest and highest reserved code of each range of R76, and the operation codes beside them. -/
theorem witness_reserved_ranges : [0x00#8, 0x06#8, 0x07#8, 0x0B#8, 0x0F#8, 0x11#8, 0x1F#8, 0x21#8, 0x2F#8, 0x34#8,
      0x3F#8, 0x43#8, 0xFF#8].all reservedOp = true ∧
    [0x01#8, 0x05#8, 0x08#8, 0x0A#8, 0x10#8, 0x20#8, 0x30#8, 0x33#8, 0x40#8, 0x42#8].any reservedOp = false := by
  decide +kernel

theorem witness_HostReadsHaveNoSideEffect : (fresh []).busy = false ∧ ((started 0).busy = true) ∧
    2047 < (fresh []).cfg.bufSize := by decide +kernel

theorem witness_HostBufferWrites : Memory.wf (fresh []).buf = true ∧ (fresh []).cfg.bufSize ≤ 2048 ∧
    (2047 < (fresh []).cfg.bufSize ∧ (fresh []).busy = false) ∧ (2047 < (started 0).cfg.bufSize ∧ (started 0).busy = true) := by
  decide +kernel

theorem witness_DecodeInvertsEncode : testCfg.indicesDistinct = true := by decide +kernel

theorem witness_UnusedRequestBitsAreIgnored :
    decode testCfg (.request 0x02_12345678_FFFFFF40#72) = some (.crc7Byte 0x40) ∧
    (0x02_12345678_FFFFFF40#72 &&& usedBits (reqOp 0x02_12345678_FFFFFF40#72)) =
      (0x02_00000000_00000040#72 &&& usedBits (reqOp 0x02_12345678_FFFFFF40#72)) := by decide +kernel

theorem witness_DecodedFrameIsTheEncoding : decode testCfg (.frame 0x7A00000000FD#48) = some (.cOcr 0 0x7E) := by
  decide +kernel

theorem witness_CrcDetectsCorruption : testCfg.crc16Poly.getLsbD 0 = true ∧ (0xA5#8 ≠ 0xB5#8) ∧
    testCfg.crc7Poly.getLsbD 0 = true ∧ (7 < 8) := by decide +kernel

theorem witness_ReadyAndPresentComplete : (resolved .block []).Inv ∧ (fresh []).Inv :=
  ⟨resolved_inv _ _, fresh_inv _⟩

theorem witness_CardTypeReturnsIdentity : (resolved .block []).Inv ∧ (fresh []).Inv ∧ (fresh []).idGen = .unknown :=
  ⟨resolved_inv _ _, fresh_inv _, rfl⟩

/-- Section 2.4: one status byte for each clause. -/
theorem witness_ClassifyPriority : (0x7F#8).getLsbD 2 = true ∧ ((0x28#8).getLsbD 2 = false ∧ (0x28#8).getLsbD 3 = true) ∧
    ((0x20#8).getLsbD 2 = false ∧ (0x20#8).getLsbD 3 = false ∧ (0x20#8).getLsbD 5 = true) := by decide

theorem witness_SendCommandDeliversTheAnswer :
    ((fresh (reply 0x01 [0, 0, 0x01, 0xAA] ++ [])).port.script = reply 0x01 [0, 0, 0x01, 0xAA] ++ [] ∧
      CommandAnswer testCfg 8 (!false || false) true 0x01 0x1AA (reply 0x01 [0, 0, 0x01, 0xAA])) ∧
    ((fresh (idles 22)).port.script = idles 14 ++ idles 7 ++ ans 0xFF#8 :: [] ∧
      (idles 14).length = leadLen testCfg 0 (!false || false) ∧ (idles 7).length + 1 = testCfg.nRespPoll ∧
      (∀ a ∈ idles 7, isResponse a.rx = false) ∧ isResponse (ans 0xFF#8).rx = false) :=
  ⟨⟨rfl, reply_answer_ext 8 0x01 0x1AA (by decide) (by decide)⟩, rfl, by decide, by decide, by decide, by decide⟩

theorem witness_WireCommandsSendTheirFrame :
    (Instr.cOcr 0 0x7E).wireFields testCfg = some (58#6, 0#32, 0x7E#7) ∧ (Instr.cOcr 0 0x7E).wellFormed testCfg = true ∧
    (Instr.cStop 5 0).wireFields testCfg = some (12#6, 5#32, 0#7) := by decide +kernel

theorem witness_InitEndsReadyOrFailed : (fresh []).port.tail = .free := rfl

/-- R154's card. -/
theorem witness_InitResolvesVersion2 :
    let pair := reply 0x01 [] ++ reply 0x01 []
    let last := reply 0x01 [] ++ reply 0x00 []
    let s := fresh (idles 10 ++ reply 0x01 [] ++ reply 0x01 [0, 0, 0x01, 0xAA] ++ (pair ++ last) ++
      reply 0x00 [0xC0, 0xFF, 0x80, 0] ++ reply 0x00 [] ++ [])
    s.port.script = idles 10 ++ reply 0x01 [] ++ reply 0x01 [0, 0, 0x01, 0xAA] ++ (pair ++ last) ++
        reply 0x00 [0xC0, 0xFF, 0x80, 0] ++ reply 0x00 [] ++ [] ∧
      (idles 10).length = testCfg.nPowerupBytes ∧
      CommandAnswer testCfg testCfg.idxReset true false 0x01 0 (reply 0x01 []) ∧ classify 0x01 = .ok ∧
      r1Idle 0x01 = true ∧
      CommandAnswer testCfg testCfg.idxIfcond true true 0x01 0x1AA (reply 0x01 [0, 0, 0x01, 0xAA]) ∧
      echoOk testCfg 0x1AA = true ∧ V2Rounds testCfg 0 (pair ++ last) ∧
      CommandAnswer testCfg testCfg.idxOcr true true 0x00 0xC0FF8000 (reply 0x00 [0xC0, 0xFF, 0x80, 0]) ∧
      classify 0x00 = .ok ∧ CommandAnswer testCfg testCfg.idxBlklen true false 0 0 (reply 0x00 []) :=
  ⟨rfl, rfl, reply_answer _ _ (by decide) (by decide), by decide, by decide,
    reply_answer_ext _ _ 0x1AA (by decide) (by decide), by decide +kernel,
    .again (reply_answer _ _ (by decide) (by decide)) (reply_answer _ _ (by decide) (by decide)) (by decide) (by decide)
      (by decide) (by decide +kernel)
      (.last (reply_answer _ _ (by decide) (by decide)) (reply_answer _ _ (by decide) (by decide)) (by decide)
        (by decide) (by decide)),
    reply_answer_ext _ _ 0xC0FF8000 (by decide) (by decide), by decide, reply_answer _ _ (by decide) (by decide)⟩

/-- The MMC card of V7.3 and the SD-version-1 card of V7.2. -/
theorem witness_InitResolvesLegacy (rounds : List Answer) :
    (fresh (idles 10 ++ reply 0x01 [] ++ reply 0x05 [0, 0, 0, 0] ++ rounds ++ reply 0x00 [] ++ [])).port.script =
      idles 10 ++ reply 0x01 [] ++ reply 0x05 [0, 0, 0, 0] ++ rounds ++ reply 0x00 [] ++ [] ∧
    (idles 10).length = testCfg.nPowerupBytes ∧
    CommandAnswer testCfg testCfg.idxReset true false 0x01 0 (reply 0x01 []) ∧ classify 0x01 = .ok ∧
    r1Idle 0x01 = true ∧
    CommandAnswer testCfg testCfg.idxIfcond true true 0x05 0 (reply 0x05 [0, 0, 0, 0]) ∧
    classify 0x05 = .illegalCommand ∧
    LegacyRounds testCfg .sd1 0 .mmc (reply 0x05 [] ++ (reply 0x01 [] ++ reply 0x00 [])) ∧
    LegacyRounds testCfg .sd1 0 .sd1 (reply 0x01 [] ++ reply 0x01 [] ++ (reply 0x01 [] ++ reply 0x00 [])) ∧
    CommandAnswer testCfg testCfg.idxBlklen true false 0 0 (reply 0x00 []) :=
  ⟨rfl, rfl, reply_answer _ _ (by decide) (by decide), by decide, by decide,
    reply_answer_ext _ _ 0 (by decide) (by decide), by decide,
    .appIllegal (reply_answer _ _ (by decide) (by decide)) (by decide) (by decide +kernel)
      (.mmcAgain (reply_answer _ _ (by decide) (by decide)) (by decide) (by decide) (by decide +kernel)
        (.mmcLast (reply_answer _ _ (by decide) (by decide)) (by decide) (by decide))),
    .sd1Again (reply_answer _ _ (by decide) (by decide)) (reply_answer _ _ (by decide) (by decide)) (by decide)
      (by decide) (by decide) (by decide +kernel)
      (.sd1Last (reply_answer _ _ (by decide) (by decide)) (reply_answer _ _ (by decide) (by decide)) (by decide)
        (by decide) (by decide)),
    reply_answer _ _ (by decide) (by decide)⟩

/-- Two states that differ in everything `INIT` does not read. -/
theorem witness_InitDependsOnAnswersOnly : (resolved .block version2Card).cfg = (fresh version2Card).cfg ∧
    (resolved .block version2Card).port.script = (fresh version2Card).port.script ∧
    (resolved .block version2Card).port.tail = (fresh version2Card).port.tail ∧
    (resolved .block version2Card).port.seq = (fresh version2Card).port.seq ∧
    (resolved .block version2Card).idGen ≠ (fresh version2Card).idGen := ⟨rfl, rfl, rfl, rfl, by decide⟩

theorem witness_InitBeginsWithClocks : (fresh []).cfg.valid = true := by decide +kernel

/-- Each test of the gate at its boundary (sections 2.5 and 2.9). -/
theorem witness_GateRefuses : gateCode (fresh []) 0x00800000 1 = some .notReady ∧
    gateCode (resolved .block []) 0 5 = some .badRequest ∧ gateCode (resolved .block []) 0xFFFFFFFF 4 = none ∧
    gateCode (resolved .byte []) 0x00800000 1 = some .badRequest ∧ gateCode (resolved .byte []) 0x007FFFFF 1 = none ∧
    gateCode (resolved .byte []) 0x00800000 (0 : Word).toNat = some .badRequest := by decide +kernel

theorem witness_AddressTranslation : (0x007FFFFF : Word).toNat < 2 ^ 23 ∧ sectorInRange .byte 0x007FFFFF = true ∧
    sectorInRange .byte 0x00800000 = false ∧ sectorInRange .block 0xFFFFFFFF = true ∧
    addrOf .byte 0x007FFFFF = 0xFFFFFE00 := by decide +kernel

/-- V8.5: each of the four operations with a status byte of each kind. -/
theorem witness_RefusedCommandEndsTransfer : let s := fun status => resolved .block (reply status [] ++ [])
    gateCode (s 0x20) 3 1 = none ∧ gateCode (s 0x01) 3 1 = none ∧ gateCode (s 0x04) 3 (2 : Word).toNat = none ∧
    ((2 : Word) ≠ 0) ∧ (∀ status, (s status).port.script = reply status [] ++ []) ∧
    CommandAnswer testCfg testCfg.idxRd1 true false 0x20 0 (reply 0x20 []) ∧
    CommandAnswer testCfg testCfg.idxWr1 true false 0x01 0 (reply 0x01 []) ∧
    CommandAnswer testCfg testCfg.idxRdm true false 0x04 0 (reply 0x04 []) ∧
    CommandAnswer testCfg testCfg.idxWrm true false 0x7F 0 (reply 0x7F []) :=
  ⟨rfl, rfl, rfl, by decide, fun _ => rfl, reply_answer _ _ (by decide) (by decide),
    reply_answer _ _ (by decide) (by decide), reply_answer _ _ (by decide) (by decide),
    reply_answer _ _ (by decide) (by decide)⟩

theorem witness_ReadBlockCompletes : let s := accepted .byte (cardBlock 0xA5 0x42BE ++ [])
    gateCode s 1 1 = none ∧ Memory.wf s.buf = true ∧ s.port.script = reply 0x00 [] ++ cardBlock 0xA5 0x42BE ++ [] ∧
    CommandAnswer s.cfg s.cfg.idxRd1 true false 0 0 (reply 0x00 []) ∧
    BlockAnswer s.cfg s.cfg.tokStart (List.replicate 512 0xA5#8) 0x42BE (cardBlock 0xA5 0x42BE) :=
  ⟨rfl, rfl, (List.append_assoc _ _ _).symm, reply_answer _ _ (by decide) (by decide), cardBlock_answer _ _⟩

theorem witness_ReadBlockTimesOut : let s := accepted .block (idles 100 ++ [])
    gateCode s 0 1 = none ∧ s.port.script = reply 0x00 [] ++ idles 100 ++ [] ∧
    CommandAnswer s.cfg s.cfg.idxRd1 true false 0 0 (reply 0x00 []) ∧
    Expires (fun r => r == s.cfg.tokStart) s.cfg.tToken (idles 100) :=
  ⟨rfl, (List.append_assoc _ _ _).symm, reply_answer _ _ (by decide) (by decide), expires_idle⟩

theorem witness_WriteBlockCompletes : let s := accepted .byte (cardTakes 0x05 ++ [])
    gateCode s 1 1 = none ∧ s.port.script = reply 0x00 [] ++ cardTakes 0x05 ++ [] ∧
    CommandAnswer s.cfg s.cfg.idxWr1 true false 0 0 (reply 0x00 []) ∧ SendAnswer s.cfg 0x05 (cardTakes 0x05) ∧
    dataResponse s.cfg 0x05 = .ok :=
  ⟨rfl, (List.append_assoc _ _ _).symm, reply_answer _ _ (by decide) (by decide), cardTakes_answer _ (by decide),
    by decide⟩

/-- A refused block: no busy poll. -/
theorem witness_WriteBlockCompletes_refused : dataResponse testCfg 0x0B = .dataCrcError ∧
    SendAnswer testCfg 0x0B ([ans 0xFF#8] ++ List.replicate 515 (ans 0xFF#8) ++ ans 0x0B#8 :: []) :=
  ⟨by decide, [ans 0xFF#8], List.replicate 515 (ans 0xFF#8), ans 0x0B#8, [], rfl, idle_answer _,
    by rw [List.length_replicate, Config.blockLen], rfl, by rw [if_neg (by decide)]⟩

theorem witness_WriteBlockTimesOut_ready : let s := accepted .block (List.replicate 50 (ans 0x00#8) ++ [])
    gateCode s 0 1 = none ∧ s.port.script = reply 0x00 [] ++ List.replicate 50 (ans 0x00#8) ++ [] ∧
    CommandAnswer s.cfg s.cfg.idxWr1 true false 0 0 (reply 0x00 []) ∧
    Expires (fun r => r == Config.idleByte) s.cfg.tReady (List.replicate 50 (ans 0x00#8)) :=
  ⟨rfl, (List.append_assoc _ _ _).symm, reply_answer _ _ (by decide) (by decide), expires_busy 50 (.inl rfl)⟩

theorem witness_WriteBlockTimesOut_program :
    let head := List.replicate 515 (ans 0xFF#8)
    let busy := List.replicate 200 (ans 0x00#8)
    let s := resolved .block (reply 0x00 [] ++ [ans 0xFF#8] ++ head ++ ans 0xE5#8 :: busy ++ [])
    gateCode s 0 1 = none ∧ s.port.script = reply 0x00 [] ++ [ans 0xFF#8] ++ head ++ ans 0xE5#8 :: busy ++ [] ∧
    CommandAnswer s.cfg s.cfg.idxWr1 true false 0 0 (reply 0x00 []) ∧ IdleAnswer s.cfg.tReady [ans 0xFF#8] ∧
    head.length = Config.blockLen + 3 ∧ dataResponse s.cfg (ans 0xE5#8).rx = .ok ∧
    Expires (fun r => r == Config.idleByte) s.cfg.tProgram busy := by
  intro head busy s
  exact ⟨rfl, rfl, reply_answer testCfg.idxWr1 _ (by decide) (by decide), idle_answer _, by
    rw [List.length_replicate, Config.blockLen], show dataResponse testCfg 0xE5#8 = .ok by decide,
    expires_busy 200 (.inr rfl)⟩

/-- Two blocks; also what the first half of `MultiBlockEqualsSingleBlocks` asks. -/
theorem witness_ReadMultiCompletes :
    let blocks := cardBlock 0xA5 (crc16Of testCfg.crc16Poly testCfg.crc16Init (List.replicate 512 0xA5#8)) ++
      (cardBlock 0x5A (crc16Of testCfg.crc16Poly testCfg.crc16Init (List.replicate 512 0x5A#8)) ++ [])
    let s := resolved .block (reply 0x00 [] ++ blocks ++ stopReply 0x00 ++ [ans 0xFF#8] ++ [])
    gateCode s 2 (2 : Word).toNat = none ∧ Memory.wf s.buf = true ∧ (2 : Word) ≠ 0 ∧
    [List.replicate 512 0xA5#8, List.replicate 512 0x5A#8].length = (2 : Word).toNat ∧
    s.port.script = reply 0x00 [] ++ blocks ++ stopReply 0x00 ++ [ans 0xFF#8] ++ [] ∧
    CommandAnswer s.cfg s.cfg.idxRdm true false 0 0 (reply 0x00 []) ∧
    BlocksAnswer s.cfg s.cfg.tokStartMr [List.replicate 512 0xA5#8, List.replicate 512 0x5A#8] blocks ∧
    CommandAnswer s.cfg s.cfg.idxStop false false 0x00 0 (stopReply 0x00) ∧ classify 0x00 = .ok ∧
    IdleAnswer s.cfg.tReady [ans 0xFF#8] :=
  ⟨rfl, rfl, by decide, rfl, rfl, reply_answer _ _ (by decide) (by decide), blocks_answer, stop_answer _ (by decide),
    by decide, idle_answer _⟩

/-- Two blocks; also what the second half of `MultiBlockEqualsSingleBlocks` asks. -/
theorem witness_WriteMultiCompletes :
    let blocks := cardTakes 0x05 ++ (cardTakes 0xE5 ++ [])
    let s := resolved .block (reply 0x00 [] ++ blocks ++ ans 0xFF#8 :: [] ++ [ans 0xFF#8] ++ [])
    gateCode s 4 (2 : Word).toNat = none ∧ (2 : Word) ≠ 0 ∧
    s.port.script = reply 0x00 [] ++ blocks ++ ans 0xFF#8 :: [] ++ [ans 0xFF#8] ++ [] ∧
    CommandAnswer s.cfg s.cfg.idxWrm true false 0 0 (reply 0x00 []) ∧ SendsAnswer s.cfg (2 : Word).toNat blocks ∧
    ([] : List Answer).length = s.cfg.nStuffStopTok ∧ IdleAnswer s.cfg.tProgram [ans 0xFF#8] :=
  ⟨rfl, by decide, rfl, reply_answer _ _ (by decide) (by decide), sends_answer, rfl, idle_answer _⟩

theorem witness_EmptyMultiCompletes : gateCode (resolved .block []) 0xFFFFFFFF 0 = none := by decide +kernel

/-- The single-block operations on sector 2 + 1 that the two multi-block ones above are compared with: both halves'
conditions on `u`, for block 1. -/
theorem witness_MultiBlockEqualsSingleBlocks :
    let payload := List.replicate 512 0x5A#8
    let crc := crc16Of testCfg.crc16Poly testCfg.crc16Init payload
    let u := accepted .block (cardBlock 0x5A crc ++ [])
    let v := accepted .block (cardTakes 0x05 ++ [])
    (1 < 2 ∧ u.cfg = testCfg ∧ u.idAmode = .block ∧ gateCode u ((2 : Word) + BitVec.ofNat 32 1) 1 = none ∧
      Memory.wf u.buf = true ∧ u.port.script = reply 0x00 [] ++ cardBlock 0x5A crc ++ [] ∧
      CommandAnswer u.cfg u.cfg.idxRd1 true false 0 0 (reply 0x00 []) ∧
      BlockAnswer u.cfg u.cfg.tokStart payload crc (cardBlock 0x5A crc)) ∧
    (v.cfg = testCfg ∧ gateCode v ((4 : Word) + BitVec.ofNat 32 1) 1 = none ∧
      Memory.slice v.buf 0 512 = Memory.slice (resolved .block []).buf (512 * 1) 512 ∧
      v.port.script = reply 0x00 [] ++ cardTakes 0x05 ++ [] ∧
      CommandAnswer v.cfg v.cfg.idxWr1 true false 0 0 (reply 0x00 []) ∧ SendAnswer v.cfg 0x05 (cardTakes 0x05) ∧
      dataResponse v.cfg 0x05 = .ok) := by
  refine ⟨⟨by decide, rfl, rfl, rfl, rfl, (List.append_assoc _ _ _).symm, reply_answer _ _ (by decide) (by decide),
    cardBlock_answer _ _⟩, rfl, rfl, ?_, (List.append_assoc _ _ _).symm, reply_answer _ _ (by decide) (by decide),
    cardTakes_answer _ (by decide), by decide⟩
  exact slice_nil 512 0 (512 * 1)

/-- The write of sector 1 to a byte-addressed card, and its read from a card that returns what it was sent. -/
theorem witness_WriteThenReadReturnsTheData :
    let payload := List.replicate 512 0x5A#8
    let s := accepted .byte (cardTakes 0x05 ++ [])
    let crc := crc16Of testCfg.crc16Poly testCfg.crc16Init payload
    let u := accepted .byte (cardBlock 0x5A crc ++ [])
    (gateCode s 1 1 = none ∧ s.port.script = reply 0x00 [] ++ cardTakes 0x05 ++ [] ∧
      CommandAnswer s.cfg s.cfg.idxWr1 true false 0 0 (reply 0x00 []) ∧ SendAnswer s.cfg 0x05 (cardTakes 0x05) ∧
      dataResponse s.cfg 0x05 = .ok) ∧
    (u.cfg = s.cfg ∧ u.idAmode = s.idAmode ∧ gateCode u 1 1 = none ∧ Memory.wf u.buf = true ∧
      u.port.script = reply 0x00 [] ++ cardBlock 0x5A crc ++ [] ∧
      CommandAnswer u.cfg u.cfg.idxRd1 true false 0 0 (reply 0x00 []) ∧
      BlockAnswer u.cfg u.cfg.tokStart payload crc (cardBlock 0x5A crc)) :=
  ⟨⟨rfl, (List.append_assoc _ _ _).symm, reply_answer _ _ (by decide) (by decide), cardTakes_answer _ (by decide),
      by decide⟩,
    rfl, rfl, rfl, rfl, (List.append_assoc _ _ _).symm, reply_answer _ _ (by decide) (by decide),
    cardBlock_answer _ _⟩

theorem witness_TransferEndsWithItsFlags : (resolved .byte []).port.tail = .free ∧
    gateCode (resolved .byte []) 0x007FFFFF 1 = none ∧ gateCode (resolved .byte []) 0x007FFFFF (4 : Word).toNat = none ∧
    (4 : Word) ≠ 0 := ⟨rfl, by decide +kernel, by decide +kernel, by decide⟩

/-- A started operation answers a next state: what the frames, the history and the clock-tier statements ask. -/
theorem witness_exec_next : (∃ t, exec (.readBlock 0) (resolved .block []) = .next t) ∧
    (∃ t, exec (.readMulti 0 4) (resolved .block []) = .next t) ∧
    (∃ t, exec (.writeBlock 0) (resolved .block []) = .next t) ∧
    (∃ t, exec (.writeMulti 0 4) (resolved .block []) = .next t) ∧ (∃ t, exec .init (resolved .block []) = .next t) ∧
    (∃ t, exec (.sendCommand 13 0 false true) (resolved .block []) = .next t) ∧
    (∃ t, exec (.cApp 0 0x32) (fresh []) = .next t) ∧ (resolved .block []).Inv :=
  ⟨⟨_, rfl⟩, ⟨_, rfl⟩, ⟨_, rfl⟩, ⟨_, rfl⟩, ⟨_, rfl⟩, ⟨_, rfl⟩, ⟨_, rfl⟩, resolved_inv _ _⟩

theorem witness_EveryOperationEnds : (fresh []).port.tail = .free ∧ Instr.init.wireFields testCfg = none ∧
    (Instr.cApp 0 0x32).wireFields testCfg ≠ none := by decide

/-- A card at which the tick source comes to stand still after these answers. -/
def standing (script : List Answer) : State :=
  { resolved .block [] with port := { script := script, tail := .stalled, seq := 0, tick := 0, hist := [] } }

/-- A line that changes without the awaited byte before the tick source stands still. -/
theorem witness_TickStallNeverEnds : let s := standing (reply 0x00 [] ++ [ans 0x00#8, ans 0xAA#8])
    gateCode s 0 1 = none ∧ s.port.script = reply 0x00 [] ++ [ans 0x00#8, ans 0xAA#8] ∧ s.port.tail = .stalled ∧
      CommandAnswer testCfg testCfg.idxRd1 true false 0 0 (reply 0x00 []) ∧
      (∀ a ∈ [ans 0x00#8, ans 0xAA#8], a.rx ≠ testCfg.tokStart) ∧ ticksOf [ans 0x00#8, ans 0xAA#8] < testCfg.tToken ∧
      CommandAnswer testCfg testCfg.idxWr1 true false 0 0 (reply 0x00 []) ∧
      (∀ a ∈ [ans 0x00#8, ans 0xAA#8], a.rx ≠ Config.idleByte) ∧ ticksOf [ans 0x00#8, ans 0xAA#8] < testCfg.tReady :=
  ⟨rfl, rfl, rfl, reply_answer _ _ (by decide) (by decide), by decide, by decide,
    reply_answer _ _ (by decide) (by decide), by decide, by decide⟩

/-- What a card sends that answers the reset command and echoes the probe. -/
def echoes : List Answer := reply 0x01 [] ++ reply 0x01 [0, 0, 0x01, 0xAA]

theorem echoes_identified : Identified testCfg .sd2 echoes :=
  ⟨reply 0x01 [], _, 0x01, 0x01, 0x1AA, rfl, reply_answer _ _ (by decide) (by decide), by decide, by decide,
    reply_answer_ext _ _ 0x1AA (by decide) (by decide), .inl ⟨rfl, by decide, by decide +kernel⟩⟩

/-- What a card sends that answers the reset command and rejects the probe. -/
def rejects : List Answer := reply 0x01 [] ++ reply 0x05 [0, 0, 0, 0]

theorem rejects_identified : Identified testCfg .sd1 rejects :=
  ⟨reply 0x01 [], _, 0x01, 0x05, 0, rfl, reply_answer _ _ (by decide) (by decide), by decide, by decide,
    reply_answer_ext _ _ 0 (by decide) (by decide), .inr ⟨rfl, by decide⟩⟩

/-- One round of a card that stays idle. -/
def idlePair : List Answer := reply 0x01 [] ++ reply 0x01 []

theorem idlePair_round (g : Gen) (hg : g = .sd2 ∨ g = .sd1) : IdleRound testCfg g g idlePair :=
  .pair hg (reply_answer _ _ (by decide) (by decide)) (reply_answer _ _ (by decide) (by decide)) (by decide) (by decide)
    (by decide)

theorem idlePair_rounds : IdleRounds testCfg .sd2 .sd2 (idlePair ++ (idlePair ++ [])) :=
  .cons (idlePair_round _ (.inl rfl)) (.cons (idlePair_round _ (.inl rfl)) .nil)

/-- A legacy card: one idle round as SD-version-1, re-classed, one idle round as MMC. -/
theorem legacy_rounds : IdleRounds testCfg .sd1 .mmc (idlePair ++ (reply 0x05 [] ++ (reply 0x01 [] ++ []))) :=
  .cons (idlePair_round _ (.inr rfl)) (.cons (.appIllegal (reply_answer _ _ (by decide) (by decide)) (by decide))
    (.cons (.mmc (reply_answer _ _ (by decide) (by decide)) (by decide) (by decide)) .nil))

/-- The same re-classing by the query. -/
theorem query_round : IdleRound testCfg .sd1 .mmc (reply 0x01 [] ++ reply 0x05 []) :=
  .queryIllegal (reply_answer _ _ (by decide) (by decide)) (reply_answer _ _ (by decide) (by decide)) (by decide)
    (by decide)

/-- An `INIT` at a card answered `0x01` for ever. -/
theorem witness_TickStallNeverEnds_init : let rounds := idlePair ++ (idlePair ++ [])
    (standing (idles 10 ++ echoes ++ rounds)).port.script = idles 10 ++ echoes ++ rounds ∧
      (standing (idles 10 ++ echoes ++ rounds)).port.tail = .stalled ∧ (idles 10).length = testCfg.nPowerupBytes ∧
      Identified testCfg .sd2 echoes ∧ IdleRounds testCfg .sd2 .sd2 rounds ∧ ticksOf rounds < testCfg.tInit :=
  ⟨rfl, rfl, rfl, echoes_identified, idlePair_rounds, by decide +kernel⟩

/-- A card silent for the poll bound, and one that answers with an error. -/
theorem silent_command (index : BitVec 6) (hlead : leadLen testCfg index true = 14) (ext : Bool) :
    CommandFails testCfg index ext .noResponse (idles 22) :=
  .inl ⟨rfl, idles 14, idles 7, ans 0xFF#8, rfl, hlead.symm, by decide, by decide, by decide⟩

theorem error_command (index : BitVec 6) (hlead : leadLen testCfg index true = 14) (status : Byte)
    (hst : isResponse status = true) (hne : classify status ≠ .ok) :
    CommandFails testCfg index false (classify status) (reply status []) :=
  .inr ⟨hne, status, 0, reply_answer _ _ hlead hst, rfl⟩

theorem cardReady : CardReady testCfg (echoes ++ (idlePair ++ (reply 0x01 [] ++ reply 0x00 [])) ++
    reply 0x00 [0xC0, 0xFF, 0x80, 0]) :=
  .inl ⟨echoes, _, _, 0x00, 0xC0FF8000, rfl, echoes_identified,
    .again (reply_answer _ _ (by decide) (by decide)) (reply_answer _ _ (by decide) (by decide)) (by decide) (by decide)
      (by decide) (by decide +kernel)
      (.last (reply_answer _ _ (by decide) (by decide)) (reply_answer _ _ (by decide) (by decide)) (by decide)
        (by decide) (by decide)), reply_answer_ext _ _ 0xC0FF8000 (by decide) (by decide), by decide⟩

/-- One script for each cause of R152 before the polling (V7.7, V7.8 and their like). -/
theorem witness_InitFailsByCause_early :
    (fresh (idles 10 ++ idles 22 ++ [])).port.script = idles 10 ++ idles 22 ++ [] ∧
    (idles 10).length = testCfg.nPowerupBytes ∧
    InitFails testCfg .noResponse (idles 22) ∧ InitFails testCfg .crcError (reply 0x09 []) ∧
    InitFails testCfg .badResponse (reply 0x00 []) ∧ InitFails testCfg .noResponse (reply 0x01 [] ++ idles 22) ∧
    InitFails testCfg .badResponse (reply 0x01 [] ++ reply 0x01 [0, 0, 0x01, 0xAB]) :=
  ⟨rfl, rfl, .reset (silent_command _ (by decide) _), .reset (error_command _ (by decide) 0x09 (by decide) (by decide)),
    .notIdle (reply_answer _ _ (by decide) (by decide)) (by decide) (by decide),
    .probe (reply_answer _ _ (by decide) (by decide)) (by decide) (by decide) (silent_command _ (by decide) _)
      (by decide),
    .echo (reply_answer _ _ (by decide) (by decide)) (by decide) (by decide)
      (reply_answer_ext _ 0x01 0x1AB (by decide) (by decide)) (by decide) (by decide +kernel)⟩

/-- One script for each cause in and after the polling: each kind of failing round, the register read, the block length
and its status. -/
theorem witness_InitFailsByCause_late :
    InitFails testCfg .illegalCommand (echoes ++ (idlePair ++ (idlePair ++ [])) ++ reply 0x05 []) ∧
    InitFails testCfg .crcError (rejects ++ [] ++ (reply 0x01 [] ++ reply 0x09 [])) ∧
    InitFails testCfg .illegalCommand
      (rejects ++ (idlePair ++ (reply 0x05 [] ++ (reply 0x01 [] ++ []))) ++ reply 0x05 []) ∧
    InitFails testCfg .noResponse (echoes ++ (reply 0x01 [] ++ reply 0x00 []) ++ idles 22) ∧
    InitFails testCfg .noResponse (echoes ++ (idlePair ++ (reply 0x01 [] ++ reply 0x00 [])) ++
      reply 0x00 [0xC0, 0xFF, 0x80, 0] ++ idles 22) ∧
    InitFails testCfg .badResponse (echoes ++ (idlePair ++ (reply 0x01 [] ++ reply 0x00 [])) ++
      reply 0x00 [0xC0, 0xFF, 0x80, 0] ++ reply 0x01 []) :=
  ⟨.poll echoes_identified idlePair_rounds (.inr (by decide +kernel))
      (.app (.inl rfl) (error_command _ (by decide) 0x05 (by decide) (by decide))),
    .poll rejects_identified .nil (.inl rfl) (.query (.inr ⟨rfl, by decide⟩) (reply_answer _ _ (by decide) (by decide))
      (by decide) (error_command _ (by decide) 0x09 (by decide) (by decide))),
    .poll rejects_identified legacy_rounds (.inr (by decide +kernel))
      (.mmc (error_command _ (by decide) 0x05 (by decide) (by decide))),
    .ocr echoes_identified (.last (reply_answer _ _ (by decide) (by decide)) (reply_answer _ _ (by decide) (by decide))
      (by decide) (by decide) (by decide)) (silent_command _ (by decide) _),
    .blklen cardReady (silent_command _ (by decide) _),
    .status cardReady (reply_answer _ _ (by decide) (by decide)) (by decide) (by decide)⟩

/-- An answer like `reply 0x01 []` whose first byte takes 1000 ticks. -/
def slowReply : List Answer := ({ rx := 0xFF, ticks := 1000 } :: idles 13) ++ idles 1 ++ ans 0x01 :: []

theorem slowReply_answer (index : BitVec 6) (hlead : leadLen testCfg index true = 14) :
    CommandAnswer testCfg index true false 0x01 0 slowReply :=
  ⟨_ :: idles 13, idles 1, ans 0x01, [], rfl, hlead.symm, by decide, by decide, rfl, by decide, rfl⟩

/-- A version-2 card in whose second idle round `T_INIT` is spent. -/
theorem witness_InitFailsByCause_timeout :
    InitFails testCfg .timeout (echoes ++ (idlePair ++ []) ++ (slowReply ++ reply 0x01 [])) :=
  .timeout echoes_identified (.cons (idlePair_round _ (.inl rfl)) .nil) (.inr (by decide +kernel))
    (.pair (.inl rfl) (slowReply_answer _ (by decide)) (reply_answer _ _ (by decide) (by decide)) (by decide) (by decide)
      (by decide)) (by decide +kernel)

theorem witness_HostReadsHaveNoSideEffect_registers (s : State) :
    ∃ read : HostReg → BitVec 48, ∀ r, ∃ t, hostApply (.readReg r) s = .next t ∧ t.host.rdata = read r :=
  ⟨fun r => readDatum (r == .busy) (regValue r s) s, fun _ => ⟨_, rfl, rfl⟩⟩

/-- The second of three blocks arrives with the wrong CRC; the stop command is answered and the line becomes idle. -/
theorem witness_ReadMultiReportsFirstFailure :
    let good := cardBlock 0xA5 (crc16Of testCfg.crc16Poly testCfg.crc16Init (List.replicate 512 0xA5#8)) ++ []
    let s := resolved .block (reply 0x00 [] ++ (good ++ cardBlock 0x00 0x42BE) ++ stopReply 0x00 ++ [ans 0xFF#8] ++ [])
    gateCode s 2 (3 : Word).toNat = none ∧ Memory.wf s.buf = true ∧ (3 : Word) ≠ 0 ∧
    s.port.script = reply 0x00 [] ++ (good ++ cardBlock 0x00 0x42BE) ++ stopReply 0x00 ++ [ans 0xFF#8] ++ [] ∧
    CommandAnswer s.cfg s.cfg.idxRdm true false 0 0 (reply 0x00 []) ∧
    StreamBlocks s.cfg (3 : Word).toNat [List.replicate 512 0xA5#8] (some (List.replicate 512 0x00#8)) .dataCrcError
      (good ++ cardBlock 0x00 0x42BE) ∧
    StreamStop s.cfg (classify 0x00) true (stopReply 0x00) [ans 0xFF#8] :=
  ⟨rfl, rfl, by decide, rfl, reply_answer _ _ (by decide) (by decide),
    .badCrc (.cons (cardBlock_answer _ _) .nil) (by decide) (cardBlock_answer _ _) (by decide +kernel),
    .idle (stop_answer _ (by decide)) (idle_answer _)⟩

/-- The other kinds of block run and of stop: every block good, a token that does not come, a line that stays busy, a
card that is silent. -/
theorem witness_ReadMultiReportsFirstFailure_kinds :
    StreamBlocks testCfg (2 : Word).toNat [List.replicate 512 0xA5#8, List.replicate 512 0x5A#8] none .ok
      (cardBlock 0xA5 (crc16Of testCfg.crc16Poly testCfg.crc16Init (List.replicate 512 0xA5#8)) ++
        (cardBlock 0x5A (crc16Of testCfg.crc16Poly testCfg.crc16Init (List.replicate 512 0x5A#8)) ++ [])) ∧
    StreamBlocks testCfg (2 : Word).toNat [] none .timeout ([] ++ idles 100) ∧
    StreamStop testCfg .timeout false (stopReply 0x00) (List.replicate 50 (ans 0x00#8)) ∧
    StreamStop testCfg .noResponse false (idles 6 ++ idles 7 ++ [ans 0xFF#8]) [] :=
  ⟨.all blocks_answer rfl, .noToken .nil (by decide) expires_idle,
    .busy (status := 0x00) (stop_answer 0x00 (by decide)) (expires_busy 50 (.inl rfl)),
    .silent ⟨idles 6, idles 7, ans 0xFF#8, rfl, by decide, by decide, by decide, by decide⟩⟩

/-- An operation that never ends, with a request write of the host pending and with a reset pending. -/
theorem witness_HungOperationEndsOnlyByReset :
    let s := fun act => { resolved .block [] with
      busy := true
      stalled := true
      host := { moves := [{ act := act, duringOp := true }], rdata := 0, seq := 0 } }
    (∀ act, (s act).Inv) ∧ (∀ act, (s act).stalled = true) ∧ (∃ t, step (s (.writeReq 1)) = .next t) ∧
      (∃ t, step (s .reset) = .next t) := by
  refine ⟨fun act => ?_, fun act => rfl, ⟨_, rfl⟩, ⟨_, rfl⟩⟩
  have h := resolved_inv .block []
  exact ⟨h.resolvedIffReady, h.fastIffReady, h.blockOnlySd2, h.noCapacity, h.timeoutNotReady, fun h => (by cases h),
    fun _ => rfl, h.doneBound, h.frameForm, h.bufWf, h.bufInRange⟩

/-- A started transfer and an idle block. -/
theorem witness_StepKeepsInvariant : State.reset.Inv ∧ step State.reset = .next State.reset ∧
    ({ resolved .block [] with req := 0x30_00000000_00000000#72, busy := true } : State).Inv ∧
    ∃ t, step { resolved .block [] with req := 0x30_00000000_00000000#72, busy := true } = .next t := by
  have h := resolved_inv .block []
  refine ⟨⟨by decide, by decide, by decide, rfl, by decide, fun _ => .inl rfl, by decide, Nat.zero_le _, rfl, rfl, rfl⟩,
    rfl, ⟨h.resolvedIffReady, h.fastIffReady, h.blockOnlySd2, h.noCapacity, h.timeoutNotReady, h.fsmAtRest,
      fun h => (by cases h), h.doneBound, h.frameForm, h.bufWf, h.bufInRange⟩, ?_⟩
  exact ⟨(readBlockRun 0 { resolved .block [] with req := 0x30_00000000_00000000#72, busy := true }).state, by
    rfl⟩

end Sys2Proof.Tests
end

