-- ==== Sys2Proof/Proofs/OperationEnds.lean ====
section
/-!
PROOF. Every instruction ends on a tick source that goes on (spec/00_scope.md R8; spec/60_exceptions.md R211;
spec/41_command.md R111). The laws of `INIT` and of the transfers say how each may stop; the free tail rules out the one
stop that is no end.
-/
namespace Sys2Proof.Machine

/-- A host operation started in `s` has ended in `t` (R211), not hung (R258). -/
structure Completed (s t : State) : Prop where
  stalled : t.stalled = s.stalled
  busy : t.busy = false

/-! ## Initialisation -/

/-- `INIT` ends: were it hung, the tail it ends with, which is the tail it began with, would not be free. -/
theorem initRun_completed {s : State} (htail : s.port.tail = .free) : Completed s (initRun s).state := by
  rcases initRun_meets s with ⟨hended, hstalled⟩ | ⟨u, hu, hnotFree, -⟩
  · exact ⟨hstalled, hended.busy⟩
  · have hkept := (initRun_movesOn s).tail
    rw [hu, hang_port] at hkept
    exact absurd (hkept.trans htail) hnotFree

/-! ## Transfers -/

/-- A transfer past the gate ends. -/
theorem TransferStop.completed {P : State → Prop} {s t : State} (h : TransferStop P s t)
    (htail : s.port.tail = .free) : Completed s t := by
  rcases h with ⟨hover, -⟩ | ⟨_, -, hnotFree, -⟩
  · exact ⟨hover.stalled, hover.busy⟩
  · exact absurd htail hnotFree

/-- A transfer the gate refuses ends there (R221). -/
theorem gate_stop_completed {s : State} {sector : Word} {count : Nat} {code : Code}
    (h : gateCode s sector count = some code) (k : Unit → State → Flow Unit) :
    Completed s ((gate sector count s).andThen k).state := by
  rw [gate_stop h]
  exact ⟨rfl, rfl⟩

theorem readBlockRun_completed (sector : Word) {s : State} (htail : s.port.tail = .free) :
    Completed s (readBlockRun sector s).state := by
  cases hgate : gateCode s sector 1 with
  | some code => exact gate_stop_completed hgate _
  | none => exact (readBlockRun_meets hgate).completed htail

theorem writeBlockRun_completed (sector : Word) {s : State} (htail : s.port.tail = .free) :
    Completed s (writeBlockRun sector s).state := by
  cases hgate : gateCode s sector 1 with
  | some code => exact gate_stop_completed hgate _
  | none => exact (writeBlockRun_meets hgate).completed htail

/-- A `READ_MULTI` of no block past the gate is over at once (R174). -/
theorem readMultiRun_zero {sector : Word} {s : State} (hgate : gateCode s sector 0 = none) :
    readMultiRun sector 0 s = .stop (complete .ok (setDone 0 s)) := by
  unfold readMultiRun
  exact congrArg (Flow.andThen · _) (gate_pass hgate)

/-- A `WRITE_MULTI` of no block past the gate is over at once (R178). -/
theorem writeMultiRun_zero {sector : Word} {s : State} (hgate : gateCode s sector 0 = none) :
    writeMultiRun sector 0 s = .stop (complete .ok (setDone 0 s)) := by
  unfold writeMultiRun
  exact congrArg (Flow.andThen · _) (gate_pass hgate)

theorem readMultiRun_completed (sector count : Word) {s : State} (htail : s.port.tail = .free) :
    Completed s (readMultiRun sector count s).state := by
  cases hgate : gateCode s sector count.toNat with
  | some code => exact gate_stop_completed hgate _
  | none =>
    by_cases hcount : count = 0
    · subst hcount
      rw [readMultiRun_zero hgate]
      exact ⟨rfl, rfl⟩
    · exact (readMultiRun_meets hgate hcount).completed htail

theorem writeMultiRun_completed (sector count : Word) {s : State} (htail : s.port.tail = .free) :
    Completed s (writeMultiRun sector count s).state := by
  cases hgate : gateCode s sector count.toNat with
  | some code => exact gate_stop_completed hgate _
  | none =>
    by_cases hcount : count = 0
    · subst hcount
      rw [writeMultiRun_zero hgate]
      exact ⟨rfl, rfl⟩
    · exact (writeMultiRun_meets hgate hcount).completed htail

/-! ## Every instruction -/

/-- A host operation ends (R211). The operations without a wait end by `Complete` whatever the tick source does. -/
theorem exec_hostOperation_completed {i : Instr} {s : State} (hhost : i.wireFields s.cfg = none)
    (htail : s.port.tail = .free) : ∃ t, exec i s = .next t ∧ Completed s t := by
  cases i with
  | init => exact ⟨_, rfl, initRun_completed htail⟩
  | readBlock sector => exact ⟨_, rfl, readBlockRun_completed sector htail⟩
  | writeBlock sector => exact ⟨_, rfl, writeBlockRun_completed sector htail⟩
  | readMulti sector count => exact ⟨_, rfl, readMultiRun_completed sector count htail⟩
  | writeMulti sector count => exact ⟨_, rfl, writeMultiRun_completed sector count htail⟩
  | sendCommand index arg ext keep => exact ⟨_, rfl, sendCommand_stalled index arg ext (!keep) s, rfl⟩
  | crc7Clear | crc7Byte | crc7Bit | crc7Read | frameBuild | crc16Clear | crc16Byte | crc16Read | ready | present
  | cardType => exact ⟨_, rfl, rfl, rfl⟩
  | cReset | cOpcondMmc | cIfcond | cStop | cBlklen | cRd1 | cRdm | cWr1 | cWrm | cOpcondApp | cApp | cOcr =>
    simp [Instr.wireFields] at hhost

/-- A wire command is one command exchange with the columns of its row (R72). -/
theorem exec_wireCommand {i : Instr} {s : State} {index : BitVec 6} {arg : Word} {crc : BitVec 7}
    (hwire : i.wireFields s.cfg = some (index, arg, crc)) :
    exec i s = .next (issue index arg (wireShape i).1 (wireShape i).2 s) := by
  cases i with
  | cReset | cOpcondMmc | cIfcond | cStop | cBlklen | cRd1 | cRdm | cWr1 | cWrm | cOpcondApp | cApp | cOcr =>
    simp only [Instr.wireFields, Option.some.injEq, Prod.mk.injEq] at hwire
    obtain ⟨rfl, rfl, -⟩ := hwire
    rfl
  | crc7Clear | crc7Byte | crc7Bit | crc7Read | frameBuild | crc16Clear | crc16Byte | crc16Read | sendCommand | init
  | readBlock | writeBlock | readMulti | writeMulti | ready | present | cardType => simp [Instr.wireFields] at hwire

@[simp] theorem issue_stalled (index : BitVec 6) (arg : Word) (ext resel : Bool) (s : State) :
    (issue index arg ext resel s).stalled = s.stalled := sendCommand_stalled index arg ext resel s
@[simp] theorem issue_busy (index : BitVec 6) (arg : Word) (ext resel : Bool) (s : State) :
    (issue index arg ext resel s).busy = s.busy := sendCommand_busy index arg ext resel s
@[simp] theorem issue_result (index : BitVec 6) (arg : Word) (ext resel : Bool) (s : State) :
    (issue index arg ext resel s).result = s.result := sendCommand_result index arg ext resel s

/-- Settles O51: a host operation completes, since on a tick source that goes on no wait hangs; a wire command is one
exchange, which has no tick-bounded wait. -/
theorem everyOperationEnds : Obligations.EveryOperationEnds := by
  unfold Obligations.EveryOperationEnds
  intro i s htail
  cases hfields : i.wireFields s.cfg with
  | none =>
    obtain ⟨t, hexec, hdone⟩ := exec_hostOperation_completed hfields htail
    exact ⟨t, hexec, hdone.stalled, fun _ => hdone.busy, fun hwire => absurd rfl hwire⟩
  | some fields =>
    obtain ⟨index, arg, crc⟩ := fields
    exact ⟨_, exec_wireCommand hfields, issue_stalled .., fun hhost => (by cases hhost),
      fun _ => ⟨issue_busy .., issue_result ..⟩⟩

end Sys2Proof.Machine
end

