-- ==== Sys2Proof/Proofs/InstrRel.lean ====
section
/-!
SUPPORT. What every instruction can do, said once (spec/30_encoding.md R72, R75): the updates an operation is made of,
and the reduction of a claim about every instruction to a claim about each of those updates.
-/
namespace Sys2Proof.Machine

variable {R : State → State → Prop} {i : Instr} {s t : State}

/-- Closed under the updates instruction `i`, not being `INIT`, is made of. The working registers and the ends are open to
every `i`; the bus, `val`, `crc16`, `done` and `buf` only where `i` is of the class that writes them (Safety.lean). -/
structure InstrRel (i : Instr) (R : State → State → Prop) : Prop where
  refl : ∀ s, R s s
  trans : ∀ {a b c}, R a b → R b c → R a c
  complete : ∀ c s, R s (complete c s)
  code : ∀ c s, R s (setCode c s)
  timer : ∀ v s, R s (setT0 v s)
  hang : ∀ s, R s (hang s)
  block : ∀ k s, R s (setK k s)
  crc7 : ∀ v s, R s (setCrc7 v s)
  build : ∀ index arg s, R s (buildFrame index arg s)
  command : usesBus i = true → CommandRel R
  val : writesVal i = true → ∀ v s, R s (setVal v s)
  crc16 : writesCrc16 i = true → ∀ v s, R s (setCrc16 v s)
  done : (∃ a n, i = .readMulti a n ∨ i = .writeMulti a n) → ∀ d s, R s (setDone d s)
  store : ∀ a b s, a < storesBelow i → R s (storeBuf a b s)

theorem InstrRel.single (h : InstrRel i R) (hbus : usesBus i = true) (hcrc : writesCrc16 i = true) :
    SingleRel (· < storesBelow i) R where
  toCommandRel := h.command hbus
  timer := h.timer
  hang := h.hang
  store := h.store
  crc := h.crc16 hcrc
  complete := h.complete
  code := h.code

theorem InstrRel.transfer (h : InstrRel i R) (hbus : usesBus i = true) (hcrc : writesCrc16 i = true)
    (hmulti : ∃ a n, i = .readMulti a n ∨ i = .writeMulti a n) : TransferRel (· < storesBelow i) R where
  toSingleRel := h.single hbus hcrc
  block := h.block
  doneCount := h.done hmulti

/-- A wire command is one command exchange, its code left in the register `code` (log 13). -/
theorem InstrRel.issue (h : InstrRel i R) (hbus : usesBus i = true) (index : BitVec 6) (arg : Word) (ext resel : Bool)
    (s : State) : R s (issue index arg ext resel s) :=
  h.trans (sendCommand_rel (h.command hbus) index arg ext resel s) (h.code _ _)

/-- Whatever holds across the updates of an instruction other than `INIT` holds across its meaning. -/
theorem exec_rel (h : InstrRel i R) (hinit : i ≠ .init) (hexec : exec i s = .next t) : R s t := by
  cases i with
  | init => exact absurd rfl hinit
  | crc7Clear | crc7Byte | crc7Bit =>
    cases hexec
    exact h.trans (h.crc7 _ s) (h.complete _ _)
  | crc16Clear | crc16Byte =>
    cases hexec
    exact h.trans (h.crc16 rfl _ s) (h.complete _ _)
  | frameBuild index arg =>
    cases hexec
    exact h.trans (h.build index arg s) (h.trans (h.val rfl _ _) (h.complete _ _))
  | crc7Read | crc16Read | ready | present | cardType =>
    cases hexec
    exact h.trans (h.val rfl _ s) (h.complete _ _)
  | sendCommand index arg ext keep =>
    cases hexec
    exact h.trans (sendCommand_rel (h.command rfl) index arg ext (!keep) s) (h.complete _ _)
  | readBlock sector =>
    cases hexec
    exact readBlockRun_rel (h.single rfl rfl) sector s fun _ => id
  | writeBlock sector =>
    cases hexec
    exact writeBlockRun_rel (h.single rfl rfl) sector s
  | readMulti sector count =>
    cases hexec
    exact readMultiRun_rel (h.transfer rfl rfl ⟨_, _, .inl rfl⟩) sector count s fun _ => id
  | writeMulti sector count =>
    cases hexec
    exact writeMultiRun_rel (h.transfer rfl rfl ⟨_, _, .inr rfl⟩) sector count s
  | cReset | cOpcondMmc | cIfcond | cStop | cBlklen | cRd1 | cRdm | cWr1 | cWrm | cOpcondApp | cApp | cOcr =>
    cases hexec
    exact h.issue rfl _ _ _ _ s

end Sys2Proof.Machine
end

