-- ==== Sys2Proof/Proofs/Writers.lean ====
section
/-!
PROOF. Which instruction writes which element of the state (spec/10_state.md; spec/30_encoding.md R75;
spec/70_reset_and_hazards.md R259): one frame over every instruction, from which the writers of each register are read.
-/
namespace Sys2Proof.Machine

variable {i : Instr} {s t : State}

/-! ## The frame of an instruction -/

/-- The elements only `INIT` writes (R21, R22, R23, R25, R29). -/
def State.identity (s : State) : Gen × AddrMode × Word × ClkTier × Fsm × Gen × AddrMode :=
  (s.idGen, s.idAmode, s.idCap, s.linkClk, s.fsm, s.pgen, s.pam)

/-- The elements no instruction writes (R7, R33). -/
def State.fixed (s : State) : Config × ReqWord × HostPort × Option FrameWord := (s.cfg, s.req, s.host, s.cmd)

/-- The elements only an operation with bus activity writes (R75, R205). -/
def State.link (s : State) : Port × Bool × ClkTier × Bool × Bool × Bool × BitVec 40 :=
  (s.port, s.linkSel, s.linkClk, s.linkReady, s.lastTimeout, s.settle, s.resp)

/-- The data registers, which few operations write (R31, R36, R37, R38), and the last frame built (R32). -/
def State.data (s : State) : BitVec 48 × BitVec 16 × Word × Memory × FrameWord :=
  (s.val, s.crc16, s.done, s.buf, s.frame)

theorem State.identity_eq : t.identity = s.identity ↔ t.idGen = s.idGen ∧ t.idAmode = s.idAmode ∧ t.idCap = s.idCap ∧
    t.linkClk = s.linkClk ∧ t.fsm = s.fsm ∧ t.pgen = s.pgen ∧ t.pam = s.pam := by simp [State.identity]

theorem State.fixed_eq : t.fixed = s.fixed ↔ t.cfg = s.cfg ∧ t.req = s.req ∧ t.host = s.host ∧ t.cmd = s.cmd := by
  simp [State.fixed]

theorem State.link_eq : t.link = s.link ↔ t.port = s.port ∧ t.linkSel = s.linkSel ∧ t.linkClk = s.linkClk ∧
    t.linkReady = s.linkReady ∧ t.lastTimeout = s.lastTimeout ∧ t.settle = s.settle ∧ t.resp = s.resp := by
  simp [State.link]

theorem State.data_eq : t.data = s.data ↔ t.val = s.val ∧ t.crc16 = s.crc16 ∧ t.done = s.done ∧ t.buf = s.buf ∧
    t.frame = s.frame := by simp [State.data]

/-- `buf` is canonical and lists no address at or above `size` (R38, R47). -/
structure Memory.Fits (size : Nat) (m : Memory) : Prop where
  wf : Memory.wf m = true
  inRange : Memory.inRange size m = true

/-- What instruction `i` leaves of `s` in `t`. -/
structure Frame (i : Instr) (s t : State) : Prop where
  fixed : t.fixed = s.fixed
  identity : i ≠ .init → t.identity = s.identity
  link : usesBus i = false → t.link = s.link
  val : writesVal i = false → t.val = s.val
  crc16 : writesCrc16 i = false → t.crc16 = s.crc16
  done : (∀ a n, i ≠ .readMulti a n ∧ i ≠ .writeMulti a n) → t.done = s.done
  bufAbove : ∀ a, storesBelow i ≤ a → Memory.read t.buf a = Memory.read s.buf a
  bufFits : ∀ size, storesBelow i ≤ size → Memory.Fits size s.buf → Memory.Fits size t.buf
  frameForm : frameFormOk s.frame = true → frameFormOk t.frame = true

/-- An update of none of the data registers. -/
theorem Frame.of_data (hdata : t.data = s.data) (hfixed : t.fixed = s.fixed)
    (hid : i ≠ .init → t.identity = s.identity) (hlink : usesBus i = false → t.link = s.link) : Frame i s t := by
  obtain ⟨hval, hcrc16, hdone, hbuf, hframe⟩ := State.data_eq.1 hdata
  exact ⟨hfixed, hid, hlink, fun _ => hval, fun _ => hcrc16, fun _ => hdone, fun _ _ => by rw [hbuf],
    fun _ _ => by rw [hbuf]; exact id, by rw [hframe]; exact id⟩

/-- An update of the working registers and of how an operation stands. -/
theorem Frame.of_working (hdata : t.data = s.data) (hfixed : t.fixed = s.fixed) (hid : t.identity = s.identity)
    (hlink : t.link = s.link) : Frame i s t := .of_data hdata hfixed (fun _ => hid) fun _ => hlink

/-- An update an operation with bus activity makes to the Link Session. -/
theorem Frame.of_bus (hbus : usesBus i = true) (hdata : t.data = s.data) (hfixed : t.fixed = s.fixed)
    (hid : t.identity = s.identity) : Frame i s t :=
  .of_data hdata hfixed (fun _ => hid) fun h => by rw [hbus] at h; cases h

/-- An update `INIT` makes to the identity and to its own registers. -/
theorem Frame.of_init (hdata : t.data = s.data) (hfixed : t.fixed = s.fixed) : Frame .init s t :=
  .of_data hdata hfixed (absurd rfl) nofun

theorem Frame.refl (i : Instr) (s : State) : Frame i s s := .of_working rfl rfl rfl rfl

theorem Frame.trans {u : State} (h : Frame i s t) (h' : Frame i t u) : Frame i s u where
  fixed := h'.fixed.trans h.fixed
  identity hi := (h'.identity hi).trans (h.identity hi)
  link hbus := (h'.link hbus).trans (h.link hbus)
  val hv := (h'.val hv).trans (h.val hv)
  crc16 hc := (h'.crc16 hc).trans (h.crc16 hc)
  done hd := (h'.done hd).trans (h.done hd)
  bufAbove a ha := (h'.bufAbove a ha).trans (h.bufAbove a ha)
  bufFits size hle hs := h'.bufFits size hle (h.bufFits size hle hs)
  frameForm hs := h'.frameForm (h.frameForm hs)

/-- A frame the block builds has its fixed bits (R78 (e)). -/
theorem frameFormOk_frameWord (index : BitVec 6) (arg : Word) (crc : BitVec 7) :
    frameFormOk (frameWord index arg crc) = true := by
  obtain ⟨hstart, hend, -⟩ := frameWord_fields index arg crc
  simp [frameFormOk, hstart, hend]

theorem frame_build (index : BitVec 6) (arg : Word) (s : State) : Frame i s (buildFrame index arg s) where
  fixed := rfl
  identity _ := rfl
  link _ := rfl
  val _ := rfl
  crc16 _ := rfl
  done _ := rfl
  bufAbove _ _ := rfl
  bufFits _ _ := id
  frameForm _ := frameFormOk_frameWord ..

theorem frame_setVal (h : writesVal i = true) (v : BitVec 48) (s : State) : Frame i s (setVal v s) :=
  { Frame.refl i s with val := fun h' => by rw [h] at h'; cases h' }

theorem frame_setCrc16 (h : writesCrc16 i = true) (v : BitVec 16) (s : State) : Frame i s (setCrc16 v s) :=
  { Frame.refl i s with crc16 := fun h' => by rw [h] at h'; cases h' }

theorem frame_setDone (h : ∃ a n, i = .readMulti a n ∨ i = .writeMulti a n) (d : Word) (s : State) :
    Frame i s (setDone d s) :=
  { Frame.refl i s with
    done := fun hnot => by
      obtain ⟨a, n, hi⟩ := h
      exact (hi.elim (hnot a n).1 (hnot a n).2).elim }

theorem frame_storeBuf {a : Nat} (ha : a < storesBelow i) (b : Byte) (s : State) : Frame i s (storeBuf a b s) :=
  { Frame.refl i s with
    bufAbove := fun _ h => Memory.read_write_other (by omega)
    bufFits := fun _ hle hs => ⟨Memory.wf_write hs.wf, Memory.inRange_write hs.inRange (by omega)⟩ }

theorem frame_command (hbus : usesBus i = true) : CommandRel (Frame i) where
  refl := .refl i
  trans := .trans
  xchg _ _ := .of_bus hbus rfl rfl rfl
  select _ _ := .of_bus hbus rfl rfl rfl
  settled _ := .of_bus hbus rfl rfl rfl
  busyLine _ := .of_bus hbus rfl rfl rfl
  idleLine _ := .of_bus hbus rfl rfl rfl
  timedOut _ := .of_bus hbus rfl rfl rfl
  answered _ := .of_bus hbus rfl rfl rfl
  build := frame_build
  count _ _ := .of_working rfl rfl rfl rfl
  token _ _ := .of_bus hbus rfl rfl rfl

theorem frame_instr (i : Instr) : InstrRel i (Frame i) where
  refl := .refl i
  trans := .trans
  complete _ _ := .of_working rfl rfl rfl rfl
  code _ _ := .of_working rfl rfl rfl rfl
  timer _ _ := .of_working rfl rfl rfl rfl
  hang _ := .of_working rfl rfl rfl rfl
  block _ _ := .of_working rfl rfl rfl rfl
  crc7 _ _ := .of_working rfl rfl rfl rfl
  build := frame_build
  command := frame_command
  val := frame_setVal
  crc16 := frame_setCrc16
  done := frame_setDone
  store _ b s ha := frame_storeBuf ha b s

theorem frame_init : InitRel (Frame .init) :=
  .of_command (frame_command rfl) (fun _ _ _ => .of_init rfl rfl) (fun _ _ => .of_init rfl rfl)
    (fun _ _ => .of_init rfl rfl) (fun _ _ => .of_init rfl rfl) (fun _ => .of_init rfl rfl) fun _ _ => .of_init rfl rfl

theorem initRun_frame (s : State) : Frame .init s (initRun s).state :=
  Frame.trans (t := initStart s) (.of_init rfl rfl) <|
    (powerUp_rel (frame_command rfl) _).trans (initRun_rel frame_init (fun _ => .of_init rfl rfl) s)

/-- Every instruction leaves its frame. -/
theorem exec_frame (hexec : exec i s = .next t) : Frame i s t := by
  by_cases hinit : i = .init
  · subst hinit
    cases hexec
    exact initRun_frame s
  · exact exec_rel (frame_instr i) hinit hexec

/-! ## The writers -/

/-- Settles O49: every frame holds the configuration, the frame of an instruction that is not `INIT` the identity. -/
theorem onlyInitWritesIdentity : Obligations.OnlyInitWritesIdentity := by
  unfold Obligations.OnlyInitWritesIdentity
  intro i s t hexec
  have hframe := exec_frame hexec
  obtain ⟨hcfg, -⟩ := State.fixed_eq.1 hframe.fixed
  exact ⟨hcfg, fun hinit => State.identity_eq.1 (hframe.identity hinit)⟩

/-- Settles O50: its clauses are those of the frame. -/
theorem eachRegisterHasItsWriters : Obligations.EachRegisterHasItsWriters := by
  unfold Obligations.EachRegisterHasItsWriters
  intro i s t hexec
  have hframe := exec_frame hexec
  obtain ⟨-, hreq, hhost, hcmd⟩ := State.fixed_eq.1 hframe.fixed
  exact ⟨hframe.val, hframe.crc16, hframe.done, hframe.bufAbove, hreq, hhost, hcmd,
    fun hbus => State.link_eq.1 (hframe.link hbus)⟩

end Sys2Proof.Machine
end

