-- ==== Sys2Proof/Proofs/HostMoves.lean ====
section
/-!
PROOF. The host's writes (spec/10_state.md R33, R38; spec/70_reset_and_hazards.md R250): a request is stored and then
run, a byte is stored, and both are ignored by a busy block.
-/
namespace Sys2Proof.Machine

variable {s : State}

theorem hostApply_writeReq (w : ReqWord) (s : State) :
    hostApply (.writeReq w) s = .next (if s.busy then s else { s with req := w, busy := true }) := rfl

/-- Settles O3, the equation of the move. -/
theorem requestWriteIgnoredWhileBusy : Obligations.RequestWriteIgnoredWhileBusy := by
  unfold Obligations.RequestWriteIgnoredWhileBusy
  exact hostApply_writeReq

/-! ## A request, accepted and run -/

/-- The host with its first move made and `rest` still to come. -/
def State.afterMove (s : State) (rest : List HostMove) : State :=
  { s with host := { s.host with moves := rest, seq := s.host.seq + 1 } }

/-- An idle block leaves the step to the host's next move. -/
theorem step_idle (hstalled : s.stalled = false) (hcmd : s.cmd = none) (hbusy : s.busy = false) {m : HostMove}
    {rest : List HostMove} (hmoves : s.host.moves = m :: rest) : step s = hostApply m.act (s.afterMove rest) := by
  simp [step, hstalled, hcmd, hbusy, hostTurn, hmoves, State.afterMove]

/-- A started request is run by the step unless a move of the host comes first (R74). -/
theorem step_busy (hstalled : s.stalled = false) (hcmd : s.cmd = none) (hbusy : s.busy = true)
    (hhost : hostIntrudes s = false) {i : Instr} (hdecode : decodeReq s.req = some i) : step s = exec i s := by
  simp [step, hstalled, hcmd, hbusy, hhost, runRequest, hdecode]

theorem hostIntrudes_of_head (h : ∀ m, s.host.moves.head? = some m → m.duringOp = false) : hostIntrudes s = false := by
  unfold hostIntrudes
  cases hmoves : s.host.moves with
  | nil => rfl
  | cons m rest => exact h m (by rw [hmoves]; rfl)

/-- Settles O4: the host's move starts the request, and no other move comes before its run. -/
theorem acceptedRequestIsRun : Obligations.AcceptedRequestIsRun := by
  unfold Obligations.AcceptedRequestIsRun
  intro s w i d rest hstalled hcmd hbusy hmoves hrest hdecode
  have hidle : (s.afterMove rest).busy = false := hbusy
  have hstarted : step s = .next { s.afterMove rest with req := w, busy := true } := by
    rw [step_idle hstalled hcmd hbusy hmoves, hostApply_writeReq, hidle]
    rfl
  exact ⟨_, hstarted, rfl, step_busy (s := { s.afterMove rest with req := w, busy := true }) hstalled hcmd rfl
    (hostIntrudes_of_head hrest) hdecode⟩

/-! ## A byte of `buf` -/

theorem hostApply_writeBuf_outside {a : Nat} (b : Byte) (h : s.cfg.bufSize ≤ a) :
    hostApply (.writeBuf a b) s = .fault .noSuchBufAddress := if_pos h

theorem hostApply_writeBuf_inside {a : Nat} (b : Byte) (h : a < s.cfg.bufSize) :
    hostApply (.writeBuf a b) s = .next (if s.busy then s else storeBuf a b s) := by
  rw [apply_ite Host.Outcome.next]
  exact if_neg (Nat.not_le.2 h)

/-- Settles O7: the byte is stored by `Memory.write`, whose laws are those of the buffer. -/
theorem hostBufferWrites : Obligations.HostBufferWrites := by
  unfold Obligations.HostBufferWrites
  intro a b s hwf
  refine ⟨hostApply_writeBuf_outside b, fun hin hbusy => ?_,
    fun hin hbusy => ⟨Memory.write s.buf a b, ?_, ?_, fun x => ?_⟩⟩
  · rw [hostApply_writeBuf_inside b hin, if_pos hbusy]
  · rw [hostApply_writeBuf_inside b hin, if_neg (Bool.eq_false_iff.1 hbusy)]
    rfl
  · exact Memory.wf_write hwf
  · split
    · subst x
      exact Memory.read_write_same hwf
    · exact Memory.read_write_other ‹_›

end Sys2Proof.Machine
end

