-- ==== Sys2Proof/Proofs/Invariant.lean ====
section
/-!
PROOF. Every step keeps the machine's invariant (spec/10_state.md R22, R29; spec/42_init.md R151; spec/44_facade.md
R203). The frame of an instruction holds most of it; what is left is how an operation ends (`SoundEnd`), and `INIT`,
which writes the identity.
-/
namespace Sys2Proof.Machine

variable {i : Instr} {s t : State}

/-! ## What an operation other than `INIT` has to say -/

/-- The part of the invariant that hangs on how an operation ends: the flags, the mark of one that never ends, and the
block count. -/
structure SoundEnd (s t : State) : Prop where
  timeoutNotReady : t.lastTimeout = true → t.linkReady = false
  stalledBusy : t.stalled = true → t.busy = true
  doneBound : t.done.toNat ≤ s.cfg.bufBlocks

/-- An update of neither the flags nor the count ends soundly. -/
theorem State.Inv.soundEnd (hs : s.Inv) (hgo : s.stalled = false) (hkept : t.linkReady = s.linkReady ∧
    t.lastTimeout = s.lastTimeout ∧ t.stalled = s.stalled ∧ t.done = s.done) : SoundEnd s t := by
  obtain ⟨hready, htime, hstalled, hdone⟩ := hkept
  exact ⟨by rw [htime, hready]; exact hs.timeoutNotReady, by simp [hstalled, hgo],
    by rw [hdone]; exact hs.doneBound⟩

/-- A sound end within the frame of an instruction other than `INIT` is all the invariant asks. -/
theorem State.Inv.of_frame (hs : s.Inv) (hgo : s.stalled = false) (hframe : Frame i s t) (hinit : i ≠ .init)
    (hstores : storesBelow i ≤ s.cfg.bufSize) (hend : SoundEnd s t) : t.Inv := by
  obtain ⟨hcfg, -⟩ := State.fixed_eq.1 hframe.fixed
  obtain ⟨hgen, hmode, hcap, hclk, hfsm, -⟩ := State.identity_eq.1 (hframe.identity hinit)
  have hbuf := hframe.bufFits s.cfg.bufSize hstores ⟨hs.bufWf, hs.bufInRange⟩
  exact
    { resolvedIffReady := by rw [hgen, hfsm]; exact hs.resolvedIffReady
      fastIffReady := by rw [hclk, hfsm]; exact hs.fastIffReady
      blockOnlySd2 := by rw [hgen, hmode]; exact hs.blockOnlySd2
      noCapacity := hcap.trans hs.noCapacity
      timeoutNotReady := hend.timeoutNotReady
      fsmAtRest := fun _ => by rw [hfsm]; exact hs.fsmAtRest hgo
      stalledBusy := hend.stalledBusy
      doneBound := by rw [hcfg]; exact hend.doneBound
      frameForm := hframe.frameForm hs.frameForm
      bufWf := hbuf.wf
      bufInRange := by rw [hcfg]; exact hbuf.inRange }

/-- `Complete` keeps the invariant (R16). -/
theorem complete_inv (hs : s.Inv) (hgo : s.stalled = false) (code : Code) : (complete code s).Inv :=
  { hs with stalledBusy := by simp [hgo] }

theorem setCode_inv (hs : s.Inv) (code : Code) : (setCode code s).Inv := { hs with }

/-! ## Command exchanges -/

/-- A command exchange ends with the line idle or with a timeout, never both (R112). -/
theorem sendCommand_soundEnd (hs : s.Inv) (hgo : s.stalled = false) (index : BitVec 6) (arg : Word)
    (ext resel : Bool) : SoundEnd s (sendCommand index arg ext resel s).2 where
  timeoutNotReady h := by
    rcases (sendCommand_going index arg ext resel s).2 with ⟨-, hready, -⟩ | ⟨-, -, htime⟩
    · exact hready
    · simp [htime] at h
  stalledBusy := by simp [hgo]
  doneBound := by rw [sendCommand_done]; exact hs.doneBound

theorem sendCommand_inv (hs : s.Inv) (hgo : s.stalled = false) (index : BitVec 6) (arg : Word)
    (ext resel : Bool) : (sendCommand index arg ext resel s).2.Inv :=
  hs.of_frame (i := .sendCommand index arg ext (!resel)) hgo (sendCommand_rel (frame_command rfl) ..) nofun
    (Nat.zero_le _) (sendCommand_soundEnd hs hgo ..)

theorem issue_inv (hs : s.Inv) (hgo : s.stalled = false) (index : BitVec 6) (arg : Word) (ext resel : Bool) :
    (issue index arg ext resel s).Inv :=
  setCode_inv (sendCommand_inv hs hgo index arg ext resel) _

/-! ## Transfers -/

/-- A transfer past the gate fits the buffer (R221). -/
theorem count_le_of_gate {sector : Word} {count : Nat} (h : gateCode s sector count = none) :
    count ≤ s.cfg.bufBlocks := by
  unfold gateCode at h
  split_ifs at h
  omega

/-- A transfer the gate refuses keeps the invariant. -/
theorem gate_stop_inv (hs : s.Inv) (hgo : s.stalled = false) {sector : Word} {count : Nat} {code : Code}
    (h : gateCode s sector count = some code) (k : Unit → State → Flow Unit) :
    ((gate sector count s).andThen k).state.Inv := by
  rw [gate_stop h]
  exact complete_inv hs hgo code

/-- The flags a read ends with are not both set (R225). -/
theorem notReady_of_readFlags {code : Code} {ready timedOut : Bool} (h : readFlags code = some (ready, timedOut)) :
    timedOut = true → ready = false := by
  cases code <;> cases h <;> simp

/-- Nor are those of a write. -/
theorem notReady_of_writeFlags {code : Code} {ready timedOut : Bool} (h : writeFlags code = some (ready, timedOut)) :
    timedOut = true → ready = false := by
  cases code <;> cases h <;> simp

/-- A transfer past the gate keeps the invariant, whether it is over or never ends. -/
theorem State.Inv.of_transfer (hs : s.Inv) (hgo : s.stalled = false) {sector : Word} {count : Nat} {P : State → Prop}
    (hgate : gateCode s sector count = none) (hexec : exec i s = .next t) (hinit : i ≠ .init)
    (hstores : storesBelow i ≤ 512 * count) (hstop : TransferStop P s t)
    (hflags : P t → t.lastTimeout = true → t.linkReady = false) (hdone : t.done.toNat ≤ s.cfg.bufBlocks) : t.Inv := by
  have hfits : storesBelow i ≤ s.cfg.bufSize := hstores.trans (Nat.mul_le_mul_left 512 (count_le_of_gate hgate))
  refine hs.of_frame hgo (exec_frame hexec) hinit hfits ?_
  rcases hstop with ⟨hover, hP⟩ | ⟨u, rfl, -, hhung⟩
  · exact ⟨hflags hP, by simp [hover.stalled, hgo], hdone⟩
  · exact ⟨hhung, fun _ => rfl, hdone⟩

theorem readBlockRun_inv (hs : s.Inv) (hgo : s.stalled = false) (sector : Word) :
    (readBlockRun sector s).state.Inv := by
  cases hgate : gateCode s sector 1 with
  | some code => exact gate_stop_inv hs hgo hgate _
  | none =>
    exact hs.of_transfer (i := .readBlock sector) hgo hgate rfl nofun (Nat.le_refl _) (readBlockRun_meets hgate)
      notReady_of_readFlags (by rw [readBlockRun_done]; exact hs.doneBound)

theorem writeBlockRun_inv (hs : s.Inv) (hgo : s.stalled = false) (sector : Word) :
    (writeBlockRun sector s).state.Inv := by
  cases hgate : gateCode s sector 1 with
  | some code => exact gate_stop_inv hs hgo hgate _
  | none =>
    exact hs.of_transfer (i := .writeBlock sector) hgo hgate rfl nofun (Nat.zero_le _) (writeBlockRun_meets hgate)
      notReady_of_writeFlags (by rw [writeBlockRun_done]; exact hs.doneBound)

/-- A multi-block operation of no block is over at once, with `done` 0 (R174, R178). -/
theorem State.Inv.noBlocks (hs : s.Inv) (hgo : s.stalled = false) : (complete .ok (setDone 0 s)).Inv :=
  { complete_inv hs hgo .ok with doneBound := Nat.zero_le _ }

theorem readMultiRun_inv (hs : s.Inv) (hgo : s.stalled = false) (sector count : Word) :
    (readMultiRun sector count s).state.Inv := by
  cases hgate : gateCode s sector count.toNat with
  | some code => exact gate_stop_inv hs hgo hgate _
  | none =>
    by_cases hcount : count = 0
    · subst hcount
      rw [readMultiRun_zero hgate]
      exact hs.noBlocks hgo
    · exact hs.of_transfer (i := .readMulti sector count) hgo hgate rfl nofun (Nat.le_refl _)
        (readMultiRun_meets hgate hcount) (fun ⟨_, hflags, _⟩ => hflags)
        ((readMultiRun_done_le hgate).trans (count_le_of_gate hgate))

theorem writeMultiRun_inv (hs : s.Inv) (hgo : s.stalled = false) (sector count : Word) :
    (writeMultiRun sector count s).state.Inv := by
  cases hgate : gateCode s sector count.toNat with
  | some code => exact gate_stop_inv hs hgo hgate _
  | none =>
    by_cases hcount : count = 0
    · subst hcount
      rw [writeMultiRun_zero hgate]
      exact hs.noBlocks hgo
    · exact hs.of_transfer (i := .writeMulti sector count) hgo hgate rfl nofun (Nat.zero_le _)
        (writeMultiRun_meets hgate hcount) (fun ⟨hflags, _⟩ => notReady_of_writeFlags hflags)
        ((writeMultiRun_done_le hgate).trans (count_le_of_gate hgate))

/-! ## `INIT` -/

/-- What the frame of `INIT` leaves open: the identity, the flags and the mark of an operation that never ends. -/
theorem State.Inv.of_init_frame (hs : s.Inv) (hframe : Frame .init s t)
    (hresolved : t.idGen ≠ .unknown ↔ t.fsm = .ready) (hfast : t.linkClk = .fast ↔ t.fsm = .ready)
    (hmode : t.idAmode = .block → t.idGen = .sd2) (hcap : t.idCap = 0)
    (hflags : t.lastTimeout = true → t.linkReady = false)
    (hrest : t.stalled = false → t.fsm = .reset ∨ t.fsm = .ready ∨ t.fsm = .failed)
    (hbusy : t.stalled = true → t.busy = true) : t.Inv := by
  obtain ⟨hcfg, -⟩ := State.fixed_eq.1 hframe.fixed
  have hbuf := hframe.bufFits s.cfg.bufSize (Nat.zero_le _) ⟨hs.bufWf, hs.bufInRange⟩
  have hdone : t.done = s.done := hframe.done fun _ _ => ⟨nofun, nofun⟩
  exact ⟨hresolved, hfast, hmode, hcap, hflags, hrest, hbusy, by rw [hdone, hcfg]; exact hs.doneBound,
    hframe.frameForm hs.frameForm, hbuf.wf, by rw [hcfg]; exact hbuf.inRange⟩

/-- Until `Commit` no update of `INIT` makes `fsm` Ready. -/
theorem notReady_command : CommandRel fun s t => s.fsm ≠ .ready → t.fsm ≠ .ready where
  refl _ := id
  trans h h' := h' ∘ h
  xchg _ _ := id
  select _ _ := id
  settled _ := id
  busyLine _ := id
  idleLine _ := id
  timedOut _ := id
  answered _ := id
  build _ _ _ := id
  count _ _ := id
  token _ _ := id

theorem notReady_init : InitRel fun s t => s.fsm ≠ .ready → t.fsm ≠ .ready :=
  .of_command notReady_command (fun _ _ h _ => h) (fun _ _ => id) (fun _ _ => id) (fun _ _ => id) (fun _ => id)
    fun _ _ => id

/-- An `INIT` that never ends has not committed (R258, log 7). -/
theorem initRun_hang_notReady {u : State} (h : (initRun s).state = hang u) : u.fsm ≠ .ready := by
  rcases initRun_cases notReady_init s with hkept | ⟨v, -, hcommit⟩
  · rw [h] at hkept
    exact hkept (powerUp_rel notReady_command _ (by simp [initStart]))
  · have hbusy := congrArg State.busy (h.symm.trans hcommit)
    simp [commit] at hbusy

theorem initRun_inv (hs : s.Inv) (hgo : s.stalled = false) : (initRun s).state.Inv := by
  have hframe := initRun_frame s
  rcases initRun_meets s with ⟨hended, hstalled⟩ | ⟨u, hu, -, hanswered⟩
  · rw [hgo] at hstalled
    obtain ⟨-, -, -, hcap, hok | hfailed⟩ := hended
    · exact hs.of_init_frame hframe (iff_of_true hok.resolved hok.fsm) (iff_of_true hok.clk hok.fsm) hok.blockOnlySd2
        hcap (by simp [hok.noTimeout]) (fun _ => .inr (.inl hok.fsm))
        (by simp [hstalled])
    · refine hs.of_init_frame hframe (by simp [hfailed.unresolved, hfailed.fsm]) (by simp [hfailed.clk, hfailed.fsm])
        (by simp [hfailed.byteMode]) hcap (fun h => ?_) (fun _ => .inr (.inr hfailed.fsm))
        (by simp [hstalled])
      rw [hfailed.timedOut, decide_eq_true_eq] at h
      simp [hfailed.ready, h]
  · have hready := initRun_hang_notReady hu
    rw [hu] at hframe ⊢
    exact hs.of_init_frame hframe (iff_of_false (not_not.2 hanswered.unresolved) hready)
      (iff_of_false (by simp [hanswered.clk]) hready) (by simp [hanswered.byteMode])
      hanswered.noCapacity (by simp [hanswered.noTimeout]) nofun fun _ => rfl

/-! ## Every instruction, the host, and the step -/

/-- Every instruction run by an operation that can still end keeps the invariant. -/
theorem exec_inv (hs : s.Inv) (hgo : s.stalled = false) (hexec : exec i s = .next t) : t.Inv := by
  have hframe := exec_frame hexec
  cases i with
  | init =>
    cases hexec
    exact initRun_inv hs hgo
  | crc7Clear | crc7Byte | crc7Bit | crc7Read | frameBuild | crc16Clear | crc16Byte | crc16Read | ready | present
  | cardType =>
    cases hexec
    exact hs.of_frame hgo hframe nofun (Nat.zero_le _) (hs.soundEnd hgo (by simp))
  | sendCommand index arg ext keep =>
    cases hexec
    exact complete_inv (sendCommand_inv hs hgo index arg ext (!keep)) ((sendCommand_stalled ..).trans hgo) _
  | readBlock sector =>
    cases hexec
    exact readBlockRun_inv hs hgo sector
  | writeBlock sector =>
    cases hexec
    exact writeBlockRun_inv hs hgo sector
  | readMulti sector count =>
    cases hexec
    exact readMultiRun_inv hs hgo sector count
  | writeMulti sector count =>
    cases hexec
    exact writeMultiRun_inv hs hgo sector count
  | cReset | cOpcondMmc | cIfcond | cStop | cBlklen | cRd1 | cRdm | cWr1 | cWrm | cOpcondApp | cApp | cOcr =>
    cases hexec
    exact issue_inv hs hgo ..

/-- Hardware reset leaves the invariant from any state (R240). -/
theorem hardReset_inv (s : State) : (hardReset s).Inv :=
  ⟨by simp [hardReset, State.resetWith], by simp [hardReset, State.resetWith], nofun, rfl, nofun, fun _ => .inl rfl,
    nofun, Nat.zero_le _, rfl, rfl, rfl⟩

theorem hostWriteReq_inv (hs : s.Inv) (w : ReqWord) : (hostWriteReq w s).Inv := by
  unfold hostWriteReq
  split
  · exact hs
  · exact { hs with stalledBusy := fun _ => rfl }

theorem storeBuf_inv (hs : s.Inv) {a : Nat} (ha : a < s.cfg.bufSize) (b : Byte) : (storeBuf a b s).Inv :=
  { hs with bufWf := Memory.wf_write hs.bufWf, bufInRange := Memory.inRange_write hs.bufInRange ha }

/-- Every move of the host keeps the invariant. -/
theorem hostApply_inv (hs : s.Inv) {a : HostAction} (h : hostApply a s = .next t) : t.Inv := by
  cases a with
  | writeReq w =>
    cases h
    exact hostWriteReq_inv hs w
  | writeBuf a b =>
    rcases Nat.lt_or_ge a s.cfg.bufSize with hin | hout
    · rw [hostApply_writeBuf_inside b hin] at h
      cases h
      split
      · exact hs
      · exact storeBuf_inv hs hin b
    · rw [hostApply_writeBuf_outside b hout] at h
      cases h
  | readReg r =>
    cases h
    exact { hs with }
  | readBuf a =>
    simp only [hostApply] at h
    split at h <;> cases h
    exact { hs with }
  | reset =>
    cases h
    exact hardReset_inv s

theorem afterMove_inv (hs : s.Inv) (rest : List HostMove) : (s.afterMove rest).Inv := { hs with }

theorem hostTurn_inv (hs : s.Inv) (h : hostTurn s = .next t) : t.Inv := by
  unfold hostTurn at h
  split at h
  · cases h
    exact hs
  · exact hostApply_inv (afterMove_inv hs _) h

theorem runRequest_inv (hs : s.Inv) (hgo : s.stalled = false) (h : runRequest s = .next t) : t.Inv := by
  unfold runRequest at h
  split at h
  · exact exec_inv hs hgo h
  · cases h
    exact complete_inv hs hgo _

theorem runFrame_inv (hs : s.Inv) (hgo : s.stalled = false) {f : FrameWord} (h : runFrame f s = .next t) :
    t.Inv := by
  unfold runFrame at h
  split at h
  · exact exec_inv hs hgo h
  · cases h

/-- Settles O57, branch by branch of the step: a hung operation leaves only the host's move, a latched frame and a
started request are one instruction each. -/
theorem stepKeepsInvariant : Obligations.StepKeepsInvariant := by
  unfold Obligations.StepKeepsInvariant
  intro s t hs h
  unfold step at h
  split at h
  · exact hostTurn_inv hs h
  · have hgo : s.stalled = false := Bool.eq_false_iff.2 ‹_›
    split at h
    · have hlatched : State.Inv { s with cmd := none } := { hs with }
      exact runFrame_inv hlatched hgo h
    · split_ifs at h
      · exact hostTurn_inv hs h
      · exact runRequest_inv hs hgo h
      · exact hostTurn_inv hs h

end Sys2Proof.Machine
end

