-- ==== Sys2Proof/Proofs/BusHistory.lean ====
section
/-!
PROOF. The port and its history over every instruction (spec/20_memory.md R44, R46, R54; spec/00_scope.md R15): what
holds across one exchange, one `Select` call and every update that leaves the port and `link.sel` alone holds across
every instruction.
-/
namespace Sys2Proof.Machine

variable {R : State → State → Prop} {i : Instr} {s t : State}

/-! ## What touches the port -/

/-- Closed under the two port calls that make an event (R46) and under whatever leaves the port and `link.sel` alone. -/
structure PortRel (R : State → State → Prop) : Prop where
  trans : ∀ {a b c}, R a b → R b c → R a c
  xchg : ∀ tx s, R s (xchg tx s).2
  select : ∀ on s, R s (select on s)
  quiet : ∀ {s t}, t.port = s.port → t.linkSel = s.linkSel → R s t

theorem PortRel.command (h : PortRel R) : CommandRel R where
  refl _ := h.quiet rfl rfl
  trans := h.trans
  xchg := h.xchg
  select := h.select
  settled _ := h.quiet rfl rfl
  busyLine _ := h.quiet rfl rfl
  idleLine _ := h.quiet rfl rfl
  timedOut _ := h.quiet rfl rfl
  answered _ := h.quiet rfl rfl
  build _ _ _ := h.quiet rfl rfl
  count _ _ := h.quiet rfl rfl
  token _ _ := h.quiet rfl rfl

theorem PortRel.init (h : PortRel R) : InitRel R :=
  .of_command h.command (fun _ _ _ => h.quiet rfl rfl) (fun _ _ => h.quiet rfl rfl) (fun _ _ => h.quiet rfl rfl)
    (fun _ _ => h.quiet rfl rfl) (fun _ => h.quiet rfl rfl) fun _ _ => h.quiet rfl rfl

theorem PortRel.instr (h : PortRel R) (i : Instr) : InstrRel i R where
  refl _ := h.quiet rfl rfl
  trans := h.trans
  complete _ _ := h.quiet rfl rfl
  code _ _ := h.quiet rfl rfl
  timer _ _ := h.quiet rfl rfl
  hang _ := h.quiet rfl rfl
  block _ _ := h.quiet rfl rfl
  crc7 _ _ := h.quiet rfl rfl
  build _ _ _ := h.quiet rfl rfl
  command _ := h.command
  val _ _ _ := h.quiet rfl rfl
  crc16 _ _ _ := h.quiet rfl rfl
  done _ _ _ := h.quiet rfl rfl
  store _ _ _ _ := h.quiet rfl rfl

/-- `INIT` begins with updates of the block's registers (R131), makes the power-up clocks (R132) and goes on. -/
theorem initRun_portRel (h : PortRel R) (s : State) : R s (initRun s).state :=
  h.trans (h.quiet (t := initStart s) rfl rfl) <|
    h.trans (powerUp_rel h.command _) (initRun_rel h.init (fun _ => h.quiet rfl rfl) s)

/-- Whatever holds across the port calls, and across what is no port call, holds across every instruction. -/
theorem exec_portRel (h : PortRel R) (hexec : exec i s = .next t) : R s t := by
  by_cases hinit : i = .init
  · subst hinit
    cases hexec
    exact initRun_portRel h s
  · exact exec_rel (h.instr i) hinit hexec

/-! ## The port moves on -/

theorem movesOn_portRel : PortRel fun s t => Port.MovesOn s.port t.port where
  trans := .trans
  xchg := xchg_movesOn
  select := select_movesOn
  quiet hport _ := by rw [hport]; exact .refl _

/-- Settles O52: the port moves on across an exchange and across a `Select` call. -/
theorem historyOnlyGrows : Obligations.HistoryOnlyGrows := by
  unfold Obligations.HistoryOnlyGrows
  intro i s t hexec
  exact exec_portRel movesOn_portRel hexec

/-! ## The level each exchange records -/

theorem selAfter_append (on : Bool) (os os' : List BusOut) :
    selAfter on (os ++ os') = selAfter (selAfter on os) os' := by
  induction os generalizing on with
  | nil => rfl
  | cons o os ih => cases o <;> exact ih _

/-- The second of two stretches starts from the level the first one leaves. -/
theorem recordsSelect_append (on : Bool) (evs evs' : List BusEvent) :
    recordsSelect on (evs ++ evs') =
      (recordsSelect on evs && recordsSelect (selAfter on (evs.map BusEvent.out)) evs') := by
  induction evs generalizing on with
  | nil => rfl
  | cons ev evs ih =>
    cases ev with
    | sel level => exact ih level
    | x sel clk tx rx => simp [recordsSelect, selAfter, BusEvent.out, ih, Bool.and_assoc]

/-- From `s` to `t` the history is extended by exchanges that each record the level of the last `Select` before them,
and `link.sel` is the level of the last one (R46). -/
def SelectRecorded (s t : State) : Prop :=
  ∃ evs, t.port.hist = evs ++ s.port.hist ∧ recordsSelect s.linkSel evs.reverse = true ∧
    selAfter s.linkSel (outputs evs) = t.linkSel

theorem SelectRecorded.trans {u : State} (h : SelectRecorded s t) (h' : SelectRecorded t u) : SelectRecorded s u := by
  obtain ⟨evs, hhist, hrec, hsel⟩ := h
  obtain ⟨evs', hhist', hrec', hsel'⟩ := h'
  refine ⟨evs' ++ evs, by rw [hhist', hhist, List.append_assoc], ?_, ?_⟩
  · rw [List.reverse_append, recordsSelect_append, hrec, Bool.true_and, ← outputs, hsel]
    exact hrec'
  · rw [outputs_append, selAfter_append, hsel, hsel']

theorem selectRecorded_portRel : PortRel SelectRecorded where
  trans := .trans
  xchg tx s := ⟨[.x s.linkSel s.linkClk tx s.port.answer.rx], rfl, by simp [recordsSelect], rfl⟩
  select on _ := ⟨[.sel on], rfl, rfl, rfl⟩
  quiet hport hsel := ⟨[], by rw [hport]; rfl, rfl, hsel.symm⟩

/-- Settles O53: an exchange records `link.sel`, which only a `Select` call writes. -/
theorem historyRecordsSelect : Obligations.HistoryRecordsSelect := by
  unfold Obligations.HistoryRecordsSelect
  intro i s t hexec
  exact exec_portRel selectRecorded_portRel hexec

end Sys2Proof.Machine
end

