-- ==== Sys2Proof/Proofs/HostReads.lean ====
section
/-!
PROOF. What the host reads (spec/10_state.md R20; spec/20_memory.md R52; spec/60_exceptions.md R231;
spec/70_reset_and_hazards.md R250).
-/
namespace Sys2Proof.Machine

variable {s : State}

/-! ## The datum of a read -/

/-- `busy` is delivered as it is at any time (R250). -/
@[simp] theorem readDatum_busyReg (value : BitVec 48) (s : State) : readDatum true value s = value := by
  simp [readDatum]

/-- An idle block delivers every datum as it is. -/
theorem readDatum_idle (hbusy : s.busy = false) (isBusyReg : Bool) (value : BitVec 48) :
    readDatum isBusyReg value s = value := by
  simp [readDatum, hbusy]

theorem boolVal_eq (b : Bool) : boolVal b = if b then 1 else 0 := by cases b <;> rfl

/-! ## The moves -/

theorem hostApply_readReg (r : HostReg) (s : State) : hostApply (.readReg r) s =
    .next { s with host := { s.host with rdata := readDatum (r == .busy) (regValue r s) s } } := rfl

theorem hostApply_readBuf_outside {a : Nat} (h : s.cfg.bufSize ≤ a) :
    hostApply (.readBuf a) s = .fault .noSuchBufAddress := if_pos h

theorem hostApply_readBuf_inside {a : Nat} (h : a < s.cfg.bufSize) : hostApply (.readBuf a) s =
    .next { s with host := { s.host with rdata := readDatum false ((loadBuf a s).setWidth 48) s } } :=
  if_neg (Nat.not_le.2 h)

/-- The datum a read of a register leaves on the host port. -/
theorem rdata_of_readReg {r : HostReg} {d : BitVec 48}
    (h : ∃ t, hostApply (.readReg r) s = .next t ∧ t.host.rdata = d) :
    d = readDatum (r == .busy) (regValue r s) s := by
  obtain ⟨t, happly, rfl⟩ := h
  cases happly
  rfl

/-- Settles O6: a read writes only the datum, which an idle block takes from the element itself, an enumerated one by
the number of each of its names. -/
theorem hostReadsHaveNoSideEffect : Obligations.HostReadsHaveNoSideEffect := by
  unfold Obligations.HostReadsHaveNoSideEffect
  refine ⟨fun r s => ⟨_, hostApply_readReg r s⟩, fun s read hread => ⟨?busy, fun hidle => ?registers⟩,
    fun a s hin => ⟨_, hostApply_readBuf_inside hin, fun hidle => readDatum_idle hidle _ _⟩,
    fun a s hout => hostApply_readBuf_outside hout⟩
  case busy =>
    calc read .busy
      _ = readDatum true (boolVal s.busy) s := rdata_of_readReg (hread .busy)
      _ = _ := by rw [readDatum_busyReg, boolVal_eq]
  case registers =>
    have hreg (r : HostReg) : read r = regValue r s := (rdata_of_readReg (hread r)).trans (readDatum_idle hidle _ _)
    refine ⟨(hreg .idGen).trans ?gen, (hreg .idAmode).trans ?mode, hreg .idCap, (hreg .linkSel).trans (boolVal_eq _),
      (hreg .linkClk).trans ?clk, (hreg .linkReady).trans (boolVal_eq _), (hreg .lastTimeout).trans (boolVal_eq _),
      (hreg .fsm).trans ?fsm, hreg .crc7, hreg .crc16, hreg .frame, (hreg .result).trans ?result, hreg .resp,
      hreg .val, hreg .done⟩ <;> simp only [regValue]
    case gen => cases s.idGen <;> rfl
    case mode => cases s.idAmode <;> rfl
    case clk => cases s.linkClk <;> rfl
    case fsm => cases s.fsm <;> rfl
    case result => cases s.result <;> rfl

end Sys2Proof.Machine
end

