-- ==== Sys2Proof/Proofs/Address.lean ====
section
/-!
PROOF. Address translation (spec/20_memory.md R50, R51).
-/
namespace Sys2Proof.Machine

@[simp] theorem addrOf_block (sector : Word) : addrOf .block sector = sector := rfl

/-- The byte address of a sector in range fits 32 bits (R51). -/
theorem addrOf_byte_toNat {sector : Word} (h : sector.toNat < 2 ^ 23) :
    (addrOf .byte sector).toNat = sector.toNat * 512 := by
  have hfits : sector.toNat * 512 < 2 ^ 32 := by omega
  exact (BitVec.toNat_mul ..).trans (Nat.mod_eq_of_lt hfits)

/-- A byte address is a multiple of 512 for every sector, in range or not: the bits lost past 32 are above the low
nine. -/
theorem addrOf_byte_low (sector : Word) : (addrOf .byte sector).extractLsb' 0 9 = 0 := by
  apply BitVec.eq_of_toNat_eq
  simp [addrOf]

/-- Sectors in range are kept apart, by their byte addresses where they are byte-addressed. -/
theorem addrOf_injective {mode : AddrMode} {a b : Word} (ha : sectorInRange mode a = true)
    (hb : sectorInRange mode b = true) (h : addrOf mode a = addrOf mode b) : a = b := by
  cases mode with
  | block => exact h
  | byte =>
    have haddr := congrArg BitVec.toNat h
    rw [addrOf_byte_toNat (of_decide_eq_true ha), addrOf_byte_toNat (of_decide_eq_true hb)] at haddr
    exact BitVec.eq_of_toNat_eq (Nat.eq_of_mul_eq_mul_right (by decide) haddr)

/-- Settles O34: below `2^23` the product with 512 loses no bit, so it gives the sector back. -/
theorem addressTranslation : Obligations.AddressTranslation := by
  unfold Obligations.AddressTranslation
  exact ⟨addrOf_block, fun sector h => ⟨addrOf_byte_toNat h, addrOf_byte_low sector⟩, fun _ _ _ => addrOf_injective⟩

end Sys2Proof.Machine
end

