-- ==== Sys2Proof/Proofs/Requests.lean ====
section
/-!
PROOF. Host requests as words (spec/30_encoding.md R73 to R77, R80, R81): decoding gives an encoded operation back, a
decoded word is the encoding but for its unused bits, and the reserved op codes are those R76 lists.
-/
namespace Sys2Proof.Machine

/-! ## Operands -/

/-- An operand narrower than its word is read back from the word's low bits (R75). -/
theorem low_setWidth {n : Nat} (x : BitVec n) (h : n ≤ 32) : (x.setWidth 32).extractLsb' 0 n = x :=
  (BitVec.extractLsb'_setWidth_of_le (by omega)).trans BitVec.extractLsb'_eq_self

/-- The low bits of a word, written back as an operand, are the word without its other bits. -/
theorem setWidth_low (b : Word) (n : Nat) : (b.extractLsb' 0 n).setWidth 32 = b &&& (BitVec.allOnes n).setWidth 32 := by
  apply BitVec.eq_of_getLsbD_eq
  intro i hi
  simp [hi, Bool.and_comm]

theorem setWidth_bit_low (b : Word) : (bit (b.getLsbD 0)).setWidth 32 = b &&& 1 := by
  have hbit : bit (b.getLsbD 0) = b.extractLsb' 0 1 := by
    apply BitVec.eq_of_getLsbD_eq
    intro i hi
    obtain rfl : i = 0 := by omega
    simp [bit]
  rw [hbit, setWidth_low]
  rfl

/-- The three fields `SEND_COMMAND` takes from operand `b` are those it was given. -/
theorem sendCommandB_fields (index : BitVec 6) (ext keep : Bool) :
    (sendCommandB index ext keep).extractLsb' 0 6 = index ∧ (sendCommandB index ext keep).getLsbD 8 = ext ∧
      (sendCommandB index ext keep).getLsbD 9 = keep := by
  refine ⟨?_, sendCommandB_getLsbD index ext keep 8, sendCommandB_getLsbD index ext keep 9⟩
  apply BitVec.eq_of_getLsbD_eq
  intro i hi
  rw [BitVec.getLsbD_extractLsb', sendCommandB_getLsbD, Nat.zero_add, if_pos hi, decide_eq_true hi, Bool.true_and]

/-- Operand `b` of a `SEND_COMMAND` is its three fields and the bits it does not use. -/
theorem sendCommandB_of_fields (b : Word) :
    sendCommandB (b.extractLsb' 0 6) (b.getLsbD 8) (b.getLsbD 9) = b &&& 0x33F := by
  have hmask : ∀ i : Fin 32, (0x33F#32).getLsbD i = decide (i.val < 6 ∨ i.val = 8 ∨ i.val = 9) := by decide
  apply BitVec.eq_of_getLsbD_eq
  intro i hi
  rw [sendCommandB_getLsbD, BitVec.getLsbD_and, show (0x33F : Word).getLsbD i = _ from hmask ⟨i, hi⟩]
  split_ifs with hindex hext hkeep
  · simp [hindex]
  · simp [hext]
  · simp [hkeep]
  · simp [hindex, hext, hkeep]

/-! ## An encoded operation is decoded -/

theorem decodeReq_reqWord (op : Byte) (a b : Word) : decodeReq (reqWord op a b) = decodeFields op a b := by
  rw [decodeReq, reqOp_reqWord, reqA_reqWord, reqB_reqWord]

/-- A request word that encodes an operation decodes to it. -/
theorem decodeReq_of_encode {c : Config} {i : Instr} {w : ReqWord} (h : encode c i = .request w) :
    decodeReq w = some i := by
  cases i with
  | crc7Byte | crc16Byte | frameBuild =>
    cases h
    simp [decodeReq_reqWord, decodeFields, low_setWidth]
  | crc7Bit =>
    cases h
    simp [decodeReq_reqWord, decodeFields, bit]
  | sendCommand index arg ext keep =>
    cases h
    obtain ⟨hindex, hext, hkeep⟩ := sendCommandB_fields index ext keep
    rw [decodeReq_reqWord]
    change some (Instr.sendCommand _ arg _ _) = _
    rw [hindex, hext, hkeep]
  | crc7Clear | crc7Read | crc16Clear | crc16Read | init | readBlock | writeBlock | readMulti | writeMulti | ready
  | present | cardType =>
    cases h
    exact decodeReq_reqWord ..
  | cReset | cOpcondMmc | cIfcond | cStop | cBlklen | cRd1 | cRdm | cWr1 | cWrm | cOpcondApp | cApp | cOcr => cases h

/-! ## The reserved op codes -/

/-- R76: decoding fails on the reserved op codes, whatever the operands: they are what the rows of R75 leave. -/
theorem decodeFields_eq_none_iff {op : Byte} {a b : Word} : decodeFields op a b = none ↔ reservedOp op = true := by
  have hbyte : op.toNat < 256 := op.isLt
  fun_cases decodeFields op a b
  case case18 =>
    simp only [imp_false] at *
    simp only [reservedOp, true_iff, Bool.or_eq_true, Bool.and_eq_true, beq_iff_eq, decide_eq_true_eq]
    omega
  all_goals simp [reservedOp, *]

theorem decodeReq_eq_none_iff {w : ReqWord} : decodeReq w = none ↔ reservedOp (reqOp w) = true :=
  decodeFields_eq_none_iff

/-! ## A decoded word is the encoding of its operation -/

theorem reqWord_and (op op' : Byte) (a a' b b' : Word) :
    reqWord op a b &&& reqWord op' a' b' = reqWord (op &&& op') (a &&& a') (b &&& b') := by
  rw [reqWord, reqWord, BitVec.and_append, BitVec.and_append]
  rfl

/-- What is to be shown of one op code: which bits it uses, and that its operation is encoded by exactly those. -/
theorem encode_masked {c : Config} {i : Instr} {op : Byte} {n : Nat} {a b : Word} (maskA maskB : Word)
    (hop : op.toNat = n) (hused : usedBits (BitVec.ofNat 8 n) = reqWord 0xFF maskA maskB)
    (henc : encode c i = .request (reqWord (BitVec.ofNat 8 n) (a &&& maskA) (b &&& maskB))) :
    encode c i = .request (reqWord op a b &&& usedBits op) := by
  subst hop
  rw [BitVec.ofNat_toNat, BitVec.setWidth_eq] at hused henc
  rw [henc, hused, reqWord_and, show op &&& 0xFF = op from BitVec.and_allOnes]

/-- An operation decoded from a request word is encoded by the bits it uses of that word. The cases are the rows of R75 in
their order, grouped by the bits of `a` and `b` they use. -/
theorem encode_of_decodeFields {c : Config} {op : Byte} {a b : Word} {i : Instr} (h : decodeFields op a b = some i) :
    encode c i = .request (reqWord op a b &&& usedBits op) := by
  have hnone (x : Word) : x &&& 0 = 0 := BitVec.and_zero
  have hall (x : Word) : x &&& 0xFFFFFFFF = x := BitVec.and_allOnes
  have hbyte : (b.extractLsb' 0 8).setWidth 32 = b &&& 0xFF := setWidth_low b 8
  have hindex : (b.extractLsb' 0 6).setWidth 32 = b &&& 0x3F := setWidth_low b 6
  revert h
  fun_cases decodeFields op a b <;> intro h <;> cases h
  case case1 hop | case4 hop | case6 hop | case8 hop | case10 hop | case15 hop | case16 hop | case17 hop =>
    exact encode_masked 0 0 hop (by decide) (by rw [hnone, hnone]; rfl)
  case case2 hop | case7 hop => exact encode_masked 0 0xFF hop (by decide) (by rw [hnone, ← hbyte]; rfl)
  case case3 hop => exact encode_masked 0 1 hop (by decide) (by rw [hnone, ← setWidth_bit_low]; rfl)
  case case5 hop => exact encode_masked 0xFFFFFFFF 0x3F hop (by decide) (by rw [hall, ← hindex]; rfl)
  case case9 hop =>
    exact encode_masked 0xFFFFFFFF 0x33F hop (by decide) (by rw [hall, ← sendCommandB_of_fields]; rfl)
  case case11 hop | case12 hop => exact encode_masked 0xFFFFFFFF 0 hop (by decide) (by rw [hall, hnone]; rfl)
  case case13 hop | case14 hop =>
    exact encode_masked 0xFFFFFFFF 0xFFFFFFFF hop (by decide) (by rw [hall, hall]; rfl)

theorem encode_of_decodeReq {c : Config} {w : ReqWord} {i : Instr} (h : decodeReq w = some i) :
    encode c i = .request (w &&& usedBits (reqOp w)) := by
  rw [encode_of_decodeFields h, reqWord_fields]

/-- The used bits of a request word include its op code. -/
theorem reqOp_masked (w : ReqWord) (op : Byte) : reqOp (w &&& usedBits op) = reqOp w := by
  have hused : reqOp (usedBits op) = 0xFF := by
    fun_cases usedBits op <;> rfl
  rw [reqOp, BitVec.extractLsb'_and]
  change reqOp w &&& reqOp (usedBits op) = reqOp w
  rw [hused]
  exact BitVec.and_allOnes

/-- A request word decodes by its used bits alone. -/
theorem decodeReq_masked (w : ReqWord) : decodeReq (w &&& usedBits (reqOp w)) = decodeReq w := by
  cases h : decodeReq w with
  | some i => exact decodeReq_of_encode (encode_of_decodeReq (c := Config.default) h)
  | none =>
    rw [decodeReq_eq_none_iff, reqOp_masked]
    exact decodeReq_eq_none_iff.1 h

/-- Settles O9: a decoded word is the encoding on its used bits, and those decide how it decodes. -/
theorem unusedRequestBitsAreIgnored : Obligations.UnusedRequestBitsAreIgnored := by
  unfold Obligations.UnusedRequestBitsAreIgnored
  refine ⟨fun c w i h => encode_of_decodeReq h, fun c w v h => ?_⟩
  have hop : reqOp v = reqOp w := by rw [← reqOp_masked v (reqOp w), ← h, reqOp_masked]
  calc decodeReq v
    _ = decodeReq (v &&& usedBits (reqOp w)) := by rw [← hop, decodeReq_masked]
    _ = decodeReq w := by rw [← h, decodeReq_masked]

end Sys2Proof.Machine
end

