-- ==== Sys2Proof/Proofs/Frames.lean ====
section
/-!
PROOF. Command Frames as words (spec/30_encoding.md R60 to R63, R72): the frame of a wire command decodes to it, and a
frame that decodes is the frame of its command, bit for bit.
-/
namespace Sys2Proof.Machine

variable {c : Config} {i : Instr} {index : BitVec 6} {arg : Word} {crc : BitVec 7} {f : FrameWord}

/-- A wire command is encoded as the frame of its fields (R60, R72). -/
theorem encode_wireCommand (hwire : i.wireFields c = some (index, arg, crc)) :
    encode c i = .frame (frameWord index arg crc) := by
  cases i with
  | cReset | cOpcondMmc | cIfcond | cStop | cBlklen | cRd1 | cRdm | cWr1 | cWrm | cOpcondApp | cApp | cOcr =>
    cases hwire
    rfl
  | crc7Clear | crc7Byte | crc7Bit | crc7Read | frameBuild | crc16Clear | crc16Byte | crc16Read | sendCommand | init
  | readBlock | writeBlock | readMulti | writeMulti | ready | present | cardType => cases hwire

/-- Only a wire command is encoded as a frame. -/
theorem wireFields_of_encode (h : encode c i = .frame f) :
    ∃ index arg crc, i.wireFields c = some (index, arg, crc) ∧ f = frameWord index arg crc := by
  cases i with
  | cReset | cOpcondMmc | cIfcond | cStop | cBlklen | cRd1 | cRdm | cWr1 | cWrm | cOpcondApp | cApp | cOcr =>
    cases h
    exact ⟨_, _, _, rfl, rfl⟩
  | crc7Clear | crc7Byte | crc7Bit | crc7Read | frameBuild | crc16Clear | crc16Byte | crc16Read | sendCommand | init
  | readBlock | writeBlock | readMulti | writeMulti | ready | present | cardType => cases h

/-- The command found by an index has that index and the fields it was given. -/
theorem wireFields_of_commandOf (h : commandOf c index arg crc = some i) : i.wireFields c = some (index, arg, crc) := by
  revert h
  fun_cases commandOf c index arg crc <;> intro h <;> cases h <;> subst index <;> rfl

/-- With twelve different indices the lookup finds the command whose index it is, and no earlier one of R72's order. -/
theorem commandOf_of_wireFields (hdistinct : c.indicesDistinct = true) (hwire : i.wireFields c = some (index, arg, crc)) :
    commandOf c index arg crc = some i := by
  have hne : c.indices.Pairwise fun earlier later => later ≠ earlier := (of_decide_eq_true hdistinct).imp Ne.symm
  simp only [Config.indices, List.pairwise_cons, List.forall_mem_cons] at hne
  cases i with
  | cReset | cOpcondMmc | cIfcond | cStop | cBlklen | cRd1 | cRdm | cWr1 | cWrm | cOpcondApp | cApp | cOcr =>
    cases hwire
    simp [commandOf, hne]
  | crc7Clear | crc7Byte | crc7Bit | crc7Read | frameBuild | crc16Clear | crc16Byte | crc16Read | sendCommand | init
  | readBlock | writeBlock | readMulti | writeMulti | ready | present | cardType => cases hwire

/-- A frame that encodes a wire command decodes to it. -/
theorem decodeFrame_of_encode (hdistinct : c.indicesDistinct = true) (h : encode c i = .frame f) :
    decodeFrame c f = some i := by
  obtain ⟨index, arg, crc, hwire, rfl⟩ := wireFields_of_encode h
  rw [decodeFrame_frameWord]
  exact commandOf_of_wireFields hdistinct hwire

/-- Settles O8: an encoding is a request word or a frame, and each decodes to what it encodes. -/
theorem decodeInvertsEncode : Obligations.DecodeInvertsEncode := by
  unfold Obligations.DecodeInvertsEncode
  intro c i hdistinct
  cases h : encode c i with
  | request w => exact decodeReq_of_encode h
  | frame f => exact decodeFrame_of_encode hdistinct h

/-- Settles O10: the fixed bits are required (R78 (e)), and the command found by the index has the frame's fields. -/
theorem decodedFrameIsTheEncoding : Obligations.DecodedFrameIsTheEncoding := by
  unfold Obligations.DecodedFrameIsTheEncoding
  intro c f i h
  obtain ⟨⟨hstart, hend⟩, hcommand⟩ := Option.ite_none_right_eq_some.1 h
  rw [encode_wireCommand (wireFields_of_commandOf hcommand), frameWord_of_fields hstart hend]

end Sys2Proof.Machine
end

