-- ==== Sys2Proof/Proofs/WireCommands.lean ====
section
/-!
PROOF. The twelve wire commands run alone (spec/30_encoding.md R72; spec/41_command.md R112, R120; log 13).
-/
namespace Sys2Proof.Machine

/-- The frame sent for a well-formed wire command is its encoding: its checksum is the one the block computes (R63). -/
theorem encode_wellFormed {c : Config} {i : Instr} {index : BitVec 6} {arg : Word} {crc : BitVec 7}
    (hwire : i.wireFields c = some (index, arg, crc)) (hformed : i.wellFormed c = true) :
    encode c i = .frame (builtFrame c index arg) := by
  have hcrc : crc = crc7Of c.crc7Poly c.crc7Init (frameHead index arg) := by
    rw [Instr.wellFormed, hwire, Bool.and_eq_true] at hformed
    obtain ⟨-, hchecksum⟩ := hformed
    exact eq_of_beq hchecksum
  rw [encode_wireCommand hwire, hcrc, builtFrame]

/-- Settles O26: a wire command is one exchange, and an exchange leaves one of the outcomes of `sendCommand_cases`. -/
theorem wireCommandsSendTheirFrame : Obligations.WireCommandsSendTheirFrame := by
  unfold Obligations.WireCommandsSendTheirFrame
  intro i index arg crc s hwire
  obtain ⟨polls, status, e, hle, he, -, hcommand, hsent⟩ :=
    sendCommand_cases index arg (wireShape i).1 (wireShape i).2 s
  generalize (sendCommand index arg (wireShape i).1 (wireShape i).2 s).2.port = port at hcommand hsent
  have hanswered : (wireShape i).1 = true ∧
      (if isResponse status then classify status else Code.noResponse) ≠ .noResponse ↔
      ((wireShape i).1 && isResponse status) = true := by
    rw [Bool.and_eq_true, ne_eq, code_noResponse, Bool.not_eq_false]
  refine ⟨_, polls, exec_wireCommand hwire, ?_⟩
  rw [issue, hcommand]
  refine ⟨rfl, encode_wellFormed hwire, commandOutcome_of he rfl rfl rfl, hle, ?_⟩
  simpa only [setCode_code, setCode_port, afterCommand, hanswered] using hsent

end Sys2Proof.Machine
end

