-- ==== Sys2Proof/Proofs/DecodedStep.lean ====
section
/-!
PROOF. The step runs what its word decodes to (spec/30_encoding.md R72, R74, R76, R81; log 13, log 22).
-/
namespace Sys2Proof.Machine

variable {s : State} {i : Instr} {w : ReqWord} {f : FrameWord}

/-- A started request with a reserved op code is rejected by the step (R76). -/
theorem step_reserved (hstalled : s.stalled = false) (hcmd : s.cmd = none) (hbusy : s.busy = true)
    (hhost : hostIntrudes s = false) (hdecode : decodeReq s.req = none) : step s = .next (rejectRequest s) := by
  simp [step, hstalled, hcmd, hbusy, hhost, runRequest, hdecode]

/-- A frame in the wire-command latch is run by the step, whatever the request and the host do (log 13). -/
theorem step_latched (hstalled : s.stalled = false) (hcmd : s.cmd = some f) (hdecode : decodeFrame s.cfg f = some i) :
    step s = exec i { s with cmd := none } := by
  simp [step, hstalled, hcmd, runFrame, hdecode]

theorem withFetchWord_request (s : State) (w : ReqWord) : s.withFetchWord 72 w.toNat = placeRequest w s := by
  rw [State.withFetchWord, if_neg (by decide), BitVec.ofNat_toNat, BitVec.setWidth_eq]

theorem withFetchWord_frame (s : State) (f : FrameWord) : s.withFetchWord 48 f.toNat = placeFrame f s := by
  rw [State.withFetchWord, if_pos rfl, BitVec.ofNat_toNat, BitVec.setWidth_eq]

/-- A placed request is the step's: the host's moves that would come during it are gone (log 22). -/
theorem hostIntrudes_placeRequest (w : ReqWord) (s : State) : hostIntrudes (placeRequest w s) = false := by
  apply hostIntrudes_of_head
  intro m hhead
  have hfirst := List.head?_dropWhile_not (fun m : HostMove => m.duringOp) s.host.moves
  rw [show (s.host.moves.dropWhile fun m => m.duringOp).head? = some m from hhead] at hfirst
  exact hfirst

theorem step_placeRequest (s : State) (hdecode : decodeReq w = some i) :
    step (placeRequest w s) = exec i (placeRequest w s) :=
  step_busy rfl rfl rfl (hostIntrudes_placeRequest w s) hdecode

theorem step_placeFrame (s : State) (hdecode : decodeFrame s.cfg f = some i) :
    step (placeFrame f s) = exec i { s with stalled := false, cmd := none } :=
  step_latched rfl rfl hdecode

/-- Settles O2: a request or a frame that the step finds is decoded and run, and `withFetchWord` puts one where it finds
it. -/
theorem stepRunsDecodedInstruction : Obligations.StepRunsDecodedInstruction := by
  unfold Obligations.StepRunsDecodedInstruction
  refine ⟨fun s i hstalled hcmd hbusy hhost hdecode => step_busy hstalled hcmd hbusy hhost hdecode,
    fun s f i => step_latched, fun s w i hdecode => ?_, fun s f i hdecode => ?_⟩
  · rw [withFetchWord_request]
    exact ⟨step_placeRequest s hdecode, rfl, rfl⟩
  · rw [withFetchWord_frame]
    exact step_placeFrame s hdecode

/-- Settles O5: decoding fails on the reserved codes alone, and the step completes what does not decode. -/
theorem reservedOpcodesAreRejected : Obligations.ReservedOpcodesAreRejected := by
  unfold Obligations.ReservedOpcodesAreRejected
  exact ⟨fun _ _ => decodeReq_eq_none_iff, fun s hstalled hcmd hbusy hhost hreserved =>
    step_reserved hstalled hcmd hbusy hhost (decodeReq_eq_none_iff.2 hreserved)⟩

/-! ## Words of the spec -/

/-- A 72-bit word that encodes an instruction decodes to it. -/
theorem decodeTableWord_request {v : Nat} (h : encode Config.default i = .request (BitVec.ofNat 72 v)) :
    decodeTableWord 72 v = some i := decodeReq_of_encode h

/-- A 48-bit word that encodes an instruction under the default indices, which differ, decodes to it. -/
theorem decodeTableWord_frame {v : Nat} (h : encode Config.default i = .frame (BitVec.ofNat 48 v)) :
    decodeTableWord 48 v = some i := decodeFrame_of_encode (by decide) h

/-- Settles O11: each word is the encoding of its instruction. -/
theorem specWordsDecode : Obligations.SpecWordsDecode := by
  unfold Obligations.SpecWordsDecode
  exact ⟨decodeTableWord_request rfl, decodeTableWord_request rfl, decodeTableWord_request rfl,
    decodeTableWord_request rfl, decodeTableWord_request rfl, decodeTableWord_request rfl, decodeTableWord_frame rfl,
    decodeTableWord_frame rfl, decodeTableWord_frame rfl, decodeTableWord_frame rfl⟩

end Sys2Proof.Machine
end

