-- ==== Sys2Proof/Proofs/DataResponse.lean ====
section
/-!
PROOF. The data response (spec/30_encoding.md R69; spec/43_transfer.md R162).
-/
namespace Sys2Proof.Machine

/-- The low nibble of a byte is the byte without its upper four bits. -/
theorem nibble_masked (d : Byte) : (d &&& 0x0F#8).extractLsb' 0 4 = d.extractLsb' 0 4 := by
  rw [BitVec.extractLsb'_and]
  exact BitVec.and_allOnes

theorem nibble_eq_iff (d : Byte) (n : BitVec 4) : d.extractLsb' 0 4 = n ↔ d.toNat % 16 = n.toNat := by
  rw [← BitVec.toNat_inj, BitVec.extractLsb'_toNat]
  rfl

/-- The default classification, with the accepting nibble tested first. -/
theorem dataResponse_default (d : Byte) : dataResponse Config.default d =
    if d.extractLsb' 0 4 = 0x5 then .ok else if d.extractLsb' 0 4 = 0xB then .dataCrcError
    else if d.extractLsb' 0 4 = 0xD then .writeFault else .badResponse := by
  unfold dataResponse
  generalize d.extractLsb' 0 4 = nibble
  revert nibble
  decide

/-- Settles O35: the code is a function of the low nibble, which is the byte modulo 16. -/
theorem dataResponseNibble : Obligations.DataResponseNibble := by
  unfold Obligations.DataResponseNibble
  refine ⟨fun c d => ?_, fun d => ?_⟩
  · rw [dataResponse, dataResponse, nibble_masked]
  · simp only [dataResponse_default, nibble_eq_iff]
    rfl

end Sys2Proof.Machine
end

