-- ==== Sys2Proof/Proofs/CrcRegister.lean ====
section
/-!
SUPPORT. The two checksum registers as one feedback register of any width (spec/40_crc.md R90, R91, R101): what a run of
bits leaves in it, over the bit step's equation alone.
-/
namespace Sys2Proof.Machine

/-- `step` is the bit step of a feedback register of width `n + 1` with polynomial `p`: bit `i` of the new register is
bit `i - 1` of the old one, and where the polynomial has a term, the feedback bit is added to it (R91, R101). -/
structure IsBitStep {n : Nat} (p : BitVec (n + 1)) (step : BitVec (n + 1) → Bool → BitVec (n + 1)) : Prop where
  getLsbD : ∀ c d i, (step c d).getLsbD i =
    (decide (i < n + 1) && ((decide (0 < i) && c.getLsbD (i - 1)) ^^ ((c.getLsbD n ^^ d) && p.getLsbD i)))

theorem crc7Bit_isBitStep (p : BitVec 7) : IsBitStep p (crc7Bit p) := ⟨crc7Bit_getLsbD p⟩

theorem crc16Bit_isBitStep (p : BitVec 16) : IsBitStep p (crc16Bit p) := ⟨crc16Bit_getLsbD p⟩

/-! ## A message is the bits of its bytes (R92, R93, R101, R102) -/

theorem crc7Of_eq_bits (p init : BitVec 7) (m : List Byte) :
    crc7Of p init m = (m.flatMap bitsMsbFirst).foldl (crc7Bit p) init := List.foldl_flatMap.symm

theorem crc16Of_eq_bits (p init : BitVec 16) (m : List Byte) :
    crc16Of p init m = (m.flatMap bitsMsbFirst).foldl (crc16Bit p) init := List.foldl_flatMap.symm

/-- The bits of a byte are the values of its bit positions from 7 down to 0. -/
theorem bitsMsbFirst_eq_map (b : Byte) : bitsMsbFirst b = (List.range 8).reverse.map b.getLsbD := rfl

theorem bitsMsbFirst_injective : Function.Injective bitsMsbFirst := by
  intro b b' h
  rw [bitsMsbFirst_eq_map, bitsMsbFirst_eq_map, List.map_inj_left] at h
  exact BitVec.eq_of_getLsbD_eq fun i hi => h i (by simpa using hi)

/-- Data that leaves a register as it is may be repeated. -/
theorem foldl_replicate_of_fixed {α β : Type} {f : α → β → α} {a : α} {b : β} (h : f a b = a) (k : Nat) :
    (List.replicate k b).foldl f a = a := by
  induction k with
  | zero => rfl
  | succ k ih => rw [List.replicate_succ, List.foldl_cons, h, ih]

namespace IsBitStep

variable {n : Nat} {p : BitVec (n + 1)} {step : BitVec (n + 1) → Bool → BitVec (n + 1)}

/-! ## One step -/

theorem zero (h : IsBitStep p step) : step 0 false = 0 := by
  apply BitVec.eq_of_getLsbD_eq
  intro i hi
  simp [h.getLsbD]

/-- A data bit equal to the highest bit of the register feeds nothing back: the register shifts. -/
theorem of_no_feedback (h : IsBitStep p step) (c : BitVec (n + 1)) : step c (c.getLsbD n) = c <<< 1 := by
  apply BitVec.eq_of_getLsbD_eq
  intro i hi
  rw [h.getLsbD, Bool.xor_self, Bool.false_and, Bool.xor_false, BitVec.getLsbD_shiftLeft]
  cases i <;> simp

/-- With a constant term the lowest bit of the new register is the feedback bit. -/
theorem feedback (h : IsBitStep p step) (hp : p.getLsbD 0 = true) (c : BitVec (n + 1)) (d : Bool) :
    (step c d).getLsbD 0 = (c.getLsbD n ^^ d) := by
  rw [h.getLsbD, hp, Bool.and_true, decide_eq_true n.succ_pos]
  exact Bool.false_xor _

/-! ## Runs that end alike began alike

With a constant term a step can be undone: its feedback bit is the lowest bit it leaves, and the bits above that are the
old register's but for the polynomial. -/

/-- Registers that agree in their lowest `k + 1` bits after a step agreed in their lowest `k` bits before it. -/
theorem agree_of_step (h : IsBitStep p step) (hp : p.getLsbD 0 = true) {c c' : BitVec (n + 1)} {d d' : Bool} {k : Nat}
    (hk : k ≤ n) (hagree : ∀ i ≤ k, (step c d).getLsbD i = (step c' d').getLsbD i) :
    ∀ i < k, c.getLsbD i = c'.getLsbD i := by
  intro i hi
  have hfeedback := hagree 0 (Nat.zero_le k)
  rw [h.feedback hp, h.feedback hp] at hfeedback
  have hbit := hagree (i + 1) hi
  rw [h.getLsbD, h.getLsbD, hfeedback] at hbit
  simpa [show i < n by omega] using hbit

/-- Registers that agree in their lowest `k` bits after equally many steps agreed in as many bits fewer before them. -/
theorem agree_of_run (h : IsBitStep p step) (hp : p.getLsbD 0 = true) {l l' : List Bool} {c c' : BitVec (n + 1)}
    {k : Nat} (hlen : l.length = l'.length) (hk : k + l.length ≤ n + 1)
    (hagree : ∀ i < k + l.length, (l.foldl step c).getLsbD i = (l'.foldl step c').getLsbD i) :
    ∀ i < k, c.getLsbD i = c'.getLsbD i := by
  induction l generalizing l' c c' k with
  | nil =>
    obtain rfl := List.eq_nil_of_length_eq_zero hlen.symm
    exact hagree
  | cons d l ih =>
    obtain _ | ⟨d', l'⟩ := l'
    · cases hlen
    rw [List.length_cons] at hk hagree
    have hstep := ih (k := k + 1) (Nat.succ.inj hlen) (by omega) fun i hi => hagree i (by omega)
    exact h.agree_of_step hp (by omega) fun i hi => hstep i (by omega)

/-- A run no longer than the register is wide can be told from the register it leaves. -/
theorem run_injective (h : IsBitStep p step) (hp : p.getLsbD 0 = true) {l l' : List Bool} {c : BitVec (n + 1)}
    (hlen : l.length = l'.length) (hwide : l.length ≤ n + 1) (heq : l.foldl step c = l'.foldl step c) : l = l' := by
  induction l generalizing l' c with
  | nil => exact (List.eq_nil_of_length_eq_zero hlen.symm).symm
  | cons d l ih =>
    obtain _ | ⟨d', l'⟩ := l'
    · cases hlen
    rw [List.length_cons] at hwide
    have hbit := h.agree_of_run hp (k := 1) (Nat.succ.inj hlen) (by omega)
      (fun i _ => congrArg (·.getLsbD i) heq) 0 Nat.one_pos
    rw [h.feedback hp, h.feedback hp, Bool.xor_right_inj] at hbit
    subst hbit
    rw [ih (Nat.succ.inj hlen) (by omega) heq]

/-- A step with the same data bit keeps different registers different. -/
theorem step_injective (h : IsBitStep p step) (hp : p.getLsbD 0 = true) {c c' : BitVec (n + 1)} {d : Bool}
    (heq : step c d = step c' d) : c = c' := by
  have hbit (i : Nat) : (step c d).getLsbD i = (step c' d).getLsbD i := by rw [heq]
  have hlow := h.agree_of_step hp (Nat.le_refl n) fun i _ => hbit i
  have hhigh := hbit 0
  rw [h.feedback hp, h.feedback hp, Bool.xor_left_inj] at hhigh
  apply BitVec.eq_of_getLsbD_eq
  intro i hi
  obtain hi | rfl := Nat.lt_succ_iff_lt_or_eq.1 hi
  · exact hlow i hi
  · exact hhigh

/-- The same data keeps different registers different. -/
theorem foldl_injective (h : IsBitStep p step) (hp : p.getLsbD 0 = true) (l : List Bool) {c c' : BitVec (n + 1)}
    (heq : l.foldl step c = l.foldl step c') : c = c' := by
  induction l generalizing c c' with
  | nil => exact heq
  | cons d l ih => exact h.step_injective hp (ih heq)

/-- From a zero register a single 1 leaves a register that is not 0, however many zero bits follow. -/
theorem foldl_single_ne_zero (h : IsBitStep p step) (hp : p.getLsbD 0 = true) (j k : Nat) :
    (List.replicate j false ++ true :: List.replicate k false).foldl step 0 ≠ 0 := by
  intro heq
  rw [List.foldl_append, foldl_replicate_of_fixed h.zero, List.foldl_cons] at heq
  have hfirst : step 0 true = 0 := h.foldl_injective hp _ (heq.trans (foldl_replicate_of_fixed h.zero k).symm)
  have hbit := h.feedback hp 0 true
  rw [hfirst] at hbit
  simp at hbit

/-! ## A register fed its own bits -/

/-- Feeding the lowest `k` bits of `c`, highest first, to the register that has shifted the others out empties it. -/
theorem foldl_own_bits (h : IsBitStep p step) (c : BitVec (n + 1)) {k : Nat} (hk : k ≤ n + 1) :
    ((List.range k).reverse.map c.getLsbD).foldl step (c <<< (n + 1 - k)) = 0 := by
  induction k with
  | zero => exact BitVec.shiftLeft_eq_zero (Nat.le_refl _)
  | succ k ih =>
    have hhighest : c.getLsbD k = (c <<< (n + 1 - (k + 1))).getLsbD n := by
      rw [BitVec.getLsbD_shiftLeft, show n - (n + 1 - (k + 1)) = k by omega]
      simp
    rw [List.range_succ, List.reverse_append, List.reverse_singleton, List.singleton_append, List.map_cons,
      List.foldl_cons, hhighest, h.of_no_feedback, ← BitVec.shiftLeft_add,
      show n + 1 - (k + 1) + 1 = n + 1 - k by omega]
    exact ih (by omega)

theorem residue (h : IsBitStep p step) (c : BitVec (n + 1)) :
    ((List.range (n + 1)).reverse.map c.getLsbD).foldl step c = 0 := by
  simpa using h.foldl_own_bits c (Nat.le_refl _)

end IsBitStep

end Sys2Proof.Machine
end

