-- ==== Sys2Proof/Proofs/CrcArithmetic.lean ====
section
/-!
PROOF. The arithmetic of the two checksum generators (spec/40_crc.md R90 to R93, R100 to R102, R106): remainder, bit
step, linearity, residue and error detection, each shown once for a register of any width.
-/
namespace Sys2Proof.Machine

/-! ## The remainder -/

section
open Polynomial

/-- The bits of a register as the coefficients of a polynomial over GF(2), bit 0 the constant term (R90). -/
noncomputable def registerPoly {w : Nat} (c : BitVec w) : (ZMod 2)[X] :=
  ∑ i ∈ Finset.range w, if c.getLsbD i then X ^ i else 0

/-- A bit sequence as a polynomial over GF(2), the first bit the highest power (R90). -/
noncomputable def messagePoly (bits : List Bool) : (ZMod 2)[X] :=
  bits.foldl (fun m d => m * X + if d then 1 else 0) 0

/-- Over GF(2) the exclusive-or of two coefficients is their sum. -/
theorem ite_xor_eq_add (a b : Bool) (x : (ZMod 2)[X]) :
    (if a ^^ b then x else 0) = (if a then x else 0) + if b then x else 0 := by
  cases a <;> cases b <;> simp [CharTwo.add_self_eq_zero]

theorem ite_eq_mul (a : Bool) (x : (ZMod 2)[X]) : (if a then x else 0) = (if a then 1 else 0) * x := by
  rw [ite_mul, one_mul, zero_mul]

/-- The polynomial of a shifted register, as far as it still fits: the register times `x` without its highest term. -/
theorem shiftedPoly {n : Nat} (c : BitVec (n + 1)) :
    (∑ i ∈ Finset.range (n + 1), if decide (0 < i) && c.getLsbD (i - 1) then (X : (ZMod 2)[X]) ^ i else 0) +
      (if c.getLsbD n then X ^ (n + 1) else 0) = registerPoly c * X := by
  rw [Finset.sum_range_succ', registerPoly, Finset.sum_range_succ, add_mul, Finset.sum_mul]
  simp [ite_mul, pow_succ]

/-- One bit step is multiplication by `x`, the data bit added at the register's width, modulo the generator. -/
theorem IsBitStep.poly {n : Nat} {p : BitVec (n + 1)} {step : BitVec (n + 1) → Bool → BitVec (n + 1)}
    (h : IsBitStep p step) (c : BitVec (n + 1)) (d : Bool) :
    registerPoly c * X + (if d then X ^ (n + 1) else 0) =
      (if c.getLsbD n ^^ d then 1 else 0) * (X ^ (n + 1) + registerPoly p) + registerPoly (step c d) := by
  have hstep : registerPoly (step c d) =
      (∑ i ∈ Finset.range (n + 1), if decide (0 < i) && c.getLsbD (i - 1) then (X : (ZMod 2)[X]) ^ i else 0) +
        (if c.getLsbD n ^^ d then 1 else 0) * registerPoly p := by
    rw [registerPoly, registerPoly, Finset.mul_sum, ← Finset.sum_add_distrib]
    refine Finset.sum_congr rfl fun i hi => ?_
    rw [h.getLsbD, decide_eq_true (Finset.mem_range.1 hi), Bool.true_and, ite_xor_eq_add]
    cases c.getLsbD n ^^ d <;> simp
  rw [hstep, ← shiftedPoly, ite_eq_mul _ (X ^ (n + 1)), ite_eq_mul _ (X ^ (n + 1)), ite_xor_eq_add]
  linear_combination -((if c.getLsbD n then 1 else 0) + if d then 1 else 0) * registerPoly p *
    (CharTwo.two_eq_zero : (2 : (ZMod 2)[X]) = 0)

/-- A register fed from 0 is the remainder of the message times `x` to the register's width (R90, R100). -/
theorem IsBitStep.remainder {n : Nat} {p : BitVec (n + 1)} {step : BitVec (n + 1) → Bool → BitVec (n + 1)}
    (h : IsBitStep p step) (bits : List Bool) : ∃ q : (ZMod 2)[X],
      messagePoly bits * X ^ (n + 1) = q * (X ^ (n + 1) + registerPoly p) + registerPoly (bits.foldl step 0) := by
  induction bits using List.reverseRecOn with
  | nil => exact ⟨0, by simp [messagePoly, registerPoly]⟩
  | append_singleton bits d ih =>
    obtain ⟨q, hq⟩ := ih
    refine ⟨q * X + (if (bits.foldl step 0).getLsbD n ^^ d then 1 else 0), ?_⟩
    calc messagePoly (bits ++ [d]) * X ^ (n + 1)
      _ = messagePoly bits * X ^ (n + 1) * X + if d then X ^ (n + 1) else 0 := by
        rw [messagePoly, List.foldl_concat, add_mul, ← ite_eq_mul, mul_right_comm]
        rfl
      _ = q * X * (X ^ (n + 1) + registerPoly p) +
          (registerPoly (bits.foldl step 0) * X + if d then X ^ (n + 1) else 0) := by rw [hq]; ring
      _ = _ := by rw [h.poly, List.foldl_concat]; ring

end

/-- Settles O12: the remainder for the widths 7 and 16, and the byte functions bit by bit. -/
theorem crcRegistersAreRemainders : Obligations.CrcRegistersAreRemainders := by
  unfold Obligations.CrcRegistersAreRemainders
  exact ⟨fun p bits => (crc7Bit_isBitStep p).remainder bits, fun p bits => (crc16Bit_isBitStep p).remainder bits,
    crc7Of_eq_bits, crc16Of_eq_bits⟩

/-! ## The bit step as numbers -/

/-- Shift left by one inside the width, then the polynomial if the highest bit differs from the data bit (R91, R101). -/
theorem toNat_shift_feedback {n : Nat} (p c : BitVec (n + 1)) (d : Bool) :
    (if c.getLsbD n ^^ d then c <<< 1 ^^^ p else c <<< 1).toNat =
      if (c.toNat / 2 ^ n % 2 == 1) != d then (c.toNat * 2 % 2 ^ (n + 1)) ^^^ p.toNat
      else c.toNat * 2 % 2 ^ (n + 1) := by
  have hhighest : c.getLsbD n = (c.toNat / 2 ^ n % 2 == 1) := by
    rw [← BitVec.testBit_toNat, Nat.testBit_eq_decide_div_mod_eq]
    rfl
  rw [hhighest, apply_ite BitVec.toNat, BitVec.toNat_xor, BitVec.toNat_shiftLeft, Nat.shiftLeft_eq]

/-- Settles O13: the step's two branches as numbers, and its bits for the default polynomial's terms 1 and `x^3`. -/
theorem crcBitSteps : Obligations.CrcBitSteps := by
  unfold Obligations.CrcBitSteps
  refine ⟨toNat_shift_feedback, toNat_shift_feedback, fun q d => ?_⟩
  have hpoly : Config.default.crc7Poly = 0x09#7 := rfl
  simp only [crc7Bit_getLsbD, hpoly]
  simp

/-! ## Linearity -/

/-- Two runs of a linear step add up to the run of the sums (R106 (a)). -/
theorem foldl_zipWith_xor {w : Nat} {step : BitVec w → Bool → BitVec w}
    (hxor : ∀ c c' d d', step (c ^^^ c') (d ^^ d') = step c d ^^^ step c' d') {l l' : List Bool} (c c' : BitVec w)
    (hlen : l.length = l'.length) :
    (List.zipWith (fun d d' => d ^^ d') l l').foldl step (c ^^^ c') = l.foldl step c ^^^ l'.foldl step c' := by
  induction l generalizing l' c c' with
  | nil =>
    obtain rfl := List.eq_nil_of_length_eq_zero hlen.symm
    rfl
  | cons d l ih =>
    obtain _ | ⟨d', l'⟩ := l'
    · cases hlen
    rw [List.zipWith_cons_cons, List.foldl_cons, hxor]
    exact ih _ _ (Nat.succ.inj hlen)

theorem crc7Byte_xor (p c c' : BitVec 7) (b b' : Byte) :
    crc7Byte p (c ^^^ c') (b ^^^ b') = crc7Byte p c b ^^^ crc7Byte p c' b' := by
  rw [crc7Byte_eq, bitsMsbFirst_xor]
  exact foldl_zipWith_xor (crc7Bit_xor p) c c' rfl

theorem crc16Byte_xor (p c c' : BitVec 16) (b b' : Byte) :
    crc16Byte p (c ^^^ c') (b ^^^ b') = crc16Byte p c b ^^^ crc16Byte p c' b' := by
  rw [crc16Byte_eq, bitsMsbFirst_xor]
  exact foldl_zipWith_xor (crc16Bit_xor p) c c' rfl

theorem crc7Byte_zero (p : BitVec 7) : crc7Byte p 0 0 = 0 := foldl_replicate_of_fixed (crc7Bit_zero p) 8

theorem crc16Byte_zero (p : BitVec 16) : crc16Byte p 0 0 = 0 := foldl_replicate_of_fixed (crc16Bit_zero p) 8

/-- Settles O14: a byte step is eight linear steps, and zero bytes leave a zero register. -/
theorem crcStepsAreLinear : Obligations.CrcStepsAreLinear := by
  unfold Obligations.CrcStepsAreLinear
  refine ⟨crc7Byte_xor, crc16Byte_xor, fun p n m => ?_, fun p n m => ?_⟩
  · rw [crc7Of_append, show crc7Of p 0 (List.replicate n 0) = 0 from foldl_replicate_of_fixed (crc7Byte_zero p) n]
  · rw [crc16Of_append, show crc16Of p 0 (List.replicate n 0) = 0 from foldl_replicate_of_fixed (crc16Byte_zero p) n]

/-! ## Residue -/

/-- Settles O15: whatever the register holds, its own bits shift it out. -/
theorem crcResidueIsZero : Obligations.CrcResidueIsZero := by
  unfold Obligations.CrcResidueIsZero
  exact ⟨fun p m => (crc7Bit_isBitStep p).residue (crc7Of p 0 m),
    fun p m => (crc16Bit_isBitStep p).residue (crc16Of p 0 m)⟩

/-! ## Error detection -/

/-- With a constant term a different byte leaves a different CRC-16 register: eight bits are no more than sixteen. -/
theorem crc16Byte_injective {p : BitVec 16} (hp : p.getLsbD 0 = true) (c : BitVec 16) :
    Function.Injective (crc16Byte p c) := fun _ _ heq =>
  bitsMsbFirst_injective ((crc16Bit_isBitStep p).run_injective hp rfl (show 8 ≤ 16 by decide) heq)

/-- The bits of a byte with a single bit set. -/
theorem bitsMsbFirst_single {i : Nat} (hi : i < 8) : bitsMsbFirst (BitVec.ofNat 8 (2 ^ i)) =
    List.replicate (7 - i) false ++ true :: List.replicate i false := by
  revert i
  decide

/-- A corrupted byte changes the register by what the difference of the bytes leaves in a zero register. -/
theorem crc7Byte_xor_data (p c : BitVec 7) (b e : Byte) :
    crc7Byte p c (b ^^^ e) = crc7Byte p c b ^^^ crc7Byte p 0 e := by
  simpa using crc7Byte_xor p c 0 b e

/-- With a constant term an inverted bit leaves a different CRC-7 register: the difference of the two registers is that of
the single bit fed from 0, which is 0 before that bit and never after it. -/
theorem crc7Byte_flip_ne {p : BitVec 7} (hp : p.getLsbD 0 = true) (c : BitVec 7) (b : Byte) {i : Nat} (hi : i < 8) :
    crc7Byte p c b ≠ crc7Byte p c (b ^^^ BitVec.ofNat 8 (2 ^ i)) := by
  intro heq
  rw [crc7Byte_xor_data, eq_comm, xor_left_eq_self_iff, crc7Byte_eq, bitsMsbFirst_single hi] at heq
  exact (crc7Bit_isBitStep p).foldl_single_ne_zero hp _ _ heq

/-- The bytes after a difference keep it. -/
theorem crc7Of_injective {p : BitVec 7} (hp : p.getLsbD 0 = true) (m : List Byte) :
    Function.Injective fun c => crc7Of p c m := fun c c' heq => by
  simp only [crc7Of_eq_bits] at heq
  exact (crc7Bit_isBitStep p).foldl_injective hp _ heq

theorem crc16Of_injective {p : BitVec 16} (hp : p.getLsbD 0 = true) (m : List Byte) :
    Function.Injective fun c => crc16Of p c m := fun c c' heq => by
  simp only [crc16Of_eq_bits] at heq
  exact (crc16Bit_isBitStep p).foldl_injective hp _ heq

/-- Settles O16: the corrupted byte leaves a different register, and the bytes after it keep the difference. -/
theorem crcDetectsCorruption : Obligations.CrcDetectsCorruption := by
  unfold Obligations.CrcDetectsCorruption
  refine ⟨fun p init before after b b' hp hne heq => ?_, fun p init before after b i hp hi heq => ?_, rfl, rfl⟩
  · rw [crc16Of_append, crc16Of_append] at heq
    exact hne (crc16Byte_injective hp _ (crc16Of_injective hp after heq))
  · rw [crc7Of_append, crc7Of_append] at heq
    exact crc7Byte_flip_ne hp _ b hi (crc7Of_injective hp after heq)

end Sys2Proof.Machine
end

