-- ==== Sys2Proof/Proofs/CrcOperations.lean ====
section
/-!
PROOF. The checksum operations and `FRAME_BUILD` (spec/40_crc.md R94 to R99, R103 to R105): encoding, effect and frame.
-/
namespace Sys2Proof.Machine

/-! ## Fields of the returned values -/

/-- A value extended with zeros is 0 above its own width. -/
theorem extractLsb'_setWidth_above {w v : Nat} (x : BitVec w) (len : Nat) :
    (x.setWidth v).extractLsb' w len = 0 := by
  apply BitVec.eq_of_getLsbD_eq
  intro i hi
  simp

/-- A field of a field is a field of the word. -/
theorem extractLsb'_extractLsb' {w : Nat} (x : BitVec w) {start len start' len' : Nat} (h : start' + len' ≤ len) :
    (x.extractLsb' start len).extractLsb' start' len' = x.extractLsb' (start + start') len' := by
  apply BitVec.eq_of_getLsbD_eq
  intro i hi
  simp only [BitVec.getLsbD_extractLsb', Nat.add_assoc]
  simp [show start' + i < len by omega]

/-! ## CRC-7 -/

/-- The fields of the value `CRC7_READ` returns (R97). -/
theorem checksumVal_fields (crc : BitVec 7) : ((checksumByte crc).setWidth 48).extractLsb' 1 7 = crc ∧
    ((checksumByte crc).setWidth 48).getLsbD 0 = true ∧ ((checksumByte crc).setWidth 48).extractLsb' 8 40 = 0 := by
  refine ⟨?_, ?_, extractLsb'_setWidth_above _ 40⟩
  · rw [BitVec.extractLsb'_setWidth_of_le (by decide)]
    exact BitVec.extractLsb'_append_eq_left
  · rw [BitVec.getLsbD_setWidth, checksumByte, BitVec.getLsbD_append]
    rfl

/-- Further `CRC7_BIT` requests after one that has completed continue from the register it left (R95, R96). -/
theorem foldl_crc7Bit_completed {run : Host.Outcome State Fault Refusal → Bool → Host.Outcome State Fault Refusal}
    (hrun : ∀ t d, run (.next t) d = exec (.crc7Bit d) t) (bits : List Bool) (c : BitVec 7) (s : State) :
    bits.foldl run (.next (complete .ok (setCrc7 c s))) =
      .next (complete .ok (setCrc7 (bits.foldl (crc7Bit s.cfg.crc7Poly) c) s)) := by
  induction bits generalizing c with
  | nil => rfl
  | cons d bits ih => exact (congrArg (bits.foldl run) (hrun _ d)).trans (ih _)

/-- `CRC7_BIT` requests, at least one, leave what the bit steps leave (R96). -/
theorem foldl_crc7Bit {run : Host.Outcome State Fault Refusal → Bool → Host.Outcome State Fault Refusal}
    (hrun : ∀ t d, run (.next t) d = exec (.crc7Bit d) t) (d : Bool) (bits : List Bool) (s : State) :
    (d :: bits).foldl run (.next s) =
      .next (complete .ok (setCrc7 ((d :: bits).foldl (crc7Bit s.cfg.crc7Poly) s.crc7) s)) :=
  (congrArg (bits.foldl run) (hrun s d)).trans (foldl_crc7Bit_completed hrun bits _ s)

/-- Settles O17: the operations are their arms; eight `CRC7_BIT` run the bit steps of a byte step. -/
theorem crc7OperationsComplete : Obligations.Crc7OperationsComplete := by
  unfold Obligations.Crc7OperationsComplete
  exact ⟨fun _ => rfl, fun _ _ => rfl, fun _ _ => rfl, fun s => ⟨_, rfl, checksumVal_fields s.crc7⟩, crc7Byte_zero,
    by decide, by decide, by decide, by decide +kernel, by decide, by decide,
    fun c a b => ⟨decodeReq_reqWord .., decodeReq_reqWord .., decodeReq_reqWord .., decodeReq_reqWord ..⟩,
    fun b s => foldl_crc7Bit (fun _ _ => rfl) _ _ s⟩

/-! ## CRC-16 -/

/-- The fields of the value `CRC16_READ` returns (R105). -/
theorem crc16Val_fields (crc : BitVec 16) :
    (crc.setWidth 48).extractLsb' 0 16 = crc ∧ (crc.setWidth 48).extractLsb' 16 32 = 0 :=
  ⟨(BitVec.extractLsb'_setWidth_of_le (by decide)).trans BitVec.extractLsb'_eq_self, extractLsb'_setWidth_above crc 32⟩

/-- Settles O18: the operations are their arms. -/
theorem crc16OperationsComplete : Obligations.Crc16OperationsComplete := by
  unfold Obligations.Crc16OperationsComplete
  exact ⟨fun _ => rfl, fun _ _ => rfl, fun s => ⟨_, rfl, crc16Val_fields s.crc16⟩,
    fun c a b => ⟨decodeReq_reqWord .., decodeReq_reqWord .., decodeReq_reqWord ..⟩, rfl, by decide, by decide +kernel⟩

/-! ## Building a frame -/

/-- The first five wire bytes of a frame are those its checksum is computed from (R60, R99). -/
theorem frameHead_frameWord (index : BitVec 6) (arg : Word) (crc : BitVec 7) :
    frameHead index arg = [(frameWord index arg crc).extractLsb' 40 8, (frameWord index arg crc).extractLsb' 32 8,
      (frameWord index arg crc).extractLsb' 24 8, (frameWord index arg crc).extractLsb' 16 8,
      (frameWord index arg crc).extractLsb' 8 8] := by
  obtain ⟨hstart, -, hindex, harg, -⟩ := frameWord_fields index arg crc
  generalize frameWord index arg crc = f at hstart hindex harg
  have hhead : (0b01#2 ++ index : BitVec (2 + 6)) = f.extractLsb' 40 8 := by
    rw [← hstart, ← hindex]
    exact BitVec.extractLsb'_append_extractLsb'_eq_extractLsb' rfl
  rw [frameHead, hhead, ← harg]
  iterate 4 rw [extractLsb'_extractLsb' f (by decide)]

/-- `SEND_COMMAND` leaves the frame and the register of `BuildFrame` (R99, R112), whether it is answered or not. -/
theorem exec_sendCommand_frame (index : BitVec 6) (arg : Word) (ext keep : Bool) (s : State) :
    ∃ t, exec (.sendCommand index arg ext keep) s = .next t ∧ t.frame = builtFrame s.cfg index arg ∧
      t.crc7 = crc7Of s.cfg.crc7Poly s.cfg.crc7Init (frameHead index arg) := by
  obtain ⟨polls, status, e, -, -, -, hcommand, -⟩ := sendCommand_cases index arg ext (!keep) s
  exact ⟨_, rfl, by rw [hcommand]; rfl, by rw [hcommand]; rfl⟩

/-- Settles O19: the frame is `BuildFrame`'s, whose fields are those of `frameWord`. -/
theorem frameBuildCompletes : Obligations.FrameBuildCompletes := by
  unfold Obligations.FrameBuildCompletes
  refine ⟨fun index arg s => ?_, fun c a b => decodeReq_reqWord .., by decide +kernel, by decide +kernel⟩
  obtain ⟨hstart, hend, hindex, harg, hcrc⟩ :=
    frameWord_fields index arg (crc7Of s.cfg.crc7Poly s.cfg.crc7Init (frameHead index arg))
  refine ⟨_, builtFrame s.cfg index arg, rfl, hstart, hindex, harg, hcrc, hend, ?_, fun ext keep =>
    exec_sendCommand_frame index arg ext keep s⟩
  exact congrArg (crc7Of s.cfg.crc7Poly s.cfg.crc7Init) (frameHead_frameWord index arg _)

end Sys2Proof.Machine
end

