-- ==== Sys2Proof/Proofs/CommandExchange.lean ====
section
/-!
PROOF. `SEND_COMMAND`, one command exchange offered to the host (spec/41_command.md R112 to R120, R124): the
classification of a status byte, the state an exchange leaves, its shape on the bus, and what it delivers against a script of answers.
-/
namespace Sys2Proof.Machine

/-! ## The classification of a status byte -/

theorem classify_of_illegalCommand {r : Byte} (hillegal : r.getLsbD 2 = true) : classify r = .illegalCommand :=
  if_pos hillegal

/-- Without an illegal command, a checksum error comes next. -/
theorem classify_of_crcError {r : Byte} (hillegal : r.getLsbD 2 = false) (hcrc : r.getLsbD 3 = true) :
    classify r = .crcError :=
  (if_neg (ne_true_of_eq_false hillegal)).trans (if_pos hcrc)

/-- Without the two failures before it, the last of the three tests decides. -/
theorem classify_of_neither {r : Byte} (hillegal : r.getLsbD 2 = false) (hcrc : r.getLsbD 3 = false) :
    classify r = if r.getLsbD 5 then .addressError else .ok :=
  (if_neg (ne_true_of_eq_false hillegal)).trans (if_neg (ne_true_of_eq_false hcrc))

theorem classify_eq_ok_iff (r : Byte) :
    classify r = .ok ↔ r.getLsbD 2 = false ∧ r.getLsbD 3 = false ∧ r.getLsbD 5 = false := by
  cases hillegal : r.getLsbD 2 with
  | true => simp [classify_of_illegalCommand hillegal]
  | false =>
    cases hcrc : r.getLsbD 3 with
    | true => simp [classify_of_crcError hillegal hcrc]
    | false => simp [classify_of_neither hillegal hcrc]

/-- Only the three failure bits are read. -/
theorem classify_masked (r : Byte) : classify (r &&& 0x2C#8) = classify r := by
  have hkept : ∀ i, (0x2C#8).getLsbD i = true → (r &&& 0x2C#8).getLsbD i = r.getLsbD i := fun i hi => by
    rw [BitVec.getLsbD_and, hi, Bool.and_true]
  rw [classify, r1IllegalCommand, r1CrcError, r1AddressError, hkept 2 rfl, hkept 3 rfl, hkept 5 rfl]
  rfl

/-- Settles O22: the tests of `Classify` in their order, none of them on another bit. -/
theorem classifyPriority : Obligations.ClassifyPriority := by
  unfold Obligations.ClassifyPriority
  refine fun r => ⟨classify_of_illegalCommand, classify_of_crcError, fun hillegal hcrc haddress => ?_,
    classify_eq_ok_iff r, (classify_masked r).symm⟩
  rw [classify_of_neither hillegal hcrc, if_pos haddress]

/-! ## What is sent -/

/-- Before the response poll one byte is sent for each answer that is discarded (R120). -/
theorem countP_commandHead (c : Config) (index : BitVec 6) (arg : Word) (resel settle : Bool) :
    (commandHead c index arg resel settle).countP BusOut.isByte = leadLen c index (resel || settle) := by
  have hselect : (if resel then [BusOut.sel false, .sel true] else []).countP BusOut.isByte = 0 := by
    cases resel <;> rfl
  simp only [commandHead, leadLen, List.countP_append, hselect, countP_frameOut, apply_ite (List.countP BusOut.isByte),
    countP_idleOut, List.countP_nil, Nat.zero_add]

theorem leadLen_le (c : Config) (index : BitVec 6) (settle : Bool) :
    leadLen c index settle ≤ 8 + 6 + c.nStuffStopCmd := by
  unfold leadLen Config.nSettle
  split_ifs <;> omega

/-- The bound on the exchanges of one command (R120), `extension` saying whether the extension bytes are read. -/
theorem countP_command_le (c : Config) (index : BitVec 6) (arg : Word) (resel settle extension : Bool) {polls : Nat}
    (hpolls : polls ≤ c.nRespPoll) :
    (commandHead c index arg resel settle ++ idleOut polls ++ if extension then idleOut 4 else []).countP
      BusOut.isByte ≤ 8 + 6 + c.nStuffStopCmd + c.nRespPoll + 4 := by
  have hextension : (if extension then idleOut 4 else []).countP BusOut.isByte ≤ 4 := by cases extension <;> decide
  have hlead := leadLen_le c index (resel || settle)
  rw [List.countP_append, List.countP_append, countP_commandHead, countP_idleOut]
  omega

/-! ## `SEND_COMMAND` -/

/-- `SEND_COMMAND` after an exchange with a known reply and end state. -/
theorem exec_sendCommand_of_reply {index : BitVec 6} {arg : Word} {ext keep : Bool} {s t : State} {reply : Reply}
    (h : sendCommand index arg ext (!keep) s = (reply, t)) :
    exec (.sendCommand index arg ext keep) s = .next (complete reply.code t) :=
  congrArg (fun p : Reply × State => Host.Outcome.next (complete p.1.code p.2)) h

/-- Everything `SEND_COMMAND` can do: `Complete` after an exchange (R118, `sendCommand_cases`). -/
theorem exec_sendCommand_cases (index : BitVec 6) (arg : Word) (ext keep : Bool) (s : State) :
    ∃ (polls : Nat) (status : Byte) (e : Word) (port : Port), polls ≤ s.cfg.nRespPoll ∧
      ((ext && isResponse status) = false → e = 0) ∧ (if isResponse status then 0 < polls else polls = s.cfg.nRespPoll) ∧
      exec (.sendCommand index arg ext keep) s = .next
        (complete (if isResponse status then classify status else .noResponse)
          (afterCommand index arg (!keep) (isResponse status) polls (status ++ e : BitVec (8 + 32)) port s)) ∧
      Port.Sent (commandHead s.cfg index arg (!keep) s.settle ++ idleOut polls ++
        (if ext && isResponse status then idleOut 4 else [])) s.port port := by
  obtain ⟨polls, status, e, hle, he, hpolls, hcommand, hsent⟩ := sendCommand_cases index arg ext (!keep) s
  exact ⟨polls, status, e, _, hle, he, hpolls, exec_sendCommand_of_reply hcommand, hsent⟩

/-- Settles O23: the state is the one an exchange leaves, and its outcome is that of `commandOutcome_of`. -/
theorem sendCommandCompletes : Obligations.SendCommandCompletes := by
  unfold Obligations.SendCommandCompletes
  intro index arg ext keep s
  obtain ⟨polls, status, e, port, -, he, -, hexec, -⟩ := exec_sendCommand_cases index arg ext keep s
  exact ⟨_, hexec, rfl, commandOutcome_of he rfl rfl rfl⟩

/-- Settles O24: the result is `NoResponse` exactly if no polled byte was a response, and each exchange sends a byte. -/
theorem sendCommandBusShape : Obligations.SendCommandBusShape := by
  unfold Obligations.SendCommandBusShape
  intro index arg ext keep s
  obtain ⟨polls, status, e, port, hle, -, hpolls, hexec, evs, hhist, hout⟩ :=
    exec_sendCommand_cases index arg ext keep s
  refine ⟨_, polls, evs, hexec, hhist, ?_, hle, ?_, ?_, ?_⟩
  · simpa only [complete_result, ne_eq, code_noResponse, Bool.not_eq_false, Bool.and_eq_true] using hout
  · intro hresult
    rw [complete_result, ne_eq, code_noResponse, Bool.not_eq_false] at hresult
    rwa [if_pos hresult] at hpolls
  · intro hresult
    rw [complete_result, code_noResponse] at hresult
    rwa [if_neg (ne_true_of_eq_false hresult)] at hpolls
  · rw [exchangesIn_outputs, hout]
    exact countP_command_le _ _ _ _ _ _ hle

/-- Settles O25: the exchange against an answering card and against a silent one, with the fields of the token. -/
theorem sendCommandDeliversTheAnswer : Obligations.SendCommandDeliversTheAnswer := by
  unfold Obligations.SendCommandDeliversTheAnswer
  constructor
  case left =>
    intro index arg ext keep s l rest status e hscript hanswer
    obtain ⟨polls, port, hcommand, -, -, hused⟩ := sendCommand_answered (arg := arg) hscript hanswer
    obtain ⟨hstatus, hext⟩ := token_fields status (if ext then e else 0)
    exact ⟨_, exec_sendCommand_of_reply hcommand, rfl, hstatus, hext, hused.after⟩
  case right =>
    intro index arg ext keep s head polls last rest hscript hhead hcount hsilent hlast
    obtain ⟨port, hcommand, hused⟩ :=
      sendCommand_silent (arg := arg) (ext := ext) hscript hhead hcount hsilent hlast
    obtain ⟨hstatus, hext⟩ := token_fields last.rx 0
    exact ⟨_, exec_sendCommand_of_reply hcommand, rfl, hstatus, hext, hused.after⟩

end Sys2Proof.Machine
end

