-- ==== Sys2Proof/Proofs/InitEnds.lean ====
section
/-!
PROOF. How `INIT` ends and what it leaves alone (spec/42_init.md R130, R147 to R152).
-/
namespace Sys2Proof.Machine

/-! ## The end states -/

/-- An `INIT` that ends, ends as R151 says: the law of its stops with the hung one, which keeps `busy`, ruled out. -/
theorem initRun_ended {s : State} (hbusy : (initRun s).state.busy = false) :
    Ended s.cfg s.stalled (initRun s).state := by
  rcases initRun_meets s with hended | ⟨u, hu, -, -⟩
  · exact hended
  · rw [hu, hang_busy] at hbusy
    cases hbusy

/-- Settles O27: on a tick source that goes on `INIT` completes (`initRun_completed`). -/
theorem initEndsReadyOrFailed : Obligations.InitEndsReadyOrFailed := by
  unfold Obligations.InitEndsReadyOrFailed
  intro s htail
  exact ⟨_, rfl, initRun_ended (initRun_completed htail).busy⟩

/-! ## The frame -/

/-- `t` is `s` but for what `INIT` writes (R130). -/
def InitWrites (s t : State) : Prop :=
  t = { s with
    idGen := t.idGen
    idAmode := t.idAmode
    idCap := t.idCap
    linkSel := t.linkSel
    linkClk := t.linkClk
    linkReady := t.linkReady
    lastTimeout := t.lastTimeout
    settle := t.settle
    fsm := t.fsm
    crc7 := t.crc7
    frame := t.frame
    busy := t.busy
    result := t.result
    resp := t.resp
    pgen := t.pgen
    pam := t.pam
    t0 := t.t0
    n := t.n
    port := t.port
    stalled := t.stalled }

theorem InitWrites.trans {s t u : State} (h : InitWrites s t) (h' : InitWrites t u) : InitWrites s u := by
  unfold InitWrites at h h' ⊢
  rw [h] at h'
  exact h'

theorem initWrites_command : CommandRel InitWrites where
  refl _ := rfl
  trans := .trans
  xchg _ _ := rfl
  select _ _ := rfl
  settled _ := rfl
  busyLine _ := rfl
  idleLine _ := rfl
  timedOut _ := rfl
  answered _ := rfl
  build _ _ _ := rfl
  count _ _ := rfl
  token _ _ := rfl

theorem initWrites_init : InitRel InitWrites :=
  .of_command initWrites_command (fun _ _ _ => rfl) (fun _ _ => rfl) (fun _ _ => rfl) (fun _ _ => rfl) (fun _ => rfl)
    fun _ _ => rfl

/-- Settles O28: each update `INIT` is made of keeps the frame. -/
theorem initFrame : Obligations.InitFrame := by
  unfold Obligations.InitFrame
  intro s
  have hstart : InitWrites s (initStart s) := rfl
  have hpower := powerUp_rel initWrites_command (initStart s)
  have hrest := initRun_rel initWrites_init (fun _ => rfl) s
  exact ⟨_, rfl, hstart.trans (hpower.trans hrest)⟩

end Sys2Proof.Machine
end

