-- ==== Sys2Proof/Proofs/InitScripts.lean ====
section
/-!
PROOF. `INIT` against a script of the card's answers (spec/42_init.md R132 to R152): which cards it resolves, and which
answer makes it fail with which code. The steps against their answers are laws (Laws/InitScript.lean,
Laws/InitFail.lean); here they are put in order.
-/
namespace Sys2Proof.Machine

variable {s t1 t2 t3 t4 t5 : State} {c : Config} {z : Bool} {code : Code} {l rest : List Answer}

/-! ## The steps in order -/

/-- `INIT` whose first two steps go on. -/
theorem initRun_identified (h1 : resetCard (powerUp (initStart s)) = .go () t1) (h2 : probe t1 = .go () t2) :
    initRun s = (pollOpCond t2).andThen fun _ s =>
      (readMode s).andThen fun _ s => (fixBlockLength s).andThen fun _ s => .stop (commit s) := by
  simp only [initRun, h1, h2, Flow.andThen]

/-- `INIT` whose steps up to `ReadMode` go on. -/
theorem initRun_ready (h1 : resetCard (powerUp (initStart s)) = .go () t1) (h2 : probe t1 = .go () t2)
    (h3 : pollOpCond t2 = .go () t3) (h4 : readMode t3 = .go () t4) :
    initRun s = (fixBlockLength t4).andThen fun _ s => .stop (commit s) := by
  simp only [initRun_identified h1 h2, h3, h4, Flow.andThen]

/-- An `INIT` that comes to `Commit` has succeeded (R147). -/
theorem initSucceeded_of_commit (h : initRun s = .stop (commit t5)) : InitSucceeded s.cfg (commit t5) := by
  have hended : Ended s.cfg s.stalled (initRun s).state := initRun_ended (by rw [h]; rfl)
  rw [h] at hended
  rcases hended.1.outcome with hok | hfailed
  · exact hok
  · have hmem : Code.ok ∈ _ := hfailed.result
    simp at hmem

/-! ## The cards that are resolved -/

/-- A card that accepts the block length is resolved as what it was taken for (R146, R147). -/
theorem initRun_accepted (h1 : resetCard (powerUp (initStart s)) = .go () t1) (h2 : probe t1 = .go () t2)
    (h3 : pollOpCond t2 = .go () t3) (h4 : readMode t3 = .go () t4) (hmid : Mid s.cfg z t4)
    (hscript : t4.port.script = l ++ rest) (hblklen : CommandAnswer s.cfg s.cfg.idxBlklen true false 0 0 l) :
    ∃ t, exec .init s = .next t ∧ InitSucceeded s.cfg t ∧ t.idGen = t4.pgen ∧ t.idAmode = t4.pam ∧ t.idCap = 0 ∧
      t.port.script = rest := by
  obtain ⟨t5, h5, -, hreached⟩ := fixBlockLength_at hmid hscript hblklen
  have hrun : initRun s = .stop (commit t5) := by rw [initRun_ready h1 h2 h3 h4, h5]; rfl
  exact ⟨commit t5, congrArg (Host.Outcome.next ∘ Flow.state) hrun, initSucceeded_of_commit hrun, hreached.pgen,
    hreached.pam, rfl, hreached.script⟩

/-- Settles O29: reset and probe identify the card, the rounds end, the register gives the mode. -/
theorem initResolvesVersion2 : Obligations.InitResolvesVersion2 := by
  unfold Obligations.InitResolvesVersion2
  intro s clocks reset cond rounds ocr blklen rest sr sc so e r hscript hclocks hreset hsr hidle hcond hsc hecho hrounds
    hocr hso hblklen
  obtain ⟨hmid, hpower, -, -⟩ := powerUp_at (l := clocks)
    (rest := reset ++ cond ++ (rounds ++ (ocr ++ (blklen ++ rest)))) (by simpa using hscript) hclocks
  obtain ⟨t1, t2, h1, h2, hpolling⟩ := identified_at hmid (gen := .sd2) hpower
    ⟨reset, cond, sr, sc, e, rfl, hreset, hsr, hidle, hcond, .inl ⟨rfl, hsc, hecho⟩⟩
  obtain ⟨t3, h3, hans3, hscript3, hgen3, -⟩ := pollOpCond_v2 hrounds hpolling
  obtain ⟨t4, h4, hans4, hreached⟩ := readMode_at hans3 hgen3 hscript3 hocr hso
  obtain ⟨t, hexec, hok, hgen, hmode, hcap, hrest⟩ := initRun_accepted h1 h2 h3 h4
    ⟨hans4.cfg, hans4.unresolved, hans4.byteMode, hans4.noCapacity, hans4.clk, hans4.going⟩ hreached.script hblklen
  exact ⟨t, hexec, hok, hgen.trans (hreached.pgen.trans hgen3), hmode, hcap, hrest⟩

/-- No register is read of a legacy card (R145). -/
theorem readMode_legacy (h : s.pgen = .sd1 ∨ s.pgen = .mmc) : readMode s = .go () s := by
  rw [readMode, if_neg]
  rcases h with h | h <;> simp [h]

/-- Settles O30: the probe answered with illegal-command leads to the legacy rounds, which class the card. -/
theorem initResolvesLegacy : Obligations.InitResolvesLegacy := by
  unfold Obligations.InitResolvesLegacy
  intro s clocks reset cond rounds blklen rest sr sc e final hscript hclocks hreset hsr hidle hcond hsc hrounds hblklen
  obtain ⟨hmid, hpower, -, hbyte⟩ := powerUp_at (l := clocks)
    (rest := reset ++ cond ++ (rounds ++ (blklen ++ rest))) (by simpa using hscript) hclocks
  obtain ⟨t1, t2, h1, h2, hpolling⟩ := identified_at hmid (gen := .sd1) hpower
    ⟨reset, cond, sr, sc, e, rfl, hreset, hsr, hidle, hcond, .inr ⟨rfl, hsc⟩⟩
  obtain ⟨t3, h3, hans3, hscript3, hgen3, hmode3⟩ := pollOpCond_legacy hrounds hpolling
  have hlegacy := hrounds.final_legacy
  obtain ⟨t, hexec, hok, hgen, hmode, hcap, hrest⟩ := initRun_accepted h1 h2 h3
    (readMode_legacy (by rw [hgen3]; exact hlegacy)) hans3.toMid hscript3 hblklen
  exact ⟨t, hexec, hok, hgen.trans hgen3, hlegacy, hmode.trans (hmode3.trans (hpolling.pam.trans hbyte)), hcap, hrest⟩

/-! ## The cards that are not -/

theorem CommandFails.code_ne_ok {index : BitVec 6} {ext : Bool} (h : CommandFails c index ext code l) : code ≠ .ok := by
  rcases h with ⟨rfl, -⟩ | ⟨hcode, -⟩
  · simp
  · exact hcode

theorem RoundFails.code_ne_ok {g : Gen} (h : RoundFails c g code l) : code ≠ .ok := by
  cases h with
  | app _ hcommand => exact hcommand.code_ne_ok
  | query _ _ _ hcommand => exact hcommand.code_ne_ok
  | mmc hcommand => exact hcommand.code_ne_ok

/-- No cause of R152 makes `INIT` end with `Ok`. -/
theorem InitFails.code_ne_ok (h : InitFails c code l) : code ≠ .ok := by
  cases h with
  | reset hcommand => exact hcommand.code_ne_ok
  | probe _ _ _ hcommand => exact hcommand.code_ne_ok
  | poll _ _ _ hround => exact hround.code_ne_ok
  | ocr _ _ hcommand => exact hcommand.code_ne_ok
  | blklen _ hcommand => exact hcommand.code_ne_ok
  | notIdle | echo | timeout | status => simp

/-- Every cause of R152 stops `INIT` with its code, at the step that sees the answer. -/
theorem initRun_fails (hmid : Mid c z (powerUp (initStart s)))
    (hscript : (powerUp (initStart s)).port.script = l ++ rest) (hfails : InitFails c code l) :
    StopsWith c z code rest (initRun s) := by
  cases hfails with
  | reset hcommand => exact (resetCard_fails hmid hscript hcommand).andThen _
  | notIdle hanswer hsr hidle => exact (resetCard_notIdle hmid hscript hanswer hsr hidle).andThen _
  | @probe _ sr reset cond hreset hsr hidle hcommand hcode =>
    obtain ⟨t1, h1, hans, hreached⟩ := resetCard_at hmid (rest := cond ++ rest) (by simpa using hscript) hreset hsr hidle
    rw [initRun, h1]
    exact (probe_fails (hans.setFsm .idleProbe).toMid hreached.script hcommand hcode).andThen _
  | @echo sr sc e reset cond hreset hsr hidle hanswer hsc hecho =>
    obtain ⟨t1, h1, hans, hreached⟩ := resetCard_at hmid (rest := cond ++ rest) (by simpa using hscript) hreset hsr hidle
    rw [initRun, h1]
    exact (probe_echo (hans.setFsm .idleProbe).toMid hreached.script hanswer hsc hecho).andThen _
  | @poll g g' _ ident rounds last hident hrounds hbudget hround =>
    obtain ⟨t1, t2, h1, h2, hpolling⟩ :=
      identified_at hmid (rest := rounds ++ (last ++ rest)) (by simpa using hscript) hident
    rw [initRun_identified h1 h2]
    exact (pollOpCond_fails hrounds hbudget hround hpolling).andThen _
  | @timeout g g' g'' ident rounds last hident hrounds hbudget hlast hover =>
    obtain ⟨t1, t2, h1, h2, hpolling⟩ :=
      identified_at hmid (rest := rounds ++ (last ++ rest)) (by simpa using hscript) hident
    rw [initRun_identified h1 h2]
    exact (pollOpCond_timeout hrounds hbudget hlast hover hpolling).andThen _
  | @ocr _ ident rounds ocr hident hrounds hcommand =>
    obtain ⟨t1, t2, h1, h2, hpolling⟩ :=
      identified_at hmid (rest := rounds ++ (ocr ++ rest)) (by simpa using hscript) hident
    obtain ⟨t3, h3, hans, hscript3, hgen, -⟩ := pollOpCond_v2 hrounds hpolling
    rw [initRun_identified h1 h2, h3]
    exact (readMode_fails hans.toMid hgen hscript3 hcommand).andThen _
  | @blklen _ ready blklen hready hcommand =>
    obtain ⟨t1, t2, t3, t4, h1, h2, h3, h4, hans, hscript4⟩ :=
      cardReady_at hmid (rest := blklen ++ rest) (by simpa using hscript) hready
    rw [initRun_ready h1 h2 h3 h4]
    exact (fixBlockLength_fails hans.toMid hscript4 hcommand).andThen _
  | @status sb ready blklen hready hanswer hsb hne =>
    obtain ⟨t1, t2, t3, t4, h1, h2, h3, h4, hans, hscript4⟩ :=
      cardReady_at hmid (rest := blklen ++ rest) (by simpa using hscript) hready
    rw [initRun_ready h1 h2 h3 h4]
    exact (fixBlockLength_status hans.toMid hscript4 hanswer hsb hne).andThen _

/-- Settles O60: after the power-up clocks each cause stops `INIT` with its code (`initRun_fails`). -/
theorem initFailsByCause : Obligations.InitFailsByCause := by
  unfold Obligations.InitFailsByCause
  intro s clocks l rest code hscript hclocks hfails
  obtain ⟨hmid, hpower, -, -⟩ := powerUp_at (l := clocks) (rest := l ++ rest) (by simpa using hscript) hclocks
  have hended := Flow.Meets.of_stop (initRun_fails hmid hpower hfails)
  exact ⟨_, rfl, hended.result, hended.ended.1, hended.failed hfails.code_ne_ok, hended.ended.2, hended.script⟩

end Sys2Proof.Machine
end

