-- ==== Sys2Proof/Proofs/InitClocks.lean ====
section
/-!
PROOF. The power-up clocks of `INIT`, the only bytes it sends to a deselected device (spec/42_init.md R132;
spec/70_reset_and_hazards.md R254).
-/
namespace Sys2Proof.Machine

/-! ## The clocks -/

/-- The history of a run of idle bytes: so many exchanges, each at the present select level and clock tier. -/
theorem idleBytes_hist (n : Nat) (s : State) : ∃ evs, (idleBytes n s).port.hist = evs ++ s.port.hist ∧
    evs.length = n ∧ ∀ ev ∈ evs, ∃ rx, ev = .x s.linkSel s.linkClk Config.idleByte rx := by
  induction n generalizing s with
  | zero => exact ⟨[], rfl, rfl, nofun⟩
  | succ n ih =>
    obtain ⟨evs, hhist, hlength, hevs⟩ := ih (send Config.idleByte s)
    refine ⟨evs ++ [.x s.linkSel s.linkClk Config.idleByte s.port.answer.rx], ?_, by simp [hlength], fun ev hev => ?_⟩
    · rw [List.append_assoc]
      exact hhist
    · rcases List.mem_append.1 hev with hev | hev
      · exact hevs ev hev
      · exact ⟨_, List.mem_singleton.1 hev⟩

/-- Step `PowerUp` after step `Start` (R131, R132). -/
theorem powerUp_hist (s : State) : ∃ clocks,
    (powerUp (initStart s)).port.hist = clocks ++ .sel false :: s.port.hist ∧
      clocks.length = s.cfg.nPowerupBytes ∧ ∀ ev ∈ clocks, ∃ rx, ev = .x false .slow Config.idleByte rx :=
  idleBytes_hist _ (select false (initStart s))

/-- Under the constraint of R10 the clocks are at least 74, eight to the byte. -/
theorem nPowerupBytes_of_valid {c : Config} (h : c.valid = true) : 74 ≤ 8 * c.nPowerupBytes := by
  simp only [Config.valid, Bool.and_eq_true, decide_eq_true_eq] at h
  obtain ⟨⟨⟨⟨⟨⟨⟨-, hclocks⟩, -⟩, -⟩, -⟩, -⟩, -⟩, -⟩ := h
  exact hclocks

/-! ## No byte to a deselected device -/

theorem sentSelected_append (on : Bool) (os os' : List BusOut) :
    sentSelected on (os ++ os') = (sentSelected on os && sentSelected (selAfter on os) os') := by
  induction os generalizing on with
  | nil => rfl
  | cons o os ih =>
    cases o with
    | sel level => exact ih level
    | tx b => simp [sentSelected, selAfter, ih, Bool.and_assoc]

/-- What may follow a deselection may follow a selection. -/
theorem sentSelected_of_deselected (on : Bool) {os : List BusOut} (h : sentSelected false os = true) :
    sentSelected on os = true := by
  cases os with
  | nil => rfl
  | cons o os =>
    cases o with
    | sel level => exact h
    | tx b => cases h

theorem sentSelected_of_bytes {os : List BusOut} (h : os.all BusOut.isByte = true) : sentSelected true os = true := by
  induction os with
  | nil => rfl
  | cons o os ih =>
    cases o with
    | sel level => cases h
    | tx b => exact ih h

theorem idleOut_bytes (n : Nat) : (idleOut n).all BusOut.isByte = true := by simp [idleOut, BusOut.isByte]

theorem idleOut_bytes_if (p : Prop) [Decidable p] (n : Nat) :
    (if p then idleOut n else []).all BusOut.isByte = true := by
  split_ifs
  · exact idleOut_bytes n
  · rfl

theorem frameOut_bytes (f : FrameWord) : (frameOut f).all BusOut.isByte = true := rfl

/-- A command with reselection selects the device before its first byte (R113). -/
theorem sentSelected_command (c : Config) (index : BitVec 6) (arg : Word) (settle extension : Bool) (polls : Nat) :
    sentSelected false (commandHead c index arg true settle ++ idleOut polls ++
      if extension then idleOut 4 else []) = true := by
  simp only [commandHead, if_true, List.append_assoc, List.cons_append, List.nil_append, sentSelected]
  apply sentSelected_of_bytes
  simp only [List.all_append, idleOut_bytes, idleOut_bytes_if, frameOut_bytes, Bool.and_self]

/-- From `s` to `t` no byte was sent deselected, whatever the select level in `s`. -/
def SentSelected (s t : State) : Prop := ∃ os, Port.Sent os s.port t.port ∧ sentSelected false os = true

theorem SentSelected.of_quiet {s t : State} (h : t.port = s.port) : SentSelected s t :=
  ⟨[], by rw [h]; exact .refl _, rfl⟩

theorem SentSelected.trans {s t u : State} (h : SentSelected s t) (h' : SentSelected t u) : SentSelected s u := by
  obtain ⟨os, hsent, hsel⟩ := h
  obtain ⟨os', hsent', hsel'⟩ := h'
  refine ⟨os ++ os', hsent.trans hsent', ?_⟩
  rw [sentSelected_append, hsel, Bool.true_and]
  exact sentSelected_of_deselected _ hsel'

theorem sentSelected_init : InitRel SentSelected where
  refl _ := .of_quiet rfl
  trans := .trans
  command index arg ext s := by
    obtain ⟨polls, status, e, -, -, -, -, hsent⟩ := sendCommand_cases index arg ext true s
    exact ⟨_, hsent, sentSelected_command _ _ _ _ _ _⟩
  deselect s := ⟨_, select_sent false s, rfl⟩
  busyLine _ := .of_quiet rfl
  fsm _ _ _ := .of_quiet rfl
  classed _ _ := .of_quiet rfl
  mode _ _ := .of_quiet rfl
  timer _ _ := .of_quiet rfl
  hang _ := .of_quiet rfl
  complete _ _ := .of_quiet rfl

/-- Settles O32: the clocks of step `PowerUp`, then commands that each select first. -/
theorem initBeginsWithClocks : Obligations.InitBeginsWithClocks := by
  unfold Obligations.InitBeginsWithClocks
  intro s
  obtain ⟨clocks, hclocks, hlength, hevs⟩ := powerUp_hist s
  obtain ⟨os, ⟨later, hlater, hout⟩, hsel⟩ := initRun_rel sentSelected_init (fun _ => .of_quiet rfl) s
  refine ⟨_, later, clocks, rfl, ?_, hlength, hevs, by rw [hout]; exact hsel, fun hvalid => ?_⟩
  · rw [hlater, hclocks, List.append_assoc]
  · rw [hlength]
    exact nPowerupBytes_of_valid hvalid

end Sys2Proof.Machine
end

