-- ==== Sys2Proof/Proofs/InitTwins.lean ====
section
/-!
PROOF. `INIT` depends on the configuration and the card's answers alone (spec/42_init.md R150): two runs with the same
answers to come are followed side by side. What the block puts on the bus and what it receives agree from the start
(`InStep`); what a command leaves agrees from the first command on (`Twins`).
-/
namespace Sys2Proof.Machine

/-! ## Two ports with the same answers to come -/

/-- From `p0` to `p` and from `q0` to `q` the same has passed: as many ticks, the same events; the same answers are to
come. -/
structure Port.InStep (p0 q0 p q : Port) : Prop where
  script : q.script = p.script
  tail : q.tail = p.tail
  seq : q.seq = p.seq
  tick : q.tick + p0.tick = p.tick + q0.tick
  hist : ∃ evs, p.hist = evs ++ p0.hist ∧ q.hist = evs ++ q0.hist

variable {p0 q0 : Port}

theorem Port.InStep.answer {p q : Port} (h : Port.InStep p0 q0 p q) : q.answer = p.answer := by
  unfold Port.answer
  rw [h.script, h.tail, h.seq]

/-- Two states whose next exchanges agree: the same configuration, the same select level and clock tier. -/
structure InStep (p0 q0 : Port) (s u : State) : Prop where
  cfg : u.cfg = s.cfg
  sel : u.linkSel = s.linkSel
  clk : u.linkClk = s.linkClk
  port : Port.InStep p0 q0 s.port u.port

variable {s u : State}

/-! ## One command exchange -/

theorem InStep.xchg_rx (h : InStep p0 q0 s u) (tx : Byte) : (xchg tx u).1 = (xchg tx s).1 :=
  congrArg Answer.rx h.port.answer

theorem InStep.xchg (h : InStep p0 q0 s u) (tx : Byte) : InStep p0 q0 (xchg tx s).2 (xchg tx u).2 := by
  obtain ⟨hcfg, hsel, hclk, hport⟩ := h
  have hanswer := hport.answer
  obtain ⟨hscript, htail, hseq, htick, evs, hs, hu⟩ := hport
  refine ⟨hcfg, hsel, hclk, congrArg List.tail hscript, htail, congrArg (· + 1) hseq, ?_,
    .x s.linkSel s.linkClk tx s.port.answer.rx :: evs, congrArg _ hs, ?_⟩
  · show u.port.tick + u.port.answer.ticks + p0.tick = s.port.tick + s.port.answer.ticks + q0.tick
    rw [hanswer]
    omega
  · show BusEvent.x u.linkSel u.linkClk tx u.port.answer.rx :: u.port.hist = _
    rw [hsel, hclk, hanswer, hu, List.cons_append]

theorem InStep.select (h : InStep p0 q0 s u) (on : Bool) : InStep p0 q0 (select on s) (select on u) := by
  obtain ⟨hcfg, -, hclk, hscript, htail, hseq, htick, evs, hs, hu⟩ := h
  exact ⟨hcfg, rfl, hclk, hscript, htail, hseq, htick, .sel on :: evs, congrArg _ hs, congrArg _ hu⟩

/-- The number of polls is read by nothing. -/
theorem InStep.polled (h : InStep p0 q0 s u) (m m' : Nat) : InStep p0 q0 (setN m s) (setN m' u) :=
  ⟨h.cfg, h.sel, h.clk, h.port⟩

theorem InStep.idleBytes (h : InStep p0 q0 s u) (n : Nat) : InStep p0 q0 (idleBytes n s) (idleBytes n u) := by
  induction n generalizing s u with
  | zero => exact h
  | succ n ih => exact ih (h.xchg Config.idleByte)

theorem InStep.sendBytes (h : InStep p0 q0 s u) (bs : List Byte) : InStep p0 q0 (sendBytes bs s) (sendBytes bs u) := by
  induction bs generalizing s u with
  | nil => exact h
  | cons b bs ih => exact ih (h.xchg b)

/-- With reselection the settle bytes are always owed (R113, R114). -/
theorem openExchange_resel (s : State) :
    openExchange true s = setSettled (idleBytes Config.nSettle (select true (select false s))) := rfl

theorem InStep.openExchange (h : InStep p0 q0 s u) : InStep p0 q0 (openExchange true s) (openExchange true u) := by
  rw [openExchange_resel, openExchange_resel]
  obtain ⟨hcfg, hsel, hclk, hport⟩ := ((h.select false).select true).idleBytes Config.nSettle
  exact ⟨hcfg, hsel, hclk, hport⟩

theorem InStep.transmit (h : InStep p0 q0 s u) (index : BitVec 6) (arg : Word) :
    InStep p0 q0 (transmit index arg s) (transmit index arg u) := by
  have hbuilt : InStep p0 q0 (buildFrame index arg (lineBusy s)) (buildFrame index arg (lineBusy u)) :=
    ⟨h.cfg, h.sel, h.clk, h.port⟩
  have hframe : (buildFrame index arg (lineBusy u)).frame = (buildFrame index arg (lineBusy s)).frame := by
    rw [builtFrame_eq, builtFrame_eq]
    exact congrArg (builtFrame · index arg) h.cfg
  have hsent := hbuilt.sendBytes (frameBytes (buildFrame index arg (lineBusy s)).frame)
  unfold Machine.transmit
  dsimp only
  rw [hframe, hsent.cfg]
  split_ifs
  · exact hsent.idleBytes _
  · exact hsent

theorem InStep.awaitResponse (h : InStep p0 q0 s u) (left : Nat) (last : Byte) :
    (awaitResponse left last u).1 = (awaitResponse left last s).1 ∧
      InStep p0 q0 (awaitResponse left last s).2 (awaitResponse left last u).2 := by
  induction left generalizing last s u with
  | zero => exact ⟨rfl, h⟩
  | succ left ih =>
    have hpolled := (h.xchg Config.idleByte).polled ((Machine.xchg Config.idleByte s).2.n + 1)
      ((Machine.xchg Config.idleByte u).2.n + 1)
    simp only [Machine.awaitResponse, h.xchg_rx]
    split_ifs
    · exact ⟨rfl, hpolled⟩
    · exact ih hpolled _

theorem InStep.readExtension (h : InStep p0 q0 s u) : (readExtension u).1 = (readExtension s).1 ∧
    InStep p0 q0 (readExtension s).2 (readExtension u).2 := by
  have h1 := h.xchg Config.idleByte
  have h2 := h1.xchg Config.idleByte
  have h3 := h2.xchg Config.idleByte
  refine ⟨?_, h3.xchg Config.idleByte⟩
  simp only [Machine.readExtension, h.xchg_rx, h1.xchg_rx, h2.xchg_rx, h3.xchg_rx]

theorem InStep.parseToken (h : InStep p0 q0 s u) (ext : Bool) (status : Byte) :
    (parseToken ext status u).1 = (parseToken ext status s).1 ∧
      InStep p0 q0 (parseToken ext status s).2 (parseToken ext status u).2 := by
  have hcleared : InStep p0 q0 (clearTimeout s) (clearTimeout u) := ⟨h.cfg, h.sel, h.clk, h.port⟩
  cases ext with
  | false => exact ⟨rfl, h.cfg, h.sel, h.clk, h.port⟩
  | true =>
    obtain ⟨hext, hcfg, hsel, hclk, hport⟩ := hcleared.readExtension
    refine ⟨?_, hcfg, hsel, hclk, hport⟩
    simp only [Machine.parseToken, if_true, hext]

/-- Two commands with reselection get the same reply. -/
theorem InStep.sendCommand (h : InStep p0 q0 s u) (index : BitVec 6) (arg : Word) (ext : Bool) :
    (sendCommand index arg ext true u).1 = (sendCommand index arg ext true s).1 ∧
      InStep p0 q0 (sendCommand index arg ext true s).2 (sendCommand index arg ext true u).2 := by
  have hsent := h.openExchange.transmit index arg
  have hpoll := (hsent.polled 0 0).awaitResponse
    (Machine.transmit index arg (Machine.openExchange true s)).cfg.nRespPoll Config.idleByte
  unfold Machine.sendCommand
  dsimp only
  rw [hsent.cfg]
  revert hpoll
  generalize Machine.awaitResponse _ _ (setN 0 (Machine.transmit index arg (Machine.openExchange true s))) = p
  generalize Machine.awaitResponse _ _ (setN 0 (Machine.transmit index arg (Machine.openExchange true u))) = q
  obtain ⟨⟨answered, status⟩, s'⟩ := p
  obtain ⟨_, u'⟩ := q
  rintro ⟨rfl, h'⟩
  cases answered with
  | false => exact ⟨rfl, h'.cfg, h'.sel, h'.clk, h'.port⟩
  | true => exact h'.parseToken ext status

/-! ## Twin states -/

/-- `u` with what `INIT` assigns before its first command (R131, R132) and after it (R134 to R147) as in `s`. -/
def takeIdentity (s u : State) : State :=
  { u with
    idGen := s.idGen
    idAmode := s.idAmode
    idCap := s.idCap
    fsm := s.fsm
    pgen := s.pgen
    pam := s.pam }

/-- `u` with what every command leaves (R112) as in `s`. -/
def takeLink (s u : State) : State :=
  { u with
    linkReady := s.linkReady
    lastTimeout := s.lastTimeout
    settle := s.settle
    crc7 := s.crc7
    frame := s.frame
    resp := s.resp }

/-- The start ticks of the polling loops lie as the ticks do, once they are set (R138). -/
def Timed (p0 q0 : Port) (timed : Bool) (s u : State) : Prop := timed = true → u.t0 + p0.tick = s.t0 + q0.tick

/-- Two runs of `INIT` before their first command. -/
structure Siblings (p0 q0 : Port) (timed : Bool) (s u : State) : Prop extends InStep p0 q0 s u where
  identity : takeIdentity s u = u
  timer : Timed p0 q0 timed s u

/-- Two runs of `INIT` from their first command on. -/
structure Twins (p0 q0 : Port) (timed : Bool) (s u : State) : Prop extends Siblings p0 q0 timed s u where
  link : takeLink s u = u

variable {timed : Bool}

/-- From siblings a command makes twins: what it leaves follows from the configuration and its reply. -/
theorem Siblings.sendCommand (h : Siblings p0 q0 timed s u) (index : BitVec 6) (arg : Word) (ext : Bool) :
    (sendCommand index arg ext true u).1 = (sendCommand index arg ext true s).1 ∧
      Twins p0 q0 timed (sendCommand index arg ext true s).2 (sendCommand index arg ext true u).2 := by
  obtain ⟨hreply, hstep⟩ := h.toInStep.sendCommand index arg ext
  have htimer : Timed p0 q0 timed (Machine.sendCommand index arg ext true s).2
      (Machine.sendCommand index arg ext true u).2 := fun ht => by simpa using h.timer ht
  obtain ⟨polls, status, e, -, -, -, hs, -⟩ := sendCommand_cases index arg ext true s
  obtain ⟨polls', status', e', -, -, -, hu, -⟩ := sendCommand_cases index arg ext true u
  have hsame := hreply
  rw [hs, hu] at hsame
  obtain ⟨-, rfl, rfl⟩ := Reply.mk.inj hsame
  refine ⟨hreply, ⟨hstep, ?_, htimer⟩, ?_⟩
  · rw [hs, hu]
    exact congrArg (afterCommand index arg true _ polls' _ _) h.identity
  · rw [hs, hu]
    simp only [takeLink, afterCommand, h.cfg]

theorem Twins.identity_eq (h : Twins p0 q0 timed s u) :
    u.idGen = s.idGen ∧ u.idAmode = s.idAmode ∧ u.idCap = s.idCap := by
  have hfield {α : Type} (f : State → α) : f u = f (takeIdentity s u) := congrArg f h.identity.symm
  exact ⟨hfield State.idGen, hfield State.idAmode, hfield State.idCap⟩

theorem Twins.fsm (h : Twins p0 q0 timed s u) : u.fsm = s.fsm := (congrArg State.fsm h.identity).symm
theorem Twins.pgen (h : Twins p0 q0 timed s u) : u.pgen = s.pgen := (congrArg State.pgen h.identity).symm

theorem Twins.link_eq (h : Twins p0 q0 timed s u) : u.linkReady = s.linkReady ∧ u.lastTimeout = s.lastTimeout ∧
    u.settle = s.settle ∧ u.crc7 = s.crc7 ∧ u.frame = s.frame ∧ u.resp = s.resp := by
  have hfield {α : Type} (f : State → α) : f u = f (takeLink s u) := congrArg f h.link.symm
  exact ⟨hfield State.linkReady, hfield State.lastTimeout, hfield State.settle, hfield State.crc7, hfield State.frame,
    hfield State.resp⟩

/-- An update of the registers `INIT` assigns, with the same values on both sides. -/
theorem Twins.update (h : Twins p0 q0 timed s u) {f : State → State} (hstep : InStep p0 q0 (f s) (f u))
    (htimer : Timed p0 q0 timed (f s) (f u)) (hidentity : takeIdentity (f s) (f u) = f (takeIdentity s u))
    (hlink : takeLink (f s) (f u) = f (takeLink s u)) : Twins p0 q0 timed (f s) (f u) :=
  ⟨⟨hstep, hidentity.trans (congrArg f h.identity), htimer⟩, hlink.trans (congrArg f h.link)⟩

theorem Twins.setFsm (h : Twins p0 q0 timed s u) (f : Fsm) : Twins p0 q0 timed (setFsm f s) (setFsm f u) :=
  h.update ⟨h.cfg, h.sel, h.clk, h.port⟩ h.timer rfl rfl

theorem Twins.setPgen (h : Twins p0 q0 timed s u) (g : Gen) : Twins p0 q0 timed (setPgen g s) (setPgen g u) :=
  h.update ⟨h.cfg, h.sel, h.clk, h.port⟩ h.timer rfl rfl

theorem Twins.setPam (h : Twins p0 q0 timed s u) (m : AddrMode) : Twins p0 q0 timed (setPam m s) (setPam m u) :=
  h.update ⟨h.cfg, h.sel, h.clk, h.port⟩ h.timer rfl rfl

/-- The polling loops take their start tick where the same ticks have passed on both sides. -/
theorem Twins.setT0 (h : Twins p0 q0 timed s u) : Twins p0 q0 true (setT0 (now s) s) (setT0 (now u) u) :=
  ⟨⟨⟨h.cfg, h.sel, h.clk, h.port⟩, congrArg (Machine.setT0 (now u)) h.identity, fun _ => h.port.tick⟩,
    congrArg (Machine.setT0 (now u)) h.link⟩

theorem Twins.elapsed (h : Twins p0 q0 true s u) : elapsed u.t0 u = elapsed s.t0 s := by
  have htick := h.port.tick
  have htimer := h.timer rfl
  simp only [Machine.elapsed]
  omega

theorem Twins.neverEnds (h : Twins p0 q0 true s u) (budget : Nat) : neverEnds budget u = neverEnds budget s := by
  simp only [Machine.neverEnds, h.port.script, h.port.tail, h.elapsed]

/-! ## Twin ends -/

/-- Two runs of `INIT` have stopped alike. -/
structure TwinEnds (p0 q0 : Port) (s u : State) : Prop where
  twins : ∃ timed, Twins p0 q0 timed s u
  busy : u.busy = s.busy
  result : s.busy = false → u.result = s.result

theorem Twins.finish (h : Twins p0 q0 timed s u) (code : Code) : TwinEnds p0 q0 (finish code s) (finish code u) := by
  obtain ⟨hcfg, hsel, hclk, hport⟩ := h.select false
  exact ⟨⟨timed, h.update ⟨hcfg, hsel, hclk, hport⟩ h.timer rfl rfl⟩, rfl, fun _ => rfl⟩

theorem Twins.fail (h : Twins p0 q0 timed s u) (code : Code) : TwinEnds p0 q0 (fail code s) (fail code u) :=
  (h.setFsm .failed).finish code

theorem Twins.failBadResponse (h : Twins p0 q0 timed s u) :
    TwinEnds p0 q0 (failBadResponse s) (failBadResponse u) := by
  have hbusy : Twins p0 q0 timed (lineBusy s) (lineBusy u) := h.update ⟨h.cfg, h.sel, h.clk, h.port⟩ h.timer rfl rfl
  exact hbusy.fail .badResponse

theorem Twins.hang (h : Twins p0 q0 timed s u) : TwinEnds p0 q0 (hang s) (hang u) :=
  ⟨⟨timed, h.update ⟨h.cfg, h.sel, h.clk, h.port⟩ h.timer rfl rfl⟩, rfl, nofun⟩

theorem Twins.commit (h : Twins p0 q0 timed s u) : TwinEnds p0 q0 (commit s) (commit u) := by
  have hcommit : Twins p0 q0 timed (commitIdentity s) (commitIdentity u) :=
    ⟨⟨⟨h.cfg, h.sel, rfl, h.port⟩, congrArg commitIdentity h.identity, h.timer⟩, congrArg commitIdentity h.link⟩
  exact hcommit.finish .ok

/-! ## The steps side by side -/

/-- Two flows that go on with the same value in states `Q` relates, or both stop in states `S` relates. -/
inductive Flow.Both {α : Type} (Q S : State → State → Prop) : Flow α → Flow α → Prop where
  | go {a : α} {s u : State} (h : Q s u) : Flow.Both Q S (.go a s) (.go a u)
  | stop {s u : State} (h : S s u) : Flow.Both Q S (.stop s) (.stop u)

theorem Flow.Both.andThen {α β : Type} {Q Q' S : State → State → Prop} {f g : Flow α} {k k' : α → State → Flow β}
    (h : Flow.Both Q S f g) (hk : ∀ a s u, Q s u → Flow.Both Q' S (k a s) (k' a u)) :
    Flow.Both Q' S (f.andThen k) (g.andThen k') := by
  cases h with
  | go h => exact hk _ _ _ h
  | stop h => exact .stop h

/-- Two flows of `INIT` that stay twins or stop as such. -/
abbrev TwinFlow {α : Type} (p0 q0 : Port) (timed : Bool) : Flow α → Flow α → Prop :=
  Flow.Both (Twins p0 q0 timed) (TwinEnds p0 q0)

theorem resetCard_twins (h : Siblings p0 q0 timed s u) : TwinFlow p0 q0 timed (resetCard s) (resetCard u) := by
  obtain ⟨hreply, htwins⟩ := h.sendCommand s.cfg.idxReset 0 false
  simp only [resetCard, h.cfg, hreply]
  split_ifs
  · exact .stop (htwins.fail _)
  · exact .stop htwins.failBadResponse
  · exact .go (htwins.setFsm _)

theorem probe_twins (h : Twins p0 q0 timed s u) : TwinFlow p0 q0 timed (probe s) (probe u) := by
  obtain ⟨hreply, htwins⟩ := h.sendCommand s.cfg.idxIfcond s.cfg.ifcondArg true
  simp only [probe, h.cfg, hreply]
  split_ifs
  · exact .go ((htwins.setPgen _).setFsm _)
  · exact .stop (htwins.fail _)
  · exact .go ((htwins.setPgen _).setFsm _)
  · exact .stop htwins.failBadResponse

theorem appPair_twins (h : Twins p0 q0 timed s u) (arg : Word) :
    (appPair arg u).1 = (appPair arg s).1 ∧ Twins p0 q0 timed (appPair arg s).2 (appPair arg u).2 := by
  obtain ⟨hreply, htwins⟩ := h.sendCommand s.cfg.idxApp 0 false
  simp only [appPair, h.cfg, hreply]
  split_ifs
  · exact htwins.sendCommand s.cfg.idxOpcondApp arg false
  · exact ⟨hreply, htwins⟩

theorem roundEnd_twins {p q : Reply × State} (hreply : q.1 = p.1) (htwins : Twins p0 q0 timed p.2 q.2) :
    TwinFlow p0 q0 timed (roundEnd p) (roundEnd q) := by
  simp only [roundEnd, hreply]
  split_ifs
  · exact .stop (htwins.fail _)
  · exact .go htwins

theorem v2Round_twins (h : Twins p0 q0 timed s u) : TwinFlow p0 q0 timed (v2Round s) (v2Round u) := by
  obtain ⟨hreply, htwins⟩ := appPair_twins h s.cfg.opcondArgV2
  rw [v2Round, v2Round, h.cfg]
  exact roundEnd_twins hreply htwins

theorem legacyRound_twins (h : Twins p0 q0 timed s u) : TwinFlow p0 q0 timed (legacyRound s) (legacyRound u) := by
  obtain ⟨hreply, htwins⟩ := appPair_twins h s.cfg.opcondArgLegacy
  obtain ⟨hreply', htwins'⟩ := h.sendCommand s.cfg.idxOpcondMmc s.cfg.opcondArgLegacy false
  simp only [legacyRound, h.cfg, h.pgen, hreply]
  split_ifs
  · exact .go (htwins.setPgen _)
  · exact roundEnd_twins hreply htwins
  · exact roundEnd_twins hreply' htwins'

theorem pollRounds_twins {round : State → Flow Bool}
    (hround : ∀ {s u}, Twins p0 q0 true s u → TwinFlow p0 q0 true (round s) (round u)) (left : Nat)
    (h : Twins p0 q0 true s u) : TwinFlow p0 q0 true (pollRounds round left s) (pollRounds round left u) := by
  induction left generalizing s u with
  | zero => exact .stop h.hang
  | succ left ih =>
    rw [pollRounds, pollRounds, h.cfg, h.neverEnds]
    split_ifs
    · exact .stop h.hang
    · refine (hround h).andThen fun isReady t v htwins => ?_
      rw [htwins.cfg, htwins.elapsed]
      split_ifs
      · exact .go htwins
      · exact .stop (htwins.fail _)
      · exact ih htwins

theorem pollOpCond_twins (h : Twins p0 q0 timed s u) : TwinFlow p0 q0 true (pollOpCond s) (pollOpCond u) := by
  have hstart := h.setT0
  have hbound : pollBound s.cfg.tInit (setT0 (now u) u) = pollBound s.cfg.tInit (setT0 (now s) s) :=
    congrArg (List.length · + s.cfg.tInit + 1) h.port.script
  simp only [pollOpCond, pollV2, pollLegacy, setT0_fsm, setT0_cfg, h.fsm, h.cfg, hbound]
  by_cases hfsm : s.fsm = .voltageCheck <;> simp only [hfsm, if_true, if_false]
  · exact (pollRounds_twins v2Round_twins _ hstart).andThen fun _ _ _ htwins => .go (htwins.setFsm _)
  · exact pollRounds_twins legacyRound_twins _ hstart

theorem readMode_twins (h : Twins p0 q0 timed s u) : TwinFlow p0 q0 timed (readMode s) (readMode u) := by
  obtain ⟨hreply, htwins⟩ := h.sendCommand s.cfg.idxOcr 0 true
  simp only [readMode, h.cfg, h.pgen, hreply]
  split_ifs
  · exact .stop (htwins.fail _)
  · exact .go (htwins.setPam _)
  · exact .go h

theorem fixBlockLength_twins (h : Twins p0 q0 timed s u) :
    TwinFlow p0 q0 timed (fixBlockLength s) (fixBlockLength u) := by
  obtain ⟨hreply, htwins⟩ := h.sendCommand s.cfg.idxBlklen 512#32 false
  simp only [fixBlockLength, h.cfg, hreply]
  split_ifs
  · exact .stop (htwins.fail _)
  · exact .stop htwins.failBadResponse
  · exact .go htwins

/-! ## `INIT` -/

/-- The first two steps leave nothing from before the request but what every command overwrites (R131, R132). -/
theorem powerUp_siblings (hcfg : u.cfg = s.cfg) (hscript : u.port.script = s.port.script)
    (htail : u.port.tail = s.port.tail) (hseq : u.port.seq = s.port.seq) :
    Siblings s.port u.port false (powerUp (initStart s)) (powerUp (initStart u)) := by
  have hport : Port.InStep s.port u.port s.port u.port := ⟨hscript, htail, hseq, Nat.add_comm _ _, [], rfl, rfl⟩
  have hdeselected : InStep s.port u.port (select false (initStart s)) (select false (initStart u)) := by
    obtain ⟨evs, hs, hu⟩ := hport.hist
    exact ⟨hcfg, rfl, rfl, hscript, htail, hseq, hport.tick, .sel false :: evs, congrArg _ hs, congrArg _ hu⟩
  have hidentity : takeIdentity (powerUp (initStart s)) (powerUp (initStart u)) = powerUp (initStart u) := by
    rw [powerUp, powerUp, idleBytes_eq, idleBytes_eq _ (select false (initStart u))]
    rfl
  refine ⟨?_, hidentity, nofun⟩
  rw [powerUp, powerUp, initStart_cfg, initStart_cfg, hcfg]
  exact hdeselected.idleBytes _

theorem initRun_twins (h : Siblings p0 q0 false (powerUp (initStart s)) (powerUp (initStart u))) :
    Flow.Both (fun _ _ => False) (TwinEnds p0 q0) (initRun s) (initRun u) :=
  (resetCard_twins h).andThen fun _ _ _ h =>
    (probe_twins h).andThen fun _ _ _ h =>
      (pollOpCond_twins h).andThen fun _ _ _ h =>
        (readMode_twins h).andThen fun _ _ _ h =>
          (fixBlockLength_twins h).andThen fun _ _ _ h => .stop h.commit

theorem Flow.Both.ends {α : Type} {S : State → State → Prop} {f g : Flow α} (h : Flow.Both (fun _ _ => False) S f g) :
    S f.state g.state := by
  cases h with
  | go h => exact h.elim
  | stop h => exact h

/-- Settles O31: both runs stop, as twins. -/
theorem initDependsOnAnswersOnly : Obligations.InitDependsOnAnswersOnly := by
  unfold Obligations.InitDependsOnAnswersOnly
  intro s u hcfg hscript htail hseq
  obtain ⟨⟨timed, htwins⟩, hbusy, hresult⟩ := (initRun_twins (powerUp_siblings hcfg hscript htail hseq)).ends
  obtain ⟨evs, hs, hu⟩ := htwins.port.hist
  obtain ⟨hgen, hmode, hcap⟩ := htwins.identity_eq
  obtain ⟨hready, htimeout, hsettle, hcrc7, hframe, hresp⟩ := htwins.link_eq
  exact ⟨_, _, evs, rfl, rfl, hs, hu, hgen, hmode, hcap, htwins.fsm, htwins.sel, htwins.clk, hready, htimeout, hsettle,
    hcrc7, hframe, hresp, hbusy, hresult⟩

end Sys2Proof.Machine
end

