-- ==== Sys2Proof/Proofs/TransferFrames.lean ====
section
/-!
PROOF. What the transfer operations leave unchanged (spec/43_transfer.md R164, R168, R172, R176;
spec/70_reset_and_hazards.md R259). The frame of an instruction holds most of it; what is left is `k`, which only the
multi-block operations write, and `buf`, which only the reads write.
-/
namespace Sys2Proof.Machine

variable {s t : State}

/-- The registers no transfer writes, as an equation of states: the others stand as they are in `t`. -/
theorem State.eq_of_transfer_kept (hfixed : t.fixed = s.fixed) (hid : t.identity = s.identity) (hval : t.val = s.val) :
    t = { s with
      linkSel := t.linkSel
      linkReady := t.linkReady
      lastTimeout := t.lastTimeout
      settle := t.settle
      crc7 := t.crc7
      crc16 := t.crc16
      frame := t.frame
      busy := t.busy
      result := t.result
      resp := t.resp
      done := t.done
      buf := t.buf
      t0 := t.t0
      n := t.n
      k := t.k
      code := t.code
      port := t.port
      stalled := t.stalled } := by
  obtain ⟨hcfg, hreq, hhost, hcmd⟩ := State.fixed_eq.1 hfixed
  obtain ⟨hgen, hamode, hcap, hclk, hfsm, hpgen, hpam⟩ := State.identity_eq.1 hid
  rw [← hcfg, ← hreq, ← hhost, ← hcmd, ← hgen, ← hamode, ← hcap, ← hclk, ← hfsm, ← hpgen, ← hpam, ← hval]

/-- A single-block transfer does not touch `k`. -/
theorem k_single : SingleRel (fun _ => True) fun s t => t.k = s.k where
  toBlockRel := blockRel_of (f := State.k) (fun _ _ => rfl) (fun _ _ => rfl) (fun _ => rfl) (fun _ => rfl)
    (fun _ => rfl) (fun _ => rfl) (fun _ => rfl) (fun _ _ _ => rfl) (fun _ _ => rfl) (fun _ _ => rfl) (fun _ _ => rfl)
    (fun _ => rfl) (fun _ _ _ => rfl) fun _ _ => rfl
  complete _ _ := rfl
  code _ _ := rfl

theorem readBlockRun_k (sector : Word) (s : State) : (readBlockRun sector s).state.k = s.k :=
  readBlockRun_rel k_single sector s fun _ _ => trivial
theorem writeBlockRun_k (sector : Word) (s : State) : (writeBlockRun sector s).state.k = s.k :=
  writeBlockRun_rel k_single sector s

/-- A transfer that stores nothing leaves `buf` alone. -/
theorem buf_transfer : TransferRel (fun _ => False) fun s t => t.buf = s.buf where
  toCommandRel := commandRel_of (f := State.buf) (fun _ _ => rfl) (fun _ _ => rfl) (fun _ => rfl) (fun _ => rfl)
    (fun _ => rfl) (fun _ => rfl) (fun _ => rfl) (fun _ _ _ => rfl) (fun _ _ => rfl) (fun _ _ => rfl)
  timer _ _ := rfl
  hang _ := rfl
  store _ _ _ h := h.elim
  crc _ _ := rfl
  complete _ _ := rfl
  code _ _ := rfl
  block _ _ := rfl
  doneCount _ _ := rfl

theorem writeBlockRun_buf (sector : Word) (s : State) : (writeBlockRun sector s).state.buf = s.buf :=
  writeBlockRun_rel buf_transfer.toSingleRel sector s
theorem writeMultiRun_buf (sector count : Word) (s : State) : (writeMultiRun sector count s).state.buf = s.buf :=
  writeMultiRun_rel buf_transfer sector count s

/-- Settles O47: the frame of the instruction, and for `READ_BLOCK` that `done` and `k` are kept. -/
theorem readFrame : Obligations.ReadFrame := by
  unfold Obligations.ReadFrame
  constructor
  · intro sector s t hexec
    have hframe := exec_frame hexec
    have hkept := State.eq_of_transfer_kept hframe.fixed (hframe.identity nofun) (hframe.val rfl)
    have hdone : t.done = s.done := hframe.done fun _ _ => ⟨nofun, nofun⟩
    have hk : t.k = s.k := by cases hexec; exact readBlockRun_k sector s
    rw [hdone, hk] at hkept
    exact ⟨hkept, hframe.bufAbove⟩
  · intro sector count s t hexec
    have hframe := exec_frame hexec
    exact ⟨State.eq_of_transfer_kept hframe.fixed (hframe.identity nofun) (hframe.val rfl), hframe.bufAbove⟩

/-- Settles O48: the frame of the instruction with `buf` kept, and for `WRITE_BLOCK` `done` and `k`. -/
theorem writeFrame : Obligations.WriteFrame := by
  unfold Obligations.WriteFrame
  constructor
  · intro sector s t hexec
    have hframe := exec_frame hexec
    have hkept := State.eq_of_transfer_kept hframe.fixed (hframe.identity nofun) (hframe.val rfl)
    have hdone : t.done = s.done := hframe.done fun _ _ => ⟨nofun, nofun⟩
    have hk : t.k = s.k := by cases hexec; exact writeBlockRun_k sector s
    have hbuf : t.buf = s.buf := by cases hexec; exact writeBlockRun_buf sector s
    rw [hdone, hk, hbuf] at hkept
    exact hkept
  · intro sector count s t hexec
    have hframe := exec_frame hexec
    have hkept := State.eq_of_transfer_kept hframe.fixed (hframe.identity nofun) (hframe.val rfl)
    have hbuf : t.buf = s.buf := by cases hexec; exact writeMultiRun_buf sector count s
    rw [hbuf] at hkept
    exact hkept

end Sys2Proof.Machine
end

