-- ==== Sys2Proof/Proofs/TransferPhases.lean ====
section
/-!
SUPPORT. A transfer past the gate as its command phase and what follows (spec/43_transfer.md R160, R164, R168, R172,
R176): how it ends when the command is refused, and what is left to run when it is accepted.
-/
namespace Sys2Proof.Machine

variable {s : State} {sector count : Word}

theorem exec_readBlock (sector : Word) (s : State) :
    exec (.readBlock sector) s = .next (readBlockRun sector s).state := rfl
theorem exec_writeBlock (sector : Word) (s : State) :
    exec (.writeBlock sector) s = .next (writeBlockRun sector s).state := rfl
theorem exec_readMulti (sector count : Word) (s : State) :
    exec (.readMulti sector count) s = .next (readMultiRun sector count s).state := rfl
theorem exec_writeMulti (sector count : Word) (s : State) :
    exec (.writeMulti sector count) s = .next (writeMultiRun sector count s).state := rfl

theorem Flow.andThen_go {α β : Type} {f : Flow α} {a : α} {t : State} (h : f = .go a t) (k : α → State → Flow β) :
    f.andThen k = k a t := by
  rw [h]
  rfl

/-! ## Past the gate -/

theorem readBlockRun_past_gate (hgate : gateCode s sector 1 = none) :
    readBlockRun sector s = (startTransfer s.cfg.idxRd1 sector s).andThen fun _ t =>
      (recvBlock 0 t.cfg.tokStart t).andThen finishWith := by
  unfold readBlockRun
  rw [gate_pass hgate]
  rfl

theorem writeBlockRun_past_gate (hgate : gateCode s sector 1 = none) :
    writeBlockRun sector s = (startTransfer s.cfg.idxWr1 sector s).andThen fun _ t =>
      (sendBlock 0 t.cfg.tokStart t).andThen finishWith := by
  unfold writeBlockRun
  rw [gate_pass hgate]
  rfl

theorem readMultiRun_past_gate (hgate : gateCode s sector count.toNat = none) (hcount : count ≠ 0) :
    readMultiRun sector count s = (startTransfer s.cfg.idxRdm sector (setDone 0 s)).andThen fun _ t =>
      (recvBlocks count.toNat 0 (setCode .ok t)).andThen fun code u => (stopRead code u).andThen finishWith := by
  unfold readMultiRun
  rw [gate_pass hgate]
  exact if_neg hcount

theorem writeMultiRun_past_gate (hgate : gateCode s sector count.toNat = none) (hcount : count ≠ 0) :
    writeMultiRun sector count s = (startTransfer s.cfg.idxWrm sector (setDone 0 s)).andThen fun _ t =>
      (sendBlocks count.toNat 0 t).andThen fun _ u => (stopWrite u).andThen finishWith := by
  unfold writeMultiRun
  rw [gate_pass hgate]
  exact if_neg hcount

/-! ## The command accepted -/

/-- Where the data phase begins (R160): the command with the translated sector is answered with a status byte of 0, and
the line is no longer known idle. -/
def afterAccepted (index : BitVec 6) (sector : Word) (polls : Nat) (port : Port) (s : State) : State :=
  lineBusy (afterCommand index (addrOf s.idAmode sector) true true polls 0 port s)

@[simp] theorem afterAccepted_cfg (index : BitVec 6) (sector : Word) (polls : Nat) (port : Port) (s : State) :
    (afterAccepted index sector polls port s).cfg = s.cfg := rfl
@[simp] theorem afterAccepted_done (index : BitVec 6) (sector : Word) (polls : Nat) (port : Port) (s : State) :
    (afterAccepted index sector polls port s).done = s.done := rfl

variable {command rest : List Answer}

/-- The command phase of an accepted command leaves the data phase to run (R160). -/
theorem startTransfer_accepted {index : BitVec 6} (sector : Word) (hscript : s.port.script = command ++ rest)
    (hanswer : CommandAnswer s.cfg index true false 0 0 command) (dataPhase : Unit → State → Flow Unit) :
    ∃ polls port, Port.Used command rest
        (commandHead s.cfg index (addrOf s.idAmode sector) true s.settle ++ idleOut polls) s.port port ∧
      (startTransfer index sector s).andThen dataPhase = dataPhase () (afterAccepted index sector polls port s) := by
  obtain ⟨polls, port, hstart, hused⟩ := startTransfer_at index sector hscript hanswer
  exact ⟨polls, port, hused, Flow.andThen_go hstart _⟩

/-- `READ_BLOCK`, its command accepted, ends with the code of the block it receives (R164). -/
theorem readBlock_accepted (hgate : gateCode s sector 1 = none) (hscript : s.port.script = command ++ rest)
    (hanswer : CommandAnswer s.cfg s.cfg.idxRd1 true false 0 0 command) :
    ∃ polls port, Port.Used command rest
        (commandHead s.cfg s.cfg.idxRd1 (addrOf s.idAmode sector) true s.settle ++ idleOut polls) s.port port ∧
      ∀ {code t}, recvBlock 0 s.cfg.tokStart (afterAccepted s.cfg.idxRd1 sector polls port s) = .go code t →
        exec (.readBlock sector) s = .next (finish code (setCode code t)) := by
  obtain ⟨polls, port, hused, hdata⟩ := startTransfer_accepted sector hscript hanswer _
  refine ⟨polls, port, hused, fun hblock => ?_⟩
  rw [exec_readBlock, readBlockRun_past_gate hgate, hdata, afterAccepted_cfg, Flow.andThen_go hblock]
  rfl

/-- `WRITE_BLOCK`, its command accepted, ends with the code of the block it sends (R168). -/
theorem writeBlock_accepted (hgate : gateCode s sector 1 = none) (hscript : s.port.script = command ++ rest)
    (hanswer : CommandAnswer s.cfg s.cfg.idxWr1 true false 0 0 command) :
    ∃ polls port, Port.Used command rest
        (commandHead s.cfg s.cfg.idxWr1 (addrOf s.idAmode sector) true s.settle ++ idleOut polls) s.port port ∧
      ∀ {code t}, sendBlock 0 s.cfg.tokStart (afterAccepted s.cfg.idxWr1 sector polls port s) = .go code t →
        exec (.writeBlock sector) s = .next (finish code (setCode code t)) := by
  obtain ⟨polls, port, hused, hdata⟩ := startTransfer_accepted sector hscript hanswer _
  refine ⟨polls, port, hused, fun hblock => ?_⟩
  rw [exec_writeBlock, writeBlockRun_past_gate hgate, hdata, afterAccepted_cfg, Flow.andThen_go hblock]
  rfl

/-- `READ_MULTI`, its command accepted, runs the block loop and then its end, whose code is the result (R172). -/
theorem readMulti_accepted (hgate : gateCode s sector count.toNat = none) (hcount : count ≠ 0)
    (hscript : s.port.script = command ++ rest)
    (hanswer : CommandAnswer s.cfg s.cfg.idxRdm true false 0 0 command) :
    ∃ polls port, Port.Used command rest
        (commandHead s.cfg s.cfg.idxRdm (addrOf s.idAmode sector) true s.settle ++ idleOut polls) s.port port ∧
      ∀ {blockCode code t u},
        recvBlocks count.toNat 0 (setCode .ok (afterAccepted s.cfg.idxRdm sector polls port (setDone 0 s))) =
          .go blockCode t → stopRead blockCode t = .go code u →
        exec (.readMulti sector count) s = .next (finish code (setCode code u)) := by
  obtain ⟨polls, port, hused, hdata⟩ := startTransfer_accepted (s := setDone 0 s) sector hscript hanswer _
  refine ⟨polls, port, hused, fun hblocks hstop => ?_⟩
  rw [exec_readMulti, readMultiRun_past_gate hgate hcount, hdata, Flow.andThen_go hblocks, Flow.andThen_go hstop]
  rfl

/-- `WRITE_MULTI`, its command accepted and every block sent, ends with the code of the stop token (R176). -/
theorem writeMulti_accepted (hgate : gateCode s sector count.toNat = none) (hcount : count ≠ 0)
    (hscript : s.port.script = command ++ rest)
    (hanswer : CommandAnswer s.cfg s.cfg.idxWrm true false 0 0 command) :
    ∃ polls port, Port.Used command rest
        (commandHead s.cfg s.cfg.idxWrm (addrOf s.idAmode sector) true s.settle ++ idleOut polls) s.port port ∧
      ∀ {code t u},
        sendBlocks count.toNat 0 (afterAccepted s.cfg.idxWrm sector polls port (setDone 0 s)) = .go () t →
        stopWrite t = .go code u → exec (.writeMulti sector count) s = .next (finish code (setCode code u)) := by
  obtain ⟨polls, port, hused, hdata⟩ := startTransfer_accepted (s := setDone 0 s) sector hscript hanswer _
  refine ⟨polls, port, hused, fun hblocks hstop => ?_⟩
  rw [exec_writeMulti, writeMultiRun_past_gate hgate hcount, hdata, Flow.andThen_go hblocks, Flow.andThen_go hstop]
  rfl

/-! ## The command refused -/

/-- A transfer past its gate begins with its command phase, `done` cleared by the multi-block operations. -/
theorem transfer_begins {i : Instr} {index : BitVec 6}
    (h : (i = .readBlock sector ∧ index = s.cfg.idxRd1 ∧ gateCode s sector 1 = none) ∨
      (i = .writeBlock sector ∧ index = s.cfg.idxWr1 ∧ gateCode s sector 1 = none) ∨
      (i = .readMulti sector count ∧ index = s.cfg.idxRdm ∧ gateCode s sector count.toNat = none ∧ count ≠ 0) ∨
      (i = .writeMulti sector count ∧ index = s.cfg.idxWrm ∧ gateCode s sector count.toNat = none ∧ count ≠ 0)) :
    ∃ (d : Word) (dataPhase : Unit → State → Flow Unit),
      exec i s = .next ((startTransfer index sector { s with done := d }).andThen dataPhase).state := by
  rcases h with ⟨rfl, rfl, hgate⟩ | ⟨rfl, rfl, hgate⟩ | ⟨rfl, rfl, hgate, hcount⟩ | ⟨rfl, rfl, hgate, hcount⟩
  · exact ⟨s.done, _, by rw [exec_readBlock, readBlockRun_past_gate hgate]⟩
  · exact ⟨s.done, _, by rw [exec_writeBlock, writeBlockRun_past_gate hgate]⟩
  · exact ⟨0, _, by rw [exec_readMulti, readMultiRun_past_gate hgate hcount]; rfl⟩
  · exact ⟨0, _, by rw [exec_writeMulti, writeMultiRun_past_gate hgate hcount]; rfl⟩

/-- Settles O36: the command phase stops, so the data phase does not run. -/
theorem refusedCommandEndsTransfer : Obligations.RefusedCommandEndsTransfer := by
  unfold Obligations.RefusedCommandEndsTransfer
  intro s sector count index i l rest status hi hscript hanswer hstatus
  obtain ⟨d, dataPhase, hexec⟩ := transfer_begins hi
  obtain ⟨polls, port, hrefused, hused⟩ :=
    startTransfer_refused (s := { s with done := d }) index sector hscript hanswer hstatus
  rw [hrefused] at hexec
  exact ⟨_, polls, hexec, rfl, rfl, rfl, rfl, rfl, rfl, rfl, hused.after, hused.deselect⟩

end Sys2Proof.Machine
end

