-- ==== Sys2Proof/Proofs/SingleBlocks.lean ====
section
/-!
PROOF. `READ_BLOCK` and `WRITE_BLOCK` against a card that accepts the command (spec/43_transfer.md R161 to R171).
-/
namespace Sys2Proof.Machine

/-! ## `READ_BLOCK` -/

theorem BlockAnswer.payload_length {c : Config} {tok : Byte} {payload : List Byte} {crc : BitVec 16} {l : List Answer}
    (h : BlockAnswer c tok payload crc l) : payload.length = 512 := by
  obtain ⟨_, _, _, _, _, -, -, -, -, hlength, -⟩ := h
  exact hlength

/-- Settles O37: the block received after the accepted command, with the laws of the buffer. -/
theorem readBlockCompletes : Obligations.ReadBlockCompletes := by
  unfold Obligations.ReadBlockCompletes
  intro s sector command block rest payload crc hgate hwf hscript hcommand hblock
  rw [List.append_assoc] at hscript
  obtain ⟨polls, port, hused, hend⟩ := readBlock_accepted hgate hscript hcommand
  obtain ⟨port', hrecv, hused'⟩ := recvBlock_at (k := 0)
    (s := afterAccepted s.cfg.idxRd1 sector polls port s) hused.after hblock
  have hlength := hblock.payload_length
  have hslice : Memory.slice (Memory.writeAll s.buf (512 * 0) payload) 0 512 = payload := by
    rw [← hlength]
    exact Memory.slice_writeAll hwf
  exact ⟨_, polls, hend hrecv, rfl, rfl, rfl, rfl, rfl, rfl, rfl, rfl, hslice,
    fun a ha => Memory.read_writeAll_other (by omega), hused'.after, (hused.trans hused').deselect⟩

/-- Settles O38: the token wait runs out after the accepted command. -/
theorem readBlockTimesOut : Obligations.ReadBlockTimesOut := by
  unfold Obligations.ReadBlockTimesOut
  intro s sector command wait rest hgate hscript hcommand hwait
  rw [List.append_assoc] at hscript
  obtain ⟨polls, port, hused, hend⟩ := readBlock_accepted hgate hscript hcommand
  obtain ⟨port', hrecv, hused'⟩ := recvBlock_expired (k := 0)
    (s := afterAccepted s.cfg.idxRd1 sector polls port s) hused.after hwait
  exact ⟨_, hend hrecv, rfl, rfl, rfl, rfl, rfl, rfl, rfl, hused'.after⟩

/-! ## `WRITE_BLOCK` -/

variable {k : Nat} {tok : Byte} {s : State} {wait head busy rest : List Answer} {d : Answer}

/-- The ready wait runs out: no byte of the block is sent (R162). -/
theorem sendBlock_notReady (h : s.port.script = wait ++ rest)
    (hwait : Expires (fun r => r == Config.idleByte) s.cfg.tReady wait) :
    ∃ port, sendBlock k tok s = .go .timeout
        { s with t0 := s.port.tick, linkReady := false, lastTimeout := true, port := port } ∧
      Port.Used wait rest (idleOut wait.length) s.port port := by
  obtain ⟨port, hready, hused⟩ := waitReady_expired h hwait
  refine ⟨port, ?_, hused⟩
  unfold sendBlock
  rw [hready]
  rfl

/-- The block is accepted and the busy poll runs out (R162, R163). -/
theorem sendBlock_notProgrammed (h : s.port.script = wait ++ head ++ d :: busy ++ rest)
    (hwait : IdleAnswer s.cfg.tReady wait) (hhead : head.length = Config.blockLen + 3)
    (hok : dataResponse s.cfg d.rx = .ok) (hbusy : Expires (fun r => r == Config.idleByte) s.cfg.tProgram busy) :
    ∃ t0 crc port, sendBlock k tok s = .go .programTimeout
        { s with t0 := t0, linkReady := false, lastTimeout := true, crc16 := crc, port := port } ∧
      port.script = rest := by
  obtain ⟨p1, hready, hused1⟩ := waitReady_at (s := s) (l := wait) (rest := head ++ d :: (busy ++ rest))
    (by simpa using h) hwait
  obtain ⟨p2, hsent, hused2⟩ := sendData_at (k := k) (tok := tok)
    (s := { s with t0 := s.port.tick, linkReady := true, port := p1 }) hused1.after hhead
  revert hsent
  generalize crc16Of _ _ _ = crc
  intro hsent
  obtain ⟨p3, hpoll, hused3⟩ := busyPoll_expired (l := busy) (rest := rest)
    (s := { s with t0 := s.port.tick, linkReady := false, crc16 := crc, port := p2 }) hused2.after hbusy
  refine ⟨p2.tick, crc, p3, ?_, hused3.after⟩
  unfold sendBlock
  rw [hready]
  simp only [Flow.andThen, if_true]
  rw [hsent, hok, if_neg (by simp), hpoll]

/-- Settles O39: the block sent after the accepted command. -/
theorem writeBlockCompletes : Obligations.WriteBlockCompletes := by
  unfold Obligations.WriteBlockCompletes
  intro s sector command block rest response hgate hscript hcommand hblock
  rw [List.append_assoc] at hscript
  obtain ⟨polls, port, hused, hend⟩ := writeBlock_accepted hgate hscript hcommand
  obtain ⟨waits, busy, t0, port', hsent, hused'⟩ := sendBlock_at (k := 0) (tok := s.cfg.tokStart)
    (s := afterAccepted s.cfg.idxWr1 sector polls port s) hused.after hblock
  have hblock0 : Memory.slice (afterAccepted s.cfg.idxWr1 sector polls port s).buf (512 * 0) Config.blockLen =
    Memory.slice s.buf 0 512 := rfl
  rw [hblock0] at hsent hused'
  -- the payload as a variable: no check below unfolds its 512 bytes
  generalize Memory.slice s.buf 0 512 = payload at hsent hused' ⊢
  have hout := (hused.trans hused').deselect
  simp only [← List.append_assoc] at hout
  exact ⟨_, polls, waits, busy, hend hsent, rfl, rfl, rfl, rfl, rfl, rfl, rfl, rfl, hused'.after, hout⟩

/-- Settles O40: the two waits of a sent block, each running out after the accepted command. -/
theorem writeBlockTimesOut : Obligations.WriteBlockTimesOut := by
  unfold Obligations.WriteBlockTimesOut
  constructor
  · intro s sector command wait rest hgate hscript hcommand hwait
    rw [List.append_assoc] at hscript
    obtain ⟨polls, port, hused, hend⟩ := writeBlock_accepted hgate hscript hcommand
    obtain ⟨port', hsent, hused'⟩ := sendBlock_notReady (k := 0) (tok := s.cfg.tokStart)
      (s := afterAccepted s.cfg.idxWr1 sector polls port s) hused.after hwait
    exact ⟨_, polls, hend hsent, rfl, rfl, rfl, rfl, rfl, hused'.after, (hused.trans hused').deselect⟩
  · intro s sector command wait head busy rest d hgate hscript hcommand hwait hhead hok hbusy
    obtain ⟨polls, port, hused, hend⟩ := writeBlock_accepted (rest := wait ++ head ++ d :: busy ++ rest) hgate
      (by simpa using hscript) hcommand
    obtain ⟨t0, crc, port', hsent, hrest⟩ := sendBlock_notProgrammed (k := 0) (tok := s.cfg.tokStart)
      (s := afterAccepted s.cfg.idxWr1 sector polls port s) hused.after hwait hhead hok hbusy
    exact ⟨_, hend hsent, rfl, rfl, rfl, rfl, hrest⟩

end Sys2Proof.Machine
end

