-- ==== Sys2Proof/Proofs/MultiBlocks.lean ====
section
/-!
PROOF. `READ_MULTI` and `WRITE_MULTI` of at least one block against a card that accepts the command
(spec/43_transfer.md R172 to R179).
-/
namespace Sys2Proof.Machine

/-! ## `READ_MULTI` -/

/-- Settles O59: the block loop ends with the first failure or with none (`recvBlocks_stream`), and the stop command
follows in either case (`stopRead_stream`). -/
theorem readMultiReportsFirstFailure : Obligations.ReadMultiReportsFirstFailure := by
  unfold Obligations.ReadMultiReportsFirstFailure
  intro s sector count command blocks stop wait rest payloads bad blockCode stopCode idle hgate hwf hcount hscript
    hcommand hstream hstop
  obtain ⟨polls, port, hused, hend⟩ := readMulti_accepted (rest := blocks ++ (stop ++ wait ++ rest)) hgate hcount
    (by simpa using hscript) hcommand
  obtain ⟨t, hblocks, ht, hused', hbuf⟩ := recvBlocks_stream hstream (k := 0)
    (s := setCode .ok (afterAccepted s.cfg.idxRdm sector polls port (setDone 0 s))) rfl hused.after
  have hcfg : t.cfg = s.cfg := by rw [ht]; rfl
  have hsettle : t.settle = false := by rw [ht]; rfl
  have hdone : t.done = BitVec.ofNat 32 payloads.length := by rw [ht]; exact BitVec.zero_add _
  obtain ⟨polls', port', token, t0, hstopped, hused''⟩ := stopRead_stream (code := blockCode) hsettle hused'.after
    (by rw [hcfg]; exact hstop)
  rw [hcfg] at hstopped hused''
  obtain ⟨-, hgood, hmismatch, habove⟩ := hbuf hwf
  simp only [Nat.zero_add] at hgood hmismatch habove
  have hout := ((hused.trans hused').trans hused'').deselect
  simp only [← List.append_assoc] at hout
  exact ⟨_, polls, polls', hend hblocks hstopped, rfl, hdone, rfl, rfl, rfl, rfl, congrArg (builtFrame · _ _) hcfg, hgood,
    hmismatch, fun a ha => habove a (.inr ha), hused''.after, hout⟩

/-- Settles O41: the end of O59 for a stream without a failure and a stop command answered with an idle line. -/
theorem readMultiCompletes : Obligations.ReadMultiCompletes := by
  unfold Obligations.ReadMultiCompletes
  intro s sector count command blocks stop idle rest payloads status hgate hwf hcount hlength hscript hcommand hblocks
    hstop hidle
  obtain ⟨t, polls, polls', hexec, hresult, hdone, hbusy, hsel, hready, htimeout, hframe, hgood, -, habove, hrest, hout⟩ :=
    readMultiReportsFirstFailure s sector count command blocks stop idle rest payloads none .ok (classify status) true
      hgate hwf hcount hscript hcommand (.all hblocks hlength) (.idle hstop hidle)
  rw [hlength, BitVec.ofNat_toNat, BitVec.setWidth_eq] at hdone
  rw [hlength] at habove
  exact ⟨t, polls, polls', hexec, hresult, hdone, hbusy, hsel, hready, htimeout, hframe, hgood, habove, hrest, hout⟩

/-! ## `WRITE_MULTI` -/

/-- Settles O42: the blocks sent after the accepted command (`sendBlocks_at`), then the stop token. -/
theorem writeMultiCompletes : Obligations.WriteMultiCompletes := by
  unfold Obligations.WriteMultiCompletes
  intro s sector count command blocks stuff busy rest stop hgate hcount hscript hcommand hblocks hstuff hbusy
  obtain ⟨polls, port, hused, hend⟩ := writeMulti_accepted (rest := blocks ++ (stop :: stuff ++ busy ++ rest)) hgate
    hcount (by simpa using hscript) hcommand
  obtain ⟨t, os, hsent, ht, -, hos, hused'⟩ := sendBlocks_at hblocks (k := 0)
    (s := afterAccepted s.cfg.idxWrm sector polls port (setDone 0 s)) rfl hused.after
  have hcfg : t.cfg = s.cfg := by rw [ht]; rfl
  have hdone : t.done = count := by rw [ht]; simp
  obtain ⟨port', t0, hstopped, hused''⟩ := stopWrite_at hused'.after (by rw [hcfg]; exact hstuff)
    (by rw [hcfg]; exact hbusy)
  rw [hcfg, hstuff] at hused''
  have hout := ((hused.trans hused').trans hused'').deselect
  simp only [← List.append_assoc] at hout
  refine ⟨_, polls, os, hend hsent hstopped, rfl, hdone, rfl, rfl, rfl, ?_, ?_, ?_, hused''.after, hos, ?_⟩
  · show t.lastTimeout = false
    rw [ht]; rfl
  · show t.buf = s.buf
    rw [ht]; rfl
  · show t.frame = _
    rw [ht]; rfl
  · simpa using hout

end Sys2Proof.Machine
end

