-- ==== Sys2Proof/Proofs/SameData.lean ====
section
/-!
PROOF. The same data by either operation, and there and back (spec/43_transfer.md R180, R184): corollaries of how the
four operations complete.
-/
namespace Sys2Proof.Machine

/-- The `i`-th of the blocks sent, in its place on the bus (R176). -/
theorem SendsOut.block {c : Config} {tok : Byte} {buf : Memory} {k n i : Nat} {os : List BusOut}
    (h : SendsOut c tok buf k n os) (hi : i < n) :
    ∃ before after, os =
      before ++ blockOut c tok (Memory.slice buf (512 * (k + i)) Config.blockLen) ++ after := by
  induction h generalizing i with
  | nil => exact absurd hi (Nat.not_lt_zero i)
  | @cons k n waits polls os hmore ih =>
    cases i with
    | zero => exact ⟨idleOut waits, idleOut polls ++ os, by simp only [Nat.add_zero, List.append_assoc]⟩
    | succ i =>
      obtain ⟨before, after, hos⟩ := ih (Nat.lt_of_succ_lt_succ hi)
      refine ⟨idleOut waits ++ blockOut c tok (Memory.slice buf (512 * k) Config.blockLen) ++ idleOut polls ++ before,
        after, ?_⟩
      rw [hos, show k + 1 + i = k + (i + 1) by omega]
      simp only [List.append_assoc]

/-- What a sent block puts on the bus after its token (R70): the payload, its CRC-16, and the exchange of the data
response. -/
def blockTail (c : Config) (payload : List Byte) : List BusOut := (blockOut c c.tokStart payload).tail

/-- Whatever the token. -/
theorem blockOut_eq (c : Config) (tok : Byte) (payload : List Byte) :
    blockOut c tok payload = .tx tok :: blockTail c payload := rfl

theorem blockTail_length (c : Config) (payload : List Byte) : (blockTail c payload).length = payload.length + 3 := by
  simp [blockTail, blockOut, idleOut]

/-- Settles O44: the blocks `READ_MULTI` leaves are the payloads, as is block 0 after `READ_BLOCK`; what `WRITE_MULTI`
and `WRITE_BLOCK` send after the token depends on the payload alone. -/
theorem multiBlockEqualsSingleBlocks : Obligations.MultiBlockEqualsSingleBlocks := by
  unfold Obligations.MultiBlockEqualsSingleBlocks
  constructor
  · intro s sector count command blocks stop idle rest payloads status hgate hwf hcount hlength hscript hcommand hblocks
      hstop hok hidle
    obtain ⟨t, -, -, hexec, hresult, hdone, -, -, -, -, -, hgood, -⟩ := readMultiCompletes s sector count command blocks
      stop idle rest payloads status hgate hwf hcount hlength hscript hcommand hblocks hstop hidle
    refine ⟨t, hexec, hresult.trans hok, hdone, fun k hk u command' block' rest' hcfg hmode hgate' hwf' hscript'
      hcommand' hblock' => ?_⟩
    obtain ⟨v, -, hexec', hresult', -, -, -, -, -, -, -, hslice, -⟩ := readBlockCompletes u _ command' block' rest' _ _
      hgate' hwf' hscript' hcommand' hblock'
    exact ⟨v, hexec', hresult'.trans (if_pos rfl), hslice.trans (hgood k hk).symm⟩
  · intro s sector count command blocks stuff busy rest stop hgate hcount hscript hcommand hblocks hstuff hbusy
    obtain ⟨t, polls, os, hexec, hresult, hdone, -, -, -, -, -, -, -, hos, hout⟩ := writeMultiCompletes s sector count
      command blocks stuff busy rest stop hgate hcount hscript hcommand hblocks hstuff hbusy
    refine ⟨t, hexec, hresult, hdone, fun k u command' block' rest' d hk hcfg hgate' hdata hscript' hcommand' hblock'
      hok => ?_⟩
    obtain ⟨v, polls', waits, busy', hexec', hresult', -, -, -, -, -, -, -, -, hout'⟩ := writeBlockCompletes u _ command'
      block' rest' d hgate' hscript' hcommand' hblock'
    obtain ⟨before, after, hbefore⟩ := hos.block hk
    rw [Nat.zero_add, show Config.blockLen = 512 from rfl, blockOut_eq] at hbefore
    rw [hcfg, hdata, blockOut_eq] at hout'
    have hlength : (Memory.slice s.buf (512 * k) 512).length = 512 := Memory.slice_length ..
    generalize Memory.slice s.buf (512 * k) 512 = payload at hbefore hout' hlength ⊢
    refine ⟨v, commandHead s.cfg s.cfg.idxWrm (addrOf s.idAmode sector) true s.settle ++ idleOut polls ++ before,
      after ++ (.tx s.cfg.tokStop :: idleOut s.cfg.nStuffStopTok ++ idleOut busy.length ++ [.sel false]),
      commandHead s.cfg s.cfg.idxWr1 (addrOf u.idAmode (sector + BitVec.ofNat 32 k)) true u.settle ++ idleOut polls' ++
        idleOut waits, idleOut busy' ++ [.sel false], blockTail s.cfg payload, hexec', hresult'.trans hok,
      by rw [blockTail_length, hlength], rfl, ?_, ?_⟩
    · rw [hbefore] at hout
      simpa only [List.append_assoc, List.cons_append] using hout
    · rw [List.append_assoc _ (idleOut busy')] at hout'
      exact hout'

/-- The argument of a built frame (R60). -/
theorem builtFrame_arg (c : Config) (index : BitVec 6) (arg : Word) :
    (builtFrame c index arg).extractLsb' 8 32 = arg := by
  obtain ⟨-, -, -, harg, -⟩ := frameWord_fields index arg (crc7Of c.crc7Poly c.crc7Init (frameHead index arg))
  exact harg

/-- Settles O45: block 0 is what `WRITE_BLOCK` sends and what `READ_BLOCK` receives, and both frames carry the address
of the sector. -/
theorem writeThenReadReturnsTheData : Obligations.WriteThenReadReturnsTheData := by
  unfold Obligations.WriteThenReadReturnsTheData
  intro s sector command block rest response hgate hscript hcommand hblock hok
  obtain ⟨t, polls, waits, busy, hexec, hresult, -, -, -, -, hframe, -, -, -, hout⟩ := writeBlockCompletes s sector
    command block rest response hgate hscript hcommand hblock
  refine ⟨t, Memory.slice s.buf 0 512, polls, waits, busy, hexec, hresult.trans hok, Memory.slice_length .., hout,
    fun u command' block' rest' hcfg hmode hgate' hwf' hscript' hcommand' hblock' => ?_⟩
  obtain ⟨v, -, hexec', hresult', -, -, -, -, -, hframe', -, hslice, -⟩ := readBlockCompletes u sector command' block'
    rest' _ _ hgate' hwf' hscript' hcommand' hblock'
  refine ⟨v, hexec', hresult'.trans (if_pos rfl), hslice, ?_⟩
  rw [hframe, hframe', builtFrame_arg, builtFrame_arg, hmode]

end Sys2Proof.Machine
end

