-- ==== Sys2Proof/Proofs/TransferFlags.lean ====
section
/-!
PROOF. How a transfer past the gate ends whatever the card does (spec/43_transfer.md R174, R178, R183;
spec/60_exceptions.md R225): at once if it is of no block, and otherwise, on a tick source that goes on, by one of the
stops of its law that is no hang.
-/
namespace Sys2Proof.Machine

/-- On a tick source that goes on a transfer past the gate is over, with what its law says of its end. -/
theorem TransferStop.ended {P : State → Prop} {s t : State} (h : TransferStop P s t) (htail : s.port.tail = .free) :
    t.busy = false ∧ t.linkSel = false ∧ t.settle = false ∧ P t := by
  rcases h with ⟨hover, hP⟩ | ⟨_, -, hnotFree, -⟩
  · exact ⟨hover.busy, hover.deselected, hover.settled, hP⟩
  · exact absurd htail hnotFree

/-- Settles O46: the law of each operation, its hang ruled out by the free tail. -/
theorem transferEndsWithItsFlags : Obligations.TransferEndsWithItsFlags := by
  unfold Obligations.TransferEndsWithItsFlags
  intro s sector count htail
  exact ⟨fun hgate => ⟨_, exec_readBlock .., (readBlockRun_meets hgate).ended htail⟩,
    fun hgate => ⟨_, exec_writeBlock .., (writeBlockRun_meets hgate).ended htail⟩,
    fun hgate hcount => ⟨_, exec_writeMulti .., (writeMultiRun_meets hgate hcount).ended htail⟩,
    fun hgate hcount => ⟨_, exec_readMulti .., (readMultiRun_meets hgate hcount).ended htail⟩⟩

/-- Settles O43: an operation of no block past the gate is over at once. -/
theorem emptyMultiCompletes : Obligations.EmptyMultiCompletes := by
  unfold Obligations.EmptyMultiCompletes
  intro s sector hgate
  rw [exec_readMulti, exec_writeMulti, readMultiRun_zero hgate, writeMultiRun_zero hgate]
  exact ⟨rfl, rfl⟩

end Sys2Proof.Machine
end

