-- ==== Sys2Proof/Proofs/Queries.lean ====
section
/-!
PROOF. The status queries (spec/44_facade.md R200 to R203): what they answer, and what the invariant says of the answers.
-/
namespace Sys2Proof.Machine

variable {s : State}

/-! ## `READY` and `PRESENT` -/

theorem exec_ready (s : State) : exec .ready s = .next (complete .ok (setVal (boolVal (isReady s)) s)) := rfl
theorem exec_present (s : State) : exec .present s = .next (complete .ok (setVal (boolVal (isPresent s)) s)) := rfl

theorem isReady_iff (s : State) : isReady s = true ↔ s.idGen ≠ .unknown ∧ s.linkReady = true := by
  simp [isReady]

theorem isPresent_iff (s : State) :
    isPresent s = true ↔ s.idGen ≠ .unknown ∧ s.linkReady = true ∧ s.lastTimeout = false := by
  simp [isPresent, isReady_iff, and_assoc]

/-- A ready block has seen no timeout, so the two predicates are one (R203). -/
theorem State.Inv.isPresent_eq (hs : s.Inv) : isPresent s = isReady s := by
  have htime : s.linkReady = true → s.lastTimeout = false := by simpa using mt hs.timeoutNotReady
  rw [Bool.eq_iff_iff, isPresent_iff, isReady_iff]
  exact and_congr_right fun _ => and_iff_left_of_imp htime

/-- Settles O20: the values are the two predicates, which the invariant makes one. -/
theorem readyAndPresentComplete : Obligations.ReadyAndPresentComplete := by
  unfold Obligations.ReadyAndPresentComplete
  refine ⟨fun s => ?_, fun s => ?_, fun s hs => ?_⟩
  · simp only [exec_ready, boolVal_eq, isReady_iff, complete, setVal]
  · simp only [exec_present, boolVal_eq, isPresent_iff, complete, setVal]
  · rw [exec_present, exec_ready, hs.isPresent_eq]

/-! ## `CARD_TYPE` -/

theorem exec_cardType (s : State) :
    exec .cardType s = .next (complete .ok (setVal (cardTypeVal s.idGen s.idAmode s.idCap) s)) := rfl

/-- The fields of the value `CARD_TYPE` returns, and zeros elsewhere (R202): each is the lowest once those below it are
dropped. -/
theorem cardTypeVal_fields (gen : Gen) (mode : AddrMode) (cap : Word) :
    (cardTypeVal gen mode cap).extractLsb' 0 2 = gen.num ∧ (cardTypeVal gen mode cap).extractLsb' 2 1 = mode.num ∧
      (cardTypeVal gen mode cap).extractLsb' 3 5 = 0 ∧ (cardTypeVal gen mode cap).extractLsb' 8 32 = cap ∧
      (cardTypeVal gen mode cap).extractLsb' 40 8 = 0 := by
  simp (disch := decide) only [cardTypeVal, BitVec.extractLsb'_append_eq_of_le, Nat.reduceSub,
    BitVec.extractLsb'_append_eq_right, BitVec.extractLsb'_zero, BitVec.ofNat_eq_ofNat, and_self]

/-- Block mode is version 2's alone and the capacity hint is never set: five values are left (R202). -/
theorem State.Inv.cardTypeVal_mem (hs : s.Inv) :
    cardTypeVal s.idGen s.idAmode s.idCap ∈ [(0x0 : BitVec 48), 0x1, 0x2, 0x3, 0x7] := by
  rw [hs.noCapacity]
  cases hmode : s.idAmode with
  | byte => cases s.idGen <;> decide
  | block =>
    rw [hs.blockOnlySd2 hmode]
    decide

/-- An unknown identity has byte mode, so its value is 0 (R202). -/
theorem State.Inv.cardTypeVal_unknown (hs : s.Inv) (hgen : s.idGen = .unknown) :
    cardTypeVal s.idGen s.idAmode s.idCap = 0 := by
  rw [hs.noCapacity, hgen]
  cases hmode : s.idAmode with
  | byte => rfl
  | block => cases hgen.symm.trans (hs.blockOnlySd2 hmode)

/-- Settles O21: the fields of the returned value, and the five values the invariant leaves. -/
theorem cardTypeReturnsIdentity : Obligations.CardTypeReturnsIdentity := by
  unfold Obligations.CardTypeReturnsIdentity
  refine ⟨fun c a b => decodeReq_reqWord .., fun s => ⟨_, exec_cardType s, ?_⟩⟩
  obtain ⟨hgen, hmode, hlow, hcap, hhigh⟩ := cardTypeVal_fields s.idGen s.idAmode s.idCap
  exact ⟨hgen, hmode, hlow, hcap, hhigh, State.Inv.cardTypeVal_mem, State.Inv.cardTypeVal_unknown⟩

end Sys2Proof.Machine
end

