-- ==== Sys2Proof/Proofs/Gate.lean ====
section
/-!
PROOF. The gate of the transfer operations (spec/60_exceptions.md R221): its tests by the numbers of the identity, and
the operation a failing test ends.
-/
namespace Sys2Proof.Machine

/-- The one identity of number 0 is the unknown one (R21). -/
theorem Gen.num_eq_zero_iff (gen : Gen) : gen.num = 0 ↔ gen = .unknown := by
  cases gen <;> decide

/-- A sector is out of range exactly if the mode is the one of number 0, byte mode, and the sector is past its reach
(R22, R51). -/
theorem sectorInRange_eq_false_iff (mode : AddrMode) (sector : Word) :
    sectorInRange mode sector = false ↔ mode.num = 0 ∧ 2 ^ 23 ≤ sector.toNat := by
  cases mode with
  | byte => simp [sectorInRange, AddrMode.num]
  | block => simp [sectorInRange, AddrMode.num]

variable {s : State} {sector : Word} {count : Nat} {code : Code}

/-- What would follow the gate does not run when a test fails (R221). -/
theorem gate_stop_andThen (h : gateCode s sector count = some code) (k : Unit → State → Flow Unit) :
    (gate sector count s).andThen k = .stop (complete code s) := by
  rw [gate_stop h]
  rfl

/-! ## The four operations at a failing test -/

theorem readBlockRun_refused (h : gateCode s sector 1 = some code) :
    readBlockRun sector s = .stop (complete code s) := gate_stop_andThen h _

theorem writeBlockRun_refused (h : gateCode s sector 1 = some code) :
    writeBlockRun sector s = .stop (complete code s) := gate_stop_andThen h _

theorem readMultiRun_refused {count : Word} (h : gateCode s sector count.toNat = some code) :
    readMultiRun sector count s = .stop (complete code s) := gate_stop_andThen h _

theorem writeMultiRun_refused {count : Word} (h : gateCode s sector count.toNat = some code) :
    writeMultiRun sector count s = .stop (complete code s) := gate_stop_andThen h _

/-- Settles O33: the tests of `gateCode` by number, and each operation stopped at its gate. -/
theorem gateRefuses : Obligations.GateRefuses := by
  unfold Obligations.GateRefuses
  refine ⟨fun s sector count => ?_, fun s sector count code => ⟨fun hgate => ?_, fun hgate => ?_⟩⟩
  · simp only [gateCode, Gen.num_eq_zero_iff, sectorInRange_eq_false_iff, gt_iff_lt, ge_iff_le]
  · rw [exec_readBlock, exec_writeBlock, readBlockRun_refused hgate, writeBlockRun_refused hgate]
    exact ⟨rfl, rfl⟩
  · rw [exec_readMulti, exec_writeMulti, readMultiRun_refused hgate, writeMultiRun_refused hgate]
    exact ⟨rfl, rfl⟩

end Sys2Proof.Machine
end

