-- ==== Sys2Proof/Proofs/Reset.lean ====
section
/-!
PROOF. Hardware reset (spec/70_reset_and_hazards.md R240): the value of every element, and the one way out of an
operation that never ends (R258).
-/
namespace Sys2Proof.Machine

variable {s t : State} {a : HostAction}

/-! ## The reset values -/

theorem hostApply_reset (s : State) : hostApply .reset s = .next (hardReset s) := rfl

/-- The machine's own reset state is one that hardware reset leaves. -/
theorem hardReset_reset : hardReset State.reset = State.reset := rfl

/-- Settles O1: the elements of `State.resetWith`, one by one; `buf` has no byte listed. -/
theorem resetSetsEveryElement : Obligations.ResetSetsEveryElement := by
  unfold Obligations.ResetSetsEveryElement
  refine ⟨fun s => ⟨hardReset s, hostApply_reset s, ?_⟩, by rw [hostApply_reset, hardReset_reset]⟩
  simp [hardReset, State.resetWith, Memory.read]

/-- Settles O58: hardware reset meets the invariant from any state, so from the reset state, which it leaves. -/
theorem resetMeetsInvariant : Obligations.ResetMeetsInvariant := by
  unfold Obligations.ResetMeetsInvariant
  rw [← hardReset_reset]
  exact hardReset_inv State.reset

/-! ## The way out of an operation that never ends -/

/-- A move of the host other than reset leaves a busy block as it is but for the host's own side (R33, R38, R52). -/
theorem hostApply_busy (hbusy : s.busy = true) (ha : a ≠ .reset) (h : hostApply a s = .next t) :
    t = { s with host := t.host } := by
  cases a with
  | writeReq w =>
    rw [hostApply_writeReq, if_pos hbusy] at h
    cases h
    rfl
  | writeBuf addr b =>
    rcases Nat.lt_or_ge addr s.cfg.bufSize with hin | hout
    · rw [hostApply_writeBuf_inside b hin, if_pos hbusy] at h
      cases h
      rfl
    · rw [hostApply_writeBuf_outside b hout] at h
      cases h
  | readReg r =>
    cases h
    rfl
  | readBuf addr =>
    simp only [hostApply] at h
    split at h <;> cases h
    rfl
  | reset => exact absurd rfl ha

theorem hostTurn_nil (h : s.host.moves = []) : hostTurn s = .next s := by simp [hostTurn, h]

theorem hostTurn_cons {m : HostMove} {rest : List HostMove} (h : s.host.moves = m :: rest) :
    hostTurn s = hostApply m.act (s.afterMove rest) := by simp [hostTurn, h, State.afterMove]

/-- An operation that never ends lets only the host move (R258). -/
theorem step_stalled (h : s.stalled = true) : step s = hostTurn s := if_pos h

/-- Settles O56: the step is the host's move, the invariant holds `busy`, and a busy block heeds only reset. -/
theorem hungOperationEndsOnlyByReset : Obligations.HungOperationEndsOnlyByReset := by
  unfold Obligations.HungOperationEndsOnlyByReset
  intro s t hs hstalled hstep
  have hbusy := hs.stalledBusy hstalled
  rw [step_stalled hstalled] at hstep
  cases hmoves : s.host.moves with
  | nil =>
    rw [hostTurn_nil hmoves] at hstep
    cases hstep
    exact .inl ⟨hstalled, hbusy, rfl, rfl, rfl, rfl⟩
  | cons m rest =>
    rw [hostTurn_cons hmoves] at hstep
    by_cases hreset : m.act = .reset
    · rw [hreset, hostApply_reset] at hstep
      cases hstep
      exact .inr ⟨m, rest, rfl, hreset, rfl, rfl, rfl, rfl⟩
    · have hkept := hostApply_busy (s := s.afterMove rest) hbusy hreset hstep
      rw [hkept]
      exact .inl ⟨hstalled, hbusy, rfl, rfl, rfl, rfl⟩

end Sys2Proof.Machine
end

