-- ==== Sys2Proof/Proofs/ClockTiers.lean ====
section
/-!
PROOF. The clock tier each exchange is made on (spec/70_reset_and_hazards.md R255; spec/10_state.md R25): an exchange
records `link.clk`, which only `INIT` writes, at its start and, after its last exchange, at `Commit`.
-/
namespace Sys2Proof.Machine

variable {i : Instr} {s t u : State} {clk : ClkTier} {evs evs' : List BusEvent}

/-! ## Stretches of one tier -/

theorem AtTier.nil (clk : ClkTier) : AtTier clk [] := nofun

theorem AtTier.append (h : AtTier clk evs) (h' : AtTier clk evs') : AtTier clk (evs ++ evs') :=
  fun sel tier tx rx hmem => (List.mem_append.1 hmem).elim (h sel tier tx rx) (h' sel tier tx rx)

/-- From `s` to `t` every exchange was made on the tier of `s`, which is still that of `t`. -/
structure TierKept (s t : State) : Prop where
  clk : t.linkClk = s.linkClk
  hist : ∃ evs, t.port.hist = evs ++ s.port.hist ∧ AtTier s.linkClk evs

theorem TierKept.trans (h : TierKept s t) (h' : TierKept t u) : TierKept s u := by
  obtain ⟨hclk, evs, hhist, htier⟩ := h
  obtain ⟨hclk', evs', hhist', htier'⟩ := h'
  rw [hclk] at htier'
  exact ⟨hclk'.trans hclk, evs' ++ evs, by rw [hhist', hhist, List.append_assoc], htier'.append htier⟩

/-- An update of neither the port nor `link.clk`. -/
theorem TierKept.of_quiet (hport : t.port = s.port) (hclk : t.linkClk = s.linkClk) : TierKept s t :=
  ⟨hclk, [], by rw [hport]; rfl, .nil _⟩

/-- One port call. -/
theorem TierKept.of_event {ev : BusEvent} (hhist : t.port.hist = ev :: s.port.hist) (hclk : t.linkClk = s.linkClk)
    (htier : AtTier s.linkClk [ev]) : TierKept s t := ⟨hclk, [ev], hhist, htier⟩

theorem xchg_tierKept (tx : Byte) (s : State) : TierKept s (xchg tx s).2 :=
  .of_event rfl rfl fun _ _ _ _ hmem => by
    cases List.mem_singleton.1 hmem
    rfl

theorem select_tierKept (on : Bool) (s : State) : TierKept s (select on s) :=
  .of_event rfl rfl fun _ _ _ _ hmem => by cases List.mem_singleton.1 hmem

/-! ## The operations -/

theorem tierKept_command : CommandRel TierKept where
  refl _ := .of_quiet rfl rfl
  trans := .trans
  xchg := xchg_tierKept
  select := select_tierKept
  settled _ := .of_quiet rfl rfl
  busyLine _ := .of_quiet rfl rfl
  idleLine _ := .of_quiet rfl rfl
  timedOut _ := .of_quiet rfl rfl
  answered _ := .of_quiet rfl rfl
  build _ _ _ := .of_quiet rfl rfl
  count _ _ := .of_quiet rfl rfl
  token _ _ := .of_quiet rfl rfl

theorem tierKept_init : InitRel TierKept :=
  .of_command tierKept_command (fun _ _ _ => .of_quiet rfl rfl) (fun _ _ => .of_quiet rfl rfl)
    (fun _ _ => .of_quiet rfl rfl) (fun _ _ => .of_quiet rfl rfl) (fun _ => .of_quiet rfl rfl)
    fun _ _ => .of_quiet rfl rfl

theorem tierKept_instr (i : Instr) : InstrRel i TierKept where
  refl _ := .of_quiet rfl rfl
  trans := .trans
  complete _ _ := .of_quiet rfl rfl
  code _ _ := .of_quiet rfl rfl
  timer _ _ := .of_quiet rfl rfl
  hang _ := .of_quiet rfl rfl
  block _ _ := .of_quiet rfl rfl
  crc7 _ _ := .of_quiet rfl rfl
  build _ _ _ := .of_quiet rfl rfl
  command _ := tierKept_command
  val _ _ _ := .of_quiet rfl rfl
  crc16 _ _ _ := .of_quiet rfl rfl
  done _ _ _ := .of_quiet rfl rfl
  store _ _ _ _ := .of_quiet rfl rfl

/-- `Commit` changes the tier and then only deselects: it makes no exchange (R147). -/
theorem commit_hist (s : State) : (commit s).port.hist = .sel false :: s.port.hist := rfl

/-- `INIT` takes the slow tier before its first exchange (R131) and leaves it after the last. -/
theorem initRun_slow (s : State) :
    ∃ evs, (initRun s).state.port.hist = evs ++ s.port.hist ∧ AtTier .slow evs := by
  have hpower : TierKept (initStart s) (powerUp (initStart s)) := powerUp_rel tierKept_command _
  rcases initRun_cases tierKept_init s with hkept | ⟨u, hkept, hcommit⟩
  · exact (hpower.trans hkept).hist
  · have hbefore : TierKept (initStart s) u := hpower.trans hkept
    obtain ⟨evs, hhist, htier⟩ := hbefore.hist
    refine ⟨.sel false :: evs, ?_, ?_⟩
    · rw [hcommit, commit_hist, hhist]
      rfl
    · exact AtTier.append (evs := [.sel false]) (fun _ _ _ _ hmem => by cases List.mem_singleton.1 hmem) htier

/-- An unresolved block refuses a transfer with no port call (R221). -/
theorem transfer_unresolved {sector count : Word}
    (hi : i = .readBlock sector ∨ i = .writeBlock sector ∨ i = .readMulti sector count ∨ i = .writeMulti sector count)
    (hgen : s.idGen = .unknown) : exec i s = .next (complete .notReady s) := by
  have hgate : ∀ n, gateCode s sector n = some .notReady := fun n => if_pos hgen
  rcases hi with rfl | rfl | rfl | rfl
  · rw [exec_readBlock, readBlockRun_refused (hgate 1)]
    rfl
  · rw [exec_writeBlock, writeBlockRun_refused (hgate 1)]
    rfl
  · rw [exec_readMulti, readMultiRun_refused (hgate _)]
    rfl
  · rw [exec_writeMulti, writeMultiRun_refused (hgate _)]
    rfl

/-- A block with a resolved identity is on the fast tier (R151). -/
theorem State.Inv.fast_of_resolved (hs : s.Inv) (hgen : s.idGen ≠ .unknown) : s.linkClk = .fast :=
  hs.fastIffReady.2 (hs.resolvedIffReady.1 hgen)

/-- Settles O54: an instruction other than `INIT` keeps the tier it found; for a transfer that makes an exchange the
invariant says which that is. -/
theorem clockTierOfExchanges : Obligations.ClockTierOfExchanges := by
  unfold Obligations.ClockTierOfExchanges
  refine ⟨fun s t hexec => ?_, fun sector count i s t hs hi hexec => ?_, fun index arg ext keep s t hexec => ?_⟩
  · cases hexec
    exact initRun_slow s
  · by_cases hgen : s.idGen = .unknown
    · rw [transfer_unresolved hi hgen] at hexec
      cases hexec
      exact ⟨[], rfl, .nil _⟩
    · have hinit : i ≠ .init := by rcases hi with rfl | rfl | rfl | rfl <;> nofun
      rw [← hs.fast_of_resolved hgen]
      exact (exec_rel (tierKept_instr i) hinit hexec).hist
  · exact (exec_rel (tierKept_instr (.sendCommand index arg ext keep)) nofun hexec).hist

end Sys2Proof.Machine
end

