-- ==== Sys2Proof/Proofs/TickStalls.lean ====
section
/-!
PROOF. Operations on a tick source that stands still (spec/70_reset_and_hazards.md R258): the token wait, the ready wait
and the polling of `INIT` never end when what they wait for does not come.
-/
namespace Sys2Proof.Machine

variable {s : State} {sector : Word} {k : Nat} {tok : Byte}

theorem Flow.andThen_stop {α β : Type} {f : Flow α} {t : State} (h : f = .stop t) (k : α → State → Flow β) :
    f.andThen k = .stop t := by
  rw [h]
  rfl

/-! ## The waits of a transfer -/

/-- The token wait never ends: nothing is stored (R161). -/
theorem recvBlock_stalls (htail : s.port.tail = .stalled) (hmiss : ∀ a ∈ s.port.script, a.rx ≠ tok)
    (hticks : ticksOf s.port.script < s.cfg.tToken) :
    ∃ u, recvBlock k tok s = .stop (hang u) ∧ u.buf = s.buf := by
  obtain ⟨_, _, hwait, -⟩ :=
    waitFor_stalls (hit := fun r => r == tok) htail (fun a ha => beq_false_of_ne (hmiss a ha)) hticks
  exact ⟨_, Flow.andThen_stop hwait _, rfl⟩

/-- The ready wait never ends: no byte of the block is sent (R162, R181). -/
theorem sendBlock_stalls (htail : s.port.tail = .stalled) (hmiss : ∀ a ∈ s.port.script, a.rx ≠ Config.idleByte)
    (hticks : ticksOf s.port.script < s.cfg.tReady) :
    ∃ u, sendBlock k tok s = .stop (hang u) := by
  obtain ⟨_, _, hwait, -⟩ :=
    waitFor_stalls (hit := fun r => r == Config.idleByte) htail (fun a ha => beq_false_of_ne (hmiss a ha)) hticks
  exact ⟨_, Flow.andThen_stop (Flow.andThen_stop hwait _) _⟩

variable {command rest : List Answer}

/-- `READ_BLOCK`, its command accepted, hangs in its token wait. -/
theorem readBlock_stalls (hgate : gateCode s sector 1 = none) (hscript : s.port.script = command ++ rest)
    (htail : s.port.tail = .stalled) (hanswer : CommandAnswer s.cfg s.cfg.idxRd1 true false 0 0 command)
    (hmiss : ∀ a ∈ rest, a.rx ≠ s.cfg.tokStart) (hticks : ticksOf rest < s.cfg.tToken) :
    ∃ u, exec (.readBlock sector) s = .next (hang u) ∧ u.buf = s.buf := by
  obtain ⟨polls, port, hused, hdata⟩ := startTransfer_accepted sector hscript hanswer _
  have hrest : (afterAccepted s.cfg.idxRd1 sector polls port s).port.script = rest := hused.after
  obtain ⟨u, hrecv, hbuf⟩ := recvBlock_stalls (k := 0) (tok := s.cfg.tokStart)
    (s := afterAccepted s.cfg.idxRd1 sector polls port s) (hused.tail.trans htail) (by rwa [hrest]) (by rwa [hrest])
  refine ⟨u, ?_, hbuf⟩
  rw [exec_readBlock, readBlockRun_past_gate hgate, hdata, afterAccepted_cfg, Flow.andThen_stop hrecv]
  rfl

/-- `WRITE_BLOCK`, its command accepted, hangs in its ready wait. -/
theorem writeBlock_stalls (hgate : gateCode s sector 1 = none) (hscript : s.port.script = command ++ rest)
    (htail : s.port.tail = .stalled) (hanswer : CommandAnswer s.cfg s.cfg.idxWr1 true false 0 0 command)
    (hmiss : ∀ a ∈ rest, a.rx ≠ Config.idleByte) (hticks : ticksOf rest < s.cfg.tReady) :
    ∃ u, exec (.writeBlock sector) s = .next (hang u) := by
  obtain ⟨polls, port, hused, hdata⟩ := startTransfer_accepted sector hscript hanswer _
  have hrest : (afterAccepted s.cfg.idxWr1 sector polls port s).port.script = rest := hused.after
  obtain ⟨u, hsend⟩ := sendBlock_stalls (k := 0) (tok := s.cfg.tokStart)
    (s := afterAccepted s.cfg.idxWr1 sector polls port s) (hused.tail.trans htail) (by rwa [hrest]) (by rwa [hrest])
  refine ⟨u, ?_⟩
  rw [exec_writeBlock, writeBlockRun_past_gate hgate, hdata, afterAccepted_cfg, Flow.andThen_stop hsend]
  rfl

/-! ## `INIT` -/

/-- `INIT` at an identified card that stays idle hangs in its polling, its identity unresolved (R138, R140, R144). -/
theorem init_stalls {g g' : Gen} {clocks ident rounds : List Answer} (hscript : s.port.script = clocks ++ ident ++ rounds)
    (htail : s.port.tail = .stalled) (hclocks : clocks.length = s.cfg.nPowerupBytes) (hident : Identified s.cfg g ident)
    (hrounds : IdleRounds s.cfg g g' rounds) (hbudget : ticksOf rounds < s.cfg.tInit) :
    ∃ u, exec .init s = .next (hang u) ∧ Answered s.cfg s.stalled u ∧
      u.fsm = if g = .sd2 then .voltageCheck else .opCondPoll := by
  rw [List.append_assoc] at hscript
  obtain ⟨hmid, hpower, hkept, -⟩ := powerUp_at hscript hclocks
  obtain ⟨t1, t2, h1, h2, hpolling⟩ := identified_at hmid hpower hident
  obtain ⟨u, hpoll, hanswered, hfsm⟩ := pollOpCond_stalls hrounds hbudget hpolling (hkept.trans htail)
  have hrun : initRun s = .stop (hang u) := by
    rw [initRun_identified h1 h2, Flow.andThen_stop hpoll]
  exact ⟨u, congrArg (Host.Outcome.next ∘ Flow.state) hrun, hanswered, hfsm.trans hpolling.fsm⟩

/-- Settles O55: each of the three operations comes to `hang`, which sets `busy` and the mark. -/
theorem tickStallNeverEnds : Obligations.TickStallNeverEnds := by
  unfold Obligations.TickStallNeverEnds
  refine ⟨?_, ?_, ?_⟩
  · intro s sector command rest hgate hscript htail hanswer hmiss hticks
    obtain ⟨u, hexec, hbuf⟩ := readBlock_stalls hgate hscript htail hanswer hmiss hticks
    exact ⟨hang u, hexec, rfl, rfl, hbuf⟩
  · intro s sector command rest hgate hscript htail hanswer hmiss hticks
    obtain ⟨u, hexec⟩ := writeBlock_stalls hgate hscript htail hanswer hmiss hticks
    exact ⟨hang u, hexec, rfl, rfl⟩
  · intro s g g' clocks ident rounds hscript htail hclocks hident hrounds hbudget
    obtain ⟨u, hexec, hanswered, hfsm⟩ := init_stalls hscript htail hclocks hident hrounds hbudget
    exact ⟨hang u, hexec, rfl, rfl, hanswered.unresolved, hanswered.clk, hfsm⟩

end Sys2Proof.Machine
end
